-- ==== Sys2Proof/Word.lean ====
section
/-! DEFINITION. The bit vectors of RINGCTL (spec/00_scope.md R6, R14): unsigned, bit 0 the least significant.
Only what the spec treats as bits is a bit vector; indices, counts and sizes are Nat. -/

namespace Sys2Proof

/-- One byte of `Mem`, of a descriptor or of a packet. -/
abbrev Byte := BitVec 8

/-- A 16-bit descriptor field (R121, R122). -/
abbrev Half := BitVec 16

/-- A 32-bit register value, register byte offset or command word (R6 `REG_BITS`, R129). -/
abbrev Word := BitVec 32

/-- A 64-bit physical address or 8-byte memory value (R6 `PA_BITS`). -/
abbrev Addr := BitVec 64

/-- The 128-bit image of a descriptor (R14, R90). -/
abbrev Image := BitVec 128

end Sys2Proof
end

