-- ==== Sys2Proof/Config.lean ====
section
/-! DEFINITION. What one RINGCTL fixes (the record `Cfg` of spec/00_scope.md R6 to R13) and the free values.
`Cfg` is a parameter of the step relation (spec/10_state.md R75); the state carries it as a field that no step
writes, so that every statement holds for every configuration. -/

namespace Sys2Proof

/-- The configuration record of R7 to R13. The byte offsets `off…` are R11's, the masks and literals R12's. -/
structure Cfg where
  /-- `CAP`, the slots of each ring (R7). -/
  cap        : Nat
  /-- `BUF_SIZE`, the bytes of each packet buffer (R8). -/
  bufSize    : Nat
  /-- `PAGE_SIZE`, the allocator's page (R9). -/
  pageSize   : Nat
  /-- `REG_COUNT`, the 32-bit registers of the window (R10). -/
  regCount   : Nat
  /-- `RX_BATCH_MAX`, the most descriptors one RECEIVE consumes (R13). -/
  rxBatchMax : Nat
  offCtl    : Word
  offStatus : Word
  offIcr    : Word
  offItr    : Word
  offIcs    : Word
  offIms    : Word
  offImc    : Word
  offRctl   : Word
  offTctl   : Word
  offTipg   : Word
  offRdbal  : Word
  offRdbah  : Word
  offRdlen  : Word
  offRdh    : Word
  offRdt    : Word
  offRdtr   : Word
  offRadv   : Word
  offTdbal  : Word
  offTdbah  : Word
  offTdlen  : Word
  offTdh    : Word
  offTdt    : Word
  offTidv   : Word
  offTadv   : Word
  /-- `OFF_MTA`; entry `k` is at `OFF_MTA + 4*k`, `k = 0 .. 127`. -/
  offMta    : Word
  staDd     : Byte
  cmdEop    : Byte
  cmdRs     : Byte
  ctlRst    : Word
  tctlInit  : Word
  tipgInit  : Word
  rctlInit  : Word
  tctlEn    : Word
  rctlEn    : Word
  /-- The bits of `RCTL` that select the MAC's receive buffer size (R12, R126: `BSIZE` and `BSEX`). -/
  rctlBsize : Word
  /-- The selections whose size in bytes is known, as values of those bits (R8, R12, R55), log entry 29. -/
  rctlSizes : List (Word × Nat)
  imsRx     : Word
  /-- `IRQ_TIMING_REGS`, the offsets init step 7 writes 0 to, in order. -/
  irqTimingRegs : List Word
  irqOffReg : Word
  irqOffVal : Word
  /-- The TX cause bits MAC.TX may raise any subset of (R264). -/
  txCauses  : Word
  /-- The RX cause bits MAC.RX may raise any subset of beside `IMS_RX` (R266). -/
  rxCauses  : Word
deriving DecidableEq, Repr

/-- The defaults of R7 to R13. The two cause sets are PRESUMED (the bit names of R126), log entry 12. -/
def Cfg.default : Cfg where
  cap := 256
  bufSize := 2048
  pageSize := 4096
  regCount := 0x8000
  rxBatchMax := 256
  offCtl := 0x0000
  offStatus := 0x0008
  offIcr := 0x00C0
  offItr := 0x00C4
  offIcs := 0x00C8
  offIms := 0x00D0
  offImc := 0x00D8
  offRctl := 0x0100
  offTctl := 0x0400
  offTipg := 0x0410
  offRdbal := 0x2800
  offRdbah := 0x2804
  offRdlen := 0x2808
  offRdh := 0x2810
  offRdt := 0x2818
  offRdtr := 0x2820
  offRadv := 0x282C
  offTdbal := 0x3800
  offTdbah := 0x3804
  offTdlen := 0x3808
  offTdh := 0x3810
  offTdt := 0x3818
  offTidv := 0x3820
  offTadv := 0x382C
  offMta := 0x5200
  staDd := 0x01
  cmdEop := 0x01
  cmdRs := 0x08
  ctlRst := 0x04000000
  tctlInit := 0x0004010A
  tipgInit := 0x0060200A
  rctlInit := 0x04008002
  tctlEn := 0x00000002
  rctlEn := 0x00000002
  rctlBsize := 0x02030000
  rctlSizes := [(0x00000000, 2048)]
  imsRx := 0x00000080
  irqTimingRegs := [0x3820, 0x382C, 0x2820, 0x282C, 0x00C4]
  irqOffReg := 0x00D8
  irqOffVal := 0xFFFFFFFF
  txCauses := 0x00000003
  rxCauses := 0x000000D8

/-- The byte offsets of the named registers other than `MTA` (R11), in the order of `Cfg`'s fields. -/
def Cfg.offsets (c : Cfg) : List Word :=
  [c.offCtl, c.offStatus, c.offIcr, c.offItr, c.offIcs, c.offIms, c.offImc, c.offRctl, c.offTctl, c.offTipg,
   c.offRdbal, c.offRdbah, c.offRdlen, c.offRdh, c.offRdt, c.offRdtr, c.offRadv,
   c.offTdbal, c.offTdbah, c.offTdlen, c.offTdh, c.offTdt, c.offTidv, c.offTadv]

/-- Some register of the multicast table is at offset `o`. -/
def Cfg.inMta (c : Cfg) (o : Word) : Bool :=
  decide (c.offMta.toNat ≤ o.toNat ∧ o.toNat < c.offMta.toNat + 512)

/-- The constraints R7 to R12 put on the parameters themselves, among them that `RCTL_INIT` selects `BUF_SIZE` (R8).
The two that CONSTRUCT checks (R206: `CAP` a power of two, `CAP * 16` a multiple of 128) are not: a `Cfg` that breaks
one is refused by `ConfigError`, at run time. -/
def Cfg.valid (c : Cfg) : Bool :=
  decide (c.rctlSizes.lookup (c.rctlInit &&& c.rctlBsize) = some c.bufSize) &&
  decide (c.cap ≤ 65536) &&
  decide (64 ≤ c.bufSize ∧ c.bufSize ≤ 65535) &&
  decide (0 < c.pageSize ∧ c.pageSize % 16 = 0) &&
  c.offsets.all (fun o => decide (o.toNat % 4 = 0 ∧ o.toNat / 4 < c.regCount) && !c.inMta o) &&
  decide (c.offMta.toNat % 4 = 0 ∧ (c.offMta.toNat + 508) / 4 < c.regCount ∧ c.offMta.toNat + 512 ≤ 2 ^ 32) &&
  decide c.offsets.Nodup &&
  decide (c.staDd ≠ 0 ∧ c.cmdEop ≠ 0 ∧ c.cmdRs ≠ 0 ∧ c.cmdEop ≠ c.cmdRs) &&
  decide (c.tctlInit &&& c.tctlEn ≠ 0 ∧ c.rctlInit &&& c.rctlEn ≠ 0) &&
  c.irqTimingRegs.all (fun o => c.offsets.contains o) &&
  c.offsets.contains c.irqOffReg

/-- The `n`-th free value (DESIGN CHOICE, log entry 2): a draw of the spec's "any value". It has no body, so
nothing can be proved of what it is; a statement about a run holds whatever the draws are. -/
opaque Config.draw (n : Nat) : Addr

/-- The `n`-th free byte sequence: what an unspecified `pkt_in` holds (log entry 2). -/
opaque Config.drawBytes (n : Nat) : List Byte

/-- The receive buffer size an `RCTL` selection `v` outside `Cfg.rctlSizes` gives: the spec names none (log entry 29).
-/
opaque Config.rctlSize (v : Word) : Nat

end Sys2Proof
end

