-- ==== Sys2Proof/Syntax.lean ====
section
/-! DEFINITION. The operations of spec/opcode_table.json, one constructor per row: the seven host commands
(spec/30_encoding.md R130) and the two descriptor layouts, which are the words the MAC fetches and executes
(R112: "the words that tell it what to do"). -/

namespace Sys2Proof

/-- The transmit descriptor record `TxDesc` (spec/41_descriptor_codec.md R160). -/
structure TxDesc where
  bufferAddress  : Addr
  length         : Half
  checksumOffset : Byte
  command        : Byte
  status         : Byte
  checksumStart  : Byte
  special        : Half
deriving DecidableEq, Repr

/-- The receive descriptor record `RxDesc` (R160). -/
structure RxDesc where
  bufferAddress : Addr
  length        : Half
  checksum      : Half
  status        : Byte
  errors        : Byte
  special       : Half
deriving DecidableEq, Repr

/-- One constructor per row of the opcode table. -/
inductive Instr where
  /-- `0x01`: allocate, reset the MAC, run the eight-step init (R200). -/
  | construct
  /-- `0x02`: queue one packet, `arg0` bytes of `pkt_in` (R230). -/
  | transmit
  /-- `0x03`: deliver the packets of the ready RX slots (R240). -/
  | receive
  /-- `0x04`: read and clear the interrupt causes (R250). -/
  | serviceIrq
  /-- `0x05`: unmask the interrupt classes of `arg0` (R252). -/
  | irqEnable
  /-- `0x06`: mask interrupts (R253). -/
  | irqDisable
  /-- `0x07`: free what CONSTRUCT allocated (R220). -/
  | teardown
  /-- A transmit descriptor, executed by the MAC's transmit-consume step (R161, R264). -/
  | txd (d : TxDesc)
  /-- A receive descriptor, executed by the MAC's receive-fill step (R165, R266). -/
  | rxd (d : RxDesc)
deriving DecidableEq, Repr

end Sys2Proof
end

