-- ==== Sys2Proof/WellFormed.lean ====
section
/-! DEFINITION. Which terms of `Instr` are encodings the opcode table gives (spec/opcode_table.json). The seven
command words have no operand field. A transmit descriptor is of the row `TXD`'s form when its `command` has
`CMD_EOP` set and no bit outside `CMD_RS | CMD_EOP` (the row's match and mask, R133, R264); every receive
descriptor is of the row `RXD`'s form (mask 0, R132). -/

namespace Sys2Proof

/-- The `command` byte is one the MAC takes, under the masks of `c`. -/
def TxDesc.formOk (c : Cfg) (d : TxDesc) : Bool :=
  (d.command &&& ~~~(c.cmdRs ||| c.cmdEop)) == 0 && (d.command &&& c.cmdEop) != 0

/-- The term is of its opcode-table row's form (the table is written with the default masks). -/
def Instr.wf (i : Instr) : Bool :=
  match i with
  | .construct => true
  | .transmit => true
  | .receive => true
  | .serviceIrq => true
  | .irqEnable => true
  | .irqDisable => true
  | .teardown => true
  | .txd d => d.formOk Cfg.default
  | .rxd _ => true

end Sys2Proof
end

