-- ==== Sys2Proof/Decode.lean ====
section
/-! DEFINITION. Byte order, the descriptor codec and the opcode map (spec/30_encoding.md, spec/41_descriptor_codec.md):
a total decoder that rejects by name, and the encoder written from the same tables. -/

namespace Sys2Proof

/-! ### Byte order (R84, R90) -/

/-- Byte `j` of a little-endian value: bits `[8j+7:8j]`. -/
def byteOf {w : Nat} (v : BitVec w) (j : Nat) : Byte := v.extractLsb' (8 * j) 8

/-- The `n` bytes of a value, ascending address. -/
def bytesOf {w : Nat} (n : Nat) (v : BitVec w) : List Byte := (List.range n).map (byteOf v)

/-- The little-endian value of bytes in ascending address order. -/
def ofBytes (w : Nat) : List Byte → BitVec w
  | [] => 0
  | b :: bs => b.setWidth w ||| (ofBytes w bs <<< 8)

/-! ### Descriptor codec (R121, R122, R161 to R166) -/

/-- `EncodeTxd` (R161), most significant field first. -/
def encodeTxd (d : TxDesc) : Image :=
  d.special ++ d.checksumStart ++ d.status ++ d.command ++ d.checksumOffset ++ d.length ++ d.bufferAddress

/-- `DecodeTxd` (R162): the slices of R121. -/
def decodeTxd (D : Image) : TxDesc where
  bufferAddress := D.extractLsb' 0 64
  length := D.extractLsb' 64 16
  checksumOffset := D.extractLsb' 80 8
  command := D.extractLsb' 88 8
  status := D.extractLsb' 96 8
  checksumStart := D.extractLsb' 104 8
  special := D.extractLsb' 112 16

/-- `EncodeRxd` (R165), most significant field first. -/
def encodeRxd (d : RxDesc) : Image :=
  d.special ++ d.errors ++ d.status ++ d.checksum ++ d.length ++ d.bufferAddress

/-- `DecodeRxd` (R166): the slices of R122. -/
def decodeRxd (D : Image) : RxDesc where
  bufferAddress := D.extractLsb' 0 64
  length := D.extractLsb' 64 16
  checksum := D.extractLsb' 80 16
  status := D.extractLsb' 96 8
  errors := D.extractLsb' 104 8
  special := D.extractLsb' 112 16

/-! ### The opcode map (R129, R130, R132) -/

/-- An encoded word with its format (R120); where a word is fetched from says which format it has: the command
port holds a `CMDW`, the TX ring a `TXD`, the RX ring an `RXD`. -/
inductive Encoded where
  | cmdw (w : Word)
  | txd (D : Image)
  | rxd (D : Image)
deriving DecidableEq, Repr

/-- Why a word is no instruction (R132). -/
inductive DecodeError where
  /-- `CMDW[31:8]` is not zero. -/
  | reservedBits
  /-- The opcode is `0x00` or `0x08` to `0xFF`. -/
  | opcode
deriving DecidableEq, Repr

/-- What the decoder answers. -/
inductive Decoded where
  | instr (i : Instr)
  | rejected (e : DecodeError)
deriving DecidableEq, Repr

/-- The opcode map of R130 on `CMDW[7:0]`. -/
def decodeOpcode (op : Byte) : Decoded :=
  if op = 0x01 then .instr .construct
  else if op = 0x02 then .instr .transmit
  else if op = 0x03 then .instr .receive
  else if op = 0x04 then .instr .serviceIrq
  else if op = 0x05 then .instr .irqEnable
  else if op = 0x06 then .instr .irqDisable
  else if op = 0x07 then .instr .teardown
  else .rejected .opcode

/-- A host command word (R129): the opcode in bits 7:0, bits 31:8 zero. -/
def decodeCommand (w : Word) : Decoded :=
  if w.extractLsb' 8 24 = 0 then decodeOpcode (w.extractLsb' 0 8) else .rejected .reservedBits

/-- The decoder: total, and total without rejection on both descriptor layouts (R132). -/
def decode (e : Encoded) : Decoded :=
  match e with
  | .cmdw w => decodeCommand w
  | .txd D => .instr (.txd (decodeTxd D))
  | .rxd D => .instr (.rxd (decodeRxd D))

/-- The encoder (R130, R161, R165). -/
def encode (i : Instr) : Encoded :=
  match i with
  | .construct => .cmdw 0x00000001
  | .transmit => .cmdw 0x00000002
  | .receive => .cmdw 0x00000003
  | .serviceIrq => .cmdw 0x00000004
  | .irqEnable => .cmdw 0x00000005
  | .irqDisable => .cmdw 0x00000006
  | .teardown => .cmdw 0x00000007
  | .txd d => .txd (encodeTxd d)
  | .rxd d => .rxd (encodeRxd d)

/-- The width in bits of an encoded word's format (R120). -/
def Encoded.bits (e : Encoded) : Nat :=
  match e with
  | .cmdw _ => 32
  | .txd _ => 128
  | .rxd _ => 128

/-! ### The opcode table's numbering -/

/-- The row of a 128-bit word of the table. Both layouts take every such word (R132) and nothing in the word says
which; a word that matches the row `TXD` (match and mask in bits 95:88) is read as that row's, any other as
`RXD`'s (DESIGN CHOICE, log entry 14). The machine never needs this: a descriptor's ring gives its format. -/
def tableDescriptor (D : Image) : Encoded :=
  if (decodeTxd D).formOk Cfg.default then .txd D else .rxd D

/-- The encoded word of an opcode-table row of `nbits` bits whose bits are `w`: up to 32 bits a command word, up
to 128 a descriptor, laid out as its 16 bytes in memory (R90). -/
def tableWord (nbits w : Nat) : Option Encoded :=
  if nbits ≤ 32 then some (.cmdw (BitVec.ofNat 32 w))
  else if nbits ≤ 128 then some (tableDescriptor (ofBytes 128 (bytesOf 16 (BitVec.ofNat 128 w))))
  else none

/-- The instruction the decoder reads from a word numbered as the opcode table numbers it. -/
def decodeTableWord (nbits w : Nat) : Option Instr :=
  match tableWord nbits w with
  | none => none
  | some e =>
    match decode e with
    | .instr i => some i
    | .rejected _ => none

end Sys2Proof
end

