-- ==== Sys2Proof/Machine/State.lean ====
section
/-! DEFINITION. The state of the machine as plain data (spec/10_state.md), the outcomes that stop it, and the
machine right after block reset (R74, R340). -/

namespace Sys2Proof.Machine

/-! ### Memory and the two write buffers -/

/-- `Mem` (R80): the bytes that differ from what an unlisted address reads as, by strictly rising address. -/
abbrev Memory := List Host.Cell

/-- The widths `n` of `MemRead` and `MemWrite` (R88, R89). -/
inductive Width where
  | one
  | two
  | eight
deriving DecidableEq, Repr

/-- An entry `(pa, n, v)` of the store buffer `SB` (R89, R100). -/
structure StoreEntry where
  pa : Addr
  n  : Width
  v  : Addr
deriving DecidableEq, Repr

/-- An entry `(off, v)` of the posted-write queue `PWQ` (R103). -/
structure Posted where
  off : Word
  v   : Word
deriving DecidableEq, Repr

/-! ### RINGCTL -/

/-- The lifecycle register `S.life` (R31). -/
inductive Life where
  | uninitialized
  | reset
  | ringsProgrammed
  | interruptsConfigured
  | ready
  | failed
deriving DecidableEq, Repr

/-- The two rings `txq` and `rxq` (R180). -/
inductive RingId where
  | tx
  | rx
deriving DecidableEq, Repr

/-- An ownership tag (R37). -/
inductive OwnTag where
  | sw
  | hw
deriving DecidableEq, Repr

/-- A handle `(va, pa)` of one allocation (R34, R96); `va` is an opaque token. -/
structure Handle where
  va : Nat
  pa : Addr
deriving DecidableEq, Repr

/-- What RINGCTL holds of one ring: the array's handle (R34), the buffer handles (R35), the shadow index
(R36) and the ownership tags (R37). -/
structure Ring where
  ring : Handle
  buf  : List Handle
  tail : Nat
  own  : List OwnTag
deriving DecidableEq, Repr

/-- A range of bytes of `Mem`: the `len` bytes from `lo` on. -/
structure Extent where
  lo  : Nat
  len : Nat
deriving DecidableEq, Repr

/-- The outcome codes of R300. -/
inductive Code where
  | ok
  | busy
  | configError
  | allocFailure
  | rxInvalidDescriptor
  | regIndexOutOfRange
  | illegalCommand
  | wrongState
  | ringIndexOutOfRange
  | ownershipViolation
deriving DecidableEq, Repr

/-- The events of the log port (R330). -/
inductive Event where
  | truncated (len m : Nat)
  | rxInvalid (i : Nat)
  | fatal (code : Byte) (info : Word) (life : Life)
deriving DecidableEq, Repr

/-- Where CONSTRUCT stands (R200 to R214): one constructor per micro-operation, carrying its temporaries. -/
inductive ConstructPos where
  | gate
  | alloc (k : Nat)          -- R202, call k
  | maskFirst                -- R204
  | readCtl
  | assertReset (c : Word)
  | maskAgain
  | resetFence               -- R205
  | validate                 -- R206
  | initTags                 -- R188, R207
  | txAddr (i : Nat)
  | txStatus (i : Nat)
  | txReg (k : Nat)          -- R208
  | txFence
  | txTail
  | rxAddr (i : Nat)         -- R209
  | rxReg (k : Nat)          -- R210
  | rxFence
  | rxTail
  | mta (k : Nat)            -- R211
  | timing (k : Nat)         -- R212
  | unmask
  | readCause                -- R213
  | clearCause (v : Word)
  | flush
  | ret                      -- R214
deriving DecidableEq, Repr

/-- Where TEARDOWN stands (R220). -/
inductive TeardownPos where
  | gate
  | free (k : Nat)
  | ret
deriving DecidableEq, Repr

/-- Where TRANSMIT stands (R230 to R237). -/
inductive TransmitPos where
  | gate
  | readTail                 -- R231
  | index (t : Word)
  | readStatus (i : Nat)     -- R232
  | busyTest (i : Nat) (st : Byte)
  | truncate (i : Nat)       -- R233
  | copy (i m k : Nat)       -- R234
  | setAddr (i m : Nat)      -- R235
  | setLength (i m : Nat)
  | setStatus (i m : Nat)
  | setCommand (i m : Nat)
  | fence (i m : Nat)
  | handOff (i m : Nat)      -- R236
  | flush (m : Nat)          -- R237
  | lastFence (m : Nat)
  | ret (m : Nat)
deriving DecidableEq, Repr

/-- Where RECEIVE stands (R240 to R249). -/
inductive ReceivePos where
  | gate
  | readTail
  | index (t : Word)
  | batch (i : Nat)          -- R248
  | readStatus (i : Nat)     -- R241
  | readyTest (i : Nat) (st : Byte)
  | readFence (i : Nat)
  | readAddr (i : Nat)       -- R242
  | addrTest (i : Nat) (a : Addr)
  | readLength (i : Nat)     -- R243
  | copy (i m : Nat) (pkt : List Byte)
  | deliver (i : Nat) (pkt : List Byte)
  | scrub (i k : Nat)        -- R244
  | clearStatus (i : Nat)    -- R245
  | fence (i : Nat)          -- R246
  | rearm (i : Nat)          -- R247
  | advance (i : Nat)        -- R248
  | ret                      -- R249
deriving DecidableEq, Repr

/-- Where SERVICE_IRQ stands (R250). -/
inductive CausePos where
  | gate
  | read
  | writeBack (v : Word)
  | ret (v : Word)
deriving DecidableEq, Repr

/-- Where IRQ_ENABLE or IRQ_DISABLE stands (R252, R253). -/
inductive MaskPos where
  | gate
  | write
  | flush
  | ret
deriving DecidableEq, Repr

/-- The sequencer position `S.seq` (R32): `Idle`, or `Run(cmd, step)` with `step` the micro-operations already
performed and, beside the count, which micro-operation is next and the temporaries it needs (R33). -/
inductive Seq where
  | idle
  | construct  (step : Nat) (p : ConstructPos)
  | transmit   (step : Nat) (p : TransmitPos)
  | receive    (step : Nat) (p : ReceivePos)
  | serviceIrq (step : Nat) (p : CausePos)
  | irqEnable  (step : Nat) (p : MaskPos)
  | irqDisable (step : Nat) (p : MaskPos)
  | teardown   (step : Nat) (p : TeardownPos)
deriving DecidableEq, Repr

/-! ### The MAC -/

/-- The named registers of the window (R49 to R66). -/
inductive Reg where
  | ctl
  | status
  | icr
  | itr
  | ics
  | ims
  | imc
  | rctl
  | tctl
  | tipg
  | rdbal
  | rdbah
  | rdlen
  | rdh
  | rdt
  | rdtr
  | radv
  | tdbal
  | tdbah
  | tdlen
  | tdh
  | tdt
  | tidv
  | tadv
  | mta (k : Nat)
deriving DecidableEq, Repr

/-- The MAC's variables `M.*` (R48 to R66, R72). -/
structure Mac where
  ctl     : Word
  icause  : Word
  imask   : Word
  rctl    : Word
  tctl    : Word
  tipg    : Word
  tdba    : Addr
  tdlen   : Word
  tdh     : Word
  tdt     : Word
  rdba    : Addr
  rdlen   : Word
  rdh     : Word
  rdt     : Word
  tidv    : Word
  tadv    : Word
  rdtr    : Word
  radv    : Word
  itr     : Word
  mta     : List Word
  wireIn  : List (List Byte)
  wireOut : List (List Byte)
deriving DecidableEq, Repr

/-! ### The allocator and the schedule -/

/-- A live allocation: its handle and page count (R275, R276). -/
structure Alloc where
  h     : Handle
  pages : Nat
deriving DecidableEq, Repr

/-- The allocator's answer to one `allocate` (R275, R277). -/
inductive AllocAnswer where
  | grant (h : Handle)
  | fail
deriving DecidableEq, Repr

/-- One step of one agent (R30), as the schedule names it; what each does is `perform`'s. -/
inductive Move where
  /-- RINGCTL's sequencer performs one micro-operation (R32). -/
  | sequencer
  /-- The memory system drains store-buffer entry `k` (R101). -/
  | drainStore (k : Nat)
  /-- The memory system delivers the oldest posted register write (R104). -/
  | drainPosted
  /-- The MAC's transmit-consume step (R264). -/
  | macTx
  /-- The MAC's receive-fill step (R266). -/
  | macRx
  /-- The allocator gives its next answer (R275, R277). -/
  | answer (a : AllocAnswer)
  /-- The host issues a command: `arg0`, `pkt_in`, then `cmdw` (R281). -/
  | issue (cmdw arg0 : Word) (pkt : List Byte)
  /-- The host takes the oldest delivered packet (R283). -/
  | takePacket
  /-- The host takes the oldest log event (R283). -/
  | takeLog
  /-- The host as wire offers a frame (R280, R286). -/
  | offerFrame (f : List Byte)
  /-- The host as wire drops waiting frame `k` (R271). -/
  | dropFrame (k : Nat)
  /-- The MAC is reset by someone other than RINGCTL (R354, 93 U17). -/
  | macReset
  /-- Block reset of RINGCTL (R340). -/
  | blockReset
deriving DecidableEq, Repr

/-! ### The machine -/

structure State where
  /-- The parameters of R6 to R13 (R75); no step writes them. -/
  cfg     : Cfg
  life    : Life
  seq     : Seq
  txq     : Ring
  rxq     : Ring
  /-- Host command port (R38). -/
  cmdw    : Word
  arg0    : Word
  pktIn   : List Byte
  /-- Host result port (R39). -/
  resCode : Byte
  resVal  : Word
  /-- Packet-delivery queue, oldest first (R40). -/
  pktOut  : List (List Byte)
  /-- Log queue, oldest first (R41). -/
  log     : List Event
  /-- Fault latch (R42). -/
  fault   : Byte
  /-- RECEIVE's packet counter (R43). -/
  rxN     : Nat
  /-- DMA memory (R44 to R46, R80). -/
  mem     : Memory
  /-- Store buffer, oldest first (R70, R100). -/
  sb      : List StoreEntry
  /-- Posted-write queue, oldest first (R71, R103). -/
  pwq     : List Posted
  mac     : Mac
  /-- The allocator's live allocations (R275, R276). -/
  allocs  : List Alloc
  /-- The allocator's answers not yet taken by an `allocate` (R75). -/
  answers : List AllocAnswer
  /-- The run has raced (R108(e)). -/
  raced   : Bool
  /-- MODEL'S OWN: the bytes RINGCTL holds: allocated to it or taken back, and not handed over to the MAC since. With
  them a race is told (R108(e), log entry 6). -/
  held    : List Extent
  /-- MODEL'S OWN: how many free values have been drawn (log entry 2). -/
  draws   : Nat
  /-- MODEL'S OWN: the moves the schedule makes next (R75, log entry 1). -/
  sched   : List Move
deriving DecidableEq, Repr

/-- The machine stops because the bytes it would touch are not addresses. -/
inductive Fault where
  /-- A MAC step (`execTxd`, `execRxd`, the descriptor fetch) would touch bytes at or beyond `2^64`, outside the
  physical address space of R80. Safe: the spec gives no such address, and the model stops. -/
  | beyondAddressSpace
deriving DecidableEq, Repr

/-- The machine stops because the spec gives the step no behaviour ("refuse", spec/93_implementation_defined.md).
Every one of them is safe: nothing can be proved through it. -/
inductive Refusal where
  /-- An instruction without a meaning; no arm of `exec` raises it. Safe. -/
  | notModelled (mnemonic : String)
  /-- `memRead`, `memWrite`: a 2- or 8-byte access not naturally aligned (R87, U13). Safe. -/
  | misaligned
  /-- `memRead`, `memWrite`, the MAC's steps: a byte outside every live allocation (R82, R276, R353, U16, U19). Safe. -/
  | outsideAllocation
  /-- `bufByte`: a buffer offset at or beyond `BUF_SIZE` (R184, R185). Safe. -/
  | bufferBound
  /-- `execTxd`: a descriptor whose `command` is not a form the MAC takes (R133, R264, U12). Safe. -/
  | txCommandForm
  /-- `regRead`, `macArrive`: a register inside the window that the spec does not name (R48). Safe. -/
  | unnamedRegister
  /-- `transmitAt`: `pkt_in` is shorter than `arg0` (R282, D37). Safe. -/
  | shortPacket
  /-- `allocate`: an answer outside the allocator's contract (R275). Safe. -/
  | allocatorContract
  /-- `perform (.offerFrame f)`: a frame longer than `BUF_SIZE` (R266, U18). Safe. -/
  | oversizeFrame
deriving DecidableEq, Repr

/-- What one step answers. -/
abbrev Result := Host.Outcome State Fault Refusal

/-- A ring before CONSTRUCT: R74 gives its elements no value; zeros and `SW` are a DESIGN CHOICE (log entry 3). -/
def Ring.blank (cap : Nat) : Ring where
  ring := ⟨0, 0⟩
  buf := List.replicate cap ⟨0, 0⟩
  tail := 0
  own := List.replicate cap .sw

/-- The MAC at power-on: R74 and U9 give its registers no value; zeros are a DESIGN CHOICE (log entry 3). The
wire queues are empty (R72). -/
def Mac.blank : Mac where
  ctl := 0
  icause := 0
  imask := 0
  rctl := 0
  tctl := 0
  tipg := 0
  tdba := 0
  tdlen := 0
  tdh := 0
  tdt := 0
  rdba := 0
  rdlen := 0
  rdh := 0
  rdt := 0
  tidv := 0
  tadv := 0
  rdtr := 0
  radv := 0
  itr := 0
  mta := List.replicate 128 0
  wireIn := []
  wireOut := []

/-- The machine after block reset with configuration `c` (R74, R340): `life`, `seq`, `fault`, the result
registers, the queues and the two buffers at the values R74 states; the rest at log entry 3's. -/
def State.init (c : Cfg) : State where
  cfg := c
  life := .uninitialized
  seq := .idle
  txq := Ring.blank c.cap
  rxq := Ring.blank c.cap
  cmdw := 0
  arg0 := 0
  pktIn := []
  resCode := 0
  resVal := 0
  pktOut := []
  log := []
  fault := 0
  rxN := 0
  mem := []
  sb := []
  pwq := []
  mac := Mac.blank
  allocs := []
  answers := []
  raced := false
  held := []
  draws := 0
  sched := []

/-- The machine right after reset, with the default configuration. -/
def State.reset : State := State.init Cfg.default

end Sys2Proof.Machine
end

