-- ==== Sys2Proof/Machine/Ops.lean ====
section
/-! DEFINITION. The operations every instruction is made of: outcomes (the one operation that ends a command,
spec/60_exceptions.md), memory, the store buffer and the fences (spec/20_memory.md), the register interface and
the MAC's side of it (spec/40_register_interface.md, spec/47_mac_allocator_host_agents.md), the allocator, and the
two resets. An operation that continues takes what comes next as its argument `k`; an operation that holds
answers the state unchanged, so that the sequencer stays where it is. -/

namespace Sys2Proof.Machine

/-! ### Free values -/

/-- The `k`-th free value not yet drawn. -/
def State.free (s : State) (k : Nat) : Addr := Config.draw (s.draws + k)

/-- `n` free values have been used. -/
def State.spend (s : State) (n : Nat) : State := { s with draws := s.draws + n }

/-! ### The sequencer and outcomes -/

/-- The sequencer goes on at `q`: one micro-operation has been performed (R32). -/
def proceed (q : Seq) (s : State) : Result := .next { s with seq := q }

/-- The code of a lifecycle value on the `LIFE` port (R31). -/
def lifeCode (l : Life) : Nat :=
  match l with
  | .uninitialized => 0
  | .reset => 1
  | .ringsProgrammed => 2
  | .interruptsConfigured => 3
  | .ready => 4
  | .failed => 5

/-- The lifecycle code as the info word of `WrongState` (R307). -/
def lifeWord (l : Life) : Word := BitVec.ofNat 32 (lifeCode l)

/-- The number of an outcome code (R300). -/
def codeByte (c : Code) : Byte :=
  match c with
  | .ok => 0x00
  | .busy => 0x01
  | .configError => 0x02
  | .allocFailure => 0x03
  | .rxInvalidDescriptor => 0x04
  | .regIndexOutOfRange => 0x05
  | .illegalCommand => 0x06
  | .wrongState => 0x07
  | .ringIndexOutOfRange => 0x08
  | .ownershipViolation => 0x09

/-- The class column of R300's table. -/
def codeFatal (c : Code) : Bool :=
  match c with
  | .ok => false
  | .busy => false
  | .configError => true
  | .allocFailure => true
  | .rxInvalidDescriptor => false
  | .regIndexOutOfRange => true
  | .illegalCommand => false
  | .wrongState => false
  | .ringIndexOutOfRange => true
  | .ownershipViolation => true

/-- The result registers are written and the sequencer is idle (R39, R312). -/
def State.finish (s : State) (c : Code) (val : Word) : State :=
  { s with resCode := codeByte c, resVal := val, seq := .idle }

/-- The fatal latch (R310): the first fatal code is kept, the event carries `S.life` as it was. -/
def State.latch (s : State) (c : Code) (info : Word) : State :=
  { s with
    fault := if s.fault = 0 then codeByte c else s.fault
    log := s.log ++ [.fatal (codeByte c) info s.life]
    life := .failed }

/-- `raise` (R15, R310, R312): RINGCTL's taking of an exception. A fatal code latches first; there is no vector,
nothing is restored, and the host may issue the next command. -/
def State.raise (s : State) (c : Code) (info : Word) : State :=
  if codeFatal c then (s.latch c info).finish c info else s.finish c info

/-- `return Code(val)` (R15). -/
def ret (c : Code) (val : Word) (s : State) : Result := .next (s.finish c val)

/-- The micro-operation raises `c`. -/
def raised (c : Code) (info : Word) (s : State) : Result := .next (s.raise c info)

/-- The first micro-operation of a command (R307, R323): it runs only in lifecycle state `l`. -/
def gate (l : Life) (k : State → Result) (s : State) : Result :=
  if s.life = l then k s else raised .wrongState (lifeWord s.life) s

/-- An event is appended to the log port (R330). -/
def State.logEvent (s : State) (e : Event) : State := { s with log := s.log ++ [e] }

/-! ### Memory -/

/-- The byte at `a`: listed, or what an unlisted address reads as, 0 (DESIGN CHOICE, log entry 4). -/
def Memory.read (m : Memory) (a : Nat) : Byte :=
  match m with
  | [] => 0
  | (x, b) :: rest => if x = a then b else Memory.read rest a

/-- The byte at `a` becomes `b`, in canonical form. -/
def Memory.write (m : Memory) (a : Nat) (b : Byte) : Memory :=
  match m with
  | [] => if b = 0 then [] else [(a, b)]
  | (x, c) :: rest =>
    if a < x then (if b = 0 then (x, c) :: rest else (a, b) :: (x, c) :: rest)
    else if a = x then (if b = 0 then rest else (a, b) :: rest)
    else (x, c) :: Memory.write rest a b

/-- The bytes from `a` on become `bs`. -/
def Memory.writeBytes (m : Memory) (a : Nat) (bs : List Byte) : Memory :=
  match bs with
  | [] => m
  | b :: rest => Memory.writeBytes (Memory.write m a b) (a + 1) rest

/-- The `len` bytes from `lo` on become 0 (what `allocate` returns, R275). -/
def Memory.zeroRange (m : Memory) (lo len : Nat) : Memory :=
  m.filter (fun c => decide (c.1 < lo ∨ lo + len ≤ c.1))

/-- The canonical form: addresses strictly rising, and no entry equal to what an unlisted address reads as. -/
def Memory.wf (m : Memory) : Bool :=
  match m with
  | [] => true
  | (x, b) :: rest => b != 0 && rest.all (fun c => decide (x < c.1)) && Memory.wf rest

/-! ### Accesses to live allocations (R82, R276) -/

/-- The byte `a` lies in the allocation. -/
def allocHolds (pageSize : Nat) (x : Alloc) (a : Nat) : Bool :=
  decide (x.h.pa.toNat ≤ a ∧ a < x.h.pa.toNat + x.pages * pageSize)

/-- The byte `a` lies in some live allocation. -/
def State.liveByte (s : State) (a : Nat) : Bool := s.allocs.any (fun x => allocHolds s.cfg.pageSize x a)

/-- Every one of the `n` bytes from `a` on lies in a live allocation. -/
def State.live (s : State) (a n : Nat) : Bool := (List.range n).all (fun j => s.liveByte (a + j))

/-! ### The store buffer and RINGCTL's memory accesses (R88, R89, R100 to R102) -/

/-- The bytes `n` of an access. -/
def Width.bytes (n : Width) : Nat :=
  match n with
  | .one => 1
  | .two => 2
  | .eight => 8

/-- The low `8n` bits of `v` (R89). -/
def Width.truncate (n : Width) (v : Addr) : Addr :=
  match n with
  | .one => (v.extractLsb' 0 8).setWidth 64
  | .two => (v.extractLsb' 0 16).setWidth 64
  | .eight => v

/-- The entry's bytes, ascending address, little-endian (R84). -/
def StoreEntry.byteList (e : StoreEntry) : List Byte := bytesOf e.n.bytes e.v

/-- The entry covers byte `a`. -/
def StoreEntry.covers (e : StoreEntry) (a : Nat) : Bool :=
  decide (e.pa.toNat ≤ a ∧ a < e.pa.toNat + e.n.bytes)

/-- Two entries overlap in a byte. -/
def StoreEntry.overlaps (e f : StoreEntry) : Bool :=
  decide (e.pa.toNat < f.pa.toNat + f.n.bytes ∧ f.pa.toNat < e.pa.toNat + e.n.bytes)

/-- Byte `a` as RINGCTL sees it: the youngest covering entry's, `b` if none (R88). -/
def forwardByte (sb : List StoreEntry) (b : Byte) (a : Nat) : Byte :=
  match sb with
  | [] => b
  | e :: rest => forwardByte rest (if e.covers a then byteOf e.v (a - e.pa.toNat) else b) a

/-- Byte `a` as a `MemRead` takes it (R88). -/
def State.seenByte (s : State) (a : Nat) : Byte := forwardByte s.sb (s.mem.read a) a

/-- The value a `MemRead` of `n` bytes at `a` returns (R88). -/
def State.load (s : State) (n : Width) (a : Nat) : Addr :=
  ofBytes 64 ((List.range n.bytes).map (fun j => s.seenByte (a + j)))

/-- `MemRead(pa, n)` (R88): misaligned (R87) and outside every live allocation (R82), refused. -/
def memRead (pa : Addr) (n : Width) (k : Addr → State → Result) (s : State) : Result :=
  if pa.toNat % n.bytes ≠ 0 then .refused .misaligned
  else if s.live pa.toNat n.bytes then k (s.load n pa.toNat) s
  else .refused .outsideAllocation

/-- The entry `(pa, n, v)` joins the store buffer (R89). -/
def State.store (s : State) (pa : Addr) (n : Width) (v : Addr) : State :=
  { s with sb := s.sb ++ [⟨pa, n, n.truncate v⟩] }

/-- `MemWrite(pa, n, v)` (R89), refused as `memRead` is. -/
def memWrite (pa : Addr) (n : Width) (v : Addr) (k : State → Result) (s : State) : Result :=
  if pa.toNat % n.bytes ≠ 0 then .refused .misaligned
  else if s.live pa.toNat n.bytes then k (s.store pa n v)
  else .refused .outsideAllocation

/-- Entry `j` of the store buffer may drain: no earlier entry overlaps a byte of it (R101). -/
def drainable (sb : List StoreEntry) (j : Nat) : Option StoreEntry :=
  match sb[j]? with
  | none => none
  | some e => if (sb.take j).any (fun f => f.overlaps e) then none else some e

/-- Store-buffer drain (R101): entry `j`'s bytes reach `Mem`; nothing if it may not drain. -/
def drainStore (j : Nat) (s : State) : State :=
  match drainable s.sb j with
  | none => s
  | some e => { s with sb := s.sb.eraseIdx j, mem := s.mem.writeBytes e.pa.toNat e.byteList }

/-- `SFENCE` (R102, R153): holds until the store buffer is empty. -/
def sfence (k : State → Result) (s : State) : Result := if s.sb = [] then k s else .next s

/-- `LFENCE` (R109, R154): recorded as a micro-operation, no other effect. -/
def lfence (k : State → Result) (s : State) : Result := k s

/-! ### The MAC's registers (R48 to R66, R261, R262) -/

/-- The named register at byte offset `off` (R11). -/
def regAt (c : Cfg) (off : Word) : Option Reg :=
  if off = c.offCtl then some .ctl
  else if off = c.offStatus then some .status
  else if off = c.offIcr then some .icr
  else if off = c.offItr then some .itr
  else if off = c.offIcs then some .ics
  else if off = c.offIms then some .ims
  else if off = c.offImc then some .imc
  else if off = c.offRctl then some .rctl
  else if off = c.offTctl then some .tctl
  else if off = c.offTipg then some .tipg
  else if off = c.offRdbal then some .rdbal
  else if off = c.offRdbah then some .rdbah
  else if off = c.offRdlen then some .rdlen
  else if off = c.offRdh then some .rdh
  else if off = c.offRdt then some .rdt
  else if off = c.offRdtr then some .rdtr
  else if off = c.offRadv then some .radv
  else if off = c.offTdbal then some .tdbal
  else if off = c.offTdbah then some .tdbah
  else if off = c.offTdlen then some .tdlen
  else if off = c.offTdh then some .tdh
  else if off = c.offTdt then some .tdt
  else if off = c.offTidv then some .tidv
  else if off = c.offTadv then some .tadv
  else if c.offMta.toNat ≤ off.toNat ∧ off.toNat < c.offMta.toNat + 512 ∧ (off.toNat - c.offMta.toNat) % 4 = 0 then
    some (.mta ((off.toNat - c.offMta.toNat) / 4))
  else none

/-- `lo32` (R14). -/
def lo32 (a : Addr) : Word := a.extractLsb' 0 32

/-- `hi32` (R14). -/
def hi32 (a : Addr) : Word := a.extractLsb' 32 32

/-- The low half of a ring base becomes `v`. -/
def setLo (a : Addr) (v : Word) : Addr := hi32 a ++ v

/-- The high half of a ring base becomes `v`. -/
def setHi (a : Addr) (v : Word) : Addr := v ++ lo32 a

/-- Device reset (R262): heads, tails and both control registers 0; mask and causes any value; `RST` reads 0;
every other variable unspecified, each a free value. The wire queues keep their frames (log entry 8). -/
def deviceReset (s : State) : State :=
  let w := fun k => (s.free k).setWidth 32
  { s.spend 141 with
    mac := { s.mac with
      tdh := 0
      tdt := 0
      rdh := 0
      rdt := 0
      tctl := 0
      rctl := 0
      imask := w 0
      icause := w 1
      ctl := w 2 &&& ~~~s.cfg.ctlRst
      tipg := w 3
      tdlen := w 4
      rdlen := w 5
      tidv := w 6
      tadv := w 7
      rdtr := w 8
      radv := w 9
      itr := w 10
      tdba := s.free 11
      rdba := s.free 12
      mta := (List.range 128).map (fun k => w (13 + k)) } }

/-- The MAC's read behaviour (R51, R53, R58, R261). `STATUS` reads any value (R50); so do `ICS` and `IMC`, whose
read behaviour the spec does not give (log entry 9). A read of `ICR` clears the bits it returns. -/
def macRead (r : Reg) (s : State) : Word × State :=
  match r with
  | .ctl => (s.mac.ctl, s)
  | .status => ((s.free 0).setWidth 32, s.spend 1)
  | .icr => (s.mac.icause, { s with mac := { s.mac with icause := 0 } })
  | .itr => (s.mac.itr, s)
  | .ics => ((s.free 0).setWidth 32, s.spend 1)
  | .ims => (s.mac.imask, s)
  | .imc => ((s.free 0).setWidth 32, s.spend 1)
  | .rctl => (s.mac.rctl, s)
  | .tctl => (s.mac.tctl, s)
  | .tipg => (s.mac.tipg, s)
  | .rdbal => (lo32 s.mac.rdba &&& 0xFFFFFFF0, s)
  | .rdbah => (hi32 s.mac.rdba, s)
  | .rdlen => (s.mac.rdlen &&& 0xFFFFFF80, s)
  | .rdh => (s.mac.rdh, s)
  | .rdt => (s.mac.rdt, s)
  | .rdtr => (s.mac.rdtr, s)
  | .radv => (s.mac.radv, s)
  | .tdbal => (lo32 s.mac.tdba &&& 0xFFFFFFF0, s)
  | .tdbah => (hi32 s.mac.tdba, s)
  | .tdlen => (s.mac.tdlen &&& 0xFFFFFF80, s)
  | .tdh => (s.mac.tdh, s)
  | .tdt => (s.mac.tdt, s)
  | .tidv => (s.mac.tidv, s)
  | .tadv => (s.mac.tadv, s)
  | .mta k => (s.mac.mta.getD k 0, s)

/-- The MAC's write behaviour (R49 to R66, R261). `STATUS` is read-only: a write of it changes nothing (log entry
9). A `CTL` write with `RST` set resets the device in the same step (R262). -/
def macWrite (r : Reg) (v : Word) (s : State) : State :=
  match r with
  | .ctl =>
    let t := { s with mac := { s.mac with ctl := v &&& ~~~s.cfg.ctlRst } }
    if v &&& s.cfg.ctlRst ≠ 0 then deviceReset t else t
  | .status => s
  | .icr => { s with mac := { s.mac with icause := s.mac.icause &&& ~~~v } }
  | .itr => { s with mac := { s.mac with itr := v } }
  | .ics => { s with mac := { s.mac with icause := s.mac.icause ||| v } }
  | .ims => { s with mac := { s.mac with imask := s.mac.imask ||| v } }
  | .imc => { s with mac := { s.mac with imask := s.mac.imask &&& ~~~v } }
  | .rctl => { s with mac := { s.mac with rctl := v } }
  | .tctl => { s with mac := { s.mac with tctl := v } }
  | .tipg => { s with mac := { s.mac with tipg := v } }
  | .rdbal => { s with mac := { s.mac with rdba := setLo s.mac.rdba v } }
  | .rdbah => { s with mac := { s.mac with rdba := setHi s.mac.rdba v } }
  | .rdlen => { s with mac := { s.mac with rdlen := v } }
  | .rdh => { s with mac := { s.mac with rdh := v } }
  | .rdt => { s with mac := { s.mac with rdt := v } }
  | .rdtr => { s with mac := { s.mac with rdtr := v } }
  | .radv => { s with mac := { s.mac with radv := v } }
  | .tdbal => { s with mac := { s.mac with tdba := setLo s.mac.tdba v } }
  | .tdbah => { s with mac := { s.mac with tdba := setHi s.mac.tdba v } }
  | .tdlen => { s with mac := { s.mac with tdlen := v } }
  | .tdh => { s with mac := { s.mac with tdh := v } }
  | .tdt => { s with mac := { s.mac with tdt := v } }
  | .tidv => { s with mac := { s.mac with tidv := v } }
  | .tadv => { s with mac := { s.mac with tadv := v } }
  | .mta k => { s with mac := { s.mac with mta := s.mac.mta.set k v } }

/-- Posted-write drain (R104): the oldest posted write arrives at the MAC. -/
def drainPosted (s : State) : Result :=
  match s.pwq with
  | [] => .next s
  | p :: rest =>
    match regAt s.cfg p.off with
    | none => .refused .unnamedRegister
    | some r => .next (macWrite r p.v { s with pwq := rest })

/-! ### The register interface (R150 to R156) -/

/-- The offset is that of a register of the window (R155). -/
def regInRange (c : Cfg) (off : Word) : Bool := decide (off.toNat % 4 = 0 ∧ off.toNat / 4 < c.regCount)

/-- `RegRead(off)` (R150): out of range fatal (R155), holds until the posted-write queue is empty (R105). -/
def regRead (off : Word) (k : Word → State → Result) (s : State) : Result :=
  if regInRange s.cfg off then
    if s.pwq = [] then
      match regAt s.cfg off with
      | none => .refused .unnamedRegister
      | some r => k (macRead r s).1 (macRead r s).2
    else .next s
  else raised .regIndexOutOfRange off s

/-- The register write is posted (R103). -/
def State.post (s : State) (off v : Word) : State := { s with pwq := s.pwq ++ [⟨off, v⟩] }

/-- `RegWrite(off, v)` (R151). -/
def regWrite (off v : Word) (k : State → Result) (s : State) : Result :=
  if regInRange s.cfg off then k (s.post off v) else raised .regIndexOutOfRange off s

/-- `WRITE_FLUSH` (R152): a read of `STATUS`, the value discarded. -/
def writeFlush (k : State → Result) (s : State) : Result := regRead s.cfg.offStatus (fun _ => k) s

/-! ### The allocator (R275 to R277) -/

/-- Two regions of bytes have none in common. -/
def apart (lo1 len1 lo2 len2 : Nat) : Bool := decide (lo1 + len1 ≤ lo2 ∨ lo2 + len2 ≤ lo1)

/-- The contract of R275 for an answer of `pages` pages at `h`. -/
def contractOk (s : State) (h : Handle) (pages : Nat) : Bool :=
  decide (h.pa ≠ 0) &&
  decide (h.pa.toNat % s.cfg.pageSize = 0) &&
  decide (h.pa.toNat + pages * s.cfg.pageSize ≤ 2 ^ 64) &&
  s.allocs.all (fun x =>
    decide (x.h.va ≠ h.va) &&
    apart x.h.pa.toNat (x.pages * s.cfg.pageSize) h.pa.toNat (pages * s.cfg.pageSize))

/-- The region joins the live allocations, its bytes 0 in `Mem` (R275). Nobody has touched it yet: what RINGCTL
held there of an earlier allocation is held no more (log entry 6). -/
def State.grant (s : State) (h : Handle) (pages : Nat) : State :=
  { s with
    allocs := s.allocs ++ [⟨h, pages⟩]
    mem := s.mem.zeroRange h.pa.toNat (pages * s.cfg.pageSize)
    held := s.held.filter (fun e => apart e.lo e.len h.pa.toNat (pages * s.cfg.pageSize)) }

/-- `allocate(pages)` (R202, R275), call number `n`: holds until the allocator has answered; a failure is fatal
(R201); an answer outside the contract is refused. -/
def allocate (n pages : Nat) (k : Handle → State → Result) (s : State) : Result :=
  match s.answers with
  | [] => .next s
  | .fail :: rest => raised .allocFailure (BitVec.ofNat 32 n) { s with answers := rest }
  | .grant h :: rest =>
    if contractOk s h pages then k h (State.grant { s with answers := rest } h pages)
    else .refused .allocatorContract

/-- `free(va, pages)` (R276): the live allocation whose `va` and page count match is released. -/
def State.freeAlloc (s : State) (va pages : Nat) : State :=
  { s with allocs := s.allocs.eraseP (fun x => decide (x.h.va = va ∧ x.pages = pages)) }

/-! ### Unspecified again: TEARDOWN and block reset -/

/-- A tag from a free value. -/
def tagOf (v : Addr) : OwnTag := if v.getLsbD 0 then .hw else .sw

/-- A ring of `cap` slots whose handles, tags and shadow index are the free values from the `n`-th on. -/
def freeRing (cap n : Nat) : Ring where
  ring := ⟨(Config.draw n).toNat, Config.draw (n + 1)⟩
  buf := (List.range cap).map (fun i => ⟨(Config.draw (n + 3 + 3 * i)).toNat, Config.draw (n + 4 + 3 * i)⟩)
  tail := (Config.draw (n + 2)).toNat % cap
  own := (List.range cap).map (fun i => tagOf (Config.draw (n + 5 + 3 * i)))

/-- How many free values `freeRing` uses. -/
def freeRingDraws (cap : Nat) : Nat := 3 + 3 * cap

/-- Every handle, tag and shadow index becomes unspecified (R192, R220, R340). -/
def State.forgetRings (s : State) : State :=
  { s with
    txq := freeRing s.cfg.cap s.draws
    rxq := freeRing s.cfg.cap (s.draws + freeRingDraws s.cfg.cap)
    draws := s.draws + 2 * freeRingDraws s.cfg.cap }

/-- Block reset of RINGCTL (R340), from any state: the rows R74 gives a value get it, undelivered writes are
discarded, every other element of RINGCTL is a free value; the MAC, `Mem` and the allocator are not touched, and a
block reset hands no byte over (`held`, log entry 6). -/
def blockReset (s : State) : State :=
  let t := s.forgetRings
  { t with
    life := .uninitialized
    seq := .idle
    fault := 0
    resCode := 0
    resVal := 0
    pktOut := []
    log := []
    sb := []
    pwq := []
    cmdw := (t.free 0).setWidth 32
    arg0 := (t.free 1).setWidth 32
    pktIn := Config.drawBytes t.draws
    rxN := (t.free 2).toNat
    draws := t.draws + 3 }

end Sys2Proof.Machine
end

