-- ==== Sys2Proof/Machine/Flags.lean ====
section
/-! DEFINITION. The flags (spec/10_state.md R47): the `DD` bit, the ownership tags with their guard
(spec/42_ring_index_ownership.md R188 to R193), `BUSY`, and the MAC's enable and cause flags
(spec/47_mac_allocator_host_agents.md R263, R264, R266, R270). RINGCTL has no arithmetic condition codes. -/

namespace Sys2Proof.Machine

/-- `TxDone`, `RxDone` (R164, R167): only `DD` is tested. -/
def ddSet (c : Cfg) (st : Byte) : Bool := (st &&& c.staDd) != 0

/-- `BUSY` (R47(d)). -/
def State.busy (s : State) : Bool := s.seq != .idle

/-- Whether the MAC signals its interrupt line (R270); the line itself is outside the model (R251). -/
def irqLine (m : Mac) : Bool := (m.icause &&& m.imask) != 0

/-- The host's branch on a cause bitmap: RECEIVE follows SERVICE_IRQ (R135 `POLL`). RINGCTL never takes it (R251). -/
def pollReceives (c : Cfg) (v : Word) : Bool := (v &&& c.imsRx) != 0

/-! ### Ownership tags -/

/-- Ring `q` of RINGCTL. -/
def State.ringOf (s : State) (q : RingId) : Ring :=
  match q with
  | .tx => s.txq
  | .rx => s.rxq

/-- Ring `q` becomes `r`. -/
def State.setRing (s : State) (q : RingId) (r : Ring) : State :=
  match q with
  | .tx => { s with txq := r }
  | .rx => { s with rxq := r }

/-- The tag of slot `i` of ring `q`; a slot the ring does not have is not RINGCTL's. -/
def State.tag (s : State) (q : RingId) (i : Nat) : OwnTag := (s.ringOf q).own.getD i .hw

/-- The tag of slot `i` of ring `q` becomes `t` (R190, R191). -/
def State.setTag (s : State) (q : RingId) (i : Nat) (t : OwnTag) : State :=
  s.setRing q { s.ringOf q with own := (s.ringOf q).own.set i t }

/-- Every tag of ring `q` becomes `t` (R188, R189). -/
def State.setAllTags (s : State) (q : RingId) (t : OwnTag) : State :=
  s.setRing q { s.ringOf q with own := List.replicate s.cfg.cap t }

/-- The shadow index of ring `q` becomes `i` (R36). -/
def State.setTail (s : State) (q : RingId) (i : Nat) : State :=
  s.setRing q { s.ringOf q with tail := i }

/-- The info word of `OwnershipViolation` (R300): bit 31 the ring, bits 15:0 the slot. -/
def ownInfo (q : RingId) (i : Nat) : Word :=
  match q with
  | .tx => (BitVec.ofNat 16 i).setWidth 32
  | .rx => 0x80000000 ||| (BitVec.ofNat 16 i).setWidth 32

/-- The bytes of `es` are among those held. -/
def heldWith (l es : List Extent) : List Extent := l.filter (fun e => decide (e ∉ es)) ++ es

/-- The bytes of `es` are held no more. -/
def heldWithout (l es : List Extent) : List Extent := l.filter (fun e => decide (e ∉ es))

/-- The guard (R193): the micro-operation is performed only on a slot tagged `SW`. -/
def ownGuard (q : RingId) (i : Nat) (k : State → Result) (s : State) : Result :=
  if s.tag q i = .sw then k s else raised .ownershipViolation (ownInfo q i) s

/-! ### What the MAC may touch -/

/-- The MAC's transmit step is enabled (R263, R264). -/
def macTxEnabled (s : State) : Bool := (s.mac.tctl &&& s.cfg.tctlEn) != 0 && s.mac.tdh != s.mac.tdt

/-- The receive buffer size the `RCTL` value `v` selects (R12, R55, R126); a selection the configuration does not
list gives a free value (log entry 29). -/
def selectedSize (c : Cfg) (v : Word) : Nat :=
  match c.rctlSizes.lookup (v &&& c.rctlBsize) with
  | some n => n
  | none => Config.rctlSize (v &&& c.rctlBsize)

/-- The longest frame the MAC fills into one slot with `RCTL` at `v`: at most `BUF_SIZE` (R266) and at most the
selected size (R55). Under a valid configuration the two agree at `RCTL_INIT` (R8). -/
def rxLimit (c : Cfg) (v : Word) : Nat := min c.bufSize (selectedSize c v)

/-- The oldest frame of at most `limit` bytes and the frames left without it (R266, log entry 10). -/
def nextFrame (limit : Nat) (w : List (List Byte)) : Option (List Byte × List (List Byte)) :=
  match w with
  | [] => none
  | f :: rest =>
    if f.length ≤ limit then some (f, rest)
    else
      match nextFrame limit rest with
      | none => none
      | some (g, others) => some (g, f :: others)

/-- The frame `MAC.RX` takes next, if one waits that a slot can hold, and the frames left (R266). -/
def waitingFrame (s : State) : Option (List Byte × List (List Byte)) :=
  nextFrame (rxLimit s.cfg s.mac.rctl) s.mac.wireIn

/-- The MAC's receive step is enabled on its registers' side (R263, R266). -/
def macRxEnabled (s : State) : Bool := (s.mac.rctl &&& s.cfg.rctlEn) != 0 && s.mac.rdh != s.mac.rdt

/-- The `command` byte is a form the MAC takes (R264). -/
def txFormOk (c : Cfg) (command : Byte) : Bool :=
  (command &&& ~~~(c.cmdRs ||| c.cmdEop)) == 0 && (command &&& c.cmdEop) != 0

/-- Byte `a` lies in the range. -/
def Extent.holds (e : Extent) (a : Nat) : Bool := decide (e.lo ≤ a ∧ a < e.lo + e.len)

/-- An access of the MAC to byte `a` races (R108(e)): RINGCTL holds the byte. What it holds outlives a fatal fault and
a block reset, neither of which hands anything over: DEDUCED, log entry 6. -/
def racing (s : State) (a : Nat) : Bool := s.held.any (fun e => e.holds a)

/-- The MAC reads byte `a` of `Mem`, never the store buffer (R108(a)); a racing read is any value (R108(e)). -/
def macReadByte (a : Nat) (s : State) : Byte × State :=
  if racing s a then ((s.free 0).setWidth 8, { s.spend 1 with raced := true })
  else (s.mem.read a, s)

/-- The MAC reads `n` bytes from `a` on. -/
def macReadBytes (n a : Nat) (s : State) : List Byte × State :=
  match n with
  | 0 => ([], s)
  | n + 1 =>
    ((macReadByte a s).1 :: (macReadBytes n (a + 1) (macReadByte a s).2).1,
      (macReadBytes n (a + 1) (macReadByte a s).2).2)

/-- The MAC writes byte `a` of `Mem` directly (R108(a)); what a racing write leaves is any value. -/
def macWriteByte (a : Nat) (b : Byte) (s : State) : State :=
  if racing s a then { s.spend 1 with raced := true, mem := s.mem.write a ((s.free 0).setWidth 8) }
  else { s with mem := s.mem.write a b }

/-- The MAC writes `bs` from `a` on. -/
def macWriteBytes (a : Nat) (bs : List Byte) (s : State) : State :=
  match bs with
  | [] => s
  | b :: rest => macWriteBytes (a + 1) rest (macWriteByte a b s)

/-- The MAC may touch the `n` bytes from `a` on: they exist (R80) and are allocated (R353, U16, U19). -/
def macTouch (a n : Nat) (k : State → Result) (s : State) : Result :=
  if 2 ^ 64 < a + n then .fault .beyondAddressSpace
  else if s.live a n then k s
  else .refused .outsideAllocation

end Sys2Proof.Machine
end

