-- ==== Sys2Proof/Machine/Operands.lean ====
section
/-! DEFINITION. The operands the commands assemble (spec/30_encoding.md R125, R127): ring indices and their
successor (spec/42_ring_index_ownership.md R181, R182), the address mapper (R183 to R186), the guarded descriptor
field accesses (spec/41_descriptor_codec.md R163, R164, R167) and buffer byte accesses (R99), the allocation order
(spec/43_construct_init_teardown.md R202) and the register values of init (R208, R210, R212). -/

namespace Sys2Proof.Machine

/-! ### Indices -/

/-- `next(i) = (i + 1) mod CAP` (R181). -/
def nextIndex (c : Cfg) (i : Nat) : Nat := (i + 1) % c.cap

/-- A slot index as a register or info word (R125): zero-extended. -/
def indexWord (i : Nat) : Word := BitVec.ofNat 32 i

/-- The index of a tail register's value (R182): fatal when it is not below `CAP`. -/
def indexFrom (t : Word) (k : Nat → State → Result) (s : State) : Result :=
  if t.toNat < s.cfg.cap then k t.toNat s else raised .ringIndexOutOfRange t s

/-! ### The address mapper -/

/-- `off(buffer_address)` of both layouts (R121, R122). -/
def fieldAddr : Nat := 0
/-- `off(length)` of both layouts. -/
def fieldLength : Nat := 8
/-- `off(checksum)` of the receive layout. -/
def fieldChecksum : Nat := 10
/-- `off(command)` of the transmit layout. -/
def fieldCommand : Nat := 11
/-- `off(status)` of both layouts. -/
def fieldStatus : Nat := 12
/-- `off(errors)` of the receive layout. -/
def fieldErrors : Nat := 13
/-- `off(special)` of both layouts. -/
def fieldSpecial : Nat := 14

/-- `DescPA(q, i, f)` (R183), 64-bit arithmetic. -/
def descPa (s : State) (q : RingId) (i f : Nat) : Addr :=
  (s.ringOf q).ring.pa + BitVec.ofNat 64 (16 * i + f)

/-- The physical address of slot `i`'s buffer (R184, R185). -/
def bufPa (s : State) (q : RingId) (i : Nat) : Addr := ((s.ringOf q).buf.getD i ⟨0, 0⟩).pa

/-! ### The hand-over of slots (R188 to R191) -/

/-- The 16 bytes of slot `i`'s descriptor. -/
def descExtent (s : State) (q : RingId) (i : Nat) : Extent := ⟨(descPa s q i 0).toNat, 16⟩

/-- The `BUF_SIZE` bytes of slot `i`'s buffer (R82). -/
def bufExtent (s : State) (q : RingId) (i : Nat) : Extent := ⟨(bufPa s q i).toNat, s.cfg.bufSize⟩

/-- The bytes of slot `i`. -/
def slotExtents (s : State) (q : RingId) (i : Nat) : List Extent := [descExtent s q i, bufExtent s q i]

/-- Slot `i` becomes RINGCTL's (R190, R191): the tag `SW`, its bytes held. -/
def State.takeSlot (s : State) (q : RingId) (i : Nat) : State :=
  { s.setTag q i .sw with held := heldWith s.held (slotExtents s q i) }

/-- Slot `i` is handed over to the MAC (R190, R191): the tag `HW`, its bytes held no more. -/
def State.giveSlot (s : State) (q : RingId) (i : Nat) : State :=
  { s.setTag q i .hw with held := heldWithout s.held (slotExtents s q i) }

/-- Every slot of ring `q` is handed over to the MAC (R189). -/
def State.giveRing (s : State) (q : RingId) : State :=
  { s.setAllTags q .hw with held := heldWithout s.held ((List.range s.cfg.cap).flatMap (slotExtents s q)) }

/-- `TXB(i, k)`, `RXB(i, k)` (R184, R185): a `k` at or beyond `BUF_SIZE` is refused. -/
def bufByte (q : RingId) (i k : Nat) (f : Addr → State → Result) (s : State) : Result :=
  if k < s.cfg.bufSize then f (bufPa s q i + BitVec.ofNat 64 k) s else .refused .bufferBound

/-! ### Guarded accesses -/

/-- A descriptor field write of R163 or R167: the guard, then one `MemWrite` at the field's width. -/
def setField (q : RingId) (i f : Nat) (n : Width) (v : Addr) (k : State → Result) (s : State) : Result :=
  ownGuard q i (fun s => memWrite (descPa s q i f) n v k s) s

/-- A descriptor field read that needs the tag `SW` (R167). -/
def getField (q : RingId) (i f : Nat) (n : Width) (k : Addr → State → Result) (s : State) : Result :=
  ownGuard q i (fun s => memRead (descPa s q i f) n k s) s

/-- `TxGetStatus(i)`, `RxGetStatus(i)` (R164, R167): under any tag. -/
def getStatus (q : RingId) (i : Nat) (k : Byte → State → Result) (s : State) : Result :=
  memRead (descPa s q i fieldStatus) .one (fun v => k (v.setWidth 8)) s

/-- One byte of a copy into slot `i`'s buffer (R99, R234, R244). -/
def setBufByte (q : RingId) (i j : Nat) (b : Byte) (k : State → Result) (s : State) : Result :=
  ownGuard q i (bufByte q i j (fun pa => memWrite pa .one (b.setWidth 64) k)) s

/-- One byte of a copy out of slot `i`'s buffer (R99, R243). -/
def getBufByte (q : RingId) (i j : Nat) (k : Byte → State → Result) (s : State) : Result :=
  ownGuard q i (bufByte q i j (fun pa => memRead pa .one (fun v => k (v.setWidth 8)))) s

/-! ### Allocation order (R202, R220) -/

/-- `RING_PAGES` (R9). -/
def ringPages (c : Cfg) : Nat := (c.cap * 16 + (c.pageSize - 1)) / c.pageSize

/-- `BUF_PAGES` (R9). -/
def bufPages (c : Cfg) : Nat := (c.bufSize + (c.pageSize - 1)) / c.pageSize

/-- How many allocations CONSTRUCT makes. -/
def allocCount (c : Cfg) : Nat := 2 * c.cap + 2

/-- The pages of allocation `k` in R202's order: TX ring, TX buffers, RX ring, RX buffers. -/
def allocPages (c : Cfg) (k : Nat) : Nat := if k = 0 ∨ k = c.cap + 1 then ringPages c else bufPages c

/-- Where the handle of allocation `k` is kept (R202). -/
def allocHandle (s : State) (k : Nat) : Handle :=
  if k = 0 then s.txq.ring
  else if k ≤ s.cfg.cap then s.txq.buf.getD (k - 1) ⟨0, 0⟩
  else if k = s.cfg.cap + 1 then s.rxq.ring
  else s.rxq.buf.getD (k - s.cfg.cap - 2) ⟨0, 0⟩

/-- The handle of allocation `k` becomes `h` (R202). -/
def setAllocHandle (s : State) (k : Nat) (h : Handle) : State :=
  if k = 0 then { s with txq := { s.txq with ring := h } }
  else if k ≤ s.cfg.cap then { s with txq := { s.txq with buf := s.txq.buf.set (k - 1) h } }
  else if k = s.cfg.cap + 1 then { s with rxq := { s.rxq with ring := h } }
  else { s with rxq := { s.rxq with buf := s.rxq.buf.set (k - s.cfg.cap - 2) h } }

/-- What RINGCTL uses of allocation `k` (R82): the descriptors of a ring, the first `BUF_SIZE` bytes of a buffer. -/
def allocExtents (s : State) (k : Nat) : List Extent :=
  if k = 0 then (List.range s.cfg.cap).map (descExtent s .tx)
  else if k ≤ s.cfg.cap then [bufExtent s .tx (k - 1)]
  else if k = s.cfg.cap + 1 then (List.range s.cfg.cap).map (descExtent s .rx)
  else [bufExtent s .rx (k - s.cfg.cap - 2)]

/-- The handle of allocation `k` is kept (R202), and what RINGCTL uses of the region is held: it is RINGCTL's until
its first hand-over (log entry 6). -/
def keepAlloc (s : State) (k : Nat) (h : Handle) : State :=
  { setAllocHandle s k h with held := heldWith s.held (allocExtents (setAllocHandle s k h) k) }

/-! ### Register values of init -/

/-- The ring size is one init step 3 accepts (R206). -/
def ringSizeOk (c : Cfg) : Bool := decide (c.cap * 16 % 128 = 0) && decide (c.cap = 2 ^ c.cap.log2)

/-- The ring byte length (R125, R127(b)). -/
def ringBytes (c : Cfg) : Word := BitVec.ofNat 32 (c.cap * 16)

/-- The register writes of init step 4 before its fence (R208), in order. -/
def txRegWrites (s : State) : List (Word × Word) :=
  [(s.cfg.offTctl, s.cfg.tctlInit), (s.cfg.offTipg, s.cfg.tipgInit),
   (s.cfg.offTdbal, lo32 s.txq.ring.pa), (s.cfg.offTdbah, hi32 s.txq.ring.pa),
   (s.cfg.offTdlen, ringBytes s.cfg), (s.cfg.offTdh, 0)]

/-- The register writes of init step 5 before its fence (R210), in order. -/
def rxRegWrites (s : State) : List (Word × Word) :=
  [(s.cfg.offRctl, s.cfg.rctlInit),
   (s.cfg.offRdbal, lo32 s.rxq.ring.pa), (s.cfg.offRdbah, hi32 s.rxq.ring.pa),
   (s.cfg.offRdlen, ringBytes s.cfg), (s.cfg.offRdh, 0)]

/-- The offset of multicast table entry `k` (R66). -/
def mtaOff (c : Cfg) (k : Nat) : Word := c.offMta + BitVec.ofNat 32 (4 * k)

/-- TRANSMIT's `command` byte (R123, R235). -/
def txCommand (c : Cfg) : Byte := c.cmdRs ||| c.cmdEop

/-- How many bytes RECEIVE scrubs, `RX_SCRUB_BYTES` (R6, R244). -/
def scrubBytes : Nat := 64

/-- How many entries the multicast table has, `MTA_ENTRIES` (R6). -/
def mtaEntries : Nat := 128

end Sys2Proof.Machine
end

