-- ==== Sys2Proof/Machine/Construct.lean ====
section
/-! DEFINITION. CONSTRUCT and TEARDOWN (spec/43_construct_init_teardown.md). Each performs one micro-operation of
its command: the one `S.seq` stands at (R32). -/

namespace Sys2Proof.Machine

/-- CONSTRUCT goes on at `p` after its `n`-th micro-operation. -/
def constructTo (n : Nat) (p : ConstructPos) : State → Result := proceed (.construct (n + 1) p)

/-- After allocation `k` (R202). -/
def afterAlloc (c : Cfg) (k : Nat) : ConstructPos := if k + 1 < allocCount c then .alloc (k + 1) else .maskFirst

/-- After TX descriptor `i` (R207). -/
def afterTxDesc (c : Cfg) (i : Nat) : ConstructPos := if i + 1 < c.cap then .txAddr (i + 1) else .txReg 0

/-- After the `k`-th register write of init step 4 (R208). -/
def afterTxReg (k : Nat) : ConstructPos := if k + 1 < 6 then .txReg (k + 1) else .txFence

/-- After RX descriptor `i` (R209). -/
def afterRxDesc (c : Cfg) (i : Nat) : ConstructPos := if i + 1 < c.cap then .rxAddr (i + 1) else .rxReg 0

/-- After the `k`-th register write of init step 5 (R210). -/
def afterRxReg (k : Nat) : ConstructPos := if k + 1 < 5 then .rxReg (k + 1) else .rxFence

/-- Where the timing writes stand at `k` (R212): the list is a parameter and may be empty. -/
def timingFrom (c : Cfg) (k : Nat) : ConstructPos := if k < c.irqTimingRegs.length then .timing k else .unmask

/-- After multicast entry `k` (R211). -/
def afterMta (c : Cfg) (k : Nat) : ConstructPos := if k + 1 < mtaEntries then .mta (k + 1) else timingFrom c 0

/-- The register write `w` of an init list; a list position it does not have passes. -/
def listWrite (w : Option (Word × Word)) (k : State → Result) (s : State) : Result :=
  match w with
  | none => k s
  | some (off, v) => regWrite off v k s

/-- CONSTRUCT's micro-operation at `p`, `n` performed before it. The spec does not say how many micro-operations the
loop of R207 over the tags is (R188): here all `2*CAP` tags become `SW` in one of its own, `.initTags`, before the
first `TxSetAddr`; and the RX tags of R189, the shadow index and the lifecycle state change with the `RDT` write.
DESIGN CHOICE, log entry 18. -/
def constructAt (n : Nat) (p : ConstructPos) (s : State) : Result :=
  match p with
  | .gate => gate .uninitialized (constructTo n (.alloc 0)) s
  | .alloc k =>
    allocate k (allocPages s.cfg k) (fun h s => constructTo n (afterAlloc s.cfg k) (keepAlloc s k h)) s
  | .maskFirst => regWrite s.cfg.offIms 0 (constructTo n .readCtl) s
  | .readCtl => regRead s.cfg.offCtl (fun c => constructTo n (.assertReset c)) s
  | .assertReset c => regWrite s.cfg.offCtl (c ||| s.cfg.ctlRst) (constructTo n .maskAgain) s
  | .maskAgain => regWrite s.cfg.offIms 0 (constructTo n .resetFence) s
  | .resetFence => sfence (fun s => constructTo n .validate { s with life := .reset }) s
  | .validate =>
    if ringSizeOk s.cfg then constructTo n .initTags s else raised .configError (ringBytes s.cfg) s
  | .initTags => constructTo n (.txAddr 0) ((s.setAllTags .tx .sw).setAllTags .rx .sw)
  | .txAddr i => setField .tx i fieldAddr .eight (bufPa s .tx i) (constructTo n (.txStatus i)) s
  | .txStatus i =>
    setField .tx i fieldStatus .one (s.cfg.staDd.setWidth 64) (constructTo n (afterTxDesc s.cfg i)) s
  | .txReg k => listWrite (txRegWrites s)[k]? (constructTo n (afterTxReg k)) s
  | .txFence => sfence (constructTo n .txTail) s
  | .txTail => regWrite s.cfg.offTdt 0 (fun s => constructTo n (.rxAddr 0) (s.setTail .tx 0)) s
  | .rxAddr i => setField .rx i fieldAddr .eight (bufPa s .rx i) (constructTo n (afterRxDesc s.cfg i)) s
  | .rxReg k => listWrite (rxRegWrites s)[k]? (constructTo n (afterRxReg k)) s
  | .rxFence => sfence (constructTo n .rxTail) s
  | .rxTail =>
    regWrite s.cfg.offRdt (indexWord (s.cfg.cap - 1)) (fun s =>
      constructTo n (.mta 0)
        { (s.giveRing .rx).setTail .rx (s.cfg.cap - 1) with life := .ringsProgrammed }) s
  | .mta k => regWrite (mtaOff s.cfg k) 0 (constructTo n (afterMta s.cfg k)) s
  | .timing k =>
    listWrite (s.cfg.irqTimingRegs[k]?.map (fun off => (off, 0))) (constructTo n (timingFrom s.cfg (k + 1))) s
  | .unmask =>
    regWrite s.cfg.offIms s.cfg.imsRx (fun s => constructTo n .readCause { s with life := .interruptsConfigured }) s
  | .readCause => regRead s.cfg.offIcr (fun v => constructTo n (.clearCause v)) s
  | .clearCause v => regWrite s.cfg.offIcr v (constructTo n .flush) s
  | .flush => writeFlush (fun s => constructTo n .ret { s with life := .ready }) s
  | .ret => ret .ok 0 s

/-- `CONSTRUCT` (R200): issued while idle (R281), else its next micro-operation; while another command runs the
port takes no command. -/
def execConstruct (s : State) : Result :=
  match s.seq with
  | .idle => proceed (.construct 0 .gate) s
  | .construct n p => constructAt n p s
  | .transmit _ _ => .next s
  | .receive _ _ => .next s
  | .serviceIrq _ _ => .next s
  | .irqEnable _ _ => .next s
  | .irqDisable _ _ => .next s
  | .teardown _ _ => .next s

/-- After free `k` (R220). -/
def afterFree (c : Cfg) (k : Nat) : TeardownPos := if k + 1 < allocCount c then .free (k + 1) else .ret

/-- TEARDOWN's micro-operation at `p`, `n` performed before it. The last three lines of R220's pseudocode (the
lifecycle state, the elements that become unspecified, the return) are one micro-operation: DESIGN CHOICE, log
entry 18. -/
def teardownAt (n : Nat) (p : TeardownPos) (s : State) : Result :=
  match p with
  | .gate => gate .ready (proceed (.teardown (n + 1) (.free 0))) s
  | .free k =>
    proceed (.teardown (n + 1) (afterFree s.cfg k)) (s.freeAlloc (allocHandle s k).va (allocPages s.cfg k))
  | .ret => ret .ok 0 { s.forgetRings with life := .uninitialized }

/-- `TEARDOWN` (R220); the port as for `execConstruct`. -/
def execTeardown (s : State) : Result :=
  match s.seq with
  | .idle => proceed (.teardown 0 .gate) s
  | .teardown n p => teardownAt n p s
  | .construct _ _ => .next s
  | .transmit _ _ => .next s
  | .receive _ _ => .next s
  | .serviceIrq _ _ => .next s
  | .irqEnable _ _ => .next s
  | .irqDisable _ _ => .next s

end Sys2Proof.Machine
end

