-- ==== Sys2Proof/Machine/Interrupt.lean ====
section
/-! DEFINITION. SERVICE_IRQ, IRQ_ENABLE, IRQ_DISABLE (spec/46_interrupt.md): each performs one micro-operation, the
one `S.seq` stands at (R32). -/

namespace Sys2Proof.Machine

/-- SERVICE_IRQ's micro-operation at `p`, `n` performed before it (R250). -/
def serviceIrqAt (n : Nat) (p : CausePos) (s : State) : Result :=
  match p with
  | .gate => gate .ready (proceed (.serviceIrq (n + 1) .read)) s
  | .read => regRead s.cfg.offIcr (fun v => proceed (.serviceIrq (n + 1) (.writeBack v))) s
  | .writeBack v => regWrite s.cfg.offIcr v (proceed (.serviceIrq (n + 1) (.ret v))) s
  | .ret v => ret .ok v s

/-- `SERVICE_IRQ` (R250): issued while idle (R281), else its next micro-operation; while another command runs the
port takes no command. -/
def execServiceIrq (s : State) : Result :=
  match s.seq with
  | .idle => proceed (.serviceIrq 0 .gate) s
  | .serviceIrq n p => serviceIrqAt n p s
  | .construct _ _ => .next s
  | .transmit _ _ => .next s
  | .receive _ _ => .next s
  | .irqEnable _ _ => .next s
  | .irqDisable _ _ => .next s
  | .teardown _ _ => .next s

/-- IRQ_ENABLE's micro-operation at `p`, `n` performed before it (R252). -/
def irqEnableAt (n : Nat) (p : MaskPos) (s : State) : Result :=
  match p with
  | .gate => gate .ready (proceed (.irqEnable (n + 1) .write)) s
  | .write => regWrite s.cfg.offIms s.arg0 (proceed (.irqEnable (n + 1) .flush)) s
  | .flush => writeFlush (proceed (.irqEnable (n + 1) .ret)) s
  | .ret => ret .ok 0 s

/-- `IRQ_ENABLE` (R252); the port as for `execServiceIrq`. -/
def execIrqEnable (s : State) : Result :=
  match s.seq with
  | .idle => proceed (.irqEnable 0 .gate) s
  | .irqEnable n p => irqEnableAt n p s
  | .construct _ _ => .next s
  | .transmit _ _ => .next s
  | .receive _ _ => .next s
  | .serviceIrq _ _ => .next s
  | .irqDisable _ _ => .next s
  | .teardown _ _ => .next s

/-- IRQ_DISABLE's micro-operation at `p`, `n` performed before it (R253). -/
def irqDisableAt (n : Nat) (p : MaskPos) (s : State) : Result :=
  match p with
  | .gate => gate .ready (proceed (.irqDisable (n + 1) .write)) s
  | .write => regWrite s.cfg.irqOffReg s.cfg.irqOffVal (proceed (.irqDisable (n + 1) .flush)) s
  | .flush => writeFlush (proceed (.irqDisable (n + 1) .ret)) s
  | .ret => ret .ok 0 s

/-- `IRQ_DISABLE` (R253); the port as for `execServiceIrq`. -/
def execIrqDisable (s : State) : Result :=
  match s.seq with
  | .idle => proceed (.irqDisable 0 .gate) s
  | .irqDisable n p => irqDisableAt n p s
  | .construct _ _ => .next s
  | .transmit _ _ => .next s
  | .receive _ _ => .next s
  | .serviceIrq _ _ => .next s
  | .irqEnable _ _ => .next s
  | .teardown _ _ => .next s

end Sys2Proof.Machine
end

