-- ==== Sys2Proof/Machine/Mac.lean ====
section
/-! DEFINITION. The MAC's two steps of its own (spec/47_mac_allocator_host_agents.md R264 to R267): the meanings of
the two descriptor layouts. Each is one atomic transition (R91(c)); what the spec lets the MAC choose is a free
value. -/

namespace Sys2Proof.Machine

/-- The address of the TX descriptor the MAC consumes next: `M.tdba + 16*M.tdh` (R58, R264). -/
def txHeadPa (m : Mac) : Addr := m.tdba + 16 * m.tdh.setWidth 64

/-- The address of the RX descriptor the MAC fills next: `M.rdba + 16*M.rdh` (R62, R266). -/
def rxHeadPa (m : Mac) : Addr := m.rdba + 16 * m.rdh.setWidth 64

/-- `(h + 1) mod (len / 16)` (R264, R266). With no descriptor in the ring the spec gives no result: a free value
(log entry 11). -/
def wrapHead (h len free : Word) : Word :=
  if len.toNat / 16 = 0 then free else BitVec.ofNat 32 ((h.toNat + 1) % (len.toNat / 16))

/-- The head moves and the MAC raises any subset of the TX cause bits (R264). -/
def txComplete (s : State) : State :=
  { s.spend 2 with
    mac := { s.mac with
      tdh := wrapHead s.mac.tdh s.mac.tdlen ((s.free 0).setWidth 32)
      icause := s.mac.icause ||| ((s.free 1).setWidth 32 &&& s.cfg.txCauses) } }

/-- The frame goes out on the wire. -/
def sendFrame (f : List Byte) (s : State) : State := { s with mac := { s.mac with wireOut := s.mac.wireOut ++ [f] } }

/-- The write-back of a completed transmission (R264, R265): the `status` byte only, and only if `RS` was asked. -/
def txWriteBack (d : TxDesc) (s : State) : State :=
  if d.command &&& s.cfg.cmdRs ≠ 0 then
    macWriteByte ((txHeadPa s.mac).toNat + fieldStatus) (d.status ||| s.cfg.staDd) s
  else s

/-- `MAC.TX` on the descriptor `d` at the head (R264). Not enabled, the MAC does nothing; a `command` it does not
take is refused. -/
def execTxd (d : TxDesc) (s : State) : Result :=
  if macTxEnabled s then
    if txFormOk s.cfg d.command then
      macTouch d.bufferAddress.toNat d.length.toNat (fun s =>
        macTouch (txHeadPa s.mac).toNat 16 (fun s =>
          let r := macReadBytes d.length.toNat d.bufferAddress.toNat s
          .next (txComplete (txWriteBack d (sendFrame r.1 r.2)))) s) s
    else .refused .txCommandForm
  else .next s

/-- The fields of the RX write-back beside `status` (R266): `length` is the frame's, the others any value. -/
def rxFields (n : Nat) (s : State) : List (Nat × List Byte) :=
  [(fieldLength, bytesOf 2 (BitVec.ofNat 16 n)),
   (fieldChecksum, bytesOf 2 ((s.free 0).setWidth 16)),
   (fieldErrors, [(s.free 1).setWidth 8]),
   (fieldSpecial, bytesOf 2 ((s.free 2).setWidth 16))]

/-- The `status` byte of the RX write-back (R266): `DD` set, the other bits any value. -/
def rxStatus (s : State) : Byte := s.cfg.staDd ||| (s.free 3).setWidth 8

/-- The writes of `fs`, each at its offset from `pa`. -/
def macWriteFields (pa : Nat) (fs : List (Nat × List Byte)) (s : State) : State :=
  match fs with
  | [] => s
  | (off, bs) :: rest => macWriteFields pa rest (macWriteBytes (pa + off) bs s)

/-- The head moves, the receive-completion cause and any subset of the other RX causes are raised (R266, R270). -/
def rxComplete (s : State) : State :=
  { s.spend 2 with
    mac := { s.mac with
      rdh := wrapHead s.mac.rdh s.mac.rdlen ((s.free 0).setWidth 32)
      icause := s.mac.icause ||| s.cfg.imsRx ||| ((s.free 1).setWidth 32 &&& s.cfg.rxCauses) } }

/-- The fill of one slot (R266): the buffer, the fields, `status` last. -/
def rxFill (d : RxDesc) (f : List Byte) (rest : List (List Byte)) (s : State) : State :=
  let pa := (rxHeadPa s.mac).toNat
  let fields := rxFields f.length s
  let status := rxStatus s
  let s1 := macWriteBytes d.bufferAddress.toNat f { s.spend 4 with mac := { s.mac with wireIn := rest } }
  rxComplete (macWriteBytes (pa + fieldStatus) [status] (macWriteFields pa fields s1))

/-- `MAC.RX f` on the descriptor `d` at the head (R266), `f` the oldest waiting frame a slot can hold (R55, R266). Not
enabled, or with no such frame, the MAC does nothing (R271). -/
def execRxd (d : RxDesc) (s : State) : Result :=
  if macRxEnabled s then
    match waitingFrame s with
    | none => .next s
    | some (f, rest) =>
      macTouch d.bufferAddress.toNat f.length (fun s =>
        macTouch (rxHeadPa s.mac).toNat 16 (fun s => .next (rxFill d f rest s)) s) s
  else .next s

end Sys2Proof.Machine
end

