-- ==== Sys2Proof/Machine/Receive.lean ====
section
/-! DEFINITION. RECEIVE (spec/45_receive.md): one micro-operation, the one `S.seq` stands at (R32). -/

namespace Sys2Proof.Machine

/-- RECEIVE goes on at `p` after its `n`-th micro-operation. -/
def receiveTo (n : Nat) (p : ReceivePos) : State → Result := proceed (.receive (n + 1) p)

/-- Where the copy-out of `m` bytes stands with `pkt` read (R243). -/
def copyOutFrom (i m : Nat) (pkt : List Byte) : ReceivePos :=
  if pkt.length < m then .copy i m pkt else .deliver i pkt

/-- After scrubbed byte `k` (R244). -/
def afterScrub (i k : Nat) : ReceivePos := if k + 1 < scrubBytes then .scrub i (k + 1) else .clearStatus i

/-- The sanity check (R242): a descriptor with address 0 ends the command, the slot left as it is. -/
def addrTest (n i : Nat) (a : Addr) (s : State) : Result :=
  if a = 0 then raised .rxInvalidDescriptor (indexWord i) (s.logEvent (.rxInvalid i))
  else receiveTo n (.readLength i) s

/-- RECEIVE's micro-operation at `p`, `n` performed before it. -/
def receiveAt (n : Nat) (p : ReceivePos) (s : State) : Result :=
  match p with
  | .gate => gate .ready (receiveTo n .readTail) s
  | .readTail => regRead s.cfg.offRdt (fun t => receiveTo n (.index t)) s
  | .index t =>
    indexFrom t (fun r s => receiveTo n (.batch (nextIndex s.cfg r)) { s with rxN := 0 }) s
  | .batch i => if s.rxN = s.cfg.rxBatchMax then receiveTo n .ret s else receiveTo n (.readStatus i) s
  | .readStatus i => getStatus .rx i (fun st => receiveTo n (.readyTest i st)) s
  | .readyTest i st => if ddSet s.cfg st then receiveTo n (.readFence i) s else receiveTo n .ret s
  | .readFence i => lfence (fun s => receiveTo n (.readAddr i) (s.takeSlot .rx i)) s
  | .readAddr i => getField .rx i fieldAddr .eight (fun a => receiveTo n (.addrTest i a)) s
  | .addrTest i a => addrTest n i a s
  | .readLength i =>
    getField .rx i fieldLength .two (fun v => receiveTo n (copyOutFrom i (min v.toNat s.cfg.bufSize) [])) s
  | .copy i m pkt => getBufByte .rx i pkt.length (fun b => receiveTo n (copyOutFrom i m (pkt ++ [b]))) s
  | .deliver i pkt => receiveTo n (.scrub i 0) { s with pktOut := s.pktOut ++ [pkt] }
  | .scrub i k => setBufByte .rx i k 0 (receiveTo n (afterScrub i k)) s
  | .clearStatus i => setField .rx i fieldStatus .one 0 (receiveTo n (.fence i)) s
  | .fence i => sfence (receiveTo n (.rearm i)) s
  | .rearm i =>
    regWrite s.cfg.offRdt (indexWord i) (fun s =>
      receiveTo n (.advance i) ((s.giveSlot .rx i).setTail .rx i)) s
  | .advance i => receiveTo n (.batch (nextIndex s.cfg i)) { s with rxN := s.rxN + 1 }
  | .ret => ret .ok (BitVec.ofNat 32 s.rxN) s

/-- `RECEIVE` (R240): issued while idle (R281), else its next micro-operation; while another command runs the
port takes no command. -/
def execReceive (s : State) : Result :=
  match s.seq with
  | .idle => proceed (.receive 0 .gate) s
  | .receive n p => receiveAt n p s
  | .construct _ _ => .next s
  | .transmit _ _ => .next s
  | .serviceIrq _ _ => .next s
  | .irqEnable _ _ => .next s
  | .irqDisable _ _ => .next s
  | .teardown _ _ => .next s

end Sys2Proof.Machine
end

