-- ==== Sys2Proof/Machine/Transmit.lean ====
section
/-! DEFINITION. TRANSMIT (spec/44_transmit.md): one micro-operation, the one `S.seq` stands at (R32). -/

namespace Sys2Proof.Machine

/-- TRANSMIT goes on at `p` after its `n`-th micro-operation. -/
def transmitTo (n : Nat) (p : TransmitPos) : State → Result := proceed (.transmit (n + 1) p)

/-- Where the copy of `m` bytes stands at byte `k` (R234). -/
def copyFrom (i m k : Nat) : TransmitPos := if k < m then .copy i m k else .setAddr i m

/-- `min(L, BUF_SIZE)` (R233, R243). -/
def clip (c : Cfg) (len : Nat) : Nat := min len c.bufSize

/-- Truncation (R233): an oversize packet is logged, never failed. A `pkt_in` shorter than `arg0` is refused (R282). -/
def truncate (n i : Nat) (s : State) : Result :=
  let len := s.arg0.toNat
  if s.pktIn.length < len then .refused .shortPacket
  else if s.cfg.bufSize < len then
    transmitTo n (copyFrom i (clip s.cfg len) 0) (s.logEvent (.truncated len (clip s.cfg len)))
  else transmitTo n (copyFrom i (clip s.cfg len) 0) s

/-- Byte `k` of `pkt_in` into the slot's buffer (R234). -/
def copyIn (n i m k : Nat) (s : State) : Result :=
  match s.pktIn[k]? with
  | none => .refused .shortPacket
  | some b => setBufByte .tx i k b (transmitTo n (copyFrom i m (k + 1))) s

/-- TRANSMIT's micro-operation at `p`, `n` performed before it. -/
def transmitAt (n : Nat) (p : TransmitPos) (s : State) : Result :=
  match p with
  | .gate => gate .ready (transmitTo n .readTail) s
  | .readTail => regRead s.cfg.offTdt (fun t => transmitTo n (.index t)) s
  | .index t => indexFrom t (fun i => transmitTo n (.readStatus i)) s
  | .readStatus i => getStatus .tx i (fun st => transmitTo n (.busyTest i st)) s
  | .busyTest i st =>
    if ddSet s.cfg st then transmitTo n (.truncate i) (s.takeSlot .tx i)
    else raised .busy (indexWord i) { s with pktIn := [] }
  | .truncate i => truncate n i s
  | .copy i m k => copyIn n i m k s
  | .setAddr i m => setField .tx i fieldAddr .eight (bufPa s .tx i) (transmitTo n (.setLength i m)) s
  | .setLength i m => setField .tx i fieldLength .two (BitVec.ofNat 64 m) (transmitTo n (.setStatus i m)) s
  | .setStatus i m => setField .tx i fieldStatus .one 0 (transmitTo n (.setCommand i m)) s
  | .setCommand i m =>
    setField .tx i fieldCommand .one ((txCommand s.cfg).setWidth 64) (transmitTo n (.fence i m)) s
  | .fence i m => sfence (transmitTo n (.handOff i m)) s
  | .handOff i m =>
    regWrite s.cfg.offTdt (indexWord (nextIndex s.cfg i)) (fun s =>
      transmitTo n (.flush m) ((s.giveSlot .tx i).setTail .tx (nextIndex s.cfg i))) s
  | .flush m => writeFlush (transmitTo n (.lastFence m)) s
  | .lastFence m => sfence (transmitTo n (.ret m)) s
  | .ret m => ret .ok (BitVec.ofNat 32 m) s

/-- `TRANSMIT` (R230): issued while idle (R281), else its next micro-operation; while another command runs the
port takes no command. -/
def execTransmit (s : State) : Result :=
  match s.seq with
  | .idle => proceed (.transmit 0 .gate) s
  | .transmit n p => transmitAt n p s
  | .construct _ _ => .next s
  | .receive _ _ => .next s
  | .serviceIrq _ _ => .next s
  | .irqEnable _ _ => .next s
  | .irqDisable _ _ => .next s
  | .teardown _ _ => .next s

end Sys2Proof.Machine
end

