-- ==== Sys2Proof/Machine/Dispatch.lean ====
section
/-! DEFINITION. One arm per row of the opcode table. -/

namespace Sys2Proof.Machine

def exec (i : Instr) (s : State) : Host.Outcome State Fault Refusal :=
  match i with
  | .construct => Sys2Proof.Machine.execConstruct s
  | .transmit => Sys2Proof.Machine.execTransmit s
  | .receive => Sys2Proof.Machine.execReceive s
  | .serviceIrq => Sys2Proof.Machine.execServiceIrq s
  | .irqEnable => Sys2Proof.Machine.execIrqEnable s
  | .irqDisable => Sys2Proof.Machine.execIrqDisable s
  | .teardown => Sys2Proof.Machine.execTeardown s
  | .txd d => Sys2Proof.Machine.execTxd d s
  | .rxd d => Sys2Proof.Machine.execRxd d s

end Sys2Proof.Machine
end

