-- ==== Sys2Proof/Machine/Agents.lean ====
section
/-! DEFINITION. The agents' steps (spec/10_state.md R30, spec/47_mac_allocator_host_agents.md): what each move of the
schedule does. A move that is not enabled is passed over: no agent steps, the state is unchanged. Where a word is
fetched, it is decoded and `exec` runs the instruction: the sequencer fetches at the command port, the MAC at its
two ring heads (R112). -/

namespace Sys2Proof.Machine

/-! ### The sequencer and the command port -/

/-- The command in progress (R32). -/
def Seq.instr (q : Seq) : Option Instr :=
  match q with
  | .idle => none
  | .construct _ _ => some .construct
  | .transmit _ _ => some .transmit
  | .receive _ _ => some .receive
  | .serviceIrq _ _ => some .serviceIrq
  | .irqEnable _ _ => some .irqEnable
  | .irqDisable _ _ => some .irqDisable
  | .teardown _ _ => some .teardown

/-- RINGCTL's sequencer: one micro-operation of the command in progress; idle, it has no step. -/
def sequencerStep (s : State) : Result :=
  match s.seq.instr with
  | none => .next s
  | some i => exec i s

/-- The host writes the command port (R38, R281). -/
def State.writePort (s : State) (cmdw arg0 : Word) (pkt : List Byte) : State :=
  { s with cmdw := cmdw, arg0 := arg0, pktIn := pkt }

/-- Issue (R281): only while idle; an illegal word ends at once (R132). -/
def issue (cmdw arg0 : Word) (pkt : List Byte) (s : State) : Result :=
  if s.seq = .idle then
    match decode (.cmdw cmdw) with
    | .instr i => exec i (s.writePort cmdw arg0 pkt)
    | .rejected _ => raised .illegalCommand cmdw (s.writePort cmdw arg0 pkt)
  else .next s

/-! ### The MAC -/

/-- The instruction of a descriptor image of the TX ring. -/
def runTxImage (D : Image) (s : State) : Result :=
  match decode (.txd D) with
  | .instr i => exec i s
  | .rejected _ => .next s

/-- The instruction of a descriptor image of the RX ring. -/
def runRxImage (D : Image) (s : State) : Result :=
  match decode (.rxd D) with
  | .instr i => exec i s
  | .rejected _ => .next s

/-- `MAC.TX` (R264, R267): the descriptor at the head is read from `Mem` afresh and executed. -/
def macTxStep (s : State) : Result :=
  if macTxEnabled s then
    macTouch (txHeadPa s.mac).toNat 16 (fun s =>
      let r := macReadBytes 16 (txHeadPa s.mac).toNat s
      runTxImage (ofBytes 128 r.1) r.2) s
  else .next s

/-- `MAC.RX` (R266, R267): the descriptor at the head is read from `Mem` afresh and executed. -/
def macRxStep (s : State) : Result :=
  if macRxEnabled s && (waitingFrame s).isSome then
    macTouch (rxHeadPa s.mac).toNat 16 (fun s =>
      let r := macReadBytes 16 (rxHeadPa s.mac).toNat s
      runRxImage (ofBytes 128 r.1) r.2) s
  else .next s

/-! ### The wire -/

/-- The host as wire offers a frame (R280): one longer than `BUF_SIZE` is refused (U18). -/
def offerFrame (f : List Byte) (s : State) : Result :=
  if f.length ≤ s.cfg.bufSize then .next { s with mac := { s.mac with wireIn := s.mac.wireIn ++ [f] } }
  else .refused .oversizeFrame

/-- The host as wire drops waiting frame `k` (R271). -/
def dropFrame (k : Nat) (s : State) : State := { s with mac := { s.mac with wireIn := s.mac.wireIn.eraseIdx k } }

/-! ### Every agent -/

/-- What a move of the schedule does (R30). R283 has the host take packets and log events when a command ends and
does not say that it may not while one runs: here `takePacket` and `takeLog` act at any moment. DESIGN CHOICE, log
entry 30. -/
def perform (mv : Move) (s : State) : Result :=
  match mv with
  | .sequencer => sequencerStep s
  | .drainStore k => .next (drainStore k s)
  | .drainPosted => drainPosted s
  | .macTx => macTxStep s
  | .macRx => macRxStep s
  | .answer a => .next { s with answers := s.answers ++ [a] }
  | .issue cmdw arg0 pkt => issue cmdw arg0 pkt s
  | .takePacket => .next { s with pktOut := s.pktOut.tail }
  | .takeLog => .next { s with log := s.log.tail }
  | .offerFrame f => offerFrame f s
  | .dropFrame k => .next (dropFrame k s)
  | .macReset => .next (deviceReset s)
  | .blockReset => .next (blockReset s)

/-- The move when the schedule names none: the two buffers drain at once, oldest first, then the sequencer steps
(R113's sequentially consistent restriction, log entry 1). -/
def defaultMove (s : State) : Move :=
  match s.sb with
  | _ :: _ => .drainStore 0
  | [] =>
    match s.pwq with
    | _ :: _ => .drainPosted
    | [] => .sequencer

/-- The move made next. -/
def nextMove (s : State) : Move :=
  match s.sched with
  | [] => defaultMove s
  | mv :: _ => mv

/-- The schedule has been read. -/
def State.popSched (s : State) : State := { s with sched := s.sched.tail }

/-! ### Placing a word where the next step fetches it -/

/-- A descriptor image at physical address 0 in a live allocation, its buffer in another; RINGCTL holds no byte of
`Mem`, so that the MAC's next fetch reads it. -/
def placeImage (D : Image) (s : State) : State :=
  { s with
    held := []
    mem := s.mem.writeBytes 0 (bytesOf 16 D)
    allocs := [⟨⟨0, 0⟩, 1⟩, ⟨⟨1, (decodeTxd D).bufferAddress⟩, 65536⟩] ++ s.allocs }

/-- The MAC consumes the image next. -/
def placeTx (D : Image) (s : State) : State :=
  { placeImage D s with
    mac := { s.mac with tdba := 0, tdh := 0, tdt := 1, tctl := s.mac.tctl ||| s.cfg.tctlEn }
    sched := .macTx :: s.sched }

/-- The MAC fills the image's slot next; an empty frame arrives if no frame waits. -/
def placeRx (D : Image) (s : State) : State :=
  let rctl := s.mac.rctl ||| s.cfg.rctlEn
  { placeImage D s with
    mac := { s.mac with
      rdba := 0
      rdh := 0
      rdt := 1
      rctl := rctl
      wireIn :=
        if (nextFrame (rxLimit s.cfg rctl) s.mac.wireIn).isSome then s.mac.wireIn else [] :: s.mac.wireIn }
    sched := .macRx :: s.sched }

/-- The host issues the word next. -/
def placeCommand (w : Word) (s : State) : State :=
  { s with seq := .idle, sched := .issue w s.arg0 s.pktIn :: s.sched }

/-- The word is where the next step fetches. -/
def placeWord (e : Encoded) (s : State) : State :=
  match e with
  | .cmdw w => placeCommand w s
  | .txd D => placeTx D s
  | .rxd D => placeRx D s

end Sys2Proof.Machine
end

