-- ==== Sys2Proof/Machine/Step.lean ====
section
/-! DEFINITION. One step of the machine: the next move of the schedule, made by its agent (R30). -/

namespace Sys2Proof.Machine

/-- One step. -/
def step (s : State) : Host.Outcome State Fault Refusal := perform (nextMove s) s.popSched

/-- `s` with the opcode-table word `w` of `nbits` bits where the next step fetches: a command word is the host's
next issue, a descriptor is at the MAC's head with the MAC's step next (log entry 13). -/
def State.withFetchWord (s : State) (nbits w : Nat) : State :=
  match tableWord nbits w with
  | none => s
  | some e => placeWord e s

end Sys2Proof.Machine
end

