-- ==== Sys2Proof/Safety.lean ====
section
/-! DEFINITION. What a good state is, in the terms the statements use: a safe run (R42, R108(e)), the invariants of
the spec's prose, and the bytes each command's next micro-operation stores to. -/

namespace Sys2Proof

open Sys2Proof.Machine

/-- The premise of every claim about a run (R42, R108(e)): no fatal fault has occurred and nothing has raced. -/
def Safe (s : State) : Prop := s.fault = 0 ∧ s.raced = false

/-- The lifecycle state is one a command can meet at its first micro-operation (R323). -/
def settledLife (l : Life) : Bool :=
  match l with
  | .uninitialized => true
  | .reset => false
  | .ringsProgrammed => false
  | .interruptsConfigured => false
  | .ready => true
  | .failed => true

/-- The lifecycle state in which CONSTRUCT stands at `p` (R200, R203). -/
def constructLife (p : ConstructPos) (l : Life) : Bool :=
  match p with
  | .gate => settledLife l
  | .alloc _ => l == .uninitialized
  | .maskFirst => l == .uninitialized
  | .readCtl => l == .uninitialized
  | .assertReset _ => l == .uninitialized
  | .maskAgain => l == .uninitialized
  | .resetFence => l == .uninitialized
  | .validate => l == .reset
  | .initTags => l == .reset
  | .txAddr _ => l == .reset
  | .txStatus _ => l == .reset
  | .txReg _ => l == .reset
  | .txFence => l == .reset
  | .txTail => l == .reset
  | .rxAddr _ => l == .reset
  | .rxReg _ => l == .reset
  | .rxFence => l == .reset
  | .rxTail => l == .reset
  | .mta _ => l == .ringsProgrammed
  | .timing _ => l == .ringsProgrammed
  | .unmask => l == .ringsProgrammed
  | .readCause => l == .interruptsConfigured
  | .clearCause _ => l == .interruptsConfigured
  | .flush => l == .interruptsConfigured
  | .ret => l == .ready

/-- A command other than CONSTRUCT runs past its first micro-operation only in `Ready` (R307, R323). -/
def lifeAt (q : Seq) (l : Life) : Bool :=
  match q with
  | .idle => settledLife l
  | .construct _ p => constructLife p l
  | .transmit _ p => if p = .gate then settledLife l else l == .ready
  | .receive _ p => if p = .gate then settledLife l else l == .ready
  | .serviceIrq _ p => if p = .gate then settledLife l else l == .ready
  | .irqEnable _ p => if p = .gate then settledLife l else l == .ready
  | .irqDisable _ p => if p = .gate then settledLife l else l == .ready
  | .teardown _ p => if p = .gate then settledLife l else l == .ready

/-- The lifecycle invariant (R31, R203, R310, R323): the state fits the sequencer's place, and it is `Failed`
exactly while the fault latch is set. -/
def LifeInv (s : State) : Prop := lifeAt s.seq s.life = true ∧ (s.life = .failed ↔ s.fault ≠ 0)

/-- The command in progress is the one the command word decodes to (R32, R38, R281). -/
def PortInv (s : State) : Prop := ∀ i, s.seq.instr = some i → decode (.cmdw s.cmdw) = .instr i

/-- The tables have one entry per slot (R35), the multicast table 128 (R66). -/
def TableInv (s : State) : Prop :=
  s.txq.buf.length = s.cfg.cap ∧ s.txq.own.length = s.cfg.cap ∧
  s.rxq.buf.length = s.cfg.cap ∧ s.rxq.own.length = s.cfg.cap ∧ s.mac.mta.length = 128

/-- DMA memory is in canonical form. -/
def MemInv (s : State) : Prop := Memory.wf s.mem = true

/-- Every buffered store is naturally aligned (R86). -/
def AlignInv (s : State) : Prop := ∀ e ∈ s.sb, e.pa.toNat % e.n.bytes = 0

/-- The allocator's contract over the live allocations (R98, R275): page-aligned, not 0, inside the address space,
disjoint, each with its own `va`. -/
def AllocInv (s : State) : Prop :=
  (∀ x ∈ s.allocs, x.h.pa ≠ 0 ∧ x.h.pa.toNat % s.cfg.pageSize = 0 ∧
    x.h.pa.toNat + x.pages * s.cfg.pageSize ≤ 2 ^ 64) ∧
  s.allocs.Pairwise (fun x y =>
    x.h.va ≠ y.h.va ∧
      (x.h.pa.toNat + x.pages * s.cfg.pageSize ≤ y.h.pa.toNat ∨
        y.h.pa.toNat + y.pages * s.cfg.pageSize ≤ x.h.pa.toNat))

/-- The next micro-operation writes a tail register, or follows TRANSMIT's tail write: no store of the command is
outstanding. -/
def storesDone (q : Seq) : Prop :=
  match q with
  | .construct _ .txTail => True
  | .construct _ .rxTail => True
  | .transmit _ (.handOff _ _) => True
  | .transmit _ (.flush _) => True
  | .transmit _ (.lastFence _) => True
  | .transmit _ (.ret _) => True
  | .receive _ (.rearm _) => True
  | _ => False

/-- Descriptor before tail (R107(b), R237, R350, R360): where a tail register is written the store buffer is empty,
and TRANSMIT's trailing fence finds it empty. -/
def FenceInv (s : State) : Prop := storesDone s.seq → s.sb = []

/-- The next micro-operation follows the write flush that ends the command (R107(e)). -/
def afterFlush (q : Seq) : Prop :=
  match q with
  | .construct _ .ret => True
  | .transmit _ (.lastFence _) => True
  | .transmit _ (.ret _) => True
  | .irqEnable _ .ret => True
  | .irqDisable _ .ret => True
  | _ => False

/-- A command that ends with a write flush returns with its register writes arrived (R107(e), R152). -/
def FlushInv (s : State) : Prop := afterFlush s.seq → s.pwq = []

/-- What register `off` will hold, now holding `cur`, when the posted writes have arrived, if only they and a
device reset (which zeroes it, R262) write it. -/
def regAfter (c : Cfg) (off cur : Word) (pwq : List Posted) : Word :=
  match pwq with
  | [] => cur
  | p :: rest =>
    regAfter c off (if p.off = off then p.v else if p.off = c.offCtl ∧ p.v &&& c.ctlRst ≠ 0 then 0 else cur) rest

/-- The configuration's free offsets are not a tail register's nor `CTL`'s: nothing but the tail writes and the
device reset of R204 reaches the tail registers. The defaults meet it. -/
def tailsPrivate (c : Cfg) : Prop :=
  c.valid = true ∧ (∀ o, o = c.irqOffReg ∨ o ∈ c.irqTimingRegs → o ≠ c.offTdt ∧ o ≠ c.offRdt ∧ o ≠ c.offCtl)

/-- Init has written the TX tail register. -/
def txTailKnown (s : State) : Prop :=
  match s.seq with
  | .construct _ (.rxAddr _) => True
  | .construct _ (.rxReg _) => True
  | .construct _ .rxFence => True
  | .construct _ .rxTail => True
  | _ => s.life = .ringsProgrammed ∨ s.life = .interruptsConfigured ∨ s.life = .ready

/-- Init has written the RX tail register. -/
def rxTailKnown (s : State) : Prop := s.life = .ringsProgrammed ∨ s.life = .interruptsConfigured ∨ s.life = .ready

/-- Shadow and register agree (R36, R354): once the posted writes have arrived, `TDT` and `RDT` hold the shadow
indices. The first two clauses say where init can stand. -/
def TailInv (s : State) : Prop :=
  lifeAt s.seq s.life = true ∧
  (∀ n k, s.seq = .construct n (.mta k) → k < 128) ∧
  (txTailKnown s → regAfter s.cfg s.cfg.offTdt s.mac.tdt s.pwq = indexWord s.txq.tail) ∧
  (rxTailKnown s → regAfter s.cfg s.cfg.offRdt s.mac.rdt s.pwq = indexWord s.rxq.tail)

/-- Every slot of ring `q` is RINGCTL's. -/
def allOwned (s : State) (q : RingId) : Prop := ∀ j < s.cfg.cap, s.tag q j = .sw

/-- The slot a command stands at: it exists, and where the next micro-operations are guarded accesses it is
RINGCTL's (R188 to R191, R193). -/
def slotOwned (s : State) : Prop :=
  match s.seq with
  | .construct _ .initTags => 0 < s.cfg.cap
  | .construct _ (.txAddr i) => i < s.cfg.cap ∧ allOwned s .tx ∧ allOwned s .rx
  | .construct _ (.txStatus i) => i < s.cfg.cap ∧ allOwned s .tx ∧ allOwned s .rx
  | .construct _ (.txReg _) => 0 < s.cfg.cap ∧ allOwned s .rx
  | .construct _ .txFence => 0 < s.cfg.cap ∧ allOwned s .rx
  | .construct _ .txTail => 0 < s.cfg.cap ∧ allOwned s .rx
  | .construct _ (.rxAddr i) => i < s.cfg.cap ∧ allOwned s .rx
  | .transmit _ (.readStatus i) => i < s.cfg.cap
  | .transmit _ (.busyTest i _) => i < s.cfg.cap
  | .transmit _ (.truncate i) => s.tag .tx i = .sw
  | .transmit _ (.copy i _ _) => s.tag .tx i = .sw
  | .transmit _ (.setAddr i _) => s.tag .tx i = .sw
  | .transmit _ (.setLength i _) => s.tag .tx i = .sw
  | .transmit _ (.setStatus i _) => s.tag .tx i = .sw
  | .transmit _ (.setCommand i _) => s.tag .tx i = .sw
  | .receive _ (.batch i) => i < s.cfg.cap
  | .receive _ (.readStatus i) => i < s.cfg.cap
  | .receive _ (.readyTest i _) => i < s.cfg.cap
  | .receive _ (.readFence i) => i < s.cfg.cap
  | .receive _ (.readAddr i) => i < s.cfg.cap ∧ s.tag .rx i = .sw
  | .receive _ (.addrTest i _) => i < s.cfg.cap ∧ s.tag .rx i = .sw
  | .receive _ (.readLength i) => i < s.cfg.cap ∧ s.tag .rx i = .sw
  | .receive _ (.copy i _ _) => i < s.cfg.cap ∧ s.tag .rx i = .sw
  | .receive _ (.deliver i _) => i < s.cfg.cap ∧ s.tag .rx i = .sw
  | .receive _ (.scrub i _) => i < s.cfg.cap ∧ s.tag .rx i = .sw
  | .receive _ (.clearStatus i) => i < s.cfg.cap ∧ s.tag .rx i = .sw
  | .receive _ (.fence i) => i < s.cfg.cap
  | .receive _ (.rearm i) => i < s.cfg.cap
  | .receive _ (.advance i) => i < s.cfg.cap
  | _ => True

/-- Exclusivity on RINGCTL's side (R194): the tables fit the rings and the guard is met wherever it stands next. -/
def OwnedInv (s : State) : Prop := TableInv s ∧ slotOwned s

/-! ### What a micro-operation stores to -/

/-- The slot and the bytes TRANSMIT's next micro-operation stores to: the address and the width (R234, R235). -/
def transmitTarget (s : State) : Option (Nat × Addr × Nat) :=
  match s.seq with
  | .transmit _ (.copy i _ k) => some (i, bufPa s .tx i + BitVec.ofNat 64 k, 1)
  | .transmit _ (.setAddr i _) => some (i, descPa s .tx i fieldAddr, 8)
  | .transmit _ (.setLength i _) => some (i, descPa s .tx i fieldLength, 2)
  | .transmit _ (.setStatus i _) => some (i, descPa s .tx i fieldStatus, 1)
  | .transmit _ (.setCommand i _) => some (i, descPa s .tx i fieldCommand, 1)
  | _ => none

/-- The slot and the bytes RECEIVE's next micro-operation stores to (R244, R245). -/
def receiveTarget (s : State) : Option (Nat × Addr × Nat) :=
  match s.seq with
  | .receive _ (.scrub i k) => some (i, bufPa s .rx i + BitVec.ofNat 64 k, 1)
  | .receive _ (.clearStatus i) => some (i, descPa s .rx i fieldStatus, 1)
  | _ => none

/-- The ring, the slot and the bytes CONSTRUCT's next micro-operation stores to (R207, R209). -/
def constructTarget (s : State) : Option (RingId × Nat × Addr × Nat) :=
  match s.seq with
  | .construct _ (.txAddr i) => some (.tx, i, descPa s .tx i fieldAddr, 8)
  | .construct _ (.txStatus i) => some (.tx, i, descPa s .tx i fieldStatus, 1)
  | .construct _ (.rxAddr i) => some (.rx, i, descPa s .rx i fieldAddr, 8)
  | _ => none

/-- The 128-bit image of the 16 bytes at `d` (R90). -/
def imageAt (m : Memory) (d : Nat) : Image := ofBytes 128 ((List.range 16).map (fun k => m.read (d + k)))

/-- RINGCTL holds no byte of the `n` from `a` on: a MAC access to them does not race (R108(e), log entry 6). -/
def Unraced (s : State) (a n : Nat) : Prop := ∀ j < n, racing s (a + j) = false

/-- Byte `a` is one of the `n` bytes from `pa` on. -/
def inBytes (pa : Addr) (n a : Nat) : Prop := pa.toNat ≤ a ∧ a < pa.toNat + n

end Sys2Proof
end

