-- ==== Sys2Proof/Certificates/Slice0/Obligations.lean ====
section
/-! DEFINITION. The statements for the provers. Each docstring names the rule of spec/ it formalises. A statement
about `exec` on a command is about the micro-operation the command stands at, the spec's own unit of execution
(spec/10_state.md R32, spec/60_exceptions.md R312); a full-state equation says at once the effect and the frame. -/

open Sys2Proof Sys2Proof.Machine

/-! ### Encoding -/

/-- R129, R130, R132 and the examples of R161, R162, R165: a few words, written out. -/
def Obligations.WordsDecodeAsTheMapSays : Prop :=
  decode (.cmdw 0x00000001) = .instr .construct ∧
  decode (.cmdw 0x00000002) = .instr .transmit ∧
  decode (.cmdw 0x00000003) = .instr .receive ∧
  decode (.cmdw 0x00000004) = .instr .serviceIrq ∧
  decode (.cmdw 0x00000005) = .instr .irqEnable ∧
  decode (.cmdw 0x00000006) = .instr .irqDisable ∧
  decode (.cmdw 0x00000007) = .instr .teardown ∧
  decode (.cmdw 0x00000000) = .rejected .opcode ∧
  decode (.cmdw 0x00000008) = .rejected .opcode ∧
  decode (.cmdw 0x00000102) = .rejected .reservedBits ∧
  decode (.txd (ofBytes 128
    [0x00, 0x60, 0x45, 0x23, 0x01, 0x00, 0x00, 0x00, 0x3C, 0x00, 0x00, 0x09, 0x01, 0x00, 0x00, 0x00])) =
    .instr (.txd ⟨0x0000000123456000, 60, 0, 0x09, 0x01, 0, 0⟩) ∧
  decode (.rxd (ofBytes 128
    [0x00, 0x00, 0x10, 0x80, 0x00, 0x00, 0x00, 0x00, 0x40, 0x00, 0x00, 0x00, 0x03, 0x00, 0x00, 0x00])) =
    .instr (.rxd ⟨0x0000000080100000, 64, 0, 0x03, 0, 0⟩)

/-- R168, R130: the decoder inverts the encoder on every instruction with every operand, and every word it accepts
is the encoding of what it reads: each word has one meaning. -/
def Obligations.DecodeInvertsEncode : Prop :=
  ∀ (e : Encoded) (i : Instr), decode e = .instr i ↔ e = encode i

/-- R132, R306: the words outside the map, all of them, are rejected, by the name of what is wrong. -/
def Obligations.IllegalWordsAreRejectedByName : Prop :=
  ∀ w : Word,
    (decode (.cmdw w) = .rejected .reservedBits ↔ w.extractLsb' 8 24 ≠ 0) ∧
    (decode (.cmdw w) = .rejected .opcode ↔
      w.extractLsb' 8 24 = 0 ∧ (w.toNat % 256 = 0 ∨ 8 ≤ w.toNat % 256))

/-- R161, R165: where each field of a record lies in its image, with the examples' bytes. -/
def Obligations.DescriptorFieldsLieWhereStated : Prop :=
  (∀ d : TxDesc,
    (encodeTxd d).extractLsb' 0 64 = d.bufferAddress ∧
    (encodeTxd d).extractLsb' 64 16 = d.length ∧
    (encodeTxd d).extractLsb' 80 8 = d.checksumOffset ∧
    (encodeTxd d).extractLsb' 88 8 = d.command ∧
    (encodeTxd d).extractLsb' 96 8 = d.status ∧
    (encodeTxd d).extractLsb' 104 8 = d.checksumStart ∧
    (encodeTxd d).extractLsb' 112 16 = d.special) ∧
  (∀ d : RxDesc,
    (encodeRxd d).extractLsb' 0 64 = d.bufferAddress ∧
    (encodeRxd d).extractLsb' 64 16 = d.length ∧
    (encodeRxd d).extractLsb' 80 16 = d.checksum ∧
    (encodeRxd d).extractLsb' 96 8 = d.status ∧
    (encodeRxd d).extractLsb' 104 8 = d.errors ∧
    (encodeRxd d).extractLsb' 112 16 = d.special) ∧
  bytesOf 16 (encodeTxd ⟨0x0000000123456000, 60, 0, 0x09, 0, 0, 0⟩) =
    [0x00, 0x60, 0x45, 0x23, 0x01, 0x00, 0x00, 0x00, 0x3C, 0x00, 0x00, 0x09, 0x00, 0x00, 0x00, 0x00] ∧
  bytesOf 16 (encodeRxd ⟨0x0000000080100000, 64, 0, 0x03, 0, 0⟩) =
    [0x00, 0x00, 0x10, 0x80, 0x00, 0x00, 0x00, 0x00, 0x40, 0x00, 0x00, 0x00, 0x03, 0x00, 0x00, 0x00]

/-- R163, R167, R168: a field's bytes written into a descriptor in memory change that field of the decoded record
and no other. -/
def Obligations.FieldWriteChangesThatFieldOnly : Prop :=
  ∀ (m : Memory) (d : Nat), Memory.wf m = true →
    (∀ v : Addr, decodeTxd (imageAt (m.writeBytes d (bytesOf 8 v)) d) =
      { decodeTxd (imageAt m d) with bufferAddress := v }) ∧
    (∀ v : Half, decodeTxd (imageAt (m.writeBytes (d + 8) (bytesOf 2 v)) d) =
      { decodeTxd (imageAt m d) with length := v }) ∧
    (∀ v : Byte, decodeTxd (imageAt (m.writeBytes (d + 11) [v]) d) = { decodeTxd (imageAt m d) with command := v }) ∧
    (∀ v : Byte, decodeTxd (imageAt (m.writeBytes (d + 12) [v]) d) = { decodeTxd (imageAt m d) with status := v }) ∧
    (∀ v : Addr, decodeRxd (imageAt (m.writeBytes d (bytesOf 8 v)) d) =
      { decodeRxd (imageAt m d) with bufferAddress := v }) ∧
    (∀ v : Byte, decodeRxd (imageAt (m.writeBytes (d + 12) [v]) d) = { decodeRxd (imageAt m d) with status := v })

/-! ### Ring indices -/

/-- R181: `next(i) = (i + 1) mod CAP`, which on a power of two is the low `IDXW` bits of `i + 1`; it stays on the
ring, and `next(CAP-1) = 0` is the only wrap-around. -/
def Obligations.NextIndexIsTheLowBitsOfTheSum : Prop :=
  ∀ (c : Cfg) (w i : Nat), c.cap = 2 ^ w → i < c.cap →
    nextIndex c i = (BitVec.ofNat w i + 1).toNat ∧
    nextIndex c i < c.cap ∧
    (nextIndex c i = 0 ↔ i = c.cap - 1) ∧
    (i ≠ c.cap - 1 → nextIndex c i = i + 1)

/-! ### Reset -/

/-- R340, R342: block reset, from any state. The lifecycle register, the sequencer, the latch, the results, the
queues and both write buffers take the values the rule states; the MAC, `Mem`, the live allocations and the
configuration are as before. -/
def Obligations.BlockResetLeaves : Prop :=
  ∀ (s : State) (rest : List Move), s.sched = .blockReset :: rest →
    ∃ t, step s = .next t ∧
      t.life = .uninitialized ∧ t.seq = .idle ∧ t.fault = 0 ∧ t.resCode = 0 ∧ t.resVal = 0 ∧
      t.pktOut = [] ∧ t.log = [] ∧ t.sb = [] ∧ t.pwq = [] ∧
      t.mac = s.mac ∧ t.mem = s.mem ∧ t.allocs = s.allocs ∧ t.cfg = s.cfg

/-- The invariants below hold at reset, for every configuration (R74, R340). -/
def Obligations.InvariantsHoldAtReset : Prop :=
  ∀ c : Cfg,
    LifeInv (State.init c) ∧ PortInv (State.init c) ∧ TableInv (State.init c) ∧ MemInv (State.init c) ∧
    AlignInv (State.init c) ∧ AllocInv (State.init c) ∧ FenceInv (State.init c) ∧ FlushInv (State.init c) ∧
    TailInv (State.init c) ∧ OwnedInv (State.init c) ∧ Safe (State.init c)

/-! ### Invariants every step keeps -/

/-- R31, R203, R310, R323: every step, of every agent, keeps the lifecycle invariant. -/
def Obligations.StepKeepsLifecycle : Prop := ∀ s t : State, LifeInv s → step s = .next t → LifeInv t

/-- R32, R38, R281: the command in progress stays the one the command word decodes to. -/
def Obligations.StepKeepsCommandWord : Prop := ∀ s t : State, PortInv s → step s = .next t → PortInv t

/-- R35, R75: the handle tables and the tags keep one entry per slot, and no step of any agent changes the
configuration. -/
def Obligations.StepKeepsTablesAndConfiguration : Prop :=
  ∀ s t : State, step s = .next t → (TableInv s → TableInv t) ∧ t.cfg = s.cfg

/-- R80, R86: DMA memory keeps its canonical form, and every buffered store stays naturally aligned. -/
def Obligations.StepKeepsMemoryAndStoresWellFormed : Prop :=
  ∀ s t : State, step s = .next t → (MemInv s → MemInv t) ∧ (AlignInv s → AlignInv t)

/-- R188 to R194, R309: wherever a guarded access stands next its slot is RINGCTL's, at every step of every agent;
hence no step latches `OwnershipViolation` ("No command of this spec raises it"). -/
def Obligations.StepKeepsOwnership : Prop :=
  ∀ s t : State, OwnedInv s → step s = .next t → OwnedInv t ∧ (t.fault = 0x09 → s.fault = 0x09)

/-- R92, R98, R275: the live allocations stay page-aligned, nonzero, inside the address space and disjoint. -/
def Obligations.StepKeepsAllocationsDisjoint : Prop := ∀ s t : State, AllocInv s → step s = .next t → AllocInv t

/-- R107(b), R350, R360: "descriptor fully written, then fence, then tail advance": wherever a tail register is
about to be written the store buffer is empty, under every schedule. -/
def Obligations.StepKeepsDescriptorBeforeTail : Prop := ∀ s t : State, FenceInv s → step s = .next t → FenceInv t

/-- R107(e), R152: CONSTRUCT, TRANSMIT, IRQ_ENABLE and IRQ_DISABLE return with their register writes arrived. -/
def Obligations.StepKeepsFlushBeforeReturn : Prop := ∀ s t : State, FlushInv s → step s = .next t → FlushInv t

/-- R36, R268, R354: shadow and register agree. Every step keeps it, save a device reset by someone other than
RINGCTL, which the rule excludes; and it comes to this: whenever `S.life = Ready` and the posted-write queue is
empty, the shadow indices are the tail registers'. -/
def Obligations.StepKeepsShadowTails : Prop :=
  (∀ s t : State, tailsPrivate s.cfg → nextMove s ≠ .macReset → TailInv s → step s = .next t → TailInv t) ∧
  (∀ s : State, TailInv s → s.life = .ready → s.pwq = [] →
    s.mac.tdt = BitVec.ofNat 32 s.txq.tail ∧ s.mac.rdt = BitVec.ofNat 32 s.rxq.tail)

/-! ### The step -/

/-- R30, R32, R112, R281: a step whose move fetches a word runs `exec` of the instruction decoded from it. The
sequencer runs the command in progress; the host's issue writes the port (R38) and starts the command the word
decodes to; the MAC runs the descriptor it reads at the head of its ring. Around `exec` the step only takes the move
from the schedule. The second clause is the empty schedule's move, which is the model's choice (log entry 1). -/
def Obligations.StepRunsTheDecodedInstruction : Prop :=
  (∀ (s : State) (rest : List Move) (i : Instr),
    s.sched = .sequencer :: rest → s.seq.instr = some i → step s = exec i { s with sched := rest }) ∧
  (∀ (s : State) (i : Instr),
    s.sched = [] → s.sb = [] → s.pwq = [] → s.seq.instr = some i → step s = exec i s) ∧
  (∀ (s : State) (rest : List Move) (w a : Word) (p : List Byte) (i : Instr),
    s.sched = .issue w a p :: rest → s.seq = .idle → decode (.cmdw w) = .instr i →
    step s = exec i { s with sched := rest, cmdw := w, arg0 := a, pktIn := p }) ∧
  (∀ (s : State) (rest : List Move) (i : Instr),
    s.sched = .macTx :: rest → macTxEnabled s = true →
    (txHeadPa s.mac).toNat + 16 ≤ 2 ^ 64 → s.live (txHeadPa s.mac).toNat 16 = true →
    Unraced s (txHeadPa s.mac).toNat 16 → decode (.txd (imageAt s.mem (txHeadPa s.mac).toNat)) = .instr i →
    step s = exec i { s with sched := rest }) ∧
  (∀ (s : State) (rest : List Move) (i : Instr),
    s.sched = .macRx :: rest → macRxEnabled s = true → (waitingFrame s).isSome = true →
    (rxHeadPa s.mac).toNat + 16 ≤ 2 ^ 64 → s.live (rxHeadPa s.mac).toNat 16 = true →
    Unraced s (rxHeadPa s.mac).toNat 16 → decode (.rxd (imageAt s.mem (rxHeadPa s.mac).toNat)) = .instr i →
    step s = exec i { s with sched := rest })

/-- R306: an illegal word issued while idle gives `IllegalCommand` with the word, and nothing else changes but the
port the host wrote. -/
def Obligations.IllegalCommandRecordsTheWord : Prop :=
  ∀ (s : State) (rest : List Move) (w a : Word) (p : List Byte) (e : DecodeError),
    s.sched = .issue w a p :: rest → s.seq = .idle → decode (.cmdw w) = .rejected e →
    step s = .next { s with sched := rest, cmdw := w, arg0 := a, pktIn := p, resCode := 0x06, resVal := w }

/-- R32, R281: issuing a command while idle starts it, no micro-operation performed yet, and changes nothing else;
while another command runs the port takes none. -/
def Obligations.IssueStartsTheCommand : Prop :=
  ∀ s : State,
    (s.seq = .idle →
      exec .construct s = .next { s with seq := .construct 0 .gate } ∧
      exec .transmit s = .next { s with seq := .transmit 0 .gate } ∧
      exec .receive s = .next { s with seq := .receive 0 .gate } ∧
      exec .serviceIrq s = .next { s with seq := .serviceIrq 0 .gate } ∧
      exec .irqEnable s = .next { s with seq := .irqEnable 0 .gate } ∧
      exec .irqDisable s = .next { s with seq := .irqDisable 0 .gate } ∧
      exec .teardown s = .next { s with seq := .teardown 0 .gate }) ∧
    (∀ i, (∀ d, i ≠ .txd d) → (∀ d, i ≠ .rxd d) → s.seq ≠ .idle → s.seq.instr ≠ some i → exec i s = .next s)

/-- R271, R275, R280, R281, R283: what the other agents do at RINGCTL's ports: the host takes the oldest packet and
the oldest log event, offers a frame of at most `BUF_SIZE` bytes to the wire (a longer one is refused) or drops a
waiting one, and has no move on the command port while a command runs; the allocator's answer joins its queue. Nothing
else changes. The queue of answers is the model's own (log entry 5); that the host may take a packet or an event while
a command runs is the model's choice (log entry 30). -/
def Obligations.HostAndAllocatorMoves : Prop :=
  ∀ (s : State) (rest : List Move),
    (s.sched = .takePacket :: rest → step s = .next { s with sched := rest, pktOut := s.pktOut.tail }) ∧
    (s.sched = .takeLog :: rest → step s = .next { s with sched := rest, log := s.log.tail }) ∧
    (∀ f, s.sched = .offerFrame f :: rest →
      (f.length ≤ s.cfg.bufSize →
        step s = .next { s with sched := rest, mac := { s.mac with wireIn := s.mac.wireIn ++ [f] } }) ∧
      (s.cfg.bufSize < f.length → step s = .refused .oversizeFrame)) ∧
    (∀ k, s.sched = .dropFrame k :: rest →
      step s = .next { s with sched := rest, mac := { s.mac with wireIn := s.mac.wireIn.eraseIdx k } }) ∧
    (∀ w a p, s.sched = .issue w a p :: rest → s.seq ≠ .idle → step s = .next { s with sched := rest }) ∧
    (∀ x, s.sched = .answer x :: rest → step s = .next { s with sched := rest, answers := s.answers ++ [x] })

/-! ### Outcomes -/

/-- R307, R323: the first micro-operation of a command whose lifecycle precondition does not hold records `S.life`
(R31's codes 0 to 5) under code `0x07`; nothing else changes. CONSTRUCT runs only from `Uninitialized`, the others
only from `Ready`. -/
def Obligations.WrongStateRecordsLife : Prop :=
  (lifeWord .uninitialized = 0 ∧ lifeWord .reset = 1 ∧ lifeWord .ringsProgrammed = 2 ∧
    lifeWord .interruptsConfigured = 3 ∧ lifeWord .ready = 4 ∧ lifeWord .failed = 5) ∧
  ∀ (s : State) (n : Nat),
    (s.seq = .construct n .gate → s.life ≠ .uninitialized →
      exec .construct s = .next { s with resCode := 0x07, resVal := lifeWord s.life, seq := .idle }) ∧
    (s.life ≠ .ready →
      (s.seq = .transmit n .gate →
        exec .transmit s = .next { s with resCode := 0x07, resVal := lifeWord s.life, seq := .idle }) ∧
      (s.seq = .receive n .gate →
        exec .receive s = .next { s with resCode := 0x07, resVal := lifeWord s.life, seq := .idle }) ∧
      (s.seq = .serviceIrq n .gate →
        exec .serviceIrq s = .next { s with resCode := 0x07, resVal := lifeWord s.life, seq := .idle }) ∧
      (s.seq = .irqEnable n .gate →
        exec .irqEnable s = .next { s with resCode := 0x07, resVal := lifeWord s.life, seq := .idle }) ∧
      (s.seq = .irqDisable n .gate →
        exec .irqDisable s = .next { s with resCode := 0x07, resVal := lifeWord s.life, seq := .idle }) ∧
      (s.seq = .teardown n .gate →
        exec .teardown s = .next { s with resCode := 0x07, resVal := lifeWord s.life, seq := .idle }))

/-- R310, whole: the fatal latch, in one step: the first fatal code is kept, the event carries `S.life` as it was,
the lifecycle state is `Failed`, the result is recorded, the sequencer idle, and nothing else changes (nothing
freed, no register written, both buffers as they were); the five fatal codes are R300's. From `Failed` every command
is refused with `WrongState(5)`, only block reset leaves it, and the two buffers go on draining. -/
def Obligations.FatalFaultLatches : Prop :=
  (∀ (s : State) (c : Code) (info : Word),
    (codeFatal c = true ↔
      (c = .configError ∨ c = .allocFailure ∨ c = .regIndexOutOfRange ∨ c = .ringIndexOutOfRange ∨
        c = .ownershipViolation)) ∧
    (codeFatal c = true →
      s.raise c info =
        { s with
          fault := if s.fault = 0 then codeByte c else s.fault
          log := s.log ++ [.fatal (codeByte c) info s.life]
          life := .failed
          resCode := codeByte c
          resVal := info
          seq := .idle })) ∧
  (∀ (s : State) (i : Instr), (∀ d, i ≠ .txd d) → (∀ d, i ≠ .rxd d) → s.seq = .idle → s.life = .failed →
    ∃ t, exec i s = .next t ∧ exec i t = .next { s with resCode := 0x07, resVal := 5 }) ∧
  (∀ s t : State, LifeInv s → s.life = .failed → step s = .next t → t.life ≠ .failed → nextMove s = .blockReset) ∧
  (∀ (s : State) (rest : List Move), s.life = .failed →
    (∀ e es, s.sched = .drainStore 0 :: rest → s.sb = e :: es →
      step s = .next { s with
        sched := rest, sb := es, mem := s.mem.writeBytes e.pa.toNat (bytesOf e.n.bytes e.v) }) ∧
    (∀ p ps r, s.sched = .drainPosted :: rest → s.pwq = p :: ps → regAt s.cfg p.off = some r →
      step s = .next (macWrite r p.v { s with sched := rest, pwq := ps })))

/-- R302, R303, R305, R308: what raises each fatal fault and what it records, under R300's numbers. -/
def Obligations.FatalFaultsAreRaisedWhere : Prop :=
  (codeByte .ok = 0x00 ∧ codeByte .busy = 0x01 ∧ codeByte .configError = 0x02 ∧ codeByte .allocFailure = 0x03 ∧
    codeByte .rxInvalidDescriptor = 0x04 ∧ codeByte .regIndexOutOfRange = 0x05 ∧ codeByte .illegalCommand = 0x06 ∧
    codeByte .wrongState = 0x07 ∧ codeByte .ringIndexOutOfRange = 0x08 ∧ codeByte .ownershipViolation = 0x09) ∧
  (∀ (s : State) (n : Nat), s.seq = .construct n .validate →
    (s.cfg.cap * 16 % 128 ≠ 0 ∨ ∀ w, s.cfg.cap ≠ 2 ^ w) →
    exec .construct s = .next (s.raise .configError (BitVec.ofNat 32 (s.cfg.cap * 16)))) ∧
  (∀ (s : State) (n k : Nat) (rest : List AllocAnswer), s.seq = .construct n (.alloc k) →
    s.answers = .fail :: rest →
    exec .construct s = .next (State.raise { s with answers := rest } .allocFailure (BitVec.ofNat 32 k))) ∧
  (∀ (s : State) (off v : Word) (kr : Word → State → Result) (kw : State → Result),
    (off.toNat % 4 ≠ 0 ∨ s.cfg.regCount ≤ off.toNat / 4) →
    regRead off kr s = .next (s.raise .regIndexOutOfRange off) ∧
    regWrite off v kw s = .next (s.raise .regIndexOutOfRange off)) ∧
  (∀ (s : State) (n : Nat) (x : Word), s.cfg.cap ≤ x.toNat →
    (s.seq = .transmit n (.index x) → exec .transmit s = .next (s.raise .ringIndexOutOfRange x)) ∧
    (s.seq = .receive n (.index x) → exec .receive s = .next (s.raise .ringIndexOutOfRange x)))

/-- R193, R309: a guarded access to a slot tagged `HW` is not performed and raises `OwnershipViolation` with ring
and slot (R300: bit 31 the ring, bits 15:0 the slot). -/
def Obligations.GuardRaisesOwnershipViolation : Prop :=
  ∀ (s : State) (q : RingId) (i j f : Nat) (n : Width) (v : Addr) (b : Byte)
    (k : State → Result) (ka : Addr → State → Result) (kb : Byte → State → Result),
    s.tag q i = .hw →
    setField q i f n v k s = .next (s.raise .ownershipViolation (ownInfo q i)) ∧
    getField q i f n ka s = .next (s.raise .ownershipViolation (ownInfo q i)) ∧
    setBufByte q i j b k s = .next (s.raise .ownershipViolation (ownInfo q i)) ∧
    getBufByte q i j kb s = .next (s.raise .ownershipViolation (ownInfo q i)) ∧
    (ownInfo .tx i).toNat = i % 65536 ∧ (ownInfo .rx i).toNat = 2147483648 + i % 65536

/-- R193, R194: RINGCTL stores only into a slot it owns. Whatever command runs, an entry that joins the store buffer
lies, with all its bytes, in the descriptor or the buffer of a slot tagged `SW` when it is issued. -/
def Obligations.StoresGoOnlyToOwnedSlots : Prop :=
  ∀ (s t : State) (i : Instr), exec i s = .next t →
    t.sb = s.sb ∨
    ∃ (q : RingId) (x : Nat) (e : StoreEntry), t.sb = s.sb ++ [e] ∧ s.tag q x = .sw ∧
      ((∃ f, f + e.n.bytes ≤ 16 ∧ e.pa = descPa s q x f) ∨
        (∃ k, k < s.cfg.bufSize ∧ e.pa = bufPa s q x + BitVec.ofNat 64 k ∧ e.n = .one))

/-! ### Memory and ordering -/

/-- R88, R89, R107(a): RINGCTL reads its own writes, at each width, and a store leaves what it sees of every other
byte. -/
def Obligations.LoadSeesOwnStore : Prop :=
  ∀ (s : State) (pa : Addr) (n : Width) (v : Addr),
    (s.store pa n v).load n pa.toNat = n.truncate v ∧
    (s.store pa n v).mem = s.mem ∧
    ∀ a, ¬ inBytes pa n.bytes a → (s.store pa n v).seenByte a = s.seenByte a

/-- R100, R101, R88: whichever entry drains, no byte RINGCTL sees changes; and only bytes of the drained entry
change in `Mem`. -/
def Obligations.DrainKeepsWhatRingctlSees : Prop :=
  ∀ (s : State) (j a : Nat), MemInv s →
    (drainStore j s).seenByte a = s.seenByte a ∧
    ((∀ e ∈ s.sb, ¬ inBytes e.pa e.n.bytes a) → (drainStore j s).mem.read a = s.mem.read a)

/-- R102: `SFENCE` passes, changing nothing, when the store buffer is empty; else it holds, and then the oldest
entry may drain, so that the hold lifts. -/
def Obligations.StoreFenceHoldsUntilDrained : Prop :=
  ∀ (s : State) (k : State → Result),
    (s.sb = [] → sfence k s = k s) ∧
    (∀ e rest, s.sb = e :: rest →
      sfence k s = .next s ∧
      drainStore 0 s = { s with sb := rest, mem := s.mem.writeBytes e.pa.toNat (bytesOf e.n.bytes e.v) })

/-- R103, R104, R105, R151, R152: a register write in range joins the end of the queue at once; a register read
holds while the queue is not empty; a write flush that passes finds it empty and leaves it so. -/
def Obligations.RegisterReadsWaitForPostedWrites : Prop :=
  ∀ (s : State) (off v : Word) (kr : Word → State → Result) (kw : State → Result),
    regInRange s.cfg off = true →
    regWrite off v kw s = kw { s with pwq := s.pwq ++ [⟨off, v⟩] } ∧
    (s.pwq ≠ [] → regRead off kr s = .next s) ∧
    (∀ r, s.pwq = [] → regAt s.cfg off = some r → regRead off kr s = kr (macRead r s).1 (macRead r s).2) ∧
    (s.cfg.valid = true → s.pwq = [] →
      writeFlush kw s = kw { s with draws := s.draws + 1 })

/-- R108(a), R100: the MAC never sees the store buffer: its steps do the same whatever the buffer holds. R108(e): its
access to a byte that RINGCTL holds is a race: a read is a free value, a write leaves a free value, and the run is
marked; its access to any other byte is `Mem`'s and marks nothing. Neither a fatal fault nor a block reset, of RINGCTL
alone (R310, R340), hands a byte over: what raced before races after, and nothing else does. Which bytes RINGCTL holds
is the model's own record (log entry 6). -/
def Obligations.MacNeverSeesStoreBuffer : Prop :=
  (∀ (s t : State) (b : List StoreEntry),
    (macTxStep s = .next t → macTxStep { s with sb := b } = .next { t with sb := b }) ∧
    (macRxStep s = .next t → macRxStep { s with sb := b } = .next { t with sb := b })) ∧
  ∀ (s : State) (a : Nat) (v : Byte),
    (racing s a = true ↔ ∃ e ∈ s.held, e.lo ≤ a ∧ a < e.lo + e.len) ∧
    (racing s a = true →
      macReadByte a s = ((s.free 0).setWidth 8, { s with draws := s.draws + 1, raced := true }) ∧
      macWriteByte a v s =
        { s with draws := s.draws + 1, raced := true, mem := s.mem.write a ((s.free 0).setWidth 8) }) ∧
    (racing s a = false →
      macReadByte a s = (s.mem.read a, s) ∧ macWriteByte a v s = { s with mem := s.mem.write a v }) ∧
    (∀ c info, racing (s.raise c info) a = racing s a) ∧
    (∀ rest, s.sched = .blockReset :: rest → ∃ t, step s = .next t ∧ racing t a = racing s a)

/-! ### The MAC's registers -/

/-- R51, R52, R53, R54: the interrupt registers, bit by bit. A read of `ICR` returns and clears the causes; a write
clears the bits it has 1 in; `ICS` sets; `IMS` sets mask bits, `IMC` clears them; a read of `IMS` returns the mask.
-/
def Obligations.InterruptRegistersBehave : Prop :=
  ∀ (s : State) (w : Word) (rest : List Posted), s.cfg.valid = true →
    (macRead .icr s = (s.mac.icause, { s with mac := { s.mac with icause := 0 } }) ∧
      macRead .ims s = (s.mac.imask, s)) ∧
    (s.pwq = ⟨s.cfg.offIcr, w⟩ :: rest → ∃ x : Word,
      drainPosted s = .next { s with pwq := rest, mac := { s.mac with icause := x } } ∧
      ∀ i < 32, x.getLsbD i = (s.mac.icause.getLsbD i && !w.getLsbD i)) ∧
    (s.pwq = ⟨s.cfg.offIcs, w⟩ :: rest → ∃ x : Word,
      drainPosted s = .next { s with pwq := rest, mac := { s.mac with icause := x } } ∧
      ∀ i < 32, x.getLsbD i = (s.mac.icause.getLsbD i || w.getLsbD i)) ∧
    (s.pwq = ⟨s.cfg.offIms, w⟩ :: rest → ∃ x : Word,
      drainPosted s = .next { s with pwq := rest, mac := { s.mac with imask := x } } ∧
      ∀ i < 32, x.getLsbD i = (s.mac.imask.getLsbD i || w.getLsbD i)) ∧
    (s.pwq = ⟨s.cfg.offImc, w⟩ :: rest → ∃ x : Word,
      drainPosted s = .next { s with pwq := rest, mac := { s.mac with imask := x } } ∧
      ∀ i < 32, x.getLsbD i = (s.mac.imask.getLsbD i && !w.getLsbD i))

/-- R49, R262: a `CTL` write with `RST` set resets the device as it arrives: heads, tails and both control registers
0, `RST` reads 0, the frames waiting on the wire and `Mem` as before; without `RST` it only stores the value. -/
def Obligations.CtlWriteResetsTheDevice : Prop :=
  ∀ (s : State) (w : Word) (rest : List Posted), s.cfg.valid = true → s.pwq = ⟨s.cfg.offCtl, w⟩ :: rest →
    (w &&& s.cfg.ctlRst ≠ 0 → ∃ t, drainPosted s = .next t ∧
      t.mac.tdh = 0 ∧ t.mac.tdt = 0 ∧ t.mac.rdh = 0 ∧ t.mac.rdt = 0 ∧ t.mac.tctl = 0 ∧ t.mac.rctl = 0 ∧
      t.mac.ctl &&& s.cfg.ctlRst = 0 ∧ t.mac.wireIn = s.mac.wireIn ∧ t.mem = s.mem ∧ t.pwq = rest) ∧
    (w &&& s.cfg.ctlRst = 0 →
      drainPosted s = .next { s with pwq := rest, mac := { s.mac with ctl := w } })

/-- R55 to R66, R261: the registers other than `CTL`, `STATUS` and the interrupt registers. The plain ones store what
arrives and read back what they hold; a ring base is written by halves; the low 4 bits of a base and the low 7 of a
length read as zero (for the RX ring as for the TX ring, R62). -/
def Obligations.RingRegistersBehave : Prop :=
  ∀ (s : State) (w : Word) (rest : List Posted), s.cfg.valid = true →
    (∀ off m,
      (off, m) ∈ [(s.cfg.offRctl, { s.mac with rctl := w }), (s.cfg.offTctl, { s.mac with tctl := w }),
        (s.cfg.offTipg, { s.mac with tipg := w }), (s.cfg.offItr, { s.mac with itr := w }),
        (s.cfg.offTdlen, { s.mac with tdlen := w }), (s.cfg.offTdh, { s.mac with tdh := w }),
        (s.cfg.offTdt, { s.mac with tdt := w }), (s.cfg.offTidv, { s.mac with tidv := w }),
        (s.cfg.offTadv, { s.mac with tadv := w }), (s.cfg.offRdlen, { s.mac with rdlen := w }),
        (s.cfg.offRdh, { s.mac with rdh := w }), (s.cfg.offRdt, { s.mac with rdt := w }),
        (s.cfg.offRdtr, { s.mac with rdtr := w }), (s.cfg.offRadv, { s.mac with radv := w })] →
      s.pwq = ⟨off, w⟩ :: rest → drainPosted s = .next { s with pwq := rest, mac := m }) ∧
    (s.pwq = ⟨s.cfg.offTdbal, w⟩ :: rest → ∃ b : Addr,
      drainPosted s = .next { s with pwq := rest, mac := { s.mac with tdba := b } } ∧
      b.toNat = s.mac.tdba.toNat / 2 ^ 32 * 2 ^ 32 + w.toNat) ∧
    (s.pwq = ⟨s.cfg.offTdbah, w⟩ :: rest → ∃ b : Addr,
      drainPosted s = .next { s with pwq := rest, mac := { s.mac with tdba := b } } ∧
      b.toNat = w.toNat * 2 ^ 32 + s.mac.tdba.toNat % 2 ^ 32) ∧
    (s.pwq = ⟨s.cfg.offRdbal, w⟩ :: rest → ∃ b : Addr,
      drainPosted s = .next { s with pwq := rest, mac := { s.mac with rdba := b } } ∧
      b.toNat = s.mac.rdba.toNat / 2 ^ 32 * 2 ^ 32 + w.toNat) ∧
    (s.pwq = ⟨s.cfg.offRdbah, w⟩ :: rest → ∃ b : Addr,
      drainPosted s = .next { s with pwq := rest, mac := { s.mac with rdba := b } } ∧
      b.toNat = w.toNat * 2 ^ 32 + s.mac.rdba.toNat % 2 ^ 32) ∧
    (∀ k < 128, s.pwq = ⟨s.cfg.offMta + BitVec.ofNat 32 (4 * k), w⟩ :: rest →
      drainPosted s = .next { s with pwq := rest, mac := { s.mac with mta := s.mac.mta.set k w } }) ∧
    (∀ (next : Word → State → Result) off x, s.pwq = [] →
      (off, x) ∈ [(s.cfg.offCtl, s.mac.ctl.toNat), (s.cfg.offRctl, s.mac.rctl.toNat),
        (s.cfg.offTctl, s.mac.tctl.toNat), (s.cfg.offTipg, s.mac.tipg.toNat), (s.cfg.offItr, s.mac.itr.toNat),
        (s.cfg.offTdbal, s.mac.tdba.toNat % 2 ^ 32 / 16 * 16), (s.cfg.offTdbah, s.mac.tdba.toNat / 2 ^ 32),
        (s.cfg.offTdlen, s.mac.tdlen.toNat / 128 * 128), (s.cfg.offTdh, s.mac.tdh.toNat),
        (s.cfg.offTdt, s.mac.tdt.toNat), (s.cfg.offTidv, s.mac.tidv.toNat), (s.cfg.offTadv, s.mac.tadv.toNat),
        (s.cfg.offRdbal, s.mac.rdba.toNat % 2 ^ 32 / 16 * 16), (s.cfg.offRdbah, s.mac.rdba.toNat / 2 ^ 32),
        (s.cfg.offRdlen, s.mac.rdlen.toNat / 128 * 128), (s.cfg.offRdh, s.mac.rdh.toNat),
        (s.cfg.offRdt, s.mac.rdt.toNat), (s.cfg.offRdtr, s.mac.rdtr.toNat), (s.cfg.offRadv, s.mac.radv.toNat)] →
      ∃ v : Word, v.toNat = x ∧ regRead off next s = next v s) ∧
    (∀ (next : Word → State → Result), ∀ k < 128, s.pwq = [] →
      regRead (s.cfg.offMta + BitVec.ofNat 32 (4 * k)) next s = next (s.mac.mta.getD k 0) s)

/-! ### CONSTRUCT and TEARDOWN -/

/-- R200, R323: in `Uninitialized` CONSTRUCT goes on to its first allocation. R9, R202, R275: allocation `k` takes an
answer that meets the contract: the region joins the live allocations, every byte of it reads 0, every other byte is
as before, and the handle is kept where the order of R202 says; a ring takes `ceil(CAP * 16 / PAGE_SIZE)` pages and a
buffer `ceil(BUF_SIZE / PAGE_SIZE)`. What RINGCTL uses of the region it holds from there on, and nothing it held there
of an earlier allocation (the record is the model's own, log entry 6). -/
def Obligations.ConstructAllocates : Prop :=
  (∀ (s : State) (n : Nat), s.seq = .construct n .gate → s.life = .uninitialized →
    exec .construct s = .next { s with seq := .construct (n + 1) (.alloc 0) }) ∧
  (∀ (c : Cfg) (k : Nat),
    (k = 0 ∨ k = c.cap + 1 → allocPages c k = (c.cap * 16 + (c.pageSize - 1)) / c.pageSize) ∧
    (k ≠ 0 → k ≠ c.cap + 1 → allocPages c k = (c.bufSize + (c.pageSize - 1)) / c.pageSize)) ∧
  ∀ (s : State) (n k : Nat) (h : Handle) (rest : List AllocAnswer),
    s.seq = .construct n (.alloc k) → s.answers = .grant h :: rest → contractOk s h (allocPages s.cfg k) = true →
    ∃ t, exec .construct s = .next t ∧
      t.allocs = s.allocs ++ [⟨h, allocPages s.cfg k⟩] ∧ t.answers = rest ∧
      (∀ a, h.pa.toNat ≤ a → a < h.pa.toNat + allocPages s.cfg k * s.cfg.pageSize → t.mem.read a = 0) ∧
      (∀ a, a < h.pa.toNat ∨ h.pa.toNat + allocPages s.cfg k * s.cfg.pageSize ≤ a → t.mem.read a = s.mem.read a) ∧
      (k = 0 → t.txq.ring = h ∧ t.txq.buf = s.txq.buf ∧ t.rxq = s.rxq) ∧
      (0 < k → k ≤ s.cfg.cap → t.txq.buf = s.txq.buf.set (k - 1) h ∧ t.txq.ring = s.txq.ring ∧ t.rxq = s.rxq) ∧
      (k = s.cfg.cap + 1 → t.rxq.ring = h ∧ t.rxq.buf = s.rxq.buf ∧ t.txq = s.txq) ∧
      (s.cfg.cap + 1 < k →
        t.rxq.buf = s.rxq.buf.set (k - s.cfg.cap - 2) h ∧ t.rxq.ring = s.rxq.ring ∧ t.txq = s.txq) ∧
      t.seq = .construct (n + 1) (if k + 1 < 2 * s.cfg.cap + 2 then .alloc (k + 1) else .maskFirst) ∧
      t.life = s.life ∧ t.sb = s.sb ∧ t.pwq = s.pwq ∧ t.mac = s.mac ∧
      (∀ e, e ∈ t.held ↔ e ∈ allocExtents t k ∨
        (e ∈ s.held ∧ (e.lo + e.len ≤ h.pa.toNat ∨
          h.pa.toNat + allocPages s.cfg k * s.cfg.pageSize ≤ e.lo)))

/-- R204, R205, R206: init steps 1 to 3. The mask register is written 0, `CTL` is read and written back with `RST`
set, the mask register is written 0 again; the fence passes with the store buffer empty and the state is `Reset`; a
ring size that is a multiple of 128 with a power-of-two capacity passes. -/
def Obligations.ConstructResetsTheMac : Prop :=
  ∀ (s : State) (n : Nat) (c : Word), s.cfg.valid = true →
    (s.seq = .construct n .maskFirst → exec .construct s =
      .next { s with pwq := s.pwq ++ [⟨s.cfg.offIms, 0⟩], seq := .construct (n + 1) .readCtl }) ∧
    (s.seq = .construct n .readCtl → s.pwq = [] → exec .construct s =
      .next { s with seq := .construct (n + 1) (.assertReset s.mac.ctl) }) ∧
    (s.seq = .construct n (.assertReset c) → exec .construct s =
      .next { s with
        pwq := s.pwq ++ [⟨s.cfg.offCtl, c ||| s.cfg.ctlRst⟩], seq := .construct (n + 1) .maskAgain }) ∧
    (s.seq = .construct n .maskAgain → exec .construct s =
      .next { s with pwq := s.pwq ++ [⟨s.cfg.offIms, 0⟩], seq := .construct (n + 1) .resetFence }) ∧
    (s.seq = .construct n .resetFence → s.sb = [] → exec .construct s =
      .next { s with life := .reset, seq := .construct (n + 1) .validate }) ∧
    (∀ w, s.seq = .construct n .validate → s.cfg.cap * 16 % 128 = 0 → s.cfg.cap = 2 ^ w → exec .construct s =
      .next { s with seq := .construct (n + 1) .initTags })

/-- R188, R207, R208: init step 4. Every tag becomes `SW` (that the loop is one micro-operation is the model's choice,
log entry 18); each TX descriptor's address and `DD` status are stored; the six registers are written in the listed
order, then, the store buffer empty, `TDT` is written 0. -/
def Obligations.ConstructProgramsTx : Prop :=
  ∀ (s : State) (n i : Nat), s.cfg.valid = true →
    (s.seq = .construct n .initTags → exec .construct s =
      .next { s with
        txq := { s.txq with own := List.replicate s.cfg.cap .sw }
        rxq := { s.rxq with own := List.replicate s.cfg.cap .sw }
        seq := .construct (n + 1) (.txAddr 0) }) ∧
    (s.tag .tx i = .sw → s.txq.ring.pa.toNat % 16 = 0 →
      s.live (s.txq.ring.pa + BitVec.ofNat 64 (16 * i)).toNat 16 = true →
      (s.txq.ring.pa + BitVec.ofNat 64 (16 * i)).toNat + 16 ≤ 2 ^ 64 →
      (s.seq = .construct n (.txAddr i) → exec .construct s =
        .next { s with
          sb := s.sb ++ [⟨s.txq.ring.pa + BitVec.ofNat 64 (16 * i), .eight, (s.txq.buf.getD i ⟨0, 0⟩).pa⟩]
          seq := .construct (n + 1) (.txStatus i) }) ∧
      (s.seq = .construct n (.txStatus i) → exec .construct s =
        .next { s with
          sb := s.sb ++ [⟨s.txq.ring.pa + BitVec.ofNat 64 (16 * i + 12), .one, s.cfg.staDd.setWidth 64⟩]
          seq := .construct (n + 1) (if i + 1 < s.cfg.cap then .txAddr (i + 1) else .txReg 0) })) ∧
    (∀ k off v,
      [(s.cfg.offTctl, s.cfg.tctlInit), (s.cfg.offTipg, s.cfg.tipgInit),
        (s.cfg.offTdbal, s.txq.ring.pa.extractLsb' 0 32), (s.cfg.offTdbah, s.txq.ring.pa.extractLsb' 32 32),
        (s.cfg.offTdlen, BitVec.ofNat 32 (s.cfg.cap * 16)), (s.cfg.offTdh, 0)][k]? = some (off, v) →
      s.seq = .construct n (.txReg k) → exec .construct s =
        .next { s with
          pwq := s.pwq ++ [⟨off, v⟩]
          seq := .construct (n + 1) (if k < 5 then .txReg (k + 1) else .txFence) }) ∧
    (s.seq = .construct n .txFence → s.sb = [] → exec .construct s =
      .next { s with seq := .construct (n + 1) .txTail }) ∧
    (s.seq = .construct n .txTail → exec .construct s =
      .next { s with
        pwq := s.pwq ++ [⟨s.cfg.offTdt, 0⟩]
        txq := { s.txq with tail := 0 }
        seq := .construct (n + 1) (.rxAddr 0) })

/-- R189, R209, R210: init step 5. Each RX descriptor's address is stored; the five registers are written in the
listed order, then, the store buffer empty, `RDT` is written `CAP - 1`, every RX tag becomes `HW` and the state is
`RingsProgrammed`; RINGCTL holds no byte of the RX slots any more (log entry 6). -/
def Obligations.ConstructProgramsRx : Prop :=
  ∀ (s : State) (n i : Nat), s.cfg.valid = true →
    (s.tag .rx i = .sw → s.rxq.ring.pa.toNat % 16 = 0 →
      s.live (s.rxq.ring.pa + BitVec.ofNat 64 (16 * i)).toNat 8 = true →
      s.seq = .construct n (.rxAddr i) → exec .construct s =
        .next { s with
          sb := s.sb ++ [⟨s.rxq.ring.pa + BitVec.ofNat 64 (16 * i), .eight, (s.rxq.buf.getD i ⟨0, 0⟩).pa⟩]
          seq := .construct (n + 1) (if i + 1 < s.cfg.cap then .rxAddr (i + 1) else .rxReg 0) }) ∧
    (∀ k off v,
      [(s.cfg.offRctl, s.cfg.rctlInit),
        (s.cfg.offRdbal, s.rxq.ring.pa.extractLsb' 0 32), (s.cfg.offRdbah, s.rxq.ring.pa.extractLsb' 32 32),
        (s.cfg.offRdlen, BitVec.ofNat 32 (s.cfg.cap * 16)), (s.cfg.offRdh, 0)][k]? = some (off, v) →
      s.seq = .construct n (.rxReg k) → exec .construct s =
        .next { s with
          pwq := s.pwq ++ [⟨off, v⟩]
          seq := .construct (n + 1) (if k < 4 then .rxReg (k + 1) else .rxFence) }) ∧
    (s.seq = .construct n .rxFence → s.sb = [] → exec .construct s =
      .next { s with seq := .construct (n + 1) .rxTail }) ∧
    (s.seq = .construct n .rxTail → exec .construct s =
      .next { s with
        pwq := s.pwq ++ [⟨s.cfg.offRdt, BitVec.ofNat 32 (s.cfg.cap - 1)⟩]
        rxq := { s.rxq with own := List.replicate s.cfg.cap .hw, tail := s.cfg.cap - 1 }
        held := heldWithout s.held ((List.range s.cfg.cap).flatMap (slotExtents s .rx))
        life := .ringsProgrammed
        seq := .construct (n + 1) (.mta 0) })

/-- R211, R212, R213, R214: init steps 6 to 8 and the return. The multicast table is written 0 entry by entry, then
each timing register 0, then `IMS_RX` to the mask; the causes are read and written back; the flush makes the state
`Ready`; the result is `OK(0)`. -/
def Obligations.ConstructEndsReady : Prop :=
  ∀ (s : State) (n k : Nat) (off v : Word), s.cfg.valid = true →
    (k < 128 → s.seq = .construct n (.mta k) → exec .construct s =
      .next { s with
        pwq := s.pwq ++ [⟨s.cfg.offMta + BitVec.ofNat 32 (4 * k), 0⟩]
        seq := .construct (n + 1)
          (if k + 1 < 128 then .mta (k + 1) else if s.cfg.irqTimingRegs = [] then .unmask else .timing 0) }) ∧
    (s.cfg.irqTimingRegs[k]? = some off → s.seq = .construct n (.timing k) → exec .construct s =
      .next { s with
        pwq := s.pwq ++ [⟨off, 0⟩]
        seq := .construct (n + 1) (if k + 1 < s.cfg.irqTimingRegs.length then .timing (k + 1) else .unmask) }) ∧
    (s.seq = .construct n .unmask → exec .construct s =
      .next { s with
        pwq := s.pwq ++ [⟨s.cfg.offIms, s.cfg.imsRx⟩]
        life := .interruptsConfigured
        seq := .construct (n + 1) .readCause }) ∧
    (s.seq = .construct n .readCause → s.pwq = [] → exec .construct s =
      .next { s with
        mac := { s.mac with icause := 0 }
        seq := .construct (n + 1) (.clearCause s.mac.icause) }) ∧
    (s.seq = .construct n (.clearCause v) → exec .construct s =
      .next { s with pwq := s.pwq ++ [⟨s.cfg.offIcr, v⟩], seq := .construct (n + 1) .flush }) ∧
    (s.seq = .construct n .flush → s.pwq = [] → exec .construct s =
      .next { s with life := .ready, draws := s.draws + 1, seq := .construct (n + 1) .ret }) ∧
    (s.seq = .construct n .ret → exec .construct s =
      .next { s with resCode := 0x00, resVal := 0, seq := .idle })

/-- R200 to R214: what a micro-operation of CONSTRUCT leaves unchanged, whether it goes on, holds or raises. `Mem`,
the live allocations and the handles change only where an allocation is granted; RINGCTL's view of memory only in
the bytes granted or stored to; a tag or a shadow index only at the three micro-operations that set it; what RINGCTL
holds (log entry 6) only where an allocation is granted and where the RX ring is handed over; the results
and the fault latch only where the command ends; the command port, the delivery queue and RECEIVE's counter never.
-/
def Obligations.ConstructFrame : Prop :=
  ∀ s t : State, exec .construct s = .next t →
    t.cfg = s.cfg ∧ t.cmdw = s.cmdw ∧ t.arg0 = s.arg0 ∧ t.pktIn = s.pktIn ∧ t.pktOut = s.pktOut ∧
    t.rxN = s.rxN ∧ t.raced = s.raced ∧ t.sched = s.sched ∧
    (∃ x, t.mac = { s.mac with icause := x }) ∧
    (t.seq ≠ .idle → t.resCode = s.resCode ∧ t.resVal = s.resVal ∧ t.fault = s.fault ∧ t.log = s.log) ∧
    ((∀ n, s.seq ≠ .construct n .initTags) → t.txq.own = s.txq.own) ∧
    ((∀ n, s.seq ≠ .construct n .txTail) → t.txq.tail = s.txq.tail) ∧
    ((∀ n, s.seq ≠ .construct n .initTags ∧ s.seq ≠ .construct n .rxTail) → t.rxq.own = s.rxq.own) ∧
    ((∀ n, s.seq ≠ .construct n .rxTail) → t.rxq.tail = s.rxq.tail) ∧
    ((∀ n, s.seq ≠ .construct n .rxTail) →
      (∀ n k h rest, ¬ (s.seq = .construct n (.alloc k) ∧ s.answers = .grant h :: rest)) → t.held = s.held) ∧
    ((∀ n k, s.seq ≠ .construct n (.alloc k)) → t.answers = s.answers) ∧
    ((∀ n k h rest, ¬ (s.seq = .construct n (.alloc k) ∧ s.answers = .grant h :: rest)) →
      t.mem = s.mem ∧ t.allocs = s.allocs ∧
      t.txq.ring = s.txq.ring ∧ t.txq.buf = s.txq.buf ∧ t.rxq.ring = s.rxq.ring ∧ t.rxq.buf = s.rxq.buf ∧
      (∀ a, (∀ q i pa w, constructTarget s = some (q, i, pa, w) → ¬ inBytes pa w a) → t.seenByte a = s.seenByte a)) ∧
    (∀ n k a h rest, s.seq = .construct n (.alloc k) → s.answers = .grant h :: rest →
      (a < h.pa.toNat ∨ h.pa.toNat + allocPages s.cfg k * s.cfg.pageSize ≤ a) → t.seenByte a = s.seenByte a)

/-- R220, R276: TEARDOWN frees, in allocation order (TX ring, TX buffers, RX ring, RX buffers), the live allocation
each handle names with the pages it took (R9: the two ceilings), then returns `OK(0)` in `Uninitialized`; it writes no
MAC register and touches neither `Mem` nor the two buffers. That the lifecycle state and the return are one
micro-operation is the model's choice (log entry 18). -/
def Obligations.TeardownFreesAndReturns : Prop :=
  (∀ (s : State) (k : Nat),
    (k = 0 → allocHandle s k = s.txq.ring) ∧
    (0 < k → k ≤ s.cfg.cap → allocHandle s k = s.txq.buf.getD (k - 1) ⟨0, 0⟩) ∧
    (k = s.cfg.cap + 1 → allocHandle s k = s.rxq.ring) ∧
    (s.cfg.cap + 1 < k → allocHandle s k = s.rxq.buf.getD (k - s.cfg.cap - 2) ⟨0, 0⟩) ∧
    (k = 0 ∨ k = s.cfg.cap + 1 →
      allocPages s.cfg k = (s.cfg.cap * 16 + (s.cfg.pageSize - 1)) / s.cfg.pageSize) ∧
    (k ≠ 0 → k ≠ s.cfg.cap + 1 →
      allocPages s.cfg k = (s.cfg.bufSize + (s.cfg.pageSize - 1)) / s.cfg.pageSize)) ∧
  ∀ (s : State) (n k : Nat),
    (s.seq = .teardown n .gate → s.life = .ready → exec .teardown s =
      .next { s with seq := .teardown (n + 1) (.free 0) }) ∧
    (s.seq = .teardown n (.free k) → exec .teardown s =
      .next { s with
        allocs := s.allocs.eraseP (fun x =>
          decide (x.h.va = (allocHandle s k).va ∧ x.pages = allocPages s.cfg k))
        seq := .teardown (n + 1) (if k + 1 < 2 * s.cfg.cap + 2 then .free (k + 1) else .ret) }) ∧
    (s.seq = .teardown n .ret → ∃ t, exec .teardown s = .next t ∧
      t.resCode = 0x00 ∧ t.resVal = 0 ∧ t.seq = .idle ∧ t.life = .uninitialized) ∧
    (∀ t, exec .teardown s = .next t →
      t.mac = s.mac ∧ t.mem = s.mem ∧ t.sb = s.sb ∧ t.pwq = s.pwq ∧ t.cfg = s.cfg ∧ t.cmdw = s.cmdw ∧
      t.arg0 = s.arg0 ∧ t.pktIn = s.pktIn ∧ t.pktOut = s.pktOut ∧ t.log = s.log ∧ t.fault = s.fault ∧
      t.rxN = s.rxN ∧ t.answers = s.answers ∧ t.raced = s.raced ∧ t.held = s.held ∧ t.sched = s.sched)

/-! ### TRANSMIT -/

/-- R231, R232, R301: TRANSMIT takes the slot from `TDT`; a descriptor without `DD` gives `Busy` with the slot, the
packet discarded and nothing else changed; one with `DD` becomes RINGCTL's, its bytes held (log entry 6). That a
discarded `pkt_in` is the empty sequence is the model's choice (log entry 26). -/
def Obligations.TransmitTakesTheSlotOrIsBusy : Prop :=
  ∀ (s : State) (n i : Nat) (x : Word) (st : Byte), s.cfg.valid = true →
    (s.seq = .transmit n .gate → s.life = .ready → exec .transmit s =
      .next { s with seq := .transmit (n + 1) .readTail }) ∧
    (s.seq = .transmit n .readTail → s.pwq = [] → exec .transmit s =
      .next { s with seq := .transmit (n + 1) (.index s.mac.tdt) }) ∧
    (s.seq = .transmit n (.index x) → x.toNat < s.cfg.cap → exec .transmit s =
      .next { s with seq := .transmit (n + 1) (.readStatus x.toNat) }) ∧
    (s.seq = .transmit n (.readStatus i) →
      s.live (s.txq.ring.pa + BitVec.ofNat 64 (16 * i + 12)).toNat 1 = true → exec .transmit s =
      .next { s with
        seq := .transmit (n + 1)
          (.busyTest i (s.seenByte (s.txq.ring.pa + BitVec.ofNat 64 (16 * i + 12)).toNat)) }) ∧
    (s.seq = .transmit n (.busyTest i st) → st &&& s.cfg.staDd = 0 → exec .transmit s =
      .next { s with pktIn := [], resCode := 0x01, resVal := BitVec.ofNat 32 i, seq := .idle }) ∧
    (s.seq = .transmit n (.busyTest i st) → st &&& s.cfg.staDd ≠ 0 → exec .transmit s =
      .next { s with
        txq := { s.txq with own := s.txq.own.set i .sw }
        held := heldWith s.held (slotExtents s .tx i)
        seq := .transmit (n + 1) (.truncate i) })

/-- R233, R234, R282: the length is clipped to the buffer, an oversize packet logged, and each kept byte stored in
ascending order; a `pkt_in` shorter than `arg0` is refused. That it is refused at this micro-operation, and that a
longer one is used up to `arg0` bytes, is the model's choice (log entry 16). -/
def Obligations.TransmitTruncatesAndCopies : Prop :=
  ∀ (s : State) (n i m k : Nat) (b : Byte),
    (s.seq = .transmit n (.truncate i) → s.arg0.toNat ≤ s.pktIn.length → s.arg0.toNat ≤ s.cfg.bufSize →
      exec .transmit s = .next { s with
        seq := .transmit (n + 1)
          (if 0 < s.arg0.toNat then .copy i s.arg0.toNat 0 else .setAddr i s.arg0.toNat) }) ∧
    (s.seq = .transmit n (.truncate i) → s.arg0.toNat ≤ s.pktIn.length → s.cfg.bufSize < s.arg0.toNat →
      exec .transmit s = .next { s with
        log := s.log ++ [.truncated s.arg0.toNat s.cfg.bufSize]
        seq := .transmit (n + 1) (if 0 < s.cfg.bufSize then .copy i s.cfg.bufSize 0 else .setAddr i s.cfg.bufSize) }) ∧
    (s.seq = .transmit n (.truncate i) → s.pktIn.length < s.arg0.toNat →
      exec .transmit s = .refused .shortPacket) ∧
    (s.seq = .transmit n (.copy i m k) → s.pktIn[k]? = some b → s.tag .tx i = .sw → k < s.cfg.bufSize →
      s.live ((s.txq.buf.getD i ⟨0, 0⟩).pa + BitVec.ofNat 64 k).toNat 1 = true →
      exec .transmit s = .next { s with
        sb := s.sb ++ [⟨(s.txq.buf.getD i ⟨0, 0⟩).pa + BitVec.ofNat 64 k, .one, b.setWidth 64⟩]
        seq := .transmit (n + 1) (if k + 1 < m then .copy i m (k + 1) else .setAddr i m) })

/-- R235, R236, R237: the four fields are stored, each in its own bytes; behind the fence `TDT` is written
`next(i)`, the slot becomes the MAC's, its bytes held no more (log entry 6), and the shadow follows; flush, fence,
`OK(m)`. -/
def Obligations.TransmitFillsAndHandsOff : Prop :=
  ∀ (s : State) (n i m : Nat), s.cfg.valid = true →
    (s.tag .tx i = .sw → s.txq.ring.pa.toNat % 16 = 0 →
      s.live (s.txq.ring.pa + BitVec.ofNat 64 (16 * i)).toNat 16 = true →
      (s.txq.ring.pa + BitVec.ofNat 64 (16 * i)).toNat + 16 ≤ 2 ^ 64 →
      (s.seq = .transmit n (.setAddr i m) → exec .transmit s = .next { s with
        sb := s.sb ++ [⟨s.txq.ring.pa + BitVec.ofNat 64 (16 * i), .eight, (s.txq.buf.getD i ⟨0, 0⟩).pa⟩]
        seq := .transmit (n + 1) (.setLength i m) }) ∧
      (s.seq = .transmit n (.setLength i m) → exec .transmit s = .next { s with
        sb := s.sb ++ [⟨s.txq.ring.pa + BitVec.ofNat 64 (16 * i + 8), .two, (BitVec.ofNat 16 m).setWidth 64⟩]
        seq := .transmit (n + 1) (.setStatus i m) }) ∧
      (s.seq = .transmit n (.setStatus i m) → exec .transmit s = .next { s with
        sb := s.sb ++ [⟨s.txq.ring.pa + BitVec.ofNat 64 (16 * i + 12), .one, 0⟩]
        seq := .transmit (n + 1) (.setCommand i m) }) ∧
      (s.seq = .transmit n (.setCommand i m) → exec .transmit s = .next { s with
        sb := s.sb ++
          [⟨s.txq.ring.pa + BitVec.ofNat 64 (16 * i + 11), .one, (s.cfg.cmdRs ||| s.cfg.cmdEop).setWidth 64⟩]
        seq := .transmit (n + 1) (.fence i m) })) ∧
    (s.seq = .transmit n (.fence i m) → s.sb = [] → exec .transmit s =
      .next { s with seq := .transmit (n + 1) (.handOff i m) }) ∧
    (s.seq = .transmit n (.handOff i m) → exec .transmit s = .next { s with
      pwq := s.pwq ++ [⟨s.cfg.offTdt, BitVec.ofNat 32 ((i + 1) % s.cfg.cap)⟩]
      txq := { s.txq with own := s.txq.own.set i .hw, tail := (i + 1) % s.cfg.cap }
      held := heldWithout s.held (slotExtents s .tx i)
      seq := .transmit (n + 1) (.flush m) }) ∧
    (s.seq = .transmit n (.flush m) → s.pwq = [] → exec .transmit s =
      .next { s with draws := s.draws + 1, seq := .transmit (n + 1) (.lastFence m) }) ∧
    (s.seq = .transmit n (.lastFence m) → s.sb = [] → exec .transmit s =
      .next { s with seq := .transmit (n + 1) (.ret m) }) ∧
    (s.seq = .transmit n (.ret m) → exec .transmit s =
      .next { s with resCode := 0x00, resVal := BitVec.ofNat 32 m, seq := .idle })

/-- R230 to R238: what a micro-operation of TRANSMIT leaves unchanged, whether it goes on, holds or raises. `Mem`
never changes under it; RINGCTL sees every byte as before but those stored to, in slot i's descriptor or buffer; the
RX ring, the handles, every other slot's tag, the rest of what RINGCTL holds (log entry 6) and every MAC variable are
unchanged; the results, the fault latch, the lifecycle state and `pkt_in` change only where the command ends. -/
def Obligations.TransmitFrame : Prop :=
  ∀ s t : State, s.cfg.valid = true → exec .transmit s = .next t →
    t.cfg = s.cfg ∧ t.cmdw = s.cmdw ∧ t.arg0 = s.arg0 ∧ t.pktOut = s.pktOut ∧ t.rxN = s.rxN ∧
    t.rxq = s.rxq ∧ t.txq.ring = s.txq.ring ∧ t.txq.buf = s.txq.buf ∧
    t.mac = s.mac ∧ t.mem = s.mem ∧ t.allocs = s.allocs ∧ t.answers = s.answers ∧ t.raced = s.raced ∧
    t.sched = s.sched ∧
    (t.seq ≠ .idle → t.resCode = s.resCode ∧ t.resVal = s.resVal ∧ t.fault = s.fault ∧ t.life = s.life ∧
      t.pktIn = s.pktIn) ∧
    ((∀ n i m, s.seq ≠ .transmit n (.handOff i m)) → t.txq.tail = s.txq.tail ∧ t.pwq = s.pwq) ∧
    (∀ j, (∀ n i st, s.seq = .transmit n (.busyTest i st) → i ≠ j) →
      (∀ n i m, s.seq = .transmit n (.handOff i m) → i ≠ j) → t.tag .tx j = s.tag .tx j) ∧
    (∀ e, (∀ n i st, s.seq = .transmit n (.busyTest i st) → e ∉ slotExtents s .tx i) →
      (∀ n i m, s.seq = .transmit n (.handOff i m) → e ∉ slotExtents s .tx i) → (e ∈ t.held ↔ e ∈ s.held)) ∧
    (∀ a, (∀ i pa w, transmitTarget s = some (i, pa, w) → ¬ inBytes pa w a) → t.seenByte a = s.seenByte a)

/-! ### RECEIVE -/

/-- R240, R241, R242, R248, R304: RECEIVE starts behind `RDT` and tests the batch bound before the status; a
descriptor without `DD` ends the scan; one with `DD` becomes RINGCTL's behind the read fence, its bytes held (log
entry 6); address 0 is logged and ends the command with the slot, nothing else changed. -/
def Obligations.ReceiveScansReadySlots : Prop :=
  ∀ (s : State) (n i : Nat) (x : Word) (st : Byte) (a : Addr), s.cfg.valid = true →
    (s.seq = .receive n .gate → s.life = .ready → exec .receive s =
      .next { s with seq := .receive (n + 1) .readTail }) ∧
    (s.seq = .receive n .readTail → s.pwq = [] → exec .receive s =
      .next { s with seq := .receive (n + 1) (.index s.mac.rdt) }) ∧
    (s.seq = .receive n (.index x) → x.toNat < s.cfg.cap → exec .receive s =
      .next { s with rxN := 0, seq := .receive (n + 1) (.batch ((x.toNat + 1) % s.cfg.cap)) }) ∧
    (s.seq = .receive n (.batch i) → exec .receive s =
      .next { s with seq := .receive (n + 1) (if s.rxN = s.cfg.rxBatchMax then .ret else .readStatus i) }) ∧
    (s.seq = .receive n (.readStatus i) →
      s.live (s.rxq.ring.pa + BitVec.ofNat 64 (16 * i + 12)).toNat 1 = true → exec .receive s =
      .next { s with
        seq := .receive (n + 1)
          (.readyTest i (s.seenByte (s.rxq.ring.pa + BitVec.ofNat 64 (16 * i + 12)).toNat)) }) ∧
    (s.seq = .receive n (.readyTest i st) → exec .receive s =
      .next { s with seq := .receive (n + 1) (if st &&& s.cfg.staDd = 0 then .ret else .readFence i) }) ∧
    (s.seq = .receive n (.readFence i) → exec .receive s =
      .next { s with
        rxq := { s.rxq with own := s.rxq.own.set i .sw }
        held := heldWith s.held (slotExtents s .rx i)
        seq := .receive (n + 1) (.readAddr i) }) ∧
    (s.seq = .receive n (.readAddr i) → s.tag .rx i = .sw → s.rxq.ring.pa.toNat % 16 = 0 →
      s.live (s.rxq.ring.pa + BitVec.ofNat 64 (16 * i)).toNat 8 = true → exec .receive s =
      .next { s with
        seq := .receive (n + 1)
          (.addrTest i (s.load .eight (s.rxq.ring.pa + BitVec.ofNat 64 (16 * i)).toNat)) }) ∧
    (s.seq = .receive n (.addrTest i 0) → exec .receive s =
      .next { s with
        log := s.log ++ [.rxInvalid i], resCode := 0x04, resVal := BitVec.ofNat 32 i, seq := .idle }) ∧
    (s.seq = .receive n (.addrTest i a) → a ≠ 0 → exec .receive s =
      .next { s with seq := .receive (n + 1) (.readLength i) })

/-- R243, R244, R245: `min(length, BUF_SIZE)` bytes are read in ascending order and delivered as one packet; then 64
bytes are stored 0, then `status`. -/
def Obligations.ReceiveDeliversAndScrubs : Prop :=
  ∀ (s : State) (n i m k : Nat) (pkt : List Byte),
    (s.tag .rx i = .sw → s.rxq.ring.pa.toNat % 16 = 0 →
      s.live (s.rxq.ring.pa + BitVec.ofNat 64 (16 * i)).toNat 16 = true →
      (s.rxq.ring.pa + BitVec.ofNat 64 (16 * i)).toNat + 16 ≤ 2 ^ 64 →
      (s.seq = .receive n (.readLength i) → ∃ len : Nat,
        len = (s.seenByte (s.rxq.ring.pa + BitVec.ofNat 64 (16 * i + 8)).toNat).toNat +
          256 * (s.seenByte ((s.rxq.ring.pa + BitVec.ofNat 64 (16 * i + 8)).toNat + 1)).toNat ∧
        exec .receive s = .next { s with
          seq := .receive (n + 1)
            (if 0 < min len s.cfg.bufSize then .copy i (min len s.cfg.bufSize) [] else .deliver i []) }) ∧
      (s.seq = .receive n (.clearStatus i) → exec .receive s = .next { s with
        sb := s.sb ++ [⟨s.rxq.ring.pa + BitVec.ofNat 64 (16 * i + 12), .one, 0⟩]
        seq := .receive (n + 1) (.fence i) })) ∧
    (s.seq = .receive n (.copy i m pkt) → s.tag .rx i = .sw → pkt.length < s.cfg.bufSize →
      s.live ((s.rxq.buf.getD i ⟨0, 0⟩).pa + BitVec.ofNat 64 pkt.length).toNat 1 = true →
      ∃ b, b = s.seenByte ((s.rxq.buf.getD i ⟨0, 0⟩).pa + BitVec.ofNat 64 pkt.length).toNat ∧
        exec .receive s = .next { s with
          seq := .receive (n + 1)
            (if pkt.length + 1 < m then .copy i m (pkt ++ [b]) else .deliver i (pkt ++ [b])) }) ∧
    (s.seq = .receive n (.deliver i pkt) → exec .receive s = .next { s with
      pktOut := s.pktOut ++ [pkt], seq := .receive (n + 1) (.scrub i 0) }) ∧
    (s.seq = .receive n (.scrub i k) → s.tag .rx i = .sw → k < s.cfg.bufSize →
      s.live ((s.rxq.buf.getD i ⟨0, 0⟩).pa + BitVec.ofNat 64 k).toNat 1 = true →
      exec .receive s = .next { s with
        sb := s.sb ++ [⟨(s.rxq.buf.getD i ⟨0, 0⟩).pa + BitVec.ofNat 64 k, .one, 0⟩]
        seq := .receive (n + 1) (if k + 1 < 64 then .scrub i (k + 1) else .clearStatus i) })

/-- R246, R247, R248, R249: behind the fence `RDT` is written the slot, which becomes the MAC's, its bytes held no
more (log entry 6), and the shadow follows; the count and the index advance; the result is `OK` with the count. -/
def Obligations.ReceiveRearmsAndReturns : Prop :=
  ∀ (s : State) (n i : Nat), s.cfg.valid = true →
    (s.seq = .receive n (.fence i) → s.sb = [] → exec .receive s =
      .next { s with seq := .receive (n + 1) (.rearm i) }) ∧
    (s.seq = .receive n (.rearm i) → exec .receive s = .next { s with
      pwq := s.pwq ++ [⟨s.cfg.offRdt, BitVec.ofNat 32 i⟩]
      rxq := { s.rxq with own := s.rxq.own.set i .hw, tail := i }
      held := heldWithout s.held (slotExtents s .rx i)
      seq := .receive (n + 1) (.advance i) }) ∧
    (s.seq = .receive n (.advance i) → exec .receive s = .next { s with
      rxN := s.rxN + 1, seq := .receive (n + 1) (.batch ((i + 1) % s.cfg.cap)) }) ∧
    (s.seq = .receive n .ret → exec .receive s = .next { s with
      resCode := 0x00, resVal := BitVec.ofNat 32 s.rxN, seq := .idle })

/-- R240 to R249: what a micro-operation of RECEIVE leaves unchanged, whether it goes on, holds or raises. `Mem` never
changes under it; RINGCTL sees every byte as before but those stored to, in slot i's `status` byte or the first 64
bytes of its buffer; the TX ring, the handles, every other slot's tag, the rest of what RINGCTL holds (log entry 6),
the packet port and every MAC variable are unchanged; the results, the fault latch and the lifecycle state change only
where the command ends. -/
def Obligations.ReceiveFrame : Prop :=
  ∀ s t : State, s.cfg.valid = true → exec .receive s = .next t →
    t.cfg = s.cfg ∧ t.cmdw = s.cmdw ∧ t.arg0 = s.arg0 ∧ t.pktIn = s.pktIn ∧
    t.txq = s.txq ∧ t.rxq.ring = s.rxq.ring ∧ t.rxq.buf = s.rxq.buf ∧
    t.mac = s.mac ∧ t.mem = s.mem ∧ t.allocs = s.allocs ∧ t.answers = s.answers ∧ t.raced = s.raced ∧
    t.sched = s.sched ∧
    (t.seq ≠ .idle → t.resCode = s.resCode ∧ t.resVal = s.resVal ∧ t.fault = s.fault ∧ t.life = s.life ∧
      t.log = s.log) ∧
    ((∀ n i pkt, s.seq ≠ .receive n (.deliver i pkt)) → t.pktOut = s.pktOut) ∧
    ((∀ n i x, s.seq ≠ .receive n (.advance i) ∧ s.seq ≠ .receive n (.index x)) → t.rxN = s.rxN) ∧
    ((∀ n i, s.seq ≠ .receive n (.rearm i)) → t.rxq.tail = s.rxq.tail ∧ t.pwq = s.pwq) ∧
    (∀ j, (∀ n i, s.seq = .receive n (.readFence i) → i ≠ j) →
      (∀ n i, s.seq = .receive n (.rearm i) → i ≠ j) → t.tag .rx j = s.tag .rx j) ∧
    (∀ e, (∀ n i, s.seq = .receive n (.readFence i) → e ∉ slotExtents s .rx i) →
      (∀ n i, s.seq = .receive n (.rearm i) → e ∉ slotExtents s .rx i) → (e ∈ t.held ↔ e ∈ s.held)) ∧
    (∀ a, (∀ i pa w, receiveTarget s = some (i, pa, w) → ¬ inBytes pa w a) → t.seenByte a = s.seenByte a)

/-! ### The interrupt commands -/

/-- R250: SERVICE_IRQ reads the causes, which clears them, writes them back and returns all 32 bits. -/
def Obligations.ServiceIrqReturnsTheCauses : Prop :=
  ∀ (s : State) (n : Nat) (v : Word), s.cfg.valid = true →
    (s.seq = .serviceIrq n .gate → s.life = .ready → exec .serviceIrq s =
      .next { s with seq := .serviceIrq (n + 1) .read }) ∧
    (s.seq = .serviceIrq n .read → s.pwq = [] → exec .serviceIrq s = .next { s with
      mac := { s.mac with icause := 0 }, seq := .serviceIrq (n + 1) (.writeBack s.mac.icause) }) ∧
    (s.seq = .serviceIrq n (.writeBack v) → exec .serviceIrq s = .next { s with
      pwq := s.pwq ++ [⟨s.cfg.offIcr, v⟩], seq := .serviceIrq (n + 1) (.ret v) }) ∧
    (s.seq = .serviceIrq n (.ret v) → exec .serviceIrq s = .next { s with
      resCode := 0x00, resVal := v, seq := .idle })

/-- R252, R253: IRQ_ENABLE writes the operand to the mask register, IRQ_DISABLE its two parameters; each flushes and
returns `OK(0)`. -/
def Obligations.IrqMaskCommandsWriteAndFlush : Prop :=
  ∀ (s : State) (n : Nat), s.cfg.valid = true →
    (s.seq = .irqEnable n .gate → s.life = .ready → exec .irqEnable s =
      .next { s with seq := .irqEnable (n + 1) .write }) ∧
    (s.seq = .irqEnable n .write → exec .irqEnable s = .next { s with
      pwq := s.pwq ++ [⟨s.cfg.offIms, s.arg0⟩], seq := .irqEnable (n + 1) .flush }) ∧
    (s.seq = .irqEnable n .flush → s.pwq = [] → exec .irqEnable s = .next { s with
      draws := s.draws + 1, seq := .irqEnable (n + 1) .ret }) ∧
    (s.seq = .irqEnable n .ret → exec .irqEnable s = .next { s with
      resCode := 0x00, resVal := 0, seq := .idle }) ∧
    (s.seq = .irqDisable n .gate → s.life = .ready → exec .irqDisable s =
      .next { s with seq := .irqDisable (n + 1) .write }) ∧
    (s.seq = .irqDisable n .write → exec .irqDisable s = .next { s with
      pwq := s.pwq ++ [⟨s.cfg.irqOffReg, s.cfg.irqOffVal⟩], seq := .irqDisable (n + 1) .flush }) ∧
    (s.seq = .irqDisable n .flush → s.pwq = [] → exec .irqDisable s = .next { s with
      draws := s.draws + 1, seq := .irqDisable (n + 1) .ret }) ∧
    (s.seq = .irqDisable n .ret → exec .irqDisable s = .next { s with
      resCode := 0x00, resVal := 0, seq := .idle })

/-- What the spec infers in R254 from R250, R252 and R253: the interrupt commands do not interact with the rings. No
descriptor, buffer byte, tail register, tag or shadow index is written, nor read into what they do (change any of
them and the command does the same beside it); no store fence is issued (the store buffer, whatever it holds,
neither holds them up nor changes). The premise keeps the parameters `IRQ_OFF_REG` and `IRQ_TIMING_REGS` off the
tail registers, as the defaults are. -/
def Obligations.InterruptCommandsLeaveTheRings : Prop :=
  ∀ (s t : State) (i : Instr), tailsPrivate s.cfg → i = .serviceIrq ∨ i = .irqEnable ∨ i = .irqDisable →
    exec i s = .next t →
    (t.txq = s.txq ∧ t.rxq = s.rxq ∧ t.mem = s.mem ∧ t.sb = s.sb ∧ t.pktOut = s.pktOut ∧ t.rxN = s.rxN ∧
      t.cmdw = s.cmdw ∧ t.arg0 = s.arg0 ∧ t.pktIn = s.pktIn ∧ t.allocs = s.allocs ∧ t.answers = s.answers ∧
      t.cfg = s.cfg ∧ t.raced = s.raced ∧ t.held = s.held ∧ t.sched = s.sched ∧
      ∃ x, t.mac = { s.mac with icause := x }) ∧
    (t.pwq = s.pwq ∨ ∃ p, t.pwq = s.pwq ++ [p] ∧ p.off ≠ s.cfg.offTdt ∧ p.off ≠ s.cfg.offRdt) ∧
    (∀ (txq rxq : Ring) (mem : Memory) (sb : List StoreEntry) (x y : Word),
      exec i { s with txq := txq, rxq := rxq, mem := mem, sb := sb, mac := { s.mac with tdt := x, rdt := y } } =
        .next { t with txq := txq, rxq := rxq, mem := mem, sb := sb, mac := { t.mac with tdt := x, rdt := y } })

/-! ### The MAC's steps -/

/-- R263, R264: MAC.TX. Enabled, and where nothing races (log entry 6), it puts the `length` bytes at
`buffer_address` on the wire, sets `DD` in the `status` byte if `RS` was asked and stores nothing else, moves the
head around the ring, and raises only TX cause bits (which bits those are is a parameter, log entry 12). -/
def Obligations.TxDescriptorIsConsumed : Prop :=
  ∀ (s : State) (d : TxDesc),
    macTxEnabled s = true → txFormOk s.cfg d.command = true →
    d.bufferAddress.toNat + d.length.toNat ≤ 2 ^ 64 → s.live d.bufferAddress.toNat d.length.toNat = true →
    (txHeadPa s.mac).toNat + 16 ≤ 2 ^ 64 → s.live (txHeadPa s.mac).toNat 16 = true →
    Unraced s d.bufferAddress.toNat d.length.toNat → Unraced s (txHeadPa s.mac).toNat 16 → MemInv s →
    ∃ t, exec (.txd d) s = .next t ∧
      t.mac.wireOut =
        s.mac.wireOut ++ [(List.range d.length.toNat).map (fun j => s.mem.read (d.bufferAddress.toNat + j))] ∧
      (d.command &&& s.cfg.cmdRs ≠ 0 →
        t.mem.read ((txHeadPa s.mac).toNat + 12) = d.status ||| s.cfg.staDd) ∧
      (d.command &&& s.cfg.cmdRs = 0 → t.mem = s.mem) ∧
      (∀ a, a ≠ (txHeadPa s.mac).toNat + 12 → t.mem.read a = s.mem.read a) ∧
      (16 ≤ s.mac.tdlen.toNat →
        t.mac.tdh.toNat = (s.mac.tdh.toNat + 1) % (s.mac.tdlen.toNat / 16)) ∧
      (∀ b, t.mac.icause.getLsbD b = true → s.mac.icause.getLsbD b = true ∨ s.cfg.txCauses.getLsbD b = true) ∧
      (∀ b, s.mac.icause.getLsbD b = true → t.mac.icause.getLsbD b = true) ∧
      t.raced = s.raced

/-- R264, R133: a descriptor whose `command` has a bit outside `CMD_RS | CMD_EOP`, or lacks `CMD_EOP`, is refused;
and the MAC does nothing while its step is not enabled: the transmitter off, or head equal to tail. -/
def Obligations.TxDescriptorRefusedOrIdle : Prop :=
  ∀ (s : State) (d : TxDesc),
    (s.mac.tctl &&& s.cfg.tctlEn = 0 ∨ s.mac.tdh = s.mac.tdt → exec (.txd d) s = .next s) ∧
    (s.mac.tctl &&& s.cfg.tctlEn ≠ 0 → s.mac.tdh ≠ s.mac.tdt →
      (d.command &&& ~~~(s.cfg.cmdRs ||| s.cfg.cmdEop) ≠ 0 ∨ d.command &&& s.cfg.cmdEop = 0) →
      exec (.txd d) s = .refused .txCommandForm)

/-- R263, R266, R270: MAC.RX. Enabled, with a frame that a slot can hold the oldest waiting (which frame is taken is
the model's choice, log entry 10), and where nothing races (log entry 6): the `length` field is the frame's length,
`DD` is set, `buffer_address` is unchanged, the frame fills the buffer, it leaves the queue, the head moves around the
ring, the receive cause is raised, and outside the buffer and the descriptor no byte changes. A slot can hold
`BUF_SIZE` bytes while `RCTL` has the selection init wrote (R8, R55); how another selection counts is the model's
choice (log entry 29). -/
def Obligations.RxDescriptorIsFilled : Prop :=
  (∀ (c : Cfg) (v : Word), c.valid = true → v &&& c.rctlBsize = c.rctlInit &&& c.rctlBsize →
    rxLimit c v = c.bufSize) ∧
  ∀ (s : State) (d : RxDesc) (f : List Byte) (rest : List (List Byte)),
    macRxEnabled s = true → s.mac.wireIn = f :: rest → f.length ≤ rxLimit s.cfg s.mac.rctl →
    s.cfg.bufSize ≤ 65535 →
    d.bufferAddress.toNat + f.length ≤ 2 ^ 64 → s.live d.bufferAddress.toNat f.length = true →
    (rxHeadPa s.mac).toNat + 16 ≤ 2 ^ 64 → s.live (rxHeadPa s.mac).toNat 16 = true →
    Unraced s d.bufferAddress.toNat f.length → Unraced s (rxHeadPa s.mac).toNat 16 → MemInv s →
    (d.bufferAddress.toNat + f.length ≤ (rxHeadPa s.mac).toNat ∨
      (rxHeadPa s.mac).toNat + 16 ≤ d.bufferAddress.toNat) →
    ∃ t, exec (.rxd d) s = .next t ∧
      (∀ j (hj : j < f.length), t.mem.read (d.bufferAddress.toNat + j) = f[j]) ∧
      (t.mem.read ((rxHeadPa s.mac).toNat + 8)).toNat +
        256 * (t.mem.read ((rxHeadPa s.mac).toNat + 9)).toNat = f.length ∧
      t.mem.read ((rxHeadPa s.mac).toNat + 12) &&& s.cfg.staDd = s.cfg.staDd ∧
      (∀ a, ¬ (d.bufferAddress.toNat ≤ a ∧ a < d.bufferAddress.toNat + f.length) →
        ¬ ((rxHeadPa s.mac).toNat + 8 ≤ a ∧ a < (rxHeadPa s.mac).toNat + 16) → t.mem.read a = s.mem.read a) ∧
      t.mac.wireIn = rest ∧
      (16 ≤ s.mac.rdlen.toNat →
        t.mac.rdh.toNat = (s.mac.rdh.toNat + 1) % (s.mac.rdlen.toNat / 16)) ∧
      (∀ b, s.cfg.imsRx.getLsbD b = true ∨ s.mac.icause.getLsbD b = true → t.mac.icause.getLsbD b = true) ∧
      (∀ b, t.mac.icause.getLsbD b = true →
        s.mac.icause.getLsbD b = true ∨ s.cfg.imsRx.getLsbD b = true ∨ s.cfg.rxCauses.getLsbD b = true) ∧
      t.raced = s.raced

/-- R268, R269, R265: what the MAC's two steps leave unchanged, raced or not. MAC.TX stores only the `status` byte
of its head's descriptor; MAC.RX only into the descriptor's bytes 8 to 15 and the frame's bytes at `buffer_address`.
No tail, ring base, length, control or mask register changes, nor anything of RINGCTL. -/
def Obligations.MacStepsFrame : Prop :=
  ∀ (s t : State) (d : TxDesc) (e : RxDesc),
    (exec (.txd d) s = .next t →
      t = { s with mac := t.mac, mem := t.mem, draws := t.draws, raced := t.raced } ∧
      t.mac = { s.mac with tdh := t.mac.tdh, icause := t.mac.icause, wireOut := t.mac.wireOut } ∧
      ∀ a, a ≠ (txHeadPa s.mac).toNat + 12 → t.mem.read a = s.mem.read a) ∧
    (exec (.rxd e) s = .next t →
      t = { s with mac := t.mac, mem := t.mem, draws := t.draws, raced := t.raced } ∧
      t.mac = { s.mac with rdh := t.mac.rdh, icause := t.mac.icause, wireIn := t.mac.wireIn } ∧
      ∀ a, (∀ f rest, waitingFrame s = some (f, rest) →
          ¬ (e.bufferAddress.toNat ≤ a ∧ a < e.bufferAddress.toNat + f.length)) →
        ¬ ((rxHeadPa s.mac).toNat + 8 ≤ a ∧ a < (rxHeadPa s.mac).toNat + 16) → t.mem.read a = s.mem.read a)

/-! ### Whole commands under the sequentially consistent schedule (R113) -/

/-- R250 and V40, under the model's default schedule (log entry 1): issued in `Ready` with both buffers empty,
SERVICE_IRQ returns all the pending causes and leaves none pending; nothing else of the machine changes but the
port. -/
def Obligations.ServiceIrqRuns : Prop :=
  ∀ (s : State) (a : Word) (p : List Byte), s.cfg.valid = true → s.life = .ready → s.seq = .idle →
    s.sb = [] → s.pwq = [] → s.sched = [.issue 0x00000004 a p] →
    Host.Core.run Sys2Proof.core 6 s = .next { s with
      sched := [], cmdw := 0x00000004, arg0 := a, pktIn := p
      mac := { s.mac with icause := 0 }, resCode := 0x00, resVal := s.mac.icause }

/-- R252, R253, V41, V42, V61, under the model's default schedule (log entry 1): issued in `Ready` with both buffers
empty, IRQ_ENABLE returns `OK(0)` with the operand's bits unmasked, and IRQ_DISABLE, with the default register and
all ones, with every class masked. -/
def Obligations.IrqMaskCommandsRun : Prop :=
  ∀ (s : State) (a : Word) (p : List Byte), s.cfg.valid = true → s.life = .ready → s.seq = .idle →
    s.sb = [] → s.pwq = [] →
    (s.sched = [.issue 0x00000005 a p] →
      Host.Core.run Sys2Proof.core 6 s = .next { s with
        sched := [], cmdw := 0x00000005, arg0 := a, pktIn := p, draws := s.draws + 1
        mac := { s.mac with imask := s.mac.imask ||| a }, resCode := 0x00, resVal := 0 }) ∧
    (s.sched = [.issue 0x00000006 a p] → s.cfg.irqOffReg = s.cfg.offImc → s.cfg.irqOffVal = 0xFFFFFFFF →
      Host.Core.run Sys2Proof.core 6 s = .next { s with
        sched := [], cmdw := 0x00000006, arg0 := a, pktIn := p, draws := s.draws + 1
        mac := { s.mac with imask := 0 }, resCode := 0x00, resVal := 0 })

/-- R249 and V31, under the model's default schedule (log entry 1): with no completion pending, RECEIVE returns
`OK(0)` having written nothing: the idempotence of an empty receive. -/
def Obligations.EmptyReceiveRuns : Prop :=
  ∀ (s : State) (a : Word) (p : List Byte) (i : Nat), s.cfg.valid = true → s.life = .ready → s.seq = .idle →
    s.sb = [] → s.pwq = [] → s.sched = [.issue 0x00000003 a p] → 0 < s.cfg.rxBatchMax →
    s.mac.rdt.toNat < s.cfg.cap → i = (s.mac.rdt.toNat + 1) % s.cfg.cap →
    s.live (s.rxq.ring.pa + BitVec.ofNat 64 (16 * i + 12)).toNat 1 = true →
    s.mem.read (s.rxq.ring.pa + BitVec.ofNat 64 (16 * i + 12)).toNat &&& s.cfg.staDd = 0 →
    Host.Core.run Sys2Proof.core 8 s = .next { s with
      sched := [], cmdw := 0x00000003, arg0 := a, pktIn := p, rxN := 0, resCode := 0x00, resVal := 0 }

/-- R230 to R237, under the model's default schedule (log entry 1): issued in `Ready` with both buffers empty, on a
slot with `DD` whose descriptor and buffer are live, TRANSMIT runs to `OK(min(L, BUF_SIZE))` in finitely many steps,
with `TDT` at `next(i)`, the slot the MAC's, the buffers empty again, and exactly the clipped packet and the four
fields in `Mem`. -/
def Obligations.TransmitRuns : Prop :=
  ∀ (s : State) (len : Word) (p : List Byte) (i m : Nat), s.cfg.valid = true → s.life = .ready → s.seq = .idle →
    s.sb = [] → s.pwq = [] → s.sched = [.issue 0x00000002 len p] → p.length = len.toNat →
    i = s.mac.tdt.toNat → i < s.cfg.cap → i < s.txq.own.length → m = min len.toNat s.cfg.bufSize → MemInv s →
    s.txq.ring.pa.toNat % 16 = 0 → s.txq.ring.pa.toNat + 16 * s.cfg.cap ≤ 2 ^ 64 →
    s.live (s.txq.ring.pa.toNat + 16 * i) 16 = true →
    (bufPa s .tx i).toNat + s.cfg.bufSize ≤ 2 ^ 64 → s.live (bufPa s .tx i).toNat s.cfg.bufSize = true →
    ((bufPa s .tx i).toNat + s.cfg.bufSize ≤ s.txq.ring.pa.toNat + 16 * i ∨
      s.txq.ring.pa.toNat + 16 * i + 16 ≤ (bufPa s .tx i).toNat) →
    s.mem.read (s.txq.ring.pa.toNat + 16 * i + 12) &&& s.cfg.staDd ≠ 0 →
    ∃ (k : Nat) (t : State), Host.Core.run Sys2Proof.core k s = .next t ∧
      t.seq = .idle ∧ t.resCode = 0x00 ∧ t.resVal = BitVec.ofNat 32 m ∧ t.life = .ready ∧
      t.sb = [] ∧ t.pwq = [] ∧ t.mac = { s.mac with tdt := BitVec.ofNat 32 ((i + 1) % s.cfg.cap) } ∧
      t.txq = { s.txq with own := s.txq.own.set i .hw, tail := (i + 1) % s.cfg.cap } ∧
      (∀ j (hj : j < p.length), j < m → t.mem.read ((bufPa s .tx i).toNat + j) = p[j]) ∧
      decodeTxd (imageAt t.mem (s.txq.ring.pa.toNat + 16 * i)) =
        { decodeTxd (imageAt s.mem (s.txq.ring.pa.toNat + 16 * i)) with
          bufferAddress := bufPa s .tx i
          length := BitVec.ofNat 16 m
          command := s.cfg.cmdRs ||| s.cfg.cmdEop
          status := 0 } ∧
      (∀ x, ¬ ((bufPa s .tx i).toNat ≤ x ∧ x < (bufPa s .tx i).toNat + m) →
        ¬ (s.txq.ring.pa.toNat + 16 * i ≤ x ∧ x < s.txq.ring.pa.toNat + 16 * i + 16) →
        t.mem.read x = s.mem.read x)
end

