-- ==== Sys2Proof/Laws/Memory.lean ====
section
/-! SUPPORT. The laws of `Memory`: a read after a write, and the canonical form that every memory operation keeps. -/

namespace Sys2Proof.Machine

/-- Every listed address is above `x`. -/
def Memory.above (x : Nat) (m : Memory) : Prop := ∀ c ∈ m, x < c.1

theorem Memory.wf_cons (x : Nat) (b : Byte) (m : Memory) :
    Memory.wf ((x, b) :: m) = true ↔ b ≠ 0 ∧ Memory.above x m ∧ Memory.wf m = true := by
  simp [Memory.wf, Memory.above, and_assoc]

theorem Memory.read_of_above {x a : Nat} {m : Memory} (h : Memory.above x m) (ha : a ≤ x) : Memory.read m a = 0 := by
  induction m with
  | nil => rfl
  | cons c rest ih =>
    obtain ⟨y, b⟩ := c
    have hy : x < y := h (y, b) (by simp)
    have hr : Memory.above x rest := fun c hc => h c (by simp [hc])
    simp only [Memory.read]
    rw [if_neg (by omega), ih hr]

/-- A read after a write to another place gives what it gave before. -/
theorem Memory.read_write_ne (m : Memory) {a a' : Nat} (b : Byte) (h : a' ≠ a) :
    Memory.read (Memory.write m a b) a' = Memory.read m a' := by
  induction m with
  | nil =>
    simp only [Memory.write]
    split
    · rfl
    · simp [Memory.read, Ne.symm h]
  | cons c rest ih =>
    obtain ⟨x, d⟩ := c
    simp only [Memory.write]
    split
    · split
      · rfl
      · simp [Memory.read, Ne.symm h]
    · split
      · rename_i hx
        subst hx
        split <;> simp [Memory.read, Ne.symm h]
      · simp [Memory.read, ih]

/-- A read after a write to the same place gives the value written. -/
theorem Memory.read_write_same {m : Memory} (hm : Memory.wf m = true) (a : Nat) (b : Byte) :
    Memory.read (Memory.write m a b) a = b := by
  induction m with
  | nil =>
    simp only [Memory.write]
    split
    · rename_i hb
      exact hb.symm
    · simp [Memory.read]
  | cons c rest ih =>
    obtain ⟨x, d⟩ := c
    obtain ⟨_, hab, hrest⟩ := (Memory.wf_cons x d rest).1 hm
    simp only [Memory.write]
    split
    · rename_i hlt
      split
      · rename_i hb
        simp only [Memory.read]
        rw [if_neg (by omega), Memory.read_of_above hab (by omega), hb]
      · simp [Memory.read]
    · split
      · rename_i hx
        subst hx
        split
        · rename_i hb
          rw [Memory.read_of_above hab (Nat.le_refl _), hb]
        · simp [Memory.read]
      · rename_i h1 h2
        simp only [Memory.read]
        rw [if_neg (by omega), ih hrest]

theorem Memory.write_above {x a : Nat} {m : Memory} (b : Byte) (h : Memory.above x m) (ha : x < a) :
    Memory.above x (Memory.write m a b) := by
  induction m with
  | nil =>
    simp only [Memory.write]
    split <;> simp [Memory.above, ha]
  | cons c rest ih =>
    obtain ⟨y, d⟩ := c
    have hy : x < y := h (y, d) (by simp)
    have hr : Memory.above x rest := fun c hc => h c (by simp [hc])
    simp only [Memory.write]
    split_ifs
    · exact h
    · intro c hc
      rcases List.mem_cons.1 hc with rfl | hc
      · exact ha
      · exact h c hc
    · exact hr
    · intro c hc
      rcases List.mem_cons.1 hc with rfl | hc
      · exact ha
      · exact hr c hc
    · intro c hc
      rcases List.mem_cons.1 hc with rfl | hc
      · exact hy
      · exact ih hr c hc

/-- A write keeps the canonical form. -/
theorem Memory.write_wf {m : Memory} (hm : Memory.wf m = true) (a : Nat) (b : Byte) :
    Memory.wf (Memory.write m a b) = true := by
  induction m with
  | nil =>
    simp only [Memory.write]
    split
    · rfl
    · rename_i hb
      exact (Memory.wf_cons a b []).2 ⟨hb, by simp [Memory.above], rfl⟩
  | cons c rest ih =>
    obtain ⟨x, d⟩ := c
    obtain ⟨hd, hab, hrest⟩ := (Memory.wf_cons x d rest).1 hm
    simp only [Memory.write]
    split
    · rename_i hlt
      split
      · exact hm
      · rename_i hb
        refine (Memory.wf_cons a b _).2 ⟨hb, ?_, hm⟩
        intro c hc
        rcases List.mem_cons.1 hc with rfl | hc
        · exact hlt
        · exact lt_trans hlt (hab c hc)
    · split
      · rename_i hx
        subst hx
        split
        · exact hrest
        · rename_i hb
          exact (Memory.wf_cons a b _).2 ⟨hb, hab, hrest⟩
      · exact (Memory.wf_cons x d _).2 ⟨hd, Memory.write_above b hab (by omega), ih hrest⟩

/-- Writing bytes keeps the canonical form. -/
theorem Memory.writeBytes_wf {m : Memory} (hm : Memory.wf m = true) (a : Nat) (bs : List Byte) :
    Memory.wf (Memory.writeBytes m a bs) = true := by
  induction bs generalizing m a with
  | nil => exact hm
  | cons b rest ih => exact ih (Memory.write_wf hm a b) (a + 1)

/-- Outside the written bytes nothing changes. -/
theorem Memory.read_writeBytes_outside (m : Memory) (a x : Nat) (bs : List Byte)
    (h : x < a ∨ a + bs.length ≤ x) : Memory.read (Memory.writeBytes m a bs) x = Memory.read m x := by
  induction bs generalizing m a with
  | nil => rfl
  | cons b rest ih =>
    simp only [List.length_cons] at h
    simp only [Memory.writeBytes]
    rw [ih _ _ (by omega), Memory.read_write_ne _ _ (by omega)]

/-- Each written byte reads as written. -/
theorem Memory.read_writeBytes_inside {m : Memory} (hm : Memory.wf m = true) (a : Nat) (bs : List Byte) {j : Nat}
    (h : j < bs.length) : Memory.read (Memory.writeBytes m a bs) (a + j) = bs[j] := by
  induction bs generalizing m a j with
  | nil => simp at h
  | cons b rest ih =>
    simp only [Memory.writeBytes]
    cases j with
    | zero => rw [Memory.read_writeBytes_outside _ _ _ _ (by omega)]; exact Memory.read_write_same hm a b
    | succ j =>
      rw [show a + (j + 1) = (a + 1) + j by omega]
      simpa using ih (Memory.write_wf hm a b) (a + 1) (by simpa using h)

/-- Zeroing keeps the canonical form. -/
theorem Memory.zeroRange_wf {m : Memory} (hm : Memory.wf m = true) (lo len : Nat) :
    Memory.wf (Memory.zeroRange m lo len) = true := by
  induction m with
  | nil => rfl
  | cons c rest ih =>
    obtain ⟨x, d⟩ := c
    obtain ⟨hd, hab, hrest⟩ := (Memory.wf_cons x d rest).1 hm
    simp only [Memory.zeroRange, List.filter_cons]
    split
    · refine (Memory.wf_cons x d _).2 ⟨hd, ?_, ih hrest⟩
      intro c hc
      exact hab c (List.mem_filter.1 hc).1
    · exact ih hrest

/-- A zeroed byte reads 0. -/
theorem Memory.read_zeroRange_inside (m : Memory) {lo len a : Nat} (h : lo ≤ a ∧ a < lo + len) :
    Memory.read (Memory.zeroRange m lo len) a = 0 := by
  induction m with
  | nil => rfl
  | cons c rest ih =>
    obtain ⟨x, d⟩ := c
    simp only [Memory.zeroRange, List.filter_cons]
    split
    · rename_i hx
      simp only [decide_eq_true_eq] at hx
      simp only [Memory.read]
      rw [if_neg (by omega)]
      exact ih
    · exact ih

/-- Outside the zeroed range nothing changes. -/
theorem Memory.read_zeroRange_outside (m : Memory) {lo len a : Nat} (h : a < lo ∨ lo + len ≤ a) :
    Memory.read (Memory.zeroRange m lo len) a = Memory.read m a := by
  induction m with
  | nil => rfl
  | cons c rest ih =>
    obtain ⟨x, d⟩ := c
    simp only [Memory.zeroRange, List.filter_cons]
    split
    · simp only [Memory.read]
      split
      · rfl
      · exact ih
    · rename_i hx
      simp only [decide_eq_true_eq] at hx
      simp only [Memory.read]
      rw [if_neg (by omega)]
      exact ih

end Sys2Proof.Machine
end

