-- ==== Sys2Proof/Laws/Regs.lean ====
section
/-! SUPPORT. Under a valid configuration (R10 to R12) each named register stands at its own offset, inside the
window: the facts the register interface's proofs need of `Cfg.valid`. -/

namespace Sys2Proof.Machine

theorem Cfg.valid_offset {c : Cfg} (h : c.valid = true) {o : Word} (ho : o ∈ c.offsets) :
    o.toNat % 4 = 0 ∧ o.toNat / 4 < c.regCount ∧ c.inMta o = false := by
  simp only [Cfg.valid, Bool.and_eq_true, List.all_eq_true, decide_eq_true_eq, Bool.not_eq_eq_eq_not, Bool.not_true] at h
  have := h.1.1.1.1.1.1.2 o ho
  exact ⟨this.1.1, this.1.2, this.2⟩

theorem Cfg.valid_nodup {c : Cfg} (h : c.valid = true) : c.offsets.Nodup := by
  simp only [Cfg.valid, Bool.and_eq_true, decide_eq_true_eq] at h
  exact h.1.1.1.1.2

theorem Cfg.valid_irqOff {c : Cfg} (h : c.valid = true) : c.irqOffReg ∈ c.offsets := by
  simp only [Cfg.valid, Bool.and_eq_true, List.contains_iff_mem] at h
  exact h.2

theorem Cfg.valid_timing {c : Cfg} (h : c.valid = true) {o : Word} (ho : o ∈ c.irqTimingRegs) : o ∈ c.offsets := by
  simp only [Cfg.valid, Bool.and_eq_true, List.all_eq_true, List.contains_iff_mem] at h
  exact h.1.2 o ho

theorem Cfg.valid_bufSize {c : Cfg} (h : c.valid = true) : 64 ≤ c.bufSize ∧ c.bufSize ≤ 65535 := by
  simp only [Cfg.valid, Bool.and_eq_true, decide_eq_true_eq] at h
  exact h.1.1.1.1.1.1.1.1.2

theorem Cfg.valid_cap {c : Cfg} (h : c.valid = true) : c.cap ≤ 65536 := by
  simp only [Cfg.valid, Bool.and_eq_true, decide_eq_true_eq] at h
  exact h.1.1.1.1.1.1.1.1.1.2

/-- The MAC's buffer-size selection agrees with `BUF_SIZE` (R8). -/
theorem Cfg.valid_rctlSize {c : Cfg} (h : c.valid = true) :
    c.rctlSizes.lookup (c.rctlInit &&& c.rctlBsize) = some c.bufSize := by
  simp only [Cfg.valid, Bool.and_eq_true, decide_eq_true_eq] at h
  exact h.1.1.1.1.1.1.1.1.1.1

theorem Cfg.valid_page {c : Cfg} (h : c.valid = true) : 0 < c.pageSize ∧ c.pageSize % 16 = 0 := by
  simp only [Cfg.valid, Bool.and_eq_true, decide_eq_true_eq] at h
  exact h.1.1.1.1.1.1.1.2

theorem Cfg.valid_mta {c : Cfg} (h : c.valid = true) :
    c.offMta.toNat % 4 = 0 ∧ (c.offMta.toNat + 508) / 4 < c.regCount ∧ c.offMta.toNat + 512 ≤ 2 ^ 32 := by
  simp only [Cfg.valid, Bool.and_eq_true, decide_eq_true_eq] at h
  exact h.1.1.1.1.1.2

/-- With `RCTL`'s selection as init writes it, a slot takes every frame of at most `BUF_SIZE` bytes (R8, R266). -/
theorem rxLimit_of_selection {c : Cfg} (h : c.valid = true) {v : Word}
    (hv : v &&& c.rctlBsize = c.rctlInit &&& c.rctlBsize) : rxLimit c v = c.bufSize := by
  simp [rxLimit, selectedSize, hv, Cfg.valid_rctlSize h]

/-- What the frame taken is: one of the waiting frames, and one that fits (R266). -/
theorem nextFrame_fits {limit : Nat} {w : List (List Byte)} {f : List Byte} {rest : List (List Byte)}
    (h : nextFrame limit w = some (f, rest)) : f ∈ w ∧ f.length ≤ limit := by
  induction w generalizing rest with
  | nil => cases h
  | cons g others ih =>
    simp only [nextFrame] at h
    split at h
    · cases h
      exact ⟨List.mem_cons_self, ‹_›⟩
    · split at h
      · cases h
      · next heq =>
        cases h
        exact ⟨List.mem_cons_of_mem _ (ih heq).1, (ih heq).2⟩

/-- The oldest frame is the one taken when it fits (R266, log entry 10). -/
theorem nextFrame_oldest {limit : Nat} {f : List Byte} {rest : List (List Byte)} (h : f.length ≤ limit) :
    nextFrame limit (f :: rest) = some (f, rest) := by
  simp [nextFrame, h]

/-- The offset of a named register is in range (R155). -/
theorem regInRange_of_mem {c : Cfg} (h : c.valid = true) {o : Word} (ho : o ∈ c.offsets) :
    regInRange c o = true := by
  have := Cfg.valid_offset h ho
  simp [regInRange, this.1, this.2.1]

theorem regInRange_ctl {c : Cfg} (h : c.valid = true) : regInRange c c.offCtl = true :=
  regInRange_of_mem h (by simp [Cfg.offsets])

theorem regInRange_status {c : Cfg} (h : c.valid = true) : regInRange c c.offStatus = true :=
  regInRange_of_mem h (by simp [Cfg.offsets])

theorem regInRange_icr {c : Cfg} (h : c.valid = true) : regInRange c c.offIcr = true :=
  regInRange_of_mem h (by simp [Cfg.offsets])

theorem regInRange_itr {c : Cfg} (h : c.valid = true) : regInRange c c.offItr = true :=
  regInRange_of_mem h (by simp [Cfg.offsets])

theorem regInRange_ics {c : Cfg} (h : c.valid = true) : regInRange c c.offIcs = true :=
  regInRange_of_mem h (by simp [Cfg.offsets])

theorem regInRange_ims {c : Cfg} (h : c.valid = true) : regInRange c c.offIms = true :=
  regInRange_of_mem h (by simp [Cfg.offsets])

theorem regInRange_imc {c : Cfg} (h : c.valid = true) : regInRange c c.offImc = true :=
  regInRange_of_mem h (by simp [Cfg.offsets])

theorem regInRange_rctl {c : Cfg} (h : c.valid = true) : regInRange c c.offRctl = true :=
  regInRange_of_mem h (by simp [Cfg.offsets])

theorem regInRange_tctl {c : Cfg} (h : c.valid = true) : regInRange c c.offTctl = true :=
  regInRange_of_mem h (by simp [Cfg.offsets])

theorem regInRange_tipg {c : Cfg} (h : c.valid = true) : regInRange c c.offTipg = true :=
  regInRange_of_mem h (by simp [Cfg.offsets])

theorem regInRange_rdbal {c : Cfg} (h : c.valid = true) : regInRange c c.offRdbal = true :=
  regInRange_of_mem h (by simp [Cfg.offsets])

theorem regInRange_rdbah {c : Cfg} (h : c.valid = true) : regInRange c c.offRdbah = true :=
  regInRange_of_mem h (by simp [Cfg.offsets])

theorem regInRange_rdlen {c : Cfg} (h : c.valid = true) : regInRange c c.offRdlen = true :=
  regInRange_of_mem h (by simp [Cfg.offsets])

theorem regInRange_rdh {c : Cfg} (h : c.valid = true) : regInRange c c.offRdh = true :=
  regInRange_of_mem h (by simp [Cfg.offsets])

theorem regInRange_rdt {c : Cfg} (h : c.valid = true) : regInRange c c.offRdt = true :=
  regInRange_of_mem h (by simp [Cfg.offsets])

theorem regInRange_rdtr {c : Cfg} (h : c.valid = true) : regInRange c c.offRdtr = true :=
  regInRange_of_mem h (by simp [Cfg.offsets])

theorem regInRange_radv {c : Cfg} (h : c.valid = true) : regInRange c c.offRadv = true :=
  regInRange_of_mem h (by simp [Cfg.offsets])

theorem regInRange_tdbal {c : Cfg} (h : c.valid = true) : regInRange c c.offTdbal = true :=
  regInRange_of_mem h (by simp [Cfg.offsets])

theorem regInRange_tdbah {c : Cfg} (h : c.valid = true) : regInRange c c.offTdbah = true :=
  regInRange_of_mem h (by simp [Cfg.offsets])

theorem regInRange_tdlen {c : Cfg} (h : c.valid = true) : regInRange c c.offTdlen = true :=
  regInRange_of_mem h (by simp [Cfg.offsets])

theorem regInRange_tdh {c : Cfg} (h : c.valid = true) : regInRange c c.offTdh = true :=
  regInRange_of_mem h (by simp [Cfg.offsets])

theorem regInRange_tdt {c : Cfg} (h : c.valid = true) : regInRange c c.offTdt = true :=
  regInRange_of_mem h (by simp [Cfg.offsets])

theorem regInRange_tidv {c : Cfg} (h : c.valid = true) : regInRange c c.offTidv = true :=
  regInRange_of_mem h (by simp [Cfg.offsets])

theorem regInRange_tadv {c : Cfg} (h : c.valid = true) : regInRange c c.offTadv = true :=
  regInRange_of_mem h (by simp [Cfg.offsets])

theorem regAt_ctl {c : Cfg} (h : c.valid = true) : regAt c c.offCtl = some .ctl := by
  have h := Cfg.valid_nodup h
  simp only [Cfg.offsets, List.nodup_cons, List.mem_cons, not_or, List.not_mem_nil] at h
  unfold regAt
  grind

theorem regAt_status {c : Cfg} (h : c.valid = true) : regAt c c.offStatus = some .status := by
  have h := Cfg.valid_nodup h
  simp only [Cfg.offsets, List.nodup_cons, List.mem_cons, not_or, List.not_mem_nil] at h
  unfold regAt
  grind

theorem regAt_icr {c : Cfg} (h : c.valid = true) : regAt c c.offIcr = some .icr := by
  have h := Cfg.valid_nodup h
  simp only [Cfg.offsets, List.nodup_cons, List.mem_cons, not_or, List.not_mem_nil] at h
  unfold regAt
  grind

theorem regAt_itr {c : Cfg} (h : c.valid = true) : regAt c c.offItr = some .itr := by
  have h := Cfg.valid_nodup h
  simp only [Cfg.offsets, List.nodup_cons, List.mem_cons, not_or, List.not_mem_nil] at h
  unfold regAt
  grind

theorem regAt_ics {c : Cfg} (h : c.valid = true) : regAt c c.offIcs = some .ics := by
  have h := Cfg.valid_nodup h
  simp only [Cfg.offsets, List.nodup_cons, List.mem_cons, not_or, List.not_mem_nil] at h
  unfold regAt
  grind

theorem regAt_ims {c : Cfg} (h : c.valid = true) : regAt c c.offIms = some .ims := by
  have h := Cfg.valid_nodup h
  simp only [Cfg.offsets, List.nodup_cons, List.mem_cons, not_or, List.not_mem_nil] at h
  unfold regAt
  grind

theorem regAt_imc {c : Cfg} (h : c.valid = true) : regAt c c.offImc = some .imc := by
  have h := Cfg.valid_nodup h
  simp only [Cfg.offsets, List.nodup_cons, List.mem_cons, not_or, List.not_mem_nil] at h
  unfold regAt
  grind

theorem regAt_rctl {c : Cfg} (h : c.valid = true) : regAt c c.offRctl = some .rctl := by
  have h := Cfg.valid_nodup h
  simp only [Cfg.offsets, List.nodup_cons, List.mem_cons, not_or, List.not_mem_nil] at h
  unfold regAt
  grind

theorem regAt_tctl {c : Cfg} (h : c.valid = true) : regAt c c.offTctl = some .tctl := by
  have h := Cfg.valid_nodup h
  simp only [Cfg.offsets, List.nodup_cons, List.mem_cons, not_or, List.not_mem_nil] at h
  unfold regAt
  grind

theorem regAt_tipg {c : Cfg} (h : c.valid = true) : regAt c c.offTipg = some .tipg := by
  have h := Cfg.valid_nodup h
  simp only [Cfg.offsets, List.nodup_cons, List.mem_cons, not_or, List.not_mem_nil] at h
  unfold regAt
  grind

theorem regAt_rdbal {c : Cfg} (h : c.valid = true) : regAt c c.offRdbal = some .rdbal := by
  have h := Cfg.valid_nodup h
  simp only [Cfg.offsets, List.nodup_cons, List.mem_cons, not_or, List.not_mem_nil] at h
  unfold regAt
  grind

theorem regAt_rdbah {c : Cfg} (h : c.valid = true) : regAt c c.offRdbah = some .rdbah := by
  have h := Cfg.valid_nodup h
  simp only [Cfg.offsets, List.nodup_cons, List.mem_cons, not_or, List.not_mem_nil] at h
  unfold regAt
  grind

theorem regAt_rdlen {c : Cfg} (h : c.valid = true) : regAt c c.offRdlen = some .rdlen := by
  have h := Cfg.valid_nodup h
  simp only [Cfg.offsets, List.nodup_cons, List.mem_cons, not_or, List.not_mem_nil] at h
  unfold regAt
  grind

theorem regAt_rdh {c : Cfg} (h : c.valid = true) : regAt c c.offRdh = some .rdh := by
  have h := Cfg.valid_nodup h
  simp only [Cfg.offsets, List.nodup_cons, List.mem_cons, not_or, List.not_mem_nil] at h
  unfold regAt
  grind

theorem regAt_rdt {c : Cfg} (h : c.valid = true) : regAt c c.offRdt = some .rdt := by
  have h := Cfg.valid_nodup h
  simp only [Cfg.offsets, List.nodup_cons, List.mem_cons, not_or, List.not_mem_nil] at h
  unfold regAt
  grind

theorem regAt_rdtr {c : Cfg} (h : c.valid = true) : regAt c c.offRdtr = some .rdtr := by
  have h := Cfg.valid_nodup h
  simp only [Cfg.offsets, List.nodup_cons, List.mem_cons, not_or, List.not_mem_nil] at h
  unfold regAt
  grind

theorem regAt_radv {c : Cfg} (h : c.valid = true) : regAt c c.offRadv = some .radv := by
  have h := Cfg.valid_nodup h
  simp only [Cfg.offsets, List.nodup_cons, List.mem_cons, not_or, List.not_mem_nil] at h
  unfold regAt
  grind

theorem regAt_tdbal {c : Cfg} (h : c.valid = true) : regAt c c.offTdbal = some .tdbal := by
  have h := Cfg.valid_nodup h
  simp only [Cfg.offsets, List.nodup_cons, List.mem_cons, not_or, List.not_mem_nil] at h
  unfold regAt
  grind

theorem regAt_tdbah {c : Cfg} (h : c.valid = true) : regAt c c.offTdbah = some .tdbah := by
  have h := Cfg.valid_nodup h
  simp only [Cfg.offsets, List.nodup_cons, List.mem_cons, not_or, List.not_mem_nil] at h
  unfold regAt
  grind

theorem regAt_tdlen {c : Cfg} (h : c.valid = true) : regAt c c.offTdlen = some .tdlen := by
  have h := Cfg.valid_nodup h
  simp only [Cfg.offsets, List.nodup_cons, List.mem_cons, not_or, List.not_mem_nil] at h
  unfold regAt
  grind

theorem regAt_tdh {c : Cfg} (h : c.valid = true) : regAt c c.offTdh = some .tdh := by
  have h := Cfg.valid_nodup h
  simp only [Cfg.offsets, List.nodup_cons, List.mem_cons, not_or, List.not_mem_nil] at h
  unfold regAt
  grind

theorem regAt_tdt {c : Cfg} (h : c.valid = true) : regAt c c.offTdt = some .tdt := by
  have h := Cfg.valid_nodup h
  simp only [Cfg.offsets, List.nodup_cons, List.mem_cons, not_or, List.not_mem_nil] at h
  unfold regAt
  grind

theorem regAt_tidv {c : Cfg} (h : c.valid = true) : regAt c c.offTidv = some .tidv := by
  have h := Cfg.valid_nodup h
  simp only [Cfg.offsets, List.nodup_cons, List.mem_cons, not_or, List.not_mem_nil] at h
  unfold regAt
  grind

theorem regAt_tadv {c : Cfg} (h : c.valid = true) : regAt c c.offTadv = some .tadv := by
  have h := Cfg.valid_nodup h
  simp only [Cfg.offsets, List.nodup_cons, List.mem_cons, not_or, List.not_mem_nil] at h
  unfold regAt
  grind

theorem mtaOff_toNat {c : Cfg} (h : c.valid = true) {k : Nat} (hk : k < 128) :
    (mtaOff c k).toNat = c.offMta.toNat + 4 * k := by
  have h3 := (Cfg.valid_mta h).2.2
  simp only [mtaOff, BitVec.toNat_add, BitVec.toNat_ofNat]
  omega

theorem regInRange_mta {c : Cfg} (h : c.valid = true) {k : Nat} (hk : k < 128) :
    regInRange c (mtaOff c k) = true := by
  have h1 := Cfg.valid_mta h
  have h2 := mtaOff_toNat h hk
  simp only [regInRange, decide_eq_true_eq, h2]
  omega

theorem Cfg.not_mem_of_inMta {c : Cfg} (h : c.valid = true) {o : Word} (ho : c.inMta o = true) : o ∉ c.offsets := by
  intro hm
  have := (Cfg.valid_offset h hm).2.2
  simp [ho] at this

theorem regAt_mta {c : Cfg} (h : c.valid = true) {k : Nat} (hk : k < 128) :
    regAt c (mtaOff c k) = some (.mta k) := by
  have h2 := mtaOff_toNat h hk
  have hin : c.inMta (mtaOff c k) = true := by simp only [Cfg.inMta, decide_eq_true_eq, h2]; omega
  have hn := Cfg.not_mem_of_inMta h hin
  simp only [Cfg.offsets, List.mem_cons, not_or, List.not_mem_nil] at hn
  unfold regAt
  simp only [hn, if_false]
  rw [if_pos (by omega), h2]
  congr 2
  omega

theorem isSome_ite_some {α : Type} {p : Prop} [Decidable p] (a : α) (x : Option α) :
    (if p then some a else x).isSome = true ↔ p ∨ x.isSome = true := by
  split <;> simp [*]

/-- Every offset of a named register is some register's. -/
theorem regAt_isSome {c : Cfg} {o : Word} (ho : o ∈ c.offsets) : (regAt c o).isSome = true := by
  simp only [Cfg.offsets, List.mem_cons, List.not_mem_nil, or_false] at ho
  simp only [regAt, isSome_ite_some]
  rcases ho with h | h | h | h | h | h | h | h | h | h | h | h | h | h | h | h | h | h | h | h | h | h | h | h <;>
    simp only [h, true_or, or_true]

/-! ### Halves and masked bits of the ring registers -/

/-- The low 4 bits of a base read as zero (R58). -/
theorem toNat_low4 (x : Word) : (x &&& 0xFFFFFFF0).toNat = x.toNat / 16 * 16 := by
  have : x &&& (0xFFFFFFF0 : Word) = (x >>> 4) <<< 4 := by
    ext i hi
    interval_cases i <;> simp
  have h := x.isLt
  rw [this, BitVec.toNat_shiftLeft, BitVec.toNat_ushiftRight, Nat.shiftLeft_eq, Nat.shiftRight_eq_div_pow]
  omega

/-- The low 7 bits of a length read as zero (R58). -/
theorem toNat_low7 (x : Word) : (x &&& 0xFFFFFF80).toNat = x.toNat / 128 * 128 := by
  have : x &&& (0xFFFFFF80 : Word) = (x >>> 7) <<< 7 := by
    ext i hi
    interval_cases i <;> simp
  have h := x.isLt
  rw [this, BitVec.toNat_shiftLeft, BitVec.toNat_ushiftRight, Nat.shiftLeft_eq, Nat.shiftRight_eq_div_pow]
  omega

/-- `lo32` as arithmetic (R14). -/
theorem toNat_lo32 (a : Addr) : (lo32 a).toNat = a.toNat % 2 ^ 32 := by
  simp [lo32]

/-- `hi32` as arithmetic (R14). -/
theorem toNat_hi32 (a : Addr) : (hi32 a).toNat = a.toNat / 2 ^ 32 := by
  have := a.isLt
  simp only [hi32, BitVec.extractLsb'_toNat, Nat.shiftRight_eq_div_pow]; omega

/-- A write of the low half of a base, as arithmetic (R58). -/
theorem toNat_setLo (a : Addr) (w : Word) : (setLo a w).toNat = a.toNat / 2 ^ 32 * 2 ^ 32 + w.toNat := by
  have h2 := w.isLt
  rw [setLo, BitVec.toNat_append, ← Nat.shiftLeft_add_eq_or_of_lt h2, Nat.shiftLeft_eq, toNat_hi32]

/-- A write of the high half of a base, as arithmetic (R58). -/
theorem toNat_setHi (a : Addr) (w : Word) : (setHi a w).toNat = w.toNat * 2 ^ 32 + a.toNat % 2 ^ 32 := by
  have h2 := (lo32 a).isLt
  rw [setHi, BitVec.toNat_append, ← Nat.shiftLeft_add_eq_or_of_lt h2, Nat.shiftLeft_eq, toNat_lo32]

end Sys2Proof.Machine
end

