-- ==== Sys2Proof/Laws/State.lean ====
section
/-! SUPPORT. What each update of the state does to each field, so that no proof unfolds a record update. -/

namespace Sys2Proof.Machine

/-! ### Free values and the schedule -/

@[simp] theorem State.spend_cfg (s : State) (n : Nat) : (s.spend n).cfg = s.cfg := rfl
@[simp] theorem State.spend_life (s : State) (n : Nat) : (s.spend n).life = s.life := rfl
@[simp] theorem State.spend_seq (s : State) (n : Nat) : (s.spend n).seq = s.seq := rfl
@[simp] theorem State.spend_txq (s : State) (n : Nat) : (s.spend n).txq = s.txq := rfl
@[simp] theorem State.spend_rxq (s : State) (n : Nat) : (s.spend n).rxq = s.rxq := rfl
@[simp] theorem State.spend_cmdw (s : State) (n : Nat) : (s.spend n).cmdw = s.cmdw := rfl
@[simp] theorem State.spend_arg0 (s : State) (n : Nat) : (s.spend n).arg0 = s.arg0 := rfl
@[simp] theorem State.spend_pktIn (s : State) (n : Nat) : (s.spend n).pktIn = s.pktIn := rfl
@[simp] theorem State.spend_resCode (s : State) (n : Nat) : (s.spend n).resCode = s.resCode := rfl
@[simp] theorem State.spend_resVal (s : State) (n : Nat) : (s.spend n).resVal = s.resVal := rfl
@[simp] theorem State.spend_pktOut (s : State) (n : Nat) : (s.spend n).pktOut = s.pktOut := rfl
@[simp] theorem State.spend_log (s : State) (n : Nat) : (s.spend n).log = s.log := rfl
@[simp] theorem State.spend_fault (s : State) (n : Nat) : (s.spend n).fault = s.fault := rfl
@[simp] theorem State.spend_rxN (s : State) (n : Nat) : (s.spend n).rxN = s.rxN := rfl
@[simp] theorem State.spend_mem (s : State) (n : Nat) : (s.spend n).mem = s.mem := rfl
@[simp] theorem State.spend_sb (s : State) (n : Nat) : (s.spend n).sb = s.sb := rfl
@[simp] theorem State.spend_pwq (s : State) (n : Nat) : (s.spend n).pwq = s.pwq := rfl
@[simp] theorem State.spend_mac (s : State) (n : Nat) : (s.spend n).mac = s.mac := rfl
@[simp] theorem State.spend_allocs (s : State) (n : Nat) : (s.spend n).allocs = s.allocs := rfl
@[simp] theorem State.spend_answers (s : State) (n : Nat) : (s.spend n).answers = s.answers := rfl
@[simp] theorem State.spend_raced (s : State) (n : Nat) : (s.spend n).raced = s.raced := rfl
@[simp] theorem State.spend_held (s : State) (n : Nat) : (s.spend n).held = s.held := rfl
@[simp] theorem State.spend_draws (s : State) (n : Nat) : (s.spend n).draws = s.draws + n := rfl
@[simp] theorem State.spend_sched (s : State) (n : Nat) : (s.spend n).sched = s.sched := rfl

@[simp] theorem State.popSched_cfg (s : State) : (s.popSched).cfg = s.cfg := rfl
@[simp] theorem State.popSched_life (s : State) : (s.popSched).life = s.life := rfl
@[simp] theorem State.popSched_seq (s : State) : (s.popSched).seq = s.seq := rfl
@[simp] theorem State.popSched_txq (s : State) : (s.popSched).txq = s.txq := rfl
@[simp] theorem State.popSched_rxq (s : State) : (s.popSched).rxq = s.rxq := rfl
@[simp] theorem State.popSched_cmdw (s : State) : (s.popSched).cmdw = s.cmdw := rfl
@[simp] theorem State.popSched_arg0 (s : State) : (s.popSched).arg0 = s.arg0 := rfl
@[simp] theorem State.popSched_pktIn (s : State) : (s.popSched).pktIn = s.pktIn := rfl
@[simp] theorem State.popSched_resCode (s : State) : (s.popSched).resCode = s.resCode := rfl
@[simp] theorem State.popSched_resVal (s : State) : (s.popSched).resVal = s.resVal := rfl
@[simp] theorem State.popSched_pktOut (s : State) : (s.popSched).pktOut = s.pktOut := rfl
@[simp] theorem State.popSched_log (s : State) : (s.popSched).log = s.log := rfl
@[simp] theorem State.popSched_fault (s : State) : (s.popSched).fault = s.fault := rfl
@[simp] theorem State.popSched_rxN (s : State) : (s.popSched).rxN = s.rxN := rfl
@[simp] theorem State.popSched_mem (s : State) : (s.popSched).mem = s.mem := rfl
@[simp] theorem State.popSched_sb (s : State) : (s.popSched).sb = s.sb := rfl
@[simp] theorem State.popSched_pwq (s : State) : (s.popSched).pwq = s.pwq := rfl
@[simp] theorem State.popSched_mac (s : State) : (s.popSched).mac = s.mac := rfl
@[simp] theorem State.popSched_allocs (s : State) : (s.popSched).allocs = s.allocs := rfl
@[simp] theorem State.popSched_answers (s : State) : (s.popSched).answers = s.answers := rfl
@[simp] theorem State.popSched_raced (s : State) : (s.popSched).raced = s.raced := rfl
@[simp] theorem State.popSched_held (s : State) : (s.popSched).held = s.held := rfl
@[simp] theorem State.popSched_draws (s : State) : (s.popSched).draws = s.draws := rfl
@[simp] theorem State.popSched_sched (s : State) : (s.popSched).sched = s.sched.tail := rfl

/-! ### Outcomes -/

@[simp] theorem State.finish_cfg (s : State) (c : Code) (v : Word) : (s.finish c v).cfg = s.cfg := rfl
@[simp] theorem State.finish_life (s : State) (c : Code) (v : Word) : (s.finish c v).life = s.life := rfl
@[simp] theorem State.finish_seq (s : State) (c : Code) (v : Word) : (s.finish c v).seq = .idle := rfl
@[simp] theorem State.finish_txq (s : State) (c : Code) (v : Word) : (s.finish c v).txq = s.txq := rfl
@[simp] theorem State.finish_rxq (s : State) (c : Code) (v : Word) : (s.finish c v).rxq = s.rxq := rfl
@[simp] theorem State.finish_cmdw (s : State) (c : Code) (v : Word) : (s.finish c v).cmdw = s.cmdw := rfl
@[simp] theorem State.finish_arg0 (s : State) (c : Code) (v : Word) : (s.finish c v).arg0 = s.arg0 := rfl
@[simp] theorem State.finish_pktIn (s : State) (c : Code) (v : Word) : (s.finish c v).pktIn = s.pktIn := rfl
@[simp] theorem State.finish_resCode (s : State) (c : Code) (v : Word) : (s.finish c v).resCode = codeByte c := rfl
@[simp] theorem State.finish_resVal (s : State) (c : Code) (v : Word) : (s.finish c v).resVal = v := rfl
@[simp] theorem State.finish_pktOut (s : State) (c : Code) (v : Word) : (s.finish c v).pktOut = s.pktOut := rfl
@[simp] theorem State.finish_log (s : State) (c : Code) (v : Word) : (s.finish c v).log = s.log := rfl
@[simp] theorem State.finish_fault (s : State) (c : Code) (v : Word) : (s.finish c v).fault = s.fault := rfl
@[simp] theorem State.finish_rxN (s : State) (c : Code) (v : Word) : (s.finish c v).rxN = s.rxN := rfl
@[simp] theorem State.finish_mem (s : State) (c : Code) (v : Word) : (s.finish c v).mem = s.mem := rfl
@[simp] theorem State.finish_sb (s : State) (c : Code) (v : Word) : (s.finish c v).sb = s.sb := rfl
@[simp] theorem State.finish_pwq (s : State) (c : Code) (v : Word) : (s.finish c v).pwq = s.pwq := rfl
@[simp] theorem State.finish_mac (s : State) (c : Code) (v : Word) : (s.finish c v).mac = s.mac := rfl
@[simp] theorem State.finish_allocs (s : State) (c : Code) (v : Word) : (s.finish c v).allocs = s.allocs := rfl
@[simp] theorem State.finish_answers (s : State) (c : Code) (v : Word) : (s.finish c v).answers = s.answers := rfl
@[simp] theorem State.finish_raced (s : State) (c : Code) (v : Word) : (s.finish c v).raced = s.raced := rfl
@[simp] theorem State.finish_held (s : State) (c : Code) (v : Word) : (s.finish c v).held = s.held := rfl
@[simp] theorem State.finish_draws (s : State) (c : Code) (v : Word) : (s.finish c v).draws = s.draws := rfl
@[simp] theorem State.finish_sched (s : State) (c : Code) (v : Word) : (s.finish c v).sched = s.sched := rfl

@[simp] theorem State.latch_cfg (s : State) (c : Code) (v : Word) : (s.latch c v).cfg = s.cfg := rfl
@[simp] theorem State.latch_life (s : State) (c : Code) (v : Word) : (s.latch c v).life = .failed := rfl
@[simp] theorem State.latch_seq (s : State) (c : Code) (v : Word) : (s.latch c v).seq = s.seq := rfl
@[simp] theorem State.latch_txq (s : State) (c : Code) (v : Word) : (s.latch c v).txq = s.txq := rfl
@[simp] theorem State.latch_rxq (s : State) (c : Code) (v : Word) : (s.latch c v).rxq = s.rxq := rfl
@[simp] theorem State.latch_cmdw (s : State) (c : Code) (v : Word) : (s.latch c v).cmdw = s.cmdw := rfl
@[simp] theorem State.latch_arg0 (s : State) (c : Code) (v : Word) : (s.latch c v).arg0 = s.arg0 := rfl
@[simp] theorem State.latch_pktIn (s : State) (c : Code) (v : Word) : (s.latch c v).pktIn = s.pktIn := rfl
@[simp] theorem State.latch_resCode (s : State) (c : Code) (v : Word) : (s.latch c v).resCode = s.resCode := rfl
@[simp] theorem State.latch_resVal (s : State) (c : Code) (v : Word) : (s.latch c v).resVal = s.resVal := rfl
@[simp] theorem State.latch_pktOut (s : State) (c : Code) (v : Word) : (s.latch c v).pktOut = s.pktOut := rfl
@[simp] theorem State.latch_log (s : State) (c : Code) (v : Word) : (s.latch c v).log = s.log ++ [.fatal (codeByte c) v s.life] := rfl
@[simp] theorem State.latch_fault (s : State) (c : Code) (v : Word) : (s.latch c v).fault = if s.fault = 0 then codeByte c else s.fault := rfl
@[simp] theorem State.latch_rxN (s : State) (c : Code) (v : Word) : (s.latch c v).rxN = s.rxN := rfl
@[simp] theorem State.latch_mem (s : State) (c : Code) (v : Word) : (s.latch c v).mem = s.mem := rfl
@[simp] theorem State.latch_sb (s : State) (c : Code) (v : Word) : (s.latch c v).sb = s.sb := rfl
@[simp] theorem State.latch_pwq (s : State) (c : Code) (v : Word) : (s.latch c v).pwq = s.pwq := rfl
@[simp] theorem State.latch_mac (s : State) (c : Code) (v : Word) : (s.latch c v).mac = s.mac := rfl
@[simp] theorem State.latch_allocs (s : State) (c : Code) (v : Word) : (s.latch c v).allocs = s.allocs := rfl
@[simp] theorem State.latch_answers (s : State) (c : Code) (v : Word) : (s.latch c v).answers = s.answers := rfl
@[simp] theorem State.latch_raced (s : State) (c : Code) (v : Word) : (s.latch c v).raced = s.raced := rfl
@[simp] theorem State.latch_held (s : State) (c : Code) (v : Word) : (s.latch c v).held = s.held := rfl
@[simp] theorem State.latch_draws (s : State) (c : Code) (v : Word) : (s.latch c v).draws = s.draws := rfl
@[simp] theorem State.latch_sched (s : State) (c : Code) (v : Word) : (s.latch c v).sched = s.sched := rfl

@[simp] theorem State.logEvent_cfg (s : State) (e : Event) : (s.logEvent e).cfg = s.cfg := rfl
@[simp] theorem State.logEvent_life (s : State) (e : Event) : (s.logEvent e).life = s.life := rfl
@[simp] theorem State.logEvent_seq (s : State) (e : Event) : (s.logEvent e).seq = s.seq := rfl
@[simp] theorem State.logEvent_txq (s : State) (e : Event) : (s.logEvent e).txq = s.txq := rfl
@[simp] theorem State.logEvent_rxq (s : State) (e : Event) : (s.logEvent e).rxq = s.rxq := rfl
@[simp] theorem State.logEvent_cmdw (s : State) (e : Event) : (s.logEvent e).cmdw = s.cmdw := rfl
@[simp] theorem State.logEvent_arg0 (s : State) (e : Event) : (s.logEvent e).arg0 = s.arg0 := rfl
@[simp] theorem State.logEvent_pktIn (s : State) (e : Event) : (s.logEvent e).pktIn = s.pktIn := rfl
@[simp] theorem State.logEvent_resCode (s : State) (e : Event) : (s.logEvent e).resCode = s.resCode := rfl
@[simp] theorem State.logEvent_resVal (s : State) (e : Event) : (s.logEvent e).resVal = s.resVal := rfl
@[simp] theorem State.logEvent_pktOut (s : State) (e : Event) : (s.logEvent e).pktOut = s.pktOut := rfl
@[simp] theorem State.logEvent_log (s : State) (e : Event) : (s.logEvent e).log = s.log ++ [e] := rfl
@[simp] theorem State.logEvent_fault (s : State) (e : Event) : (s.logEvent e).fault = s.fault := rfl
@[simp] theorem State.logEvent_rxN (s : State) (e : Event) : (s.logEvent e).rxN = s.rxN := rfl
@[simp] theorem State.logEvent_mem (s : State) (e : Event) : (s.logEvent e).mem = s.mem := rfl
@[simp] theorem State.logEvent_sb (s : State) (e : Event) : (s.logEvent e).sb = s.sb := rfl
@[simp] theorem State.logEvent_pwq (s : State) (e : Event) : (s.logEvent e).pwq = s.pwq := rfl
@[simp] theorem State.logEvent_mac (s : State) (e : Event) : (s.logEvent e).mac = s.mac := rfl
@[simp] theorem State.logEvent_allocs (s : State) (e : Event) : (s.logEvent e).allocs = s.allocs := rfl
@[simp] theorem State.logEvent_answers (s : State) (e : Event) : (s.logEvent e).answers = s.answers := rfl
@[simp] theorem State.logEvent_raced (s : State) (e : Event) : (s.logEvent e).raced = s.raced := rfl
@[simp] theorem State.logEvent_held (s : State) (e : Event) : (s.logEvent e).held = s.held := rfl
@[simp] theorem State.logEvent_draws (s : State) (e : Event) : (s.logEvent e).draws = s.draws := rfl
@[simp] theorem State.logEvent_sched (s : State) (e : Event) : (s.logEvent e).sched = s.sched := rfl

@[simp] theorem State.raise_cfg (s : State) (c : Code) (v : Word) : (s.raise c v).cfg = s.cfg := by cases c <;> rfl
@[simp] theorem State.raise_life (s : State) (c : Code) (v : Word) : (s.raise c v).life = if codeFatal c = true then .failed else s.life := by cases c <;> simp [State.raise, codeFatal]
@[simp] theorem State.raise_seq (s : State) (c : Code) (v : Word) : (s.raise c v).seq = .idle := by cases c <;> simp [State.raise, codeFatal]
@[simp] theorem State.raise_txq (s : State) (c : Code) (v : Word) : (s.raise c v).txq = s.txq := by cases c <;> rfl
@[simp] theorem State.raise_rxq (s : State) (c : Code) (v : Word) : (s.raise c v).rxq = s.rxq := by cases c <;> rfl
@[simp] theorem State.raise_cmdw (s : State) (c : Code) (v : Word) : (s.raise c v).cmdw = s.cmdw := by cases c <;> rfl
@[simp] theorem State.raise_arg0 (s : State) (c : Code) (v : Word) : (s.raise c v).arg0 = s.arg0 := by cases c <;> rfl
@[simp] theorem State.raise_pktIn (s : State) (c : Code) (v : Word) : (s.raise c v).pktIn = s.pktIn := by cases c <;> rfl
@[simp] theorem State.raise_resCode (s : State) (c : Code) (v : Word) : (s.raise c v).resCode = codeByte c := by cases c <;> simp [State.raise, codeFatal]
@[simp] theorem State.raise_resVal (s : State) (c : Code) (v : Word) : (s.raise c v).resVal = v := by cases c <;> simp [State.raise, codeFatal]
@[simp] theorem State.raise_pktOut (s : State) (c : Code) (v : Word) : (s.raise c v).pktOut = s.pktOut := by cases c <;> rfl
@[simp] theorem State.raise_log (s : State) (c : Code) (v : Word) : (s.raise c v).log = if codeFatal c = true then s.log ++ [.fatal (codeByte c) v s.life] else s.log := by cases c <;> simp [State.raise, codeFatal]
@[simp] theorem State.raise_fault (s : State) (c : Code) (v : Word) : (s.raise c v).fault = if codeFatal c = true ∧ s.fault = 0 then codeByte c else s.fault := by cases c <;> simp [State.raise, codeFatal]
@[simp] theorem State.raise_rxN (s : State) (c : Code) (v : Word) : (s.raise c v).rxN = s.rxN := by cases c <;> rfl
@[simp] theorem State.raise_mem (s : State) (c : Code) (v : Word) : (s.raise c v).mem = s.mem := by cases c <;> rfl
@[simp] theorem State.raise_sb (s : State) (c : Code) (v : Word) : (s.raise c v).sb = s.sb := by cases c <;> rfl
@[simp] theorem State.raise_pwq (s : State) (c : Code) (v : Word) : (s.raise c v).pwq = s.pwq := by cases c <;> rfl
@[simp] theorem State.raise_mac (s : State) (c : Code) (v : Word) : (s.raise c v).mac = s.mac := by cases c <;> rfl
@[simp] theorem State.raise_allocs (s : State) (c : Code) (v : Word) : (s.raise c v).allocs = s.allocs := by cases c <;> rfl
@[simp] theorem State.raise_answers (s : State) (c : Code) (v : Word) : (s.raise c v).answers = s.answers := by cases c <;> rfl
@[simp] theorem State.raise_raced (s : State) (c : Code) (v : Word) : (s.raise c v).raced = s.raced := by cases c <;> rfl
@[simp] theorem State.raise_held (s : State) (c : Code) (v : Word) : (s.raise c v).held = s.held := by cases c <;> rfl
@[simp] theorem State.raise_draws (s : State) (c : Code) (v : Word) : (s.raise c v).draws = s.draws := by cases c <;> rfl
@[simp] theorem State.raise_sched (s : State) (c : Code) (v : Word) : (s.raise c v).sched = s.sched := by cases c <;> rfl

/-! ### The buffers and the port -/

@[simp] theorem State.store_cfg (s : State) (pa : Addr) (n : Width) (v : Addr) : (s.store pa n v).cfg = s.cfg := rfl
@[simp] theorem State.store_life (s : State) (pa : Addr) (n : Width) (v : Addr) : (s.store pa n v).life = s.life := rfl
@[simp] theorem State.store_seq (s : State) (pa : Addr) (n : Width) (v : Addr) : (s.store pa n v).seq = s.seq := rfl
@[simp] theorem State.store_txq (s : State) (pa : Addr) (n : Width) (v : Addr) : (s.store pa n v).txq = s.txq := rfl
@[simp] theorem State.store_rxq (s : State) (pa : Addr) (n : Width) (v : Addr) : (s.store pa n v).rxq = s.rxq := rfl
@[simp] theorem State.store_cmdw (s : State) (pa : Addr) (n : Width) (v : Addr) : (s.store pa n v).cmdw = s.cmdw := rfl
@[simp] theorem State.store_arg0 (s : State) (pa : Addr) (n : Width) (v : Addr) : (s.store pa n v).arg0 = s.arg0 := rfl
@[simp] theorem State.store_pktIn (s : State) (pa : Addr) (n : Width) (v : Addr) : (s.store pa n v).pktIn = s.pktIn := rfl
@[simp] theorem State.store_resCode (s : State) (pa : Addr) (n : Width) (v : Addr) : (s.store pa n v).resCode = s.resCode := rfl
@[simp] theorem State.store_resVal (s : State) (pa : Addr) (n : Width) (v : Addr) : (s.store pa n v).resVal = s.resVal := rfl
@[simp] theorem State.store_pktOut (s : State) (pa : Addr) (n : Width) (v : Addr) : (s.store pa n v).pktOut = s.pktOut := rfl
@[simp] theorem State.store_log (s : State) (pa : Addr) (n : Width) (v : Addr) : (s.store pa n v).log = s.log := rfl
@[simp] theorem State.store_fault (s : State) (pa : Addr) (n : Width) (v : Addr) : (s.store pa n v).fault = s.fault := rfl
@[simp] theorem State.store_rxN (s : State) (pa : Addr) (n : Width) (v : Addr) : (s.store pa n v).rxN = s.rxN := rfl
@[simp] theorem State.store_mem (s : State) (pa : Addr) (n : Width) (v : Addr) : (s.store pa n v).mem = s.mem := rfl
@[simp] theorem State.store_sb (s : State) (pa : Addr) (n : Width) (v : Addr) : (s.store pa n v).sb = s.sb ++ [⟨pa, n, n.truncate v⟩] := rfl
@[simp] theorem State.store_pwq (s : State) (pa : Addr) (n : Width) (v : Addr) : (s.store pa n v).pwq = s.pwq := rfl
@[simp] theorem State.store_mac (s : State) (pa : Addr) (n : Width) (v : Addr) : (s.store pa n v).mac = s.mac := rfl
@[simp] theorem State.store_allocs (s : State) (pa : Addr) (n : Width) (v : Addr) : (s.store pa n v).allocs = s.allocs := rfl
@[simp] theorem State.store_answers (s : State) (pa : Addr) (n : Width) (v : Addr) : (s.store pa n v).answers = s.answers := rfl
@[simp] theorem State.store_raced (s : State) (pa : Addr) (n : Width) (v : Addr) : (s.store pa n v).raced = s.raced := rfl
@[simp] theorem State.store_held (s : State) (pa : Addr) (n : Width) (v : Addr) : (s.store pa n v).held = s.held := rfl
@[simp] theorem State.store_draws (s : State) (pa : Addr) (n : Width) (v : Addr) : (s.store pa n v).draws = s.draws := rfl
@[simp] theorem State.store_sched (s : State) (pa : Addr) (n : Width) (v : Addr) : (s.store pa n v).sched = s.sched := rfl

@[simp] theorem State.post_cfg (s : State) (off v : Word) : (s.post off v).cfg = s.cfg := rfl
@[simp] theorem State.post_life (s : State) (off v : Word) : (s.post off v).life = s.life := rfl
@[simp] theorem State.post_seq (s : State) (off v : Word) : (s.post off v).seq = s.seq := rfl
@[simp] theorem State.post_txq (s : State) (off v : Word) : (s.post off v).txq = s.txq := rfl
@[simp] theorem State.post_rxq (s : State) (off v : Word) : (s.post off v).rxq = s.rxq := rfl
@[simp] theorem State.post_cmdw (s : State) (off v : Word) : (s.post off v).cmdw = s.cmdw := rfl
@[simp] theorem State.post_arg0 (s : State) (off v : Word) : (s.post off v).arg0 = s.arg0 := rfl
@[simp] theorem State.post_pktIn (s : State) (off v : Word) : (s.post off v).pktIn = s.pktIn := rfl
@[simp] theorem State.post_resCode (s : State) (off v : Word) : (s.post off v).resCode = s.resCode := rfl
@[simp] theorem State.post_resVal (s : State) (off v : Word) : (s.post off v).resVal = s.resVal := rfl
@[simp] theorem State.post_pktOut (s : State) (off v : Word) : (s.post off v).pktOut = s.pktOut := rfl
@[simp] theorem State.post_log (s : State) (off v : Word) : (s.post off v).log = s.log := rfl
@[simp] theorem State.post_fault (s : State) (off v : Word) : (s.post off v).fault = s.fault := rfl
@[simp] theorem State.post_rxN (s : State) (off v : Word) : (s.post off v).rxN = s.rxN := rfl
@[simp] theorem State.post_mem (s : State) (off v : Word) : (s.post off v).mem = s.mem := rfl
@[simp] theorem State.post_sb (s : State) (off v : Word) : (s.post off v).sb = s.sb := rfl
@[simp] theorem State.post_pwq (s : State) (off v : Word) : (s.post off v).pwq = s.pwq ++ [⟨off, v⟩] := rfl
@[simp] theorem State.post_mac (s : State) (off v : Word) : (s.post off v).mac = s.mac := rfl
@[simp] theorem State.post_allocs (s : State) (off v : Word) : (s.post off v).allocs = s.allocs := rfl
@[simp] theorem State.post_answers (s : State) (off v : Word) : (s.post off v).answers = s.answers := rfl
@[simp] theorem State.post_raced (s : State) (off v : Word) : (s.post off v).raced = s.raced := rfl
@[simp] theorem State.post_held (s : State) (off v : Word) : (s.post off v).held = s.held := rfl
@[simp] theorem State.post_draws (s : State) (off v : Word) : (s.post off v).draws = s.draws := rfl
@[simp] theorem State.post_sched (s : State) (off v : Word) : (s.post off v).sched = s.sched := rfl

@[simp] theorem State.writePort_cfg (s : State) (w a : Word) (p : List Byte) : (s.writePort w a p).cfg = s.cfg := rfl
@[simp] theorem State.writePort_life (s : State) (w a : Word) (p : List Byte) : (s.writePort w a p).life = s.life := rfl
@[simp] theorem State.writePort_seq (s : State) (w a : Word) (p : List Byte) : (s.writePort w a p).seq = s.seq := rfl
@[simp] theorem State.writePort_txq (s : State) (w a : Word) (p : List Byte) : (s.writePort w a p).txq = s.txq := rfl
@[simp] theorem State.writePort_rxq (s : State) (w a : Word) (p : List Byte) : (s.writePort w a p).rxq = s.rxq := rfl
@[simp] theorem State.writePort_cmdw (s : State) (w a : Word) (p : List Byte) : (s.writePort w a p).cmdw = w := rfl
@[simp] theorem State.writePort_arg0 (s : State) (w a : Word) (p : List Byte) : (s.writePort w a p).arg0 = a := rfl
@[simp] theorem State.writePort_pktIn (s : State) (w a : Word) (p : List Byte) : (s.writePort w a p).pktIn = p := rfl
@[simp] theorem State.writePort_resCode (s : State) (w a : Word) (p : List Byte) : (s.writePort w a p).resCode = s.resCode := rfl
@[simp] theorem State.writePort_resVal (s : State) (w a : Word) (p : List Byte) : (s.writePort w a p).resVal = s.resVal := rfl
@[simp] theorem State.writePort_pktOut (s : State) (w a : Word) (p : List Byte) : (s.writePort w a p).pktOut = s.pktOut := rfl
@[simp] theorem State.writePort_log (s : State) (w a : Word) (p : List Byte) : (s.writePort w a p).log = s.log := rfl
@[simp] theorem State.writePort_fault (s : State) (w a : Word) (p : List Byte) : (s.writePort w a p).fault = s.fault := rfl
@[simp] theorem State.writePort_rxN (s : State) (w a : Word) (p : List Byte) : (s.writePort w a p).rxN = s.rxN := rfl
@[simp] theorem State.writePort_mem (s : State) (w a : Word) (p : List Byte) : (s.writePort w a p).mem = s.mem := rfl
@[simp] theorem State.writePort_sb (s : State) (w a : Word) (p : List Byte) : (s.writePort w a p).sb = s.sb := rfl
@[simp] theorem State.writePort_pwq (s : State) (w a : Word) (p : List Byte) : (s.writePort w a p).pwq = s.pwq := rfl
@[simp] theorem State.writePort_mac (s : State) (w a : Word) (p : List Byte) : (s.writePort w a p).mac = s.mac := rfl
@[simp] theorem State.writePort_allocs (s : State) (w a : Word) (p : List Byte) : (s.writePort w a p).allocs = s.allocs := rfl
@[simp] theorem State.writePort_answers (s : State) (w a : Word) (p : List Byte) : (s.writePort w a p).answers = s.answers := rfl
@[simp] theorem State.writePort_raced (s : State) (w a : Word) (p : List Byte) : (s.writePort w a p).raced = s.raced := rfl
@[simp] theorem State.writePort_held (s : State) (w a : Word) (p : List Byte) : (s.writePort w a p).held = s.held := rfl
@[simp] theorem State.writePort_draws (s : State) (w a : Word) (p : List Byte) : (s.writePort w a p).draws = s.draws := rfl
@[simp] theorem State.writePort_sched (s : State) (w a : Word) (p : List Byte) : (s.writePort w a p).sched = s.sched := rfl

/-! ### The rings -/

@[simp] theorem State.setRing_cfg (s : State) (q : RingId) (r : Ring) : (s.setRing q r).cfg = s.cfg := by cases q <;> rfl
@[simp] theorem State.setRing_life (s : State) (q : RingId) (r : Ring) : (s.setRing q r).life = s.life := by cases q <;> rfl
@[simp] theorem State.setRing_seq (s : State) (q : RingId) (r : Ring) : (s.setRing q r).seq = s.seq := by cases q <;> rfl
@[simp] theorem State.setRing_txq (s : State) (q : RingId) (r : Ring) : (s.setRing q r).txq = if q = .tx then r else s.txq := by cases q <;> rfl
@[simp] theorem State.setRing_rxq (s : State) (q : RingId) (r : Ring) : (s.setRing q r).rxq = if q = .rx then r else s.rxq := by cases q <;> rfl
@[simp] theorem State.setRing_cmdw (s : State) (q : RingId) (r : Ring) : (s.setRing q r).cmdw = s.cmdw := by cases q <;> rfl
@[simp] theorem State.setRing_arg0 (s : State) (q : RingId) (r : Ring) : (s.setRing q r).arg0 = s.arg0 := by cases q <;> rfl
@[simp] theorem State.setRing_pktIn (s : State) (q : RingId) (r : Ring) : (s.setRing q r).pktIn = s.pktIn := by cases q <;> rfl
@[simp] theorem State.setRing_resCode (s : State) (q : RingId) (r : Ring) : (s.setRing q r).resCode = s.resCode := by cases q <;> rfl
@[simp] theorem State.setRing_resVal (s : State) (q : RingId) (r : Ring) : (s.setRing q r).resVal = s.resVal := by cases q <;> rfl
@[simp] theorem State.setRing_pktOut (s : State) (q : RingId) (r : Ring) : (s.setRing q r).pktOut = s.pktOut := by cases q <;> rfl
@[simp] theorem State.setRing_log (s : State) (q : RingId) (r : Ring) : (s.setRing q r).log = s.log := by cases q <;> rfl
@[simp] theorem State.setRing_fault (s : State) (q : RingId) (r : Ring) : (s.setRing q r).fault = s.fault := by cases q <;> rfl
@[simp] theorem State.setRing_rxN (s : State) (q : RingId) (r : Ring) : (s.setRing q r).rxN = s.rxN := by cases q <;> rfl
@[simp] theorem State.setRing_mem (s : State) (q : RingId) (r : Ring) : (s.setRing q r).mem = s.mem := by cases q <;> rfl
@[simp] theorem State.setRing_sb (s : State) (q : RingId) (r : Ring) : (s.setRing q r).sb = s.sb := by cases q <;> rfl
@[simp] theorem State.setRing_pwq (s : State) (q : RingId) (r : Ring) : (s.setRing q r).pwq = s.pwq := by cases q <;> rfl
@[simp] theorem State.setRing_mac (s : State) (q : RingId) (r : Ring) : (s.setRing q r).mac = s.mac := by cases q <;> rfl
@[simp] theorem State.setRing_allocs (s : State) (q : RingId) (r : Ring) : (s.setRing q r).allocs = s.allocs := by cases q <;> rfl
@[simp] theorem State.setRing_answers (s : State) (q : RingId) (r : Ring) : (s.setRing q r).answers = s.answers := by cases q <;> rfl
@[simp] theorem State.setRing_raced (s : State) (q : RingId) (r : Ring) : (s.setRing q r).raced = s.raced := by cases q <;> rfl
@[simp] theorem State.setRing_held (s : State) (q : RingId) (r : Ring) : (s.setRing q r).held = s.held := by cases q <;> rfl
@[simp] theorem State.setRing_draws (s : State) (q : RingId) (r : Ring) : (s.setRing q r).draws = s.draws := by cases q <;> rfl
@[simp] theorem State.setRing_sched (s : State) (q : RingId) (r : Ring) : (s.setRing q r).sched = s.sched := by cases q <;> rfl

@[simp] theorem State.setTag_cfg (s : State) (q : RingId) (i : Nat) (t : OwnTag) : (s.setTag q i t).cfg = s.cfg := by cases q <;> rfl
@[simp] theorem State.setTag_life (s : State) (q : RingId) (i : Nat) (t : OwnTag) : (s.setTag q i t).life = s.life := by cases q <;> rfl
@[simp] theorem State.setTag_seq (s : State) (q : RingId) (i : Nat) (t : OwnTag) : (s.setTag q i t).seq = s.seq := by cases q <;> rfl
@[simp] theorem State.setTag_txq (s : State) (q : RingId) (i : Nat) (t : OwnTag) : (s.setTag q i t).txq = if q = .tx then { s.txq with own := s.txq.own.set i t } else s.txq := by cases q <;> rfl
@[simp] theorem State.setTag_rxq (s : State) (q : RingId) (i : Nat) (t : OwnTag) : (s.setTag q i t).rxq = if q = .rx then { s.rxq with own := s.rxq.own.set i t } else s.rxq := by cases q <;> rfl
@[simp] theorem State.setTag_cmdw (s : State) (q : RingId) (i : Nat) (t : OwnTag) : (s.setTag q i t).cmdw = s.cmdw := by cases q <;> rfl
@[simp] theorem State.setTag_arg0 (s : State) (q : RingId) (i : Nat) (t : OwnTag) : (s.setTag q i t).arg0 = s.arg0 := by cases q <;> rfl
@[simp] theorem State.setTag_pktIn (s : State) (q : RingId) (i : Nat) (t : OwnTag) : (s.setTag q i t).pktIn = s.pktIn := by cases q <;> rfl
@[simp] theorem State.setTag_resCode (s : State) (q : RingId) (i : Nat) (t : OwnTag) : (s.setTag q i t).resCode = s.resCode := by cases q <;> rfl
@[simp] theorem State.setTag_resVal (s : State) (q : RingId) (i : Nat) (t : OwnTag) : (s.setTag q i t).resVal = s.resVal := by cases q <;> rfl
@[simp] theorem State.setTag_pktOut (s : State) (q : RingId) (i : Nat) (t : OwnTag) : (s.setTag q i t).pktOut = s.pktOut := by cases q <;> rfl
@[simp] theorem State.setTag_log (s : State) (q : RingId) (i : Nat) (t : OwnTag) : (s.setTag q i t).log = s.log := by cases q <;> rfl
@[simp] theorem State.setTag_fault (s : State) (q : RingId) (i : Nat) (t : OwnTag) : (s.setTag q i t).fault = s.fault := by cases q <;> rfl
@[simp] theorem State.setTag_rxN (s : State) (q : RingId) (i : Nat) (t : OwnTag) : (s.setTag q i t).rxN = s.rxN := by cases q <;> rfl
@[simp] theorem State.setTag_mem (s : State) (q : RingId) (i : Nat) (t : OwnTag) : (s.setTag q i t).mem = s.mem := by cases q <;> rfl
@[simp] theorem State.setTag_sb (s : State) (q : RingId) (i : Nat) (t : OwnTag) : (s.setTag q i t).sb = s.sb := by cases q <;> rfl
@[simp] theorem State.setTag_pwq (s : State) (q : RingId) (i : Nat) (t : OwnTag) : (s.setTag q i t).pwq = s.pwq := by cases q <;> rfl
@[simp] theorem State.setTag_mac (s : State) (q : RingId) (i : Nat) (t : OwnTag) : (s.setTag q i t).mac = s.mac := by cases q <;> rfl
@[simp] theorem State.setTag_allocs (s : State) (q : RingId) (i : Nat) (t : OwnTag) : (s.setTag q i t).allocs = s.allocs := by cases q <;> rfl
@[simp] theorem State.setTag_answers (s : State) (q : RingId) (i : Nat) (t : OwnTag) : (s.setTag q i t).answers = s.answers := by cases q <;> rfl
@[simp] theorem State.setTag_raced (s : State) (q : RingId) (i : Nat) (t : OwnTag) : (s.setTag q i t).raced = s.raced := by cases q <;> rfl
@[simp] theorem State.setTag_held (s : State) (q : RingId) (i : Nat) (t : OwnTag) : (s.setTag q i t).held = s.held := by cases q <;> rfl
@[simp] theorem State.setTag_draws (s : State) (q : RingId) (i : Nat) (t : OwnTag) : (s.setTag q i t).draws = s.draws := by cases q <;> rfl
@[simp] theorem State.setTag_sched (s : State) (q : RingId) (i : Nat) (t : OwnTag) : (s.setTag q i t).sched = s.sched := by cases q <;> rfl

@[simp] theorem State.setAllTags_cfg (s : State) (q : RingId) (t : OwnTag) : (s.setAllTags q t).cfg = s.cfg := by cases q <;> rfl
@[simp] theorem State.setAllTags_life (s : State) (q : RingId) (t : OwnTag) : (s.setAllTags q t).life = s.life := by cases q <;> rfl
@[simp] theorem State.setAllTags_seq (s : State) (q : RingId) (t : OwnTag) : (s.setAllTags q t).seq = s.seq := by cases q <;> rfl
@[simp] theorem State.setAllTags_txq (s : State) (q : RingId) (t : OwnTag) : (s.setAllTags q t).txq = if q = .tx then { s.txq with own := List.replicate s.cfg.cap t } else s.txq := by cases q <;> rfl
@[simp] theorem State.setAllTags_rxq (s : State) (q : RingId) (t : OwnTag) : (s.setAllTags q t).rxq = if q = .rx then { s.rxq with own := List.replicate s.cfg.cap t } else s.rxq := by cases q <;> rfl
@[simp] theorem State.setAllTags_cmdw (s : State) (q : RingId) (t : OwnTag) : (s.setAllTags q t).cmdw = s.cmdw := by cases q <;> rfl
@[simp] theorem State.setAllTags_arg0 (s : State) (q : RingId) (t : OwnTag) : (s.setAllTags q t).arg0 = s.arg0 := by cases q <;> rfl
@[simp] theorem State.setAllTags_pktIn (s : State) (q : RingId) (t : OwnTag) : (s.setAllTags q t).pktIn = s.pktIn := by cases q <;> rfl
@[simp] theorem State.setAllTags_resCode (s : State) (q : RingId) (t : OwnTag) : (s.setAllTags q t).resCode = s.resCode := by cases q <;> rfl
@[simp] theorem State.setAllTags_resVal (s : State) (q : RingId) (t : OwnTag) : (s.setAllTags q t).resVal = s.resVal := by cases q <;> rfl
@[simp] theorem State.setAllTags_pktOut (s : State) (q : RingId) (t : OwnTag) : (s.setAllTags q t).pktOut = s.pktOut := by cases q <;> rfl
@[simp] theorem State.setAllTags_log (s : State) (q : RingId) (t : OwnTag) : (s.setAllTags q t).log = s.log := by cases q <;> rfl
@[simp] theorem State.setAllTags_fault (s : State) (q : RingId) (t : OwnTag) : (s.setAllTags q t).fault = s.fault := by cases q <;> rfl
@[simp] theorem State.setAllTags_rxN (s : State) (q : RingId) (t : OwnTag) : (s.setAllTags q t).rxN = s.rxN := by cases q <;> rfl
@[simp] theorem State.setAllTags_mem (s : State) (q : RingId) (t : OwnTag) : (s.setAllTags q t).mem = s.mem := by cases q <;> rfl
@[simp] theorem State.setAllTags_sb (s : State) (q : RingId) (t : OwnTag) : (s.setAllTags q t).sb = s.sb := by cases q <;> rfl
@[simp] theorem State.setAllTags_pwq (s : State) (q : RingId) (t : OwnTag) : (s.setAllTags q t).pwq = s.pwq := by cases q <;> rfl
@[simp] theorem State.setAllTags_mac (s : State) (q : RingId) (t : OwnTag) : (s.setAllTags q t).mac = s.mac := by cases q <;> rfl
@[simp] theorem State.setAllTags_allocs (s : State) (q : RingId) (t : OwnTag) : (s.setAllTags q t).allocs = s.allocs := by cases q <;> rfl
@[simp] theorem State.setAllTags_answers (s : State) (q : RingId) (t : OwnTag) : (s.setAllTags q t).answers = s.answers := by cases q <;> rfl
@[simp] theorem State.setAllTags_raced (s : State) (q : RingId) (t : OwnTag) : (s.setAllTags q t).raced = s.raced := by cases q <;> rfl
@[simp] theorem State.setAllTags_held (s : State) (q : RingId) (t : OwnTag) : (s.setAllTags q t).held = s.held := by cases q <;> rfl
@[simp] theorem State.setAllTags_draws (s : State) (q : RingId) (t : OwnTag) : (s.setAllTags q t).draws = s.draws := by cases q <;> rfl
@[simp] theorem State.setAllTags_sched (s : State) (q : RingId) (t : OwnTag) : (s.setAllTags q t).sched = s.sched := by cases q <;> rfl

@[simp] theorem State.setTail_cfg (s : State) (q : RingId) (i : Nat) : (s.setTail q i).cfg = s.cfg := by cases q <;> rfl
@[simp] theorem State.setTail_life (s : State) (q : RingId) (i : Nat) : (s.setTail q i).life = s.life := by cases q <;> rfl
@[simp] theorem State.setTail_seq (s : State) (q : RingId) (i : Nat) : (s.setTail q i).seq = s.seq := by cases q <;> rfl
@[simp] theorem State.setTail_txq (s : State) (q : RingId) (i : Nat) : (s.setTail q i).txq = if q = .tx then { s.txq with tail := i } else s.txq := by cases q <;> rfl
@[simp] theorem State.setTail_rxq (s : State) (q : RingId) (i : Nat) : (s.setTail q i).rxq = if q = .rx then { s.rxq with tail := i } else s.rxq := by cases q <;> rfl
@[simp] theorem State.setTail_cmdw (s : State) (q : RingId) (i : Nat) : (s.setTail q i).cmdw = s.cmdw := by cases q <;> rfl
@[simp] theorem State.setTail_arg0 (s : State) (q : RingId) (i : Nat) : (s.setTail q i).arg0 = s.arg0 := by cases q <;> rfl
@[simp] theorem State.setTail_pktIn (s : State) (q : RingId) (i : Nat) : (s.setTail q i).pktIn = s.pktIn := by cases q <;> rfl
@[simp] theorem State.setTail_resCode (s : State) (q : RingId) (i : Nat) : (s.setTail q i).resCode = s.resCode := by cases q <;> rfl
@[simp] theorem State.setTail_resVal (s : State) (q : RingId) (i : Nat) : (s.setTail q i).resVal = s.resVal := by cases q <;> rfl
@[simp] theorem State.setTail_pktOut (s : State) (q : RingId) (i : Nat) : (s.setTail q i).pktOut = s.pktOut := by cases q <;> rfl
@[simp] theorem State.setTail_log (s : State) (q : RingId) (i : Nat) : (s.setTail q i).log = s.log := by cases q <;> rfl
@[simp] theorem State.setTail_fault (s : State) (q : RingId) (i : Nat) : (s.setTail q i).fault = s.fault := by cases q <;> rfl
@[simp] theorem State.setTail_rxN (s : State) (q : RingId) (i : Nat) : (s.setTail q i).rxN = s.rxN := by cases q <;> rfl
@[simp] theorem State.setTail_mem (s : State) (q : RingId) (i : Nat) : (s.setTail q i).mem = s.mem := by cases q <;> rfl
@[simp] theorem State.setTail_sb (s : State) (q : RingId) (i : Nat) : (s.setTail q i).sb = s.sb := by cases q <;> rfl
@[simp] theorem State.setTail_pwq (s : State) (q : RingId) (i : Nat) : (s.setTail q i).pwq = s.pwq := by cases q <;> rfl
@[simp] theorem State.setTail_mac (s : State) (q : RingId) (i : Nat) : (s.setTail q i).mac = s.mac := by cases q <;> rfl
@[simp] theorem State.setTail_allocs (s : State) (q : RingId) (i : Nat) : (s.setTail q i).allocs = s.allocs := by cases q <;> rfl
@[simp] theorem State.setTail_answers (s : State) (q : RingId) (i : Nat) : (s.setTail q i).answers = s.answers := by cases q <;> rfl
@[simp] theorem State.setTail_raced (s : State) (q : RingId) (i : Nat) : (s.setTail q i).raced = s.raced := by cases q <;> rfl
@[simp] theorem State.setTail_held (s : State) (q : RingId) (i : Nat) : (s.setTail q i).held = s.held := by cases q <;> rfl
@[simp] theorem State.setTail_draws (s : State) (q : RingId) (i : Nat) : (s.setTail q i).draws = s.draws := by cases q <;> rfl
@[simp] theorem State.setTail_sched (s : State) (q : RingId) (i : Nat) : (s.setTail q i).sched = s.sched := by cases q <;> rfl

@[simp] theorem State.takeSlot_cfg (s : State) (q : RingId) (i : Nat) : (s.takeSlot q i).cfg = s.cfg := by cases q <;> rfl
@[simp] theorem State.takeSlot_life (s : State) (q : RingId) (i : Nat) : (s.takeSlot q i).life = s.life := by cases q <;> rfl
@[simp] theorem State.takeSlot_seq (s : State) (q : RingId) (i : Nat) : (s.takeSlot q i).seq = s.seq := by cases q <;> rfl
@[simp] theorem State.takeSlot_txq (s : State) (q : RingId) (i : Nat) : (s.takeSlot q i).txq =
    if q = .tx then { s.txq with own := s.txq.own.set i .sw } else s.txq := by cases q <;> rfl
@[simp] theorem State.takeSlot_rxq (s : State) (q : RingId) (i : Nat) : (s.takeSlot q i).rxq =
    if q = .rx then { s.rxq with own := s.rxq.own.set i .sw } else s.rxq := by cases q <;> rfl
@[simp] theorem State.takeSlot_cmdw (s : State) (q : RingId) (i : Nat) : (s.takeSlot q i).cmdw = s.cmdw := by cases q <;> rfl
@[simp] theorem State.takeSlot_arg0 (s : State) (q : RingId) (i : Nat) : (s.takeSlot q i).arg0 = s.arg0 := by cases q <;> rfl
@[simp] theorem State.takeSlot_pktIn (s : State) (q : RingId) (i : Nat) : (s.takeSlot q i).pktIn = s.pktIn := by cases q <;> rfl
@[simp] theorem State.takeSlot_resCode (s : State) (q : RingId) (i : Nat) : (s.takeSlot q i).resCode = s.resCode := by cases q <;> rfl
@[simp] theorem State.takeSlot_resVal (s : State) (q : RingId) (i : Nat) : (s.takeSlot q i).resVal = s.resVal := by cases q <;> rfl
@[simp] theorem State.takeSlot_pktOut (s : State) (q : RingId) (i : Nat) : (s.takeSlot q i).pktOut = s.pktOut := by cases q <;> rfl
@[simp] theorem State.takeSlot_log (s : State) (q : RingId) (i : Nat) : (s.takeSlot q i).log = s.log := by cases q <;> rfl
@[simp] theorem State.takeSlot_fault (s : State) (q : RingId) (i : Nat) : (s.takeSlot q i).fault = s.fault := by cases q <;> rfl
@[simp] theorem State.takeSlot_rxN (s : State) (q : RingId) (i : Nat) : (s.takeSlot q i).rxN = s.rxN := by cases q <;> rfl
@[simp] theorem State.takeSlot_mem (s : State) (q : RingId) (i : Nat) : (s.takeSlot q i).mem = s.mem := by cases q <;> rfl
@[simp] theorem State.takeSlot_sb (s : State) (q : RingId) (i : Nat) : (s.takeSlot q i).sb = s.sb := by cases q <;> rfl
@[simp] theorem State.takeSlot_pwq (s : State) (q : RingId) (i : Nat) : (s.takeSlot q i).pwq = s.pwq := by cases q <;> rfl
@[simp] theorem State.takeSlot_mac (s : State) (q : RingId) (i : Nat) : (s.takeSlot q i).mac = s.mac := by cases q <;> rfl
@[simp] theorem State.takeSlot_allocs (s : State) (q : RingId) (i : Nat) : (s.takeSlot q i).allocs = s.allocs := by cases q <;> rfl
@[simp] theorem State.takeSlot_answers (s : State) (q : RingId) (i : Nat) : (s.takeSlot q i).answers = s.answers := by cases q <;> rfl
@[simp] theorem State.takeSlot_raced (s : State) (q : RingId) (i : Nat) : (s.takeSlot q i).raced = s.raced := by cases q <;> rfl
@[simp] theorem State.takeSlot_held (s : State) (q : RingId) (i : Nat) : (s.takeSlot q i).held =
    heldWith s.held (slotExtents s q i) := rfl
@[simp] theorem State.takeSlot_draws (s : State) (q : RingId) (i : Nat) : (s.takeSlot q i).draws = s.draws := by cases q <;> rfl
@[simp] theorem State.takeSlot_sched (s : State) (q : RingId) (i : Nat) : (s.takeSlot q i).sched = s.sched := by cases q <;> rfl

@[simp] theorem State.giveSlot_cfg (s : State) (q : RingId) (i : Nat) : (s.giveSlot q i).cfg = s.cfg := by cases q <;> rfl
@[simp] theorem State.giveSlot_life (s : State) (q : RingId) (i : Nat) : (s.giveSlot q i).life = s.life := by cases q <;> rfl
@[simp] theorem State.giveSlot_seq (s : State) (q : RingId) (i : Nat) : (s.giveSlot q i).seq = s.seq := by cases q <;> rfl
@[simp] theorem State.giveSlot_txq (s : State) (q : RingId) (i : Nat) : (s.giveSlot q i).txq =
    if q = .tx then { s.txq with own := s.txq.own.set i .hw } else s.txq := by cases q <;> rfl
@[simp] theorem State.giveSlot_rxq (s : State) (q : RingId) (i : Nat) : (s.giveSlot q i).rxq =
    if q = .rx then { s.rxq with own := s.rxq.own.set i .hw } else s.rxq := by cases q <;> rfl
@[simp] theorem State.giveSlot_cmdw (s : State) (q : RingId) (i : Nat) : (s.giveSlot q i).cmdw = s.cmdw := by cases q <;> rfl
@[simp] theorem State.giveSlot_arg0 (s : State) (q : RingId) (i : Nat) : (s.giveSlot q i).arg0 = s.arg0 := by cases q <;> rfl
@[simp] theorem State.giveSlot_pktIn (s : State) (q : RingId) (i : Nat) : (s.giveSlot q i).pktIn = s.pktIn := by cases q <;> rfl
@[simp] theorem State.giveSlot_resCode (s : State) (q : RingId) (i : Nat) : (s.giveSlot q i).resCode = s.resCode := by cases q <;> rfl
@[simp] theorem State.giveSlot_resVal (s : State) (q : RingId) (i : Nat) : (s.giveSlot q i).resVal = s.resVal := by cases q <;> rfl
@[simp] theorem State.giveSlot_pktOut (s : State) (q : RingId) (i : Nat) : (s.giveSlot q i).pktOut = s.pktOut := by cases q <;> rfl
@[simp] theorem State.giveSlot_log (s : State) (q : RingId) (i : Nat) : (s.giveSlot q i).log = s.log := by cases q <;> rfl
@[simp] theorem State.giveSlot_fault (s : State) (q : RingId) (i : Nat) : (s.giveSlot q i).fault = s.fault := by cases q <;> rfl
@[simp] theorem State.giveSlot_rxN (s : State) (q : RingId) (i : Nat) : (s.giveSlot q i).rxN = s.rxN := by cases q <;> rfl
@[simp] theorem State.giveSlot_mem (s : State) (q : RingId) (i : Nat) : (s.giveSlot q i).mem = s.mem := by cases q <;> rfl
@[simp] theorem State.giveSlot_sb (s : State) (q : RingId) (i : Nat) : (s.giveSlot q i).sb = s.sb := by cases q <;> rfl
@[simp] theorem State.giveSlot_pwq (s : State) (q : RingId) (i : Nat) : (s.giveSlot q i).pwq = s.pwq := by cases q <;> rfl
@[simp] theorem State.giveSlot_mac (s : State) (q : RingId) (i : Nat) : (s.giveSlot q i).mac = s.mac := by cases q <;> rfl
@[simp] theorem State.giveSlot_allocs (s : State) (q : RingId) (i : Nat) : (s.giveSlot q i).allocs = s.allocs := by cases q <;> rfl
@[simp] theorem State.giveSlot_answers (s : State) (q : RingId) (i : Nat) : (s.giveSlot q i).answers = s.answers := by cases q <;> rfl
@[simp] theorem State.giveSlot_raced (s : State) (q : RingId) (i : Nat) : (s.giveSlot q i).raced = s.raced := by cases q <;> rfl
@[simp] theorem State.giveSlot_held (s : State) (q : RingId) (i : Nat) : (s.giveSlot q i).held =
    heldWithout s.held (slotExtents s q i) := rfl
@[simp] theorem State.giveSlot_draws (s : State) (q : RingId) (i : Nat) : (s.giveSlot q i).draws = s.draws := by cases q <;> rfl
@[simp] theorem State.giveSlot_sched (s : State) (q : RingId) (i : Nat) : (s.giveSlot q i).sched = s.sched := by cases q <;> rfl

@[simp] theorem State.giveRing_cfg (s : State) (q : RingId) : (s.giveRing q).cfg = s.cfg := by cases q <;> rfl
@[simp] theorem State.giveRing_life (s : State) (q : RingId) : (s.giveRing q).life = s.life := by cases q <;> rfl
@[simp] theorem State.giveRing_seq (s : State) (q : RingId) : (s.giveRing q).seq = s.seq := by cases q <;> rfl
@[simp] theorem State.giveRing_txq (s : State) (q : RingId) : (s.giveRing q).txq =
    if q = .tx then { s.txq with own := List.replicate s.cfg.cap .hw } else s.txq := by cases q <;> rfl
@[simp] theorem State.giveRing_rxq (s : State) (q : RingId) : (s.giveRing q).rxq =
    if q = .rx then { s.rxq with own := List.replicate s.cfg.cap .hw } else s.rxq := by cases q <;> rfl
@[simp] theorem State.giveRing_cmdw (s : State) (q : RingId) : (s.giveRing q).cmdw = s.cmdw := by cases q <;> rfl
@[simp] theorem State.giveRing_arg0 (s : State) (q : RingId) : (s.giveRing q).arg0 = s.arg0 := by cases q <;> rfl
@[simp] theorem State.giveRing_pktIn (s : State) (q : RingId) : (s.giveRing q).pktIn = s.pktIn := by cases q <;> rfl
@[simp] theorem State.giveRing_resCode (s : State) (q : RingId) : (s.giveRing q).resCode = s.resCode := by cases q <;> rfl
@[simp] theorem State.giveRing_resVal (s : State) (q : RingId) : (s.giveRing q).resVal = s.resVal := by cases q <;> rfl
@[simp] theorem State.giveRing_pktOut (s : State) (q : RingId) : (s.giveRing q).pktOut = s.pktOut := by cases q <;> rfl
@[simp] theorem State.giveRing_log (s : State) (q : RingId) : (s.giveRing q).log = s.log := by cases q <;> rfl
@[simp] theorem State.giveRing_fault (s : State) (q : RingId) : (s.giveRing q).fault = s.fault := by cases q <;> rfl
@[simp] theorem State.giveRing_rxN (s : State) (q : RingId) : (s.giveRing q).rxN = s.rxN := by cases q <;> rfl
@[simp] theorem State.giveRing_mem (s : State) (q : RingId) : (s.giveRing q).mem = s.mem := by cases q <;> rfl
@[simp] theorem State.giveRing_sb (s : State) (q : RingId) : (s.giveRing q).sb = s.sb := by cases q <;> rfl
@[simp] theorem State.giveRing_pwq (s : State) (q : RingId) : (s.giveRing q).pwq = s.pwq := by cases q <;> rfl
@[simp] theorem State.giveRing_mac (s : State) (q : RingId) : (s.giveRing q).mac = s.mac := by cases q <;> rfl
@[simp] theorem State.giveRing_allocs (s : State) (q : RingId) : (s.giveRing q).allocs = s.allocs := by cases q <;> rfl
@[simp] theorem State.giveRing_answers (s : State) (q : RingId) : (s.giveRing q).answers = s.answers := by cases q <;> rfl
@[simp] theorem State.giveRing_raced (s : State) (q : RingId) : (s.giveRing q).raced = s.raced := by cases q <;> rfl
@[simp] theorem State.giveRing_held (s : State) (q : RingId) : (s.giveRing q).held =
    heldWithout s.held ((List.range s.cfg.cap).flatMap (slotExtents s q)) := rfl
@[simp] theorem State.giveRing_draws (s : State) (q : RingId) : (s.giveRing q).draws = s.draws := by cases q <;> rfl
@[simp] theorem State.giveRing_sched (s : State) (q : RingId) : (s.giveRing q).sched = s.sched := by cases q <;> rfl

/-! ### The allocator -/

@[simp] theorem State.grant_cfg (s : State) (h : Handle) (n : Nat) : (s.grant h n).cfg = s.cfg := rfl
@[simp] theorem State.grant_life (s : State) (h : Handle) (n : Nat) : (s.grant h n).life = s.life := rfl
@[simp] theorem State.grant_seq (s : State) (h : Handle) (n : Nat) : (s.grant h n).seq = s.seq := rfl
@[simp] theorem State.grant_txq (s : State) (h : Handle) (n : Nat) : (s.grant h n).txq = s.txq := rfl
@[simp] theorem State.grant_rxq (s : State) (h : Handle) (n : Nat) : (s.grant h n).rxq = s.rxq := rfl
@[simp] theorem State.grant_cmdw (s : State) (h : Handle) (n : Nat) : (s.grant h n).cmdw = s.cmdw := rfl
@[simp] theorem State.grant_arg0 (s : State) (h : Handle) (n : Nat) : (s.grant h n).arg0 = s.arg0 := rfl
@[simp] theorem State.grant_pktIn (s : State) (h : Handle) (n : Nat) : (s.grant h n).pktIn = s.pktIn := rfl
@[simp] theorem State.grant_resCode (s : State) (h : Handle) (n : Nat) : (s.grant h n).resCode = s.resCode := rfl
@[simp] theorem State.grant_resVal (s : State) (h : Handle) (n : Nat) : (s.grant h n).resVal = s.resVal := rfl
@[simp] theorem State.grant_pktOut (s : State) (h : Handle) (n : Nat) : (s.grant h n).pktOut = s.pktOut := rfl
@[simp] theorem State.grant_log (s : State) (h : Handle) (n : Nat) : (s.grant h n).log = s.log := rfl
@[simp] theorem State.grant_fault (s : State) (h : Handle) (n : Nat) : (s.grant h n).fault = s.fault := rfl
@[simp] theorem State.grant_rxN (s : State) (h : Handle) (n : Nat) : (s.grant h n).rxN = s.rxN := rfl
@[simp] theorem State.grant_mem (s : State) (h : Handle) (n : Nat) : (s.grant h n).mem = s.mem.zeroRange h.pa.toNat (n * s.cfg.pageSize) := rfl
@[simp] theorem State.grant_sb (s : State) (h : Handle) (n : Nat) : (s.grant h n).sb = s.sb := rfl
@[simp] theorem State.grant_pwq (s : State) (h : Handle) (n : Nat) : (s.grant h n).pwq = s.pwq := rfl
@[simp] theorem State.grant_mac (s : State) (h : Handle) (n : Nat) : (s.grant h n).mac = s.mac := rfl
@[simp] theorem State.grant_allocs (s : State) (h : Handle) (n : Nat) : (s.grant h n).allocs = s.allocs ++ [⟨h, n⟩] := rfl
@[simp] theorem State.grant_answers (s : State) (h : Handle) (n : Nat) : (s.grant h n).answers = s.answers := rfl
@[simp] theorem State.grant_raced (s : State) (h : Handle) (n : Nat) : (s.grant h n).raced = s.raced := rfl
@[simp] theorem State.grant_held (s : State) (h : Handle) (n : Nat) : (s.grant h n).held =
    s.held.filter (fun e => apart e.lo e.len h.pa.toNat (n * s.cfg.pageSize)) := rfl
@[simp] theorem State.grant_draws (s : State) (h : Handle) (n : Nat) : (s.grant h n).draws = s.draws := rfl
@[simp] theorem State.grant_sched (s : State) (h : Handle) (n : Nat) : (s.grant h n).sched = s.sched := rfl

@[simp] theorem State.freeAlloc_cfg (s : State) (va n : Nat) : (s.freeAlloc va n).cfg = s.cfg := rfl
@[simp] theorem State.freeAlloc_life (s : State) (va n : Nat) : (s.freeAlloc va n).life = s.life := rfl
@[simp] theorem State.freeAlloc_seq (s : State) (va n : Nat) : (s.freeAlloc va n).seq = s.seq := rfl
@[simp] theorem State.freeAlloc_txq (s : State) (va n : Nat) : (s.freeAlloc va n).txq = s.txq := rfl
@[simp] theorem State.freeAlloc_rxq (s : State) (va n : Nat) : (s.freeAlloc va n).rxq = s.rxq := rfl
@[simp] theorem State.freeAlloc_cmdw (s : State) (va n : Nat) : (s.freeAlloc va n).cmdw = s.cmdw := rfl
@[simp] theorem State.freeAlloc_arg0 (s : State) (va n : Nat) : (s.freeAlloc va n).arg0 = s.arg0 := rfl
@[simp] theorem State.freeAlloc_pktIn (s : State) (va n : Nat) : (s.freeAlloc va n).pktIn = s.pktIn := rfl
@[simp] theorem State.freeAlloc_resCode (s : State) (va n : Nat) : (s.freeAlloc va n).resCode = s.resCode := rfl
@[simp] theorem State.freeAlloc_resVal (s : State) (va n : Nat) : (s.freeAlloc va n).resVal = s.resVal := rfl
@[simp] theorem State.freeAlloc_pktOut (s : State) (va n : Nat) : (s.freeAlloc va n).pktOut = s.pktOut := rfl
@[simp] theorem State.freeAlloc_log (s : State) (va n : Nat) : (s.freeAlloc va n).log = s.log := rfl
@[simp] theorem State.freeAlloc_fault (s : State) (va n : Nat) : (s.freeAlloc va n).fault = s.fault := rfl
@[simp] theorem State.freeAlloc_rxN (s : State) (va n : Nat) : (s.freeAlloc va n).rxN = s.rxN := rfl
@[simp] theorem State.freeAlloc_mem (s : State) (va n : Nat) : (s.freeAlloc va n).mem = s.mem := rfl
@[simp] theorem State.freeAlloc_sb (s : State) (va n : Nat) : (s.freeAlloc va n).sb = s.sb := rfl
@[simp] theorem State.freeAlloc_pwq (s : State) (va n : Nat) : (s.freeAlloc va n).pwq = s.pwq := rfl
@[simp] theorem State.freeAlloc_mac (s : State) (va n : Nat) : (s.freeAlloc va n).mac = s.mac := rfl
@[simp] theorem State.freeAlloc_allocs (s : State) (va n : Nat) : (s.freeAlloc va n).allocs = s.allocs.eraseP (fun x => decide (x.h.va = va ∧ x.pages = n)) := rfl
@[simp] theorem State.freeAlloc_answers (s : State) (va n : Nat) : (s.freeAlloc va n).answers = s.answers := rfl
@[simp] theorem State.freeAlloc_raced (s : State) (va n : Nat) : (s.freeAlloc va n).raced = s.raced := rfl
@[simp] theorem State.freeAlloc_held (s : State) (va n : Nat) : (s.freeAlloc va n).held = s.held := rfl
@[simp] theorem State.freeAlloc_draws (s : State) (va n : Nat) : (s.freeAlloc va n).draws = s.draws := rfl
@[simp] theorem State.freeAlloc_sched (s : State) (va n : Nat) : (s.freeAlloc va n).sched = s.sched := rfl

@[simp] theorem setAllocHandle_cfg (s : State) (k : Nat) (h : Handle) : (setAllocHandle s k h).cfg = s.cfg := by unfold setAllocHandle; split_ifs <;> rfl
@[simp] theorem setAllocHandle_life (s : State) (k : Nat) (h : Handle) : (setAllocHandle s k h).life = s.life := by unfold setAllocHandle; split_ifs <;> rfl
@[simp] theorem setAllocHandle_seq (s : State) (k : Nat) (h : Handle) : (setAllocHandle s k h).seq = s.seq := by unfold setAllocHandle; split_ifs <;> rfl
@[simp] theorem setAllocHandle_cmdw (s : State) (k : Nat) (h : Handle) : (setAllocHandle s k h).cmdw = s.cmdw := by unfold setAllocHandle; split_ifs <;> rfl
@[simp] theorem setAllocHandle_arg0 (s : State) (k : Nat) (h : Handle) : (setAllocHandle s k h).arg0 = s.arg0 := by unfold setAllocHandle; split_ifs <;> rfl
@[simp] theorem setAllocHandle_pktIn (s : State) (k : Nat) (h : Handle) : (setAllocHandle s k h).pktIn = s.pktIn := by unfold setAllocHandle; split_ifs <;> rfl
@[simp] theorem setAllocHandle_resCode (s : State) (k : Nat) (h : Handle) : (setAllocHandle s k h).resCode = s.resCode := by unfold setAllocHandle; split_ifs <;> rfl
@[simp] theorem setAllocHandle_resVal (s : State) (k : Nat) (h : Handle) : (setAllocHandle s k h).resVal = s.resVal := by unfold setAllocHandle; split_ifs <;> rfl
@[simp] theorem setAllocHandle_pktOut (s : State) (k : Nat) (h : Handle) : (setAllocHandle s k h).pktOut = s.pktOut := by unfold setAllocHandle; split_ifs <;> rfl
@[simp] theorem setAllocHandle_log (s : State) (k : Nat) (h : Handle) : (setAllocHandle s k h).log = s.log := by unfold setAllocHandle; split_ifs <;> rfl
@[simp] theorem setAllocHandle_fault (s : State) (k : Nat) (h : Handle) : (setAllocHandle s k h).fault = s.fault := by unfold setAllocHandle; split_ifs <;> rfl
@[simp] theorem setAllocHandle_rxN (s : State) (k : Nat) (h : Handle) : (setAllocHandle s k h).rxN = s.rxN := by unfold setAllocHandle; split_ifs <;> rfl
@[simp] theorem setAllocHandle_mem (s : State) (k : Nat) (h : Handle) : (setAllocHandle s k h).mem = s.mem := by unfold setAllocHandle; split_ifs <;> rfl
@[simp] theorem setAllocHandle_sb (s : State) (k : Nat) (h : Handle) : (setAllocHandle s k h).sb = s.sb := by unfold setAllocHandle; split_ifs <;> rfl
@[simp] theorem setAllocHandle_pwq (s : State) (k : Nat) (h : Handle) : (setAllocHandle s k h).pwq = s.pwq := by unfold setAllocHandle; split_ifs <;> rfl
@[simp] theorem setAllocHandle_mac (s : State) (k : Nat) (h : Handle) : (setAllocHandle s k h).mac = s.mac := by unfold setAllocHandle; split_ifs <;> rfl
@[simp] theorem setAllocHandle_allocs (s : State) (k : Nat) (h : Handle) : (setAllocHandle s k h).allocs = s.allocs := by unfold setAllocHandle; split_ifs <;> rfl
@[simp] theorem setAllocHandle_answers (s : State) (k : Nat) (h : Handle) : (setAllocHandle s k h).answers = s.answers := by unfold setAllocHandle; split_ifs <;> rfl
@[simp] theorem setAllocHandle_raced (s : State) (k : Nat) (h : Handle) : (setAllocHandle s k h).raced = s.raced := by unfold setAllocHandle; split_ifs <;> rfl
@[simp] theorem setAllocHandle_held (s : State) (k : Nat) (h : Handle) : (setAllocHandle s k h).held = s.held := by unfold setAllocHandle; split_ifs <;> rfl
@[simp] theorem setAllocHandle_draws (s : State) (k : Nat) (h : Handle) : (setAllocHandle s k h).draws = s.draws := by unfold setAllocHandle; split_ifs <;> rfl
@[simp] theorem setAllocHandle_sched (s : State) (k : Nat) (h : Handle) : (setAllocHandle s k h).sched = s.sched := by unfold setAllocHandle; split_ifs <;> rfl

@[simp] theorem keepAlloc_cfg (s : State) (k : Nat) (h : Handle) : (keepAlloc s k h).cfg = s.cfg := setAllocHandle_cfg s k h
@[simp] theorem keepAlloc_life (s : State) (k : Nat) (h : Handle) : (keepAlloc s k h).life = s.life := setAllocHandle_life s k h
@[simp] theorem keepAlloc_seq (s : State) (k : Nat) (h : Handle) : (keepAlloc s k h).seq = s.seq := setAllocHandle_seq s k h
@[simp] theorem keepAlloc_txq (s : State) (k : Nat) (h : Handle) : (keepAlloc s k h).txq = (setAllocHandle s k h).txq := rfl
@[simp] theorem keepAlloc_rxq (s : State) (k : Nat) (h : Handle) : (keepAlloc s k h).rxq = (setAllocHandle s k h).rxq := rfl
@[simp] theorem keepAlloc_cmdw (s : State) (k : Nat) (h : Handle) : (keepAlloc s k h).cmdw = s.cmdw := setAllocHandle_cmdw s k h
@[simp] theorem keepAlloc_arg0 (s : State) (k : Nat) (h : Handle) : (keepAlloc s k h).arg0 = s.arg0 := setAllocHandle_arg0 s k h
@[simp] theorem keepAlloc_pktIn (s : State) (k : Nat) (h : Handle) : (keepAlloc s k h).pktIn = s.pktIn := setAllocHandle_pktIn s k h
@[simp] theorem keepAlloc_resCode (s : State) (k : Nat) (h : Handle) : (keepAlloc s k h).resCode = s.resCode := setAllocHandle_resCode s k h
@[simp] theorem keepAlloc_resVal (s : State) (k : Nat) (h : Handle) : (keepAlloc s k h).resVal = s.resVal := setAllocHandle_resVal s k h
@[simp] theorem keepAlloc_pktOut (s : State) (k : Nat) (h : Handle) : (keepAlloc s k h).pktOut = s.pktOut := setAllocHandle_pktOut s k h
@[simp] theorem keepAlloc_log (s : State) (k : Nat) (h : Handle) : (keepAlloc s k h).log = s.log := setAllocHandle_log s k h
@[simp] theorem keepAlloc_fault (s : State) (k : Nat) (h : Handle) : (keepAlloc s k h).fault = s.fault := setAllocHandle_fault s k h
@[simp] theorem keepAlloc_rxN (s : State) (k : Nat) (h : Handle) : (keepAlloc s k h).rxN = s.rxN := setAllocHandle_rxN s k h
@[simp] theorem keepAlloc_mem (s : State) (k : Nat) (h : Handle) : (keepAlloc s k h).mem = s.mem := setAllocHandle_mem s k h
@[simp] theorem keepAlloc_sb (s : State) (k : Nat) (h : Handle) : (keepAlloc s k h).sb = s.sb := setAllocHandle_sb s k h
@[simp] theorem keepAlloc_pwq (s : State) (k : Nat) (h : Handle) : (keepAlloc s k h).pwq = s.pwq := setAllocHandle_pwq s k h
@[simp] theorem keepAlloc_mac (s : State) (k : Nat) (h : Handle) : (keepAlloc s k h).mac = s.mac := setAllocHandle_mac s k h
@[simp] theorem keepAlloc_allocs (s : State) (k : Nat) (h : Handle) : (keepAlloc s k h).allocs = s.allocs := setAllocHandle_allocs s k h
@[simp] theorem keepAlloc_answers (s : State) (k : Nat) (h : Handle) : (keepAlloc s k h).answers = s.answers := setAllocHandle_answers s k h
@[simp] theorem keepAlloc_raced (s : State) (k : Nat) (h : Handle) : (keepAlloc s k h).raced = s.raced := setAllocHandle_raced s k h
@[simp] theorem keepAlloc_held (s : State) (k : Nat) (h : Handle) : (keepAlloc s k h).held =
    heldWith s.held (allocExtents (setAllocHandle s k h) k) := rfl
@[simp] theorem keepAlloc_draws (s : State) (k : Nat) (h : Handle) : (keepAlloc s k h).draws = s.draws := setAllocHandle_draws s k h
@[simp] theorem keepAlloc_sched (s : State) (k : Nat) (h : Handle) : (keepAlloc s k h).sched = s.sched := setAllocHandle_sched s k h

@[simp] theorem State.forgetRings_cfg (s : State) : (s.forgetRings).cfg = s.cfg := rfl
@[simp] theorem State.forgetRings_life (s : State) : (s.forgetRings).life = s.life := rfl
@[simp] theorem State.forgetRings_seq (s : State) : (s.forgetRings).seq = s.seq := rfl
@[simp] theorem State.forgetRings_txq (s : State) : (s.forgetRings).txq = freeRing s.cfg.cap s.draws := rfl
@[simp] theorem State.forgetRings_rxq (s : State) : (s.forgetRings).rxq = freeRing s.cfg.cap (s.draws + freeRingDraws s.cfg.cap) := rfl
@[simp] theorem State.forgetRings_cmdw (s : State) : (s.forgetRings).cmdw = s.cmdw := rfl
@[simp] theorem State.forgetRings_arg0 (s : State) : (s.forgetRings).arg0 = s.arg0 := rfl
@[simp] theorem State.forgetRings_pktIn (s : State) : (s.forgetRings).pktIn = s.pktIn := rfl
@[simp] theorem State.forgetRings_resCode (s : State) : (s.forgetRings).resCode = s.resCode := rfl
@[simp] theorem State.forgetRings_resVal (s : State) : (s.forgetRings).resVal = s.resVal := rfl
@[simp] theorem State.forgetRings_pktOut (s : State) : (s.forgetRings).pktOut = s.pktOut := rfl
@[simp] theorem State.forgetRings_log (s : State) : (s.forgetRings).log = s.log := rfl
@[simp] theorem State.forgetRings_fault (s : State) : (s.forgetRings).fault = s.fault := rfl
@[simp] theorem State.forgetRings_rxN (s : State) : (s.forgetRings).rxN = s.rxN := rfl
@[simp] theorem State.forgetRings_mem (s : State) : (s.forgetRings).mem = s.mem := rfl
@[simp] theorem State.forgetRings_sb (s : State) : (s.forgetRings).sb = s.sb := rfl
@[simp] theorem State.forgetRings_pwq (s : State) : (s.forgetRings).pwq = s.pwq := rfl
@[simp] theorem State.forgetRings_mac (s : State) : (s.forgetRings).mac = s.mac := rfl
@[simp] theorem State.forgetRings_allocs (s : State) : (s.forgetRings).allocs = s.allocs := rfl
@[simp] theorem State.forgetRings_answers (s : State) : (s.forgetRings).answers = s.answers := rfl
@[simp] theorem State.forgetRings_raced (s : State) : (s.forgetRings).raced = s.raced := rfl
@[simp] theorem State.forgetRings_held (s : State) : (s.forgetRings).held = s.held := rfl
@[simp] theorem State.forgetRings_draws (s : State) : (s.forgetRings).draws = s.draws + 2 * freeRingDraws s.cfg.cap := rfl
@[simp] theorem State.forgetRings_sched (s : State) : (s.forgetRings).sched = s.sched := rfl

/-! ### The MAC -/

@[simp] theorem deviceReset_cfg (s : State) : (deviceReset s).cfg = s.cfg := rfl
@[simp] theorem deviceReset_life (s : State) : (deviceReset s).life = s.life := rfl
@[simp] theorem deviceReset_seq (s : State) : (deviceReset s).seq = s.seq := rfl
@[simp] theorem deviceReset_txq (s : State) : (deviceReset s).txq = s.txq := rfl
@[simp] theorem deviceReset_rxq (s : State) : (deviceReset s).rxq = s.rxq := rfl
@[simp] theorem deviceReset_cmdw (s : State) : (deviceReset s).cmdw = s.cmdw := rfl
@[simp] theorem deviceReset_arg0 (s : State) : (deviceReset s).arg0 = s.arg0 := rfl
@[simp] theorem deviceReset_pktIn (s : State) : (deviceReset s).pktIn = s.pktIn := rfl
@[simp] theorem deviceReset_resCode (s : State) : (deviceReset s).resCode = s.resCode := rfl
@[simp] theorem deviceReset_resVal (s : State) : (deviceReset s).resVal = s.resVal := rfl
@[simp] theorem deviceReset_pktOut (s : State) : (deviceReset s).pktOut = s.pktOut := rfl
@[simp] theorem deviceReset_log (s : State) : (deviceReset s).log = s.log := rfl
@[simp] theorem deviceReset_fault (s : State) : (deviceReset s).fault = s.fault := rfl
@[simp] theorem deviceReset_rxN (s : State) : (deviceReset s).rxN = s.rxN := rfl
@[simp] theorem deviceReset_mem (s : State) : (deviceReset s).mem = s.mem := rfl
@[simp] theorem deviceReset_sb (s : State) : (deviceReset s).sb = s.sb := rfl
@[simp] theorem deviceReset_pwq (s : State) : (deviceReset s).pwq = s.pwq := rfl
@[simp] theorem deviceReset_allocs (s : State) : (deviceReset s).allocs = s.allocs := rfl
@[simp] theorem deviceReset_answers (s : State) : (deviceReset s).answers = s.answers := rfl
@[simp] theorem deviceReset_raced (s : State) : (deviceReset s).raced = s.raced := rfl
@[simp] theorem deviceReset_held (s : State) : (deviceReset s).held = s.held := rfl
@[simp] theorem deviceReset_draws (s : State) : (deviceReset s).draws = s.draws + 141 := rfl
@[simp] theorem deviceReset_sched (s : State) : (deviceReset s).sched = s.sched := rfl

@[simp] theorem macWrite_cfg (r : Reg) (v : Word) (s : State) : (macWrite r v s).cfg = s.cfg := by
  cases r <;> try rfl
  simp only [macWrite]; split <;> rfl
@[simp] theorem macWrite_life (r : Reg) (v : Word) (s : State) : (macWrite r v s).life = s.life := by
  cases r <;> try rfl
  simp only [macWrite]; split <;> rfl
@[simp] theorem macWrite_seq (r : Reg) (v : Word) (s : State) : (macWrite r v s).seq = s.seq := by
  cases r <;> try rfl
  simp only [macWrite]; split <;> rfl
@[simp] theorem macWrite_txq (r : Reg) (v : Word) (s : State) : (macWrite r v s).txq = s.txq := by
  cases r <;> try rfl
  simp only [macWrite]; split <;> rfl
@[simp] theorem macWrite_rxq (r : Reg) (v : Word) (s : State) : (macWrite r v s).rxq = s.rxq := by
  cases r <;> try rfl
  simp only [macWrite]; split <;> rfl
@[simp] theorem macWrite_cmdw (r : Reg) (v : Word) (s : State) : (macWrite r v s).cmdw = s.cmdw := by
  cases r <;> try rfl
  simp only [macWrite]; split <;> rfl
@[simp] theorem macWrite_arg0 (r : Reg) (v : Word) (s : State) : (macWrite r v s).arg0 = s.arg0 := by
  cases r <;> try rfl
  simp only [macWrite]; split <;> rfl
@[simp] theorem macWrite_pktIn (r : Reg) (v : Word) (s : State) : (macWrite r v s).pktIn = s.pktIn := by
  cases r <;> try rfl
  simp only [macWrite]; split <;> rfl
@[simp] theorem macWrite_resCode (r : Reg) (v : Word) (s : State) : (macWrite r v s).resCode = s.resCode := by
  cases r <;> try rfl
  simp only [macWrite]; split <;> rfl
@[simp] theorem macWrite_resVal (r : Reg) (v : Word) (s : State) : (macWrite r v s).resVal = s.resVal := by
  cases r <;> try rfl
  simp only [macWrite]; split <;> rfl
@[simp] theorem macWrite_pktOut (r : Reg) (v : Word) (s : State) : (macWrite r v s).pktOut = s.pktOut := by
  cases r <;> try rfl
  simp only [macWrite]; split <;> rfl
@[simp] theorem macWrite_log (r : Reg) (v : Word) (s : State) : (macWrite r v s).log = s.log := by
  cases r <;> try rfl
  simp only [macWrite]; split <;> rfl
@[simp] theorem macWrite_fault (r : Reg) (v : Word) (s : State) : (macWrite r v s).fault = s.fault := by
  cases r <;> try rfl
  simp only [macWrite]; split <;> rfl
@[simp] theorem macWrite_rxN (r : Reg) (v : Word) (s : State) : (macWrite r v s).rxN = s.rxN := by
  cases r <;> try rfl
  simp only [macWrite]; split <;> rfl
@[simp] theorem macWrite_mem (r : Reg) (v : Word) (s : State) : (macWrite r v s).mem = s.mem := by
  cases r <;> try rfl
  simp only [macWrite]; split <;> rfl
@[simp] theorem macWrite_sb (r : Reg) (v : Word) (s : State) : (macWrite r v s).sb = s.sb := by
  cases r <;> try rfl
  simp only [macWrite]; split <;> rfl
@[simp] theorem macWrite_pwq (r : Reg) (v : Word) (s : State) : (macWrite r v s).pwq = s.pwq := by
  cases r <;> try rfl
  simp only [macWrite]; split <;> rfl
@[simp] theorem macWrite_allocs (r : Reg) (v : Word) (s : State) : (macWrite r v s).allocs = s.allocs := by
  cases r <;> try rfl
  simp only [macWrite]; split <;> rfl
@[simp] theorem macWrite_answers (r : Reg) (v : Word) (s : State) : (macWrite r v s).answers = s.answers := by
  cases r <;> try rfl
  simp only [macWrite]; split <;> rfl
@[simp] theorem macWrite_raced (r : Reg) (v : Word) (s : State) : (macWrite r v s).raced = s.raced := by
  cases r <;> try rfl
  simp only [macWrite]; split <;> rfl
@[simp] theorem macWrite_held (r : Reg) (v : Word) (s : State) : (macWrite r v s).held = s.held := by
  cases r <;> try rfl
  simp only [macWrite]; split <;> rfl
@[simp] theorem macWrite_sched (r : Reg) (v : Word) (s : State) : (macWrite r v s).sched = s.sched := by
  cases r <;> try rfl
  simp only [macWrite]; split <;> rfl

@[simp] theorem macRead_cfg (r : Reg) (s : State) : ((macRead r s).2).cfg = s.cfg := by cases r <;> rfl
@[simp] theorem macRead_life (r : Reg) (s : State) : ((macRead r s).2).life = s.life := by cases r <;> rfl
@[simp] theorem macRead_seq (r : Reg) (s : State) : ((macRead r s).2).seq = s.seq := by cases r <;> rfl
@[simp] theorem macRead_txq (r : Reg) (s : State) : ((macRead r s).2).txq = s.txq := by cases r <;> rfl
@[simp] theorem macRead_rxq (r : Reg) (s : State) : ((macRead r s).2).rxq = s.rxq := by cases r <;> rfl
@[simp] theorem macRead_cmdw (r : Reg) (s : State) : ((macRead r s).2).cmdw = s.cmdw := by cases r <;> rfl
@[simp] theorem macRead_arg0 (r : Reg) (s : State) : ((macRead r s).2).arg0 = s.arg0 := by cases r <;> rfl
@[simp] theorem macRead_pktIn (r : Reg) (s : State) : ((macRead r s).2).pktIn = s.pktIn := by cases r <;> rfl
@[simp] theorem macRead_resCode (r : Reg) (s : State) : ((macRead r s).2).resCode = s.resCode := by cases r <;> rfl
@[simp] theorem macRead_resVal (r : Reg) (s : State) : ((macRead r s).2).resVal = s.resVal := by cases r <;> rfl
@[simp] theorem macRead_pktOut (r : Reg) (s : State) : ((macRead r s).2).pktOut = s.pktOut := by cases r <;> rfl
@[simp] theorem macRead_log (r : Reg) (s : State) : ((macRead r s).2).log = s.log := by cases r <;> rfl
@[simp] theorem macRead_fault (r : Reg) (s : State) : ((macRead r s).2).fault = s.fault := by cases r <;> rfl
@[simp] theorem macRead_rxN (r : Reg) (s : State) : ((macRead r s).2).rxN = s.rxN := by cases r <;> rfl
@[simp] theorem macRead_mem (r : Reg) (s : State) : ((macRead r s).2).mem = s.mem := by cases r <;> rfl
@[simp] theorem macRead_sb (r : Reg) (s : State) : ((macRead r s).2).sb = s.sb := by cases r <;> rfl
@[simp] theorem macRead_pwq (r : Reg) (s : State) : ((macRead r s).2).pwq = s.pwq := by cases r <;> rfl
@[simp] theorem macRead_allocs (r : Reg) (s : State) : ((macRead r s).2).allocs = s.allocs := by cases r <;> rfl
@[simp] theorem macRead_answers (r : Reg) (s : State) : ((macRead r s).2).answers = s.answers := by cases r <;> rfl
@[simp] theorem macRead_raced (r : Reg) (s : State) : ((macRead r s).2).raced = s.raced := by cases r <;> rfl
@[simp] theorem macRead_held (r : Reg) (s : State) : ((macRead r s).2).held = s.held := by cases r <;> rfl
@[simp] theorem macRead_sched (r : Reg) (s : State) : ((macRead r s).2).sched = s.sched := by cases r <;> rfl

@[simp] theorem drainStore_cfg (j : Nat) (s : State) : (drainStore j s).cfg = s.cfg := by unfold drainStore; split <;> rfl
@[simp] theorem drainStore_life (j : Nat) (s : State) : (drainStore j s).life = s.life := by unfold drainStore; split <;> rfl
@[simp] theorem drainStore_seq (j : Nat) (s : State) : (drainStore j s).seq = s.seq := by unfold drainStore; split <;> rfl
@[simp] theorem drainStore_txq (j : Nat) (s : State) : (drainStore j s).txq = s.txq := by unfold drainStore; split <;> rfl
@[simp] theorem drainStore_rxq (j : Nat) (s : State) : (drainStore j s).rxq = s.rxq := by unfold drainStore; split <;> rfl
@[simp] theorem drainStore_cmdw (j : Nat) (s : State) : (drainStore j s).cmdw = s.cmdw := by unfold drainStore; split <;> rfl
@[simp] theorem drainStore_arg0 (j : Nat) (s : State) : (drainStore j s).arg0 = s.arg0 := by unfold drainStore; split <;> rfl
@[simp] theorem drainStore_pktIn (j : Nat) (s : State) : (drainStore j s).pktIn = s.pktIn := by unfold drainStore; split <;> rfl
@[simp] theorem drainStore_resCode (j : Nat) (s : State) : (drainStore j s).resCode = s.resCode := by unfold drainStore; split <;> rfl
@[simp] theorem drainStore_resVal (j : Nat) (s : State) : (drainStore j s).resVal = s.resVal := by unfold drainStore; split <;> rfl
@[simp] theorem drainStore_pktOut (j : Nat) (s : State) : (drainStore j s).pktOut = s.pktOut := by unfold drainStore; split <;> rfl
@[simp] theorem drainStore_log (j : Nat) (s : State) : (drainStore j s).log = s.log := by unfold drainStore; split <;> rfl
@[simp] theorem drainStore_fault (j : Nat) (s : State) : (drainStore j s).fault = s.fault := by unfold drainStore; split <;> rfl
@[simp] theorem drainStore_rxN (j : Nat) (s : State) : (drainStore j s).rxN = s.rxN := by unfold drainStore; split <;> rfl
@[simp] theorem drainStore_pwq (j : Nat) (s : State) : (drainStore j s).pwq = s.pwq := by unfold drainStore; split <;> rfl
@[simp] theorem drainStore_mac (j : Nat) (s : State) : (drainStore j s).mac = s.mac := by unfold drainStore; split <;> rfl
@[simp] theorem drainStore_allocs (j : Nat) (s : State) : (drainStore j s).allocs = s.allocs := by unfold drainStore; split <;> rfl
@[simp] theorem drainStore_answers (j : Nat) (s : State) : (drainStore j s).answers = s.answers := by unfold drainStore; split <;> rfl
@[simp] theorem drainStore_raced (j : Nat) (s : State) : (drainStore j s).raced = s.raced := by unfold drainStore; split <;> rfl
@[simp] theorem drainStore_held (j : Nat) (s : State) : (drainStore j s).held = s.held := by unfold drainStore; split <;> rfl
@[simp] theorem drainStore_draws (j : Nat) (s : State) : (drainStore j s).draws = s.draws := by unfold drainStore; split <;> rfl
@[simp] theorem drainStore_sched (j : Nat) (s : State) : (drainStore j s).sched = s.sched := by unfold drainStore; split <;> rfl

@[simp] theorem macReadByte_cfg (a : Nat) (s : State) : ((macReadByte a s).2).cfg = s.cfg := by unfold macReadByte; split <;> rfl
@[simp] theorem macReadByte_life (a : Nat) (s : State) : ((macReadByte a s).2).life = s.life := by unfold macReadByte; split <;> rfl
@[simp] theorem macReadByte_seq (a : Nat) (s : State) : ((macReadByte a s).2).seq = s.seq := by unfold macReadByte; split <;> rfl
@[simp] theorem macReadByte_txq (a : Nat) (s : State) : ((macReadByte a s).2).txq = s.txq := by unfold macReadByte; split <;> rfl
@[simp] theorem macReadByte_rxq (a : Nat) (s : State) : ((macReadByte a s).2).rxq = s.rxq := by unfold macReadByte; split <;> rfl
@[simp] theorem macReadByte_cmdw (a : Nat) (s : State) : ((macReadByte a s).2).cmdw = s.cmdw := by unfold macReadByte; split <;> rfl
@[simp] theorem macReadByte_arg0 (a : Nat) (s : State) : ((macReadByte a s).2).arg0 = s.arg0 := by unfold macReadByte; split <;> rfl
@[simp] theorem macReadByte_pktIn (a : Nat) (s : State) : ((macReadByte a s).2).pktIn = s.pktIn := by unfold macReadByte; split <;> rfl
@[simp] theorem macReadByte_resCode (a : Nat) (s : State) : ((macReadByte a s).2).resCode = s.resCode := by unfold macReadByte; split <;> rfl
@[simp] theorem macReadByte_resVal (a : Nat) (s : State) : ((macReadByte a s).2).resVal = s.resVal := by unfold macReadByte; split <;> rfl
@[simp] theorem macReadByte_pktOut (a : Nat) (s : State) : ((macReadByte a s).2).pktOut = s.pktOut := by unfold macReadByte; split <;> rfl
@[simp] theorem macReadByte_log (a : Nat) (s : State) : ((macReadByte a s).2).log = s.log := by unfold macReadByte; split <;> rfl
@[simp] theorem macReadByte_fault (a : Nat) (s : State) : ((macReadByte a s).2).fault = s.fault := by unfold macReadByte; split <;> rfl
@[simp] theorem macReadByte_rxN (a : Nat) (s : State) : ((macReadByte a s).2).rxN = s.rxN := by unfold macReadByte; split <;> rfl
@[simp] theorem macReadByte_mem (a : Nat) (s : State) : ((macReadByte a s).2).mem = s.mem := by unfold macReadByte; split <;> rfl
@[simp] theorem macReadByte_sb (a : Nat) (s : State) : ((macReadByte a s).2).sb = s.sb := by unfold macReadByte; split <;> rfl
@[simp] theorem macReadByte_pwq (a : Nat) (s : State) : ((macReadByte a s).2).pwq = s.pwq := by unfold macReadByte; split <;> rfl
@[simp] theorem macReadByte_mac (a : Nat) (s : State) : ((macReadByte a s).2).mac = s.mac := by unfold macReadByte; split <;> rfl
@[simp] theorem macReadByte_allocs (a : Nat) (s : State) : ((macReadByte a s).2).allocs = s.allocs := by unfold macReadByte; split <;> rfl
@[simp] theorem macReadByte_answers (a : Nat) (s : State) : ((macReadByte a s).2).answers = s.answers := by unfold macReadByte; split <;> rfl
@[simp] theorem macReadByte_held (a : Nat) (s : State) : ((macReadByte a s).2).held = s.held := by unfold macReadByte; split <;> rfl
@[simp] theorem macReadByte_sched (a : Nat) (s : State) : ((macReadByte a s).2).sched = s.sched := by unfold macReadByte; split <;> rfl

@[simp] theorem macReadBytes_cfg (n a : Nat) (s : State) : ((macReadBytes n a s).2).cfg = s.cfg := by
  induction n generalizing a s with
  | zero => rfl
  | succ n ih => simp [macReadBytes, ih]
@[simp] theorem macReadBytes_life (n a : Nat) (s : State) : ((macReadBytes n a s).2).life = s.life := by
  induction n generalizing a s with
  | zero => rfl
  | succ n ih => simp [macReadBytes, ih]
@[simp] theorem macReadBytes_seq (n a : Nat) (s : State) : ((macReadBytes n a s).2).seq = s.seq := by
  induction n generalizing a s with
  | zero => rfl
  | succ n ih => simp [macReadBytes, ih]
@[simp] theorem macReadBytes_txq (n a : Nat) (s : State) : ((macReadBytes n a s).2).txq = s.txq := by
  induction n generalizing a s with
  | zero => rfl
  | succ n ih => simp [macReadBytes, ih]
@[simp] theorem macReadBytes_rxq (n a : Nat) (s : State) : ((macReadBytes n a s).2).rxq = s.rxq := by
  induction n generalizing a s with
  | zero => rfl
  | succ n ih => simp [macReadBytes, ih]
@[simp] theorem macReadBytes_cmdw (n a : Nat) (s : State) : ((macReadBytes n a s).2).cmdw = s.cmdw := by
  induction n generalizing a s with
  | zero => rfl
  | succ n ih => simp [macReadBytes, ih]
@[simp] theorem macReadBytes_arg0 (n a : Nat) (s : State) : ((macReadBytes n a s).2).arg0 = s.arg0 := by
  induction n generalizing a s with
  | zero => rfl
  | succ n ih => simp [macReadBytes, ih]
@[simp] theorem macReadBytes_pktIn (n a : Nat) (s : State) : ((macReadBytes n a s).2).pktIn = s.pktIn := by
  induction n generalizing a s with
  | zero => rfl
  | succ n ih => simp [macReadBytes, ih]
@[simp] theorem macReadBytes_resCode (n a : Nat) (s : State) : ((macReadBytes n a s).2).resCode = s.resCode := by
  induction n generalizing a s with
  | zero => rfl
  | succ n ih => simp [macReadBytes, ih]
@[simp] theorem macReadBytes_resVal (n a : Nat) (s : State) : ((macReadBytes n a s).2).resVal = s.resVal := by
  induction n generalizing a s with
  | zero => rfl
  | succ n ih => simp [macReadBytes, ih]
@[simp] theorem macReadBytes_pktOut (n a : Nat) (s : State) : ((macReadBytes n a s).2).pktOut = s.pktOut := by
  induction n generalizing a s with
  | zero => rfl
  | succ n ih => simp [macReadBytes, ih]
@[simp] theorem macReadBytes_log (n a : Nat) (s : State) : ((macReadBytes n a s).2).log = s.log := by
  induction n generalizing a s with
  | zero => rfl
  | succ n ih => simp [macReadBytes, ih]
@[simp] theorem macReadBytes_fault (n a : Nat) (s : State) : ((macReadBytes n a s).2).fault = s.fault := by
  induction n generalizing a s with
  | zero => rfl
  | succ n ih => simp [macReadBytes, ih]
@[simp] theorem macReadBytes_rxN (n a : Nat) (s : State) : ((macReadBytes n a s).2).rxN = s.rxN := by
  induction n generalizing a s with
  | zero => rfl
  | succ n ih => simp [macReadBytes, ih]
@[simp] theorem macReadBytes_mem (n a : Nat) (s : State) : ((macReadBytes n a s).2).mem = s.mem := by
  induction n generalizing a s with
  | zero => rfl
  | succ n ih => simp [macReadBytes, ih]
@[simp] theorem macReadBytes_sb (n a : Nat) (s : State) : ((macReadBytes n a s).2).sb = s.sb := by
  induction n generalizing a s with
  | zero => rfl
  | succ n ih => simp [macReadBytes, ih]
@[simp] theorem macReadBytes_pwq (n a : Nat) (s : State) : ((macReadBytes n a s).2).pwq = s.pwq := by
  induction n generalizing a s with
  | zero => rfl
  | succ n ih => simp [macReadBytes, ih]
@[simp] theorem macReadBytes_mac (n a : Nat) (s : State) : ((macReadBytes n a s).2).mac = s.mac := by
  induction n generalizing a s with
  | zero => rfl
  | succ n ih => simp [macReadBytes, ih]
@[simp] theorem macReadBytes_allocs (n a : Nat) (s : State) : ((macReadBytes n a s).2).allocs = s.allocs := by
  induction n generalizing a s with
  | zero => rfl
  | succ n ih => simp [macReadBytes, ih]
@[simp] theorem macReadBytes_answers (n a : Nat) (s : State) : ((macReadBytes n a s).2).answers = s.answers := by
  induction n generalizing a s with
  | zero => rfl
  | succ n ih => simp [macReadBytes, ih]
@[simp] theorem macReadBytes_held (n a : Nat) (s : State) : ((macReadBytes n a s).2).held = s.held := by
  induction n generalizing a s with
  | zero => rfl
  | succ n ih => simp [macReadBytes, ih]
@[simp] theorem macReadBytes_sched (n a : Nat) (s : State) : ((macReadBytes n a s).2).sched = s.sched := by
  induction n generalizing a s with
  | zero => rfl
  | succ n ih => simp [macReadBytes, ih]

@[simp] theorem macWriteByte_cfg (a : Nat) (b : Byte) (s : State) : (macWriteByte a b s).cfg = s.cfg := by unfold macWriteByte; split <;> rfl
@[simp] theorem macWriteByte_life (a : Nat) (b : Byte) (s : State) : (macWriteByte a b s).life = s.life := by unfold macWriteByte; split <;> rfl
@[simp] theorem macWriteByte_seq (a : Nat) (b : Byte) (s : State) : (macWriteByte a b s).seq = s.seq := by unfold macWriteByte; split <;> rfl
@[simp] theorem macWriteByte_txq (a : Nat) (b : Byte) (s : State) : (macWriteByte a b s).txq = s.txq := by unfold macWriteByte; split <;> rfl
@[simp] theorem macWriteByte_rxq (a : Nat) (b : Byte) (s : State) : (macWriteByte a b s).rxq = s.rxq := by unfold macWriteByte; split <;> rfl
@[simp] theorem macWriteByte_cmdw (a : Nat) (b : Byte) (s : State) : (macWriteByte a b s).cmdw = s.cmdw := by unfold macWriteByte; split <;> rfl
@[simp] theorem macWriteByte_arg0 (a : Nat) (b : Byte) (s : State) : (macWriteByte a b s).arg0 = s.arg0 := by unfold macWriteByte; split <;> rfl
@[simp] theorem macWriteByte_pktIn (a : Nat) (b : Byte) (s : State) : (macWriteByte a b s).pktIn = s.pktIn := by unfold macWriteByte; split <;> rfl
@[simp] theorem macWriteByte_resCode (a : Nat) (b : Byte) (s : State) : (macWriteByte a b s).resCode = s.resCode := by unfold macWriteByte; split <;> rfl
@[simp] theorem macWriteByte_resVal (a : Nat) (b : Byte) (s : State) : (macWriteByte a b s).resVal = s.resVal := by unfold macWriteByte; split <;> rfl
@[simp] theorem macWriteByte_pktOut (a : Nat) (b : Byte) (s : State) : (macWriteByte a b s).pktOut = s.pktOut := by unfold macWriteByte; split <;> rfl
@[simp] theorem macWriteByte_log (a : Nat) (b : Byte) (s : State) : (macWriteByte a b s).log = s.log := by unfold macWriteByte; split <;> rfl
@[simp] theorem macWriteByte_fault (a : Nat) (b : Byte) (s : State) : (macWriteByte a b s).fault = s.fault := by unfold macWriteByte; split <;> rfl
@[simp] theorem macWriteByte_rxN (a : Nat) (b : Byte) (s : State) : (macWriteByte a b s).rxN = s.rxN := by unfold macWriteByte; split <;> rfl
@[simp] theorem macWriteByte_sb (a : Nat) (b : Byte) (s : State) : (macWriteByte a b s).sb = s.sb := by unfold macWriteByte; split <;> rfl
@[simp] theorem macWriteByte_pwq (a : Nat) (b : Byte) (s : State) : (macWriteByte a b s).pwq = s.pwq := by unfold macWriteByte; split <;> rfl
@[simp] theorem macWriteByte_mac (a : Nat) (b : Byte) (s : State) : (macWriteByte a b s).mac = s.mac := by unfold macWriteByte; split <;> rfl
@[simp] theorem macWriteByte_allocs (a : Nat) (b : Byte) (s : State) : (macWriteByte a b s).allocs = s.allocs := by unfold macWriteByte; split <;> rfl
@[simp] theorem macWriteByte_answers (a : Nat) (b : Byte) (s : State) : (macWriteByte a b s).answers = s.answers := by unfold macWriteByte; split <;> rfl
@[simp] theorem macWriteByte_held (a : Nat) (b : Byte) (s : State) : (macWriteByte a b s).held = s.held := by unfold macWriteByte; split <;> rfl
@[simp] theorem macWriteByte_sched (a : Nat) (b : Byte) (s : State) : (macWriteByte a b s).sched = s.sched := by unfold macWriteByte; split <;> rfl

@[simp] theorem macWriteBytes_cfg (a : Nat) (bs : List Byte) (s : State) : (macWriteBytes a bs s).cfg = s.cfg := by
  induction bs generalizing a s with
  | nil => rfl
  | cons b rest ih => simp [macWriteBytes, ih]
@[simp] theorem macWriteBytes_life (a : Nat) (bs : List Byte) (s : State) : (macWriteBytes a bs s).life = s.life := by
  induction bs generalizing a s with
  | nil => rfl
  | cons b rest ih => simp [macWriteBytes, ih]
@[simp] theorem macWriteBytes_seq (a : Nat) (bs : List Byte) (s : State) : (macWriteBytes a bs s).seq = s.seq := by
  induction bs generalizing a s with
  | nil => rfl
  | cons b rest ih => simp [macWriteBytes, ih]
@[simp] theorem macWriteBytes_txq (a : Nat) (bs : List Byte) (s : State) : (macWriteBytes a bs s).txq = s.txq := by
  induction bs generalizing a s with
  | nil => rfl
  | cons b rest ih => simp [macWriteBytes, ih]
@[simp] theorem macWriteBytes_rxq (a : Nat) (bs : List Byte) (s : State) : (macWriteBytes a bs s).rxq = s.rxq := by
  induction bs generalizing a s with
  | nil => rfl
  | cons b rest ih => simp [macWriteBytes, ih]
@[simp] theorem macWriteBytes_cmdw (a : Nat) (bs : List Byte) (s : State) : (macWriteBytes a bs s).cmdw = s.cmdw := by
  induction bs generalizing a s with
  | nil => rfl
  | cons b rest ih => simp [macWriteBytes, ih]
@[simp] theorem macWriteBytes_arg0 (a : Nat) (bs : List Byte) (s : State) : (macWriteBytes a bs s).arg0 = s.arg0 := by
  induction bs generalizing a s with
  | nil => rfl
  | cons b rest ih => simp [macWriteBytes, ih]
@[simp] theorem macWriteBytes_pktIn (a : Nat) (bs : List Byte) (s : State) : (macWriteBytes a bs s).pktIn = s.pktIn := by
  induction bs generalizing a s with
  | nil => rfl
  | cons b rest ih => simp [macWriteBytes, ih]
@[simp] theorem macWriteBytes_resCode (a : Nat) (bs : List Byte) (s : State) : (macWriteBytes a bs s).resCode = s.resCode := by
  induction bs generalizing a s with
  | nil => rfl
  | cons b rest ih => simp [macWriteBytes, ih]
@[simp] theorem macWriteBytes_resVal (a : Nat) (bs : List Byte) (s : State) : (macWriteBytes a bs s).resVal = s.resVal := by
  induction bs generalizing a s with
  | nil => rfl
  | cons b rest ih => simp [macWriteBytes, ih]
@[simp] theorem macWriteBytes_pktOut (a : Nat) (bs : List Byte) (s : State) : (macWriteBytes a bs s).pktOut = s.pktOut := by
  induction bs generalizing a s with
  | nil => rfl
  | cons b rest ih => simp [macWriteBytes, ih]
@[simp] theorem macWriteBytes_log (a : Nat) (bs : List Byte) (s : State) : (macWriteBytes a bs s).log = s.log := by
  induction bs generalizing a s with
  | nil => rfl
  | cons b rest ih => simp [macWriteBytes, ih]
@[simp] theorem macWriteBytes_fault (a : Nat) (bs : List Byte) (s : State) : (macWriteBytes a bs s).fault = s.fault := by
  induction bs generalizing a s with
  | nil => rfl
  | cons b rest ih => simp [macWriteBytes, ih]
@[simp] theorem macWriteBytes_rxN (a : Nat) (bs : List Byte) (s : State) : (macWriteBytes a bs s).rxN = s.rxN := by
  induction bs generalizing a s with
  | nil => rfl
  | cons b rest ih => simp [macWriteBytes, ih]
@[simp] theorem macWriteBytes_sb (a : Nat) (bs : List Byte) (s : State) : (macWriteBytes a bs s).sb = s.sb := by
  induction bs generalizing a s with
  | nil => rfl
  | cons b rest ih => simp [macWriteBytes, ih]
@[simp] theorem macWriteBytes_pwq (a : Nat) (bs : List Byte) (s : State) : (macWriteBytes a bs s).pwq = s.pwq := by
  induction bs generalizing a s with
  | nil => rfl
  | cons b rest ih => simp [macWriteBytes, ih]
@[simp] theorem macWriteBytes_mac (a : Nat) (bs : List Byte) (s : State) : (macWriteBytes a bs s).mac = s.mac := by
  induction bs generalizing a s with
  | nil => rfl
  | cons b rest ih => simp [macWriteBytes, ih]
@[simp] theorem macWriteBytes_allocs (a : Nat) (bs : List Byte) (s : State) : (macWriteBytes a bs s).allocs = s.allocs := by
  induction bs generalizing a s with
  | nil => rfl
  | cons b rest ih => simp [macWriteBytes, ih]
@[simp] theorem macWriteBytes_answers (a : Nat) (bs : List Byte) (s : State) : (macWriteBytes a bs s).answers = s.answers := by
  induction bs generalizing a s with
  | nil => rfl
  | cons b rest ih => simp [macWriteBytes, ih]
@[simp] theorem macWriteBytes_held (a : Nat) (bs : List Byte) (s : State) : (macWriteBytes a bs s).held = s.held := by
  induction bs generalizing a s with
  | nil => rfl
  | cons b rest ih => simp [macWriteBytes, ih]
@[simp] theorem macWriteBytes_sched (a : Nat) (bs : List Byte) (s : State) : (macWriteBytes a bs s).sched = s.sched := by
  induction bs generalizing a s with
  | nil => rfl
  | cons b rest ih => simp [macWriteBytes, ih]

@[simp] theorem macWriteFields_cfg (pa : Nat) (fs : List (Nat × List Byte)) (s : State) : (macWriteFields pa fs s).cfg = s.cfg := by
  induction fs generalizing s with
  | nil => rfl
  | cons f rest ih => obtain ⟨off, bs⟩ := f; simp [macWriteFields, ih]
@[simp] theorem macWriteFields_life (pa : Nat) (fs : List (Nat × List Byte)) (s : State) : (macWriteFields pa fs s).life = s.life := by
  induction fs generalizing s with
  | nil => rfl
  | cons f rest ih => obtain ⟨off, bs⟩ := f; simp [macWriteFields, ih]
@[simp] theorem macWriteFields_seq (pa : Nat) (fs : List (Nat × List Byte)) (s : State) : (macWriteFields pa fs s).seq = s.seq := by
  induction fs generalizing s with
  | nil => rfl
  | cons f rest ih => obtain ⟨off, bs⟩ := f; simp [macWriteFields, ih]
@[simp] theorem macWriteFields_txq (pa : Nat) (fs : List (Nat × List Byte)) (s : State) : (macWriteFields pa fs s).txq = s.txq := by
  induction fs generalizing s with
  | nil => rfl
  | cons f rest ih => obtain ⟨off, bs⟩ := f; simp [macWriteFields, ih]
@[simp] theorem macWriteFields_rxq (pa : Nat) (fs : List (Nat × List Byte)) (s : State) : (macWriteFields pa fs s).rxq = s.rxq := by
  induction fs generalizing s with
  | nil => rfl
  | cons f rest ih => obtain ⟨off, bs⟩ := f; simp [macWriteFields, ih]
@[simp] theorem macWriteFields_cmdw (pa : Nat) (fs : List (Nat × List Byte)) (s : State) : (macWriteFields pa fs s).cmdw = s.cmdw := by
  induction fs generalizing s with
  | nil => rfl
  | cons f rest ih => obtain ⟨off, bs⟩ := f; simp [macWriteFields, ih]
@[simp] theorem macWriteFields_arg0 (pa : Nat) (fs : List (Nat × List Byte)) (s : State) : (macWriteFields pa fs s).arg0 = s.arg0 := by
  induction fs generalizing s with
  | nil => rfl
  | cons f rest ih => obtain ⟨off, bs⟩ := f; simp [macWriteFields, ih]
@[simp] theorem macWriteFields_pktIn (pa : Nat) (fs : List (Nat × List Byte)) (s : State) : (macWriteFields pa fs s).pktIn = s.pktIn := by
  induction fs generalizing s with
  | nil => rfl
  | cons f rest ih => obtain ⟨off, bs⟩ := f; simp [macWriteFields, ih]
@[simp] theorem macWriteFields_resCode (pa : Nat) (fs : List (Nat × List Byte)) (s : State) : (macWriteFields pa fs s).resCode = s.resCode := by
  induction fs generalizing s with
  | nil => rfl
  | cons f rest ih => obtain ⟨off, bs⟩ := f; simp [macWriteFields, ih]
@[simp] theorem macWriteFields_resVal (pa : Nat) (fs : List (Nat × List Byte)) (s : State) : (macWriteFields pa fs s).resVal = s.resVal := by
  induction fs generalizing s with
  | nil => rfl
  | cons f rest ih => obtain ⟨off, bs⟩ := f; simp [macWriteFields, ih]
@[simp] theorem macWriteFields_pktOut (pa : Nat) (fs : List (Nat × List Byte)) (s : State) : (macWriteFields pa fs s).pktOut = s.pktOut := by
  induction fs generalizing s with
  | nil => rfl
  | cons f rest ih => obtain ⟨off, bs⟩ := f; simp [macWriteFields, ih]
@[simp] theorem macWriteFields_log (pa : Nat) (fs : List (Nat × List Byte)) (s : State) : (macWriteFields pa fs s).log = s.log := by
  induction fs generalizing s with
  | nil => rfl
  | cons f rest ih => obtain ⟨off, bs⟩ := f; simp [macWriteFields, ih]
@[simp] theorem macWriteFields_fault (pa : Nat) (fs : List (Nat × List Byte)) (s : State) : (macWriteFields pa fs s).fault = s.fault := by
  induction fs generalizing s with
  | nil => rfl
  | cons f rest ih => obtain ⟨off, bs⟩ := f; simp [macWriteFields, ih]
@[simp] theorem macWriteFields_rxN (pa : Nat) (fs : List (Nat × List Byte)) (s : State) : (macWriteFields pa fs s).rxN = s.rxN := by
  induction fs generalizing s with
  | nil => rfl
  | cons f rest ih => obtain ⟨off, bs⟩ := f; simp [macWriteFields, ih]
@[simp] theorem macWriteFields_sb (pa : Nat) (fs : List (Nat × List Byte)) (s : State) : (macWriteFields pa fs s).sb = s.sb := by
  induction fs generalizing s with
  | nil => rfl
  | cons f rest ih => obtain ⟨off, bs⟩ := f; simp [macWriteFields, ih]
@[simp] theorem macWriteFields_pwq (pa : Nat) (fs : List (Nat × List Byte)) (s : State) : (macWriteFields pa fs s).pwq = s.pwq := by
  induction fs generalizing s with
  | nil => rfl
  | cons f rest ih => obtain ⟨off, bs⟩ := f; simp [macWriteFields, ih]
@[simp] theorem macWriteFields_mac (pa : Nat) (fs : List (Nat × List Byte)) (s : State) : (macWriteFields pa fs s).mac = s.mac := by
  induction fs generalizing s with
  | nil => rfl
  | cons f rest ih => obtain ⟨off, bs⟩ := f; simp [macWriteFields, ih]
@[simp] theorem macWriteFields_allocs (pa : Nat) (fs : List (Nat × List Byte)) (s : State) : (macWriteFields pa fs s).allocs = s.allocs := by
  induction fs generalizing s with
  | nil => rfl
  | cons f rest ih => obtain ⟨off, bs⟩ := f; simp [macWriteFields, ih]
@[simp] theorem macWriteFields_answers (pa : Nat) (fs : List (Nat × List Byte)) (s : State) : (macWriteFields pa fs s).answers = s.answers := by
  induction fs generalizing s with
  | nil => rfl
  | cons f rest ih => obtain ⟨off, bs⟩ := f; simp [macWriteFields, ih]
@[simp] theorem macWriteFields_held (pa : Nat) (fs : List (Nat × List Byte)) (s : State) : (macWriteFields pa fs s).held = s.held := by
  induction fs generalizing s with
  | nil => rfl
  | cons f rest ih => obtain ⟨off, bs⟩ := f; simp [macWriteFields, ih]
@[simp] theorem macWriteFields_sched (pa : Nat) (fs : List (Nat × List Byte)) (s : State) : (macWriteFields pa fs s).sched = s.sched := by
  induction fs generalizing s with
  | nil => rfl
  | cons f rest ih => obtain ⟨off, bs⟩ := f; simp [macWriteFields, ih]

@[simp] theorem sendFrame_cfg (f : List Byte) (s : State) : (sendFrame f s).cfg = s.cfg := rfl
@[simp] theorem sendFrame_life (f : List Byte) (s : State) : (sendFrame f s).life = s.life := rfl
@[simp] theorem sendFrame_seq (f : List Byte) (s : State) : (sendFrame f s).seq = s.seq := rfl
@[simp] theorem sendFrame_txq (f : List Byte) (s : State) : (sendFrame f s).txq = s.txq := rfl
@[simp] theorem sendFrame_rxq (f : List Byte) (s : State) : (sendFrame f s).rxq = s.rxq := rfl
@[simp] theorem sendFrame_cmdw (f : List Byte) (s : State) : (sendFrame f s).cmdw = s.cmdw := rfl
@[simp] theorem sendFrame_arg0 (f : List Byte) (s : State) : (sendFrame f s).arg0 = s.arg0 := rfl
@[simp] theorem sendFrame_pktIn (f : List Byte) (s : State) : (sendFrame f s).pktIn = s.pktIn := rfl
@[simp] theorem sendFrame_resCode (f : List Byte) (s : State) : (sendFrame f s).resCode = s.resCode := rfl
@[simp] theorem sendFrame_resVal (f : List Byte) (s : State) : (sendFrame f s).resVal = s.resVal := rfl
@[simp] theorem sendFrame_pktOut (f : List Byte) (s : State) : (sendFrame f s).pktOut = s.pktOut := rfl
@[simp] theorem sendFrame_log (f : List Byte) (s : State) : (sendFrame f s).log = s.log := rfl
@[simp] theorem sendFrame_fault (f : List Byte) (s : State) : (sendFrame f s).fault = s.fault := rfl
@[simp] theorem sendFrame_rxN (f : List Byte) (s : State) : (sendFrame f s).rxN = s.rxN := rfl
@[simp] theorem sendFrame_mem (f : List Byte) (s : State) : (sendFrame f s).mem = s.mem := rfl
@[simp] theorem sendFrame_sb (f : List Byte) (s : State) : (sendFrame f s).sb = s.sb := rfl
@[simp] theorem sendFrame_pwq (f : List Byte) (s : State) : (sendFrame f s).pwq = s.pwq := rfl
@[simp] theorem sendFrame_mac (f : List Byte) (s : State) : (sendFrame f s).mac = { s.mac with wireOut := s.mac.wireOut ++ [f] } := rfl
@[simp] theorem sendFrame_allocs (f : List Byte) (s : State) : (sendFrame f s).allocs = s.allocs := rfl
@[simp] theorem sendFrame_answers (f : List Byte) (s : State) : (sendFrame f s).answers = s.answers := rfl
@[simp] theorem sendFrame_raced (f : List Byte) (s : State) : (sendFrame f s).raced = s.raced := rfl
@[simp] theorem sendFrame_held (f : List Byte) (s : State) : (sendFrame f s).held = s.held := rfl
@[simp] theorem sendFrame_draws (f : List Byte) (s : State) : (sendFrame f s).draws = s.draws := rfl
@[simp] theorem sendFrame_sched (f : List Byte) (s : State) : (sendFrame f s).sched = s.sched := rfl

@[simp] theorem txComplete_cfg (s : State) : (txComplete s).cfg = s.cfg := rfl
@[simp] theorem txComplete_life (s : State) : (txComplete s).life = s.life := rfl
@[simp] theorem txComplete_seq (s : State) : (txComplete s).seq = s.seq := rfl
@[simp] theorem txComplete_txq (s : State) : (txComplete s).txq = s.txq := rfl
@[simp] theorem txComplete_rxq (s : State) : (txComplete s).rxq = s.rxq := rfl
@[simp] theorem txComplete_cmdw (s : State) : (txComplete s).cmdw = s.cmdw := rfl
@[simp] theorem txComplete_arg0 (s : State) : (txComplete s).arg0 = s.arg0 := rfl
@[simp] theorem txComplete_pktIn (s : State) : (txComplete s).pktIn = s.pktIn := rfl
@[simp] theorem txComplete_resCode (s : State) : (txComplete s).resCode = s.resCode := rfl
@[simp] theorem txComplete_resVal (s : State) : (txComplete s).resVal = s.resVal := rfl
@[simp] theorem txComplete_pktOut (s : State) : (txComplete s).pktOut = s.pktOut := rfl
@[simp] theorem txComplete_log (s : State) : (txComplete s).log = s.log := rfl
@[simp] theorem txComplete_fault (s : State) : (txComplete s).fault = s.fault := rfl
@[simp] theorem txComplete_rxN (s : State) : (txComplete s).rxN = s.rxN := rfl
@[simp] theorem txComplete_mem (s : State) : (txComplete s).mem = s.mem := rfl
@[simp] theorem txComplete_sb (s : State) : (txComplete s).sb = s.sb := rfl
@[simp] theorem txComplete_pwq (s : State) : (txComplete s).pwq = s.pwq := rfl
@[simp] theorem txComplete_allocs (s : State) : (txComplete s).allocs = s.allocs := rfl
@[simp] theorem txComplete_answers (s : State) : (txComplete s).answers = s.answers := rfl
@[simp] theorem txComplete_raced (s : State) : (txComplete s).raced = s.raced := rfl
@[simp] theorem txComplete_held (s : State) : (txComplete s).held = s.held := rfl
@[simp] theorem txComplete_draws (s : State) : (txComplete s).draws = s.draws + 2 := rfl
@[simp] theorem txComplete_sched (s : State) : (txComplete s).sched = s.sched := rfl

@[simp] theorem rxComplete_cfg (s : State) : (rxComplete s).cfg = s.cfg := rfl
@[simp] theorem rxComplete_life (s : State) : (rxComplete s).life = s.life := rfl
@[simp] theorem rxComplete_seq (s : State) : (rxComplete s).seq = s.seq := rfl
@[simp] theorem rxComplete_txq (s : State) : (rxComplete s).txq = s.txq := rfl
@[simp] theorem rxComplete_rxq (s : State) : (rxComplete s).rxq = s.rxq := rfl
@[simp] theorem rxComplete_cmdw (s : State) : (rxComplete s).cmdw = s.cmdw := rfl
@[simp] theorem rxComplete_arg0 (s : State) : (rxComplete s).arg0 = s.arg0 := rfl
@[simp] theorem rxComplete_pktIn (s : State) : (rxComplete s).pktIn = s.pktIn := rfl
@[simp] theorem rxComplete_resCode (s : State) : (rxComplete s).resCode = s.resCode := rfl
@[simp] theorem rxComplete_resVal (s : State) : (rxComplete s).resVal = s.resVal := rfl
@[simp] theorem rxComplete_pktOut (s : State) : (rxComplete s).pktOut = s.pktOut := rfl
@[simp] theorem rxComplete_log (s : State) : (rxComplete s).log = s.log := rfl
@[simp] theorem rxComplete_fault (s : State) : (rxComplete s).fault = s.fault := rfl
@[simp] theorem rxComplete_rxN (s : State) : (rxComplete s).rxN = s.rxN := rfl
@[simp] theorem rxComplete_mem (s : State) : (rxComplete s).mem = s.mem := rfl
@[simp] theorem rxComplete_sb (s : State) : (rxComplete s).sb = s.sb := rfl
@[simp] theorem rxComplete_pwq (s : State) : (rxComplete s).pwq = s.pwq := rfl
@[simp] theorem rxComplete_allocs (s : State) : (rxComplete s).allocs = s.allocs := rfl
@[simp] theorem rxComplete_answers (s : State) : (rxComplete s).answers = s.answers := rfl
@[simp] theorem rxComplete_raced (s : State) : (rxComplete s).raced = s.raced := rfl
@[simp] theorem rxComplete_held (s : State) : (rxComplete s).held = s.held := rfl
@[simp] theorem rxComplete_draws (s : State) : (rxComplete s).draws = s.draws + 2 := rfl
@[simp] theorem rxComplete_sched (s : State) : (rxComplete s).sched = s.sched := rfl

@[simp] theorem txWriteBack_cfg (d : TxDesc) (s : State) : (txWriteBack d s).cfg = s.cfg := by unfold txWriteBack; split <;> simp
@[simp] theorem txWriteBack_life (d : TxDesc) (s : State) : (txWriteBack d s).life = s.life := by unfold txWriteBack; split <;> simp
@[simp] theorem txWriteBack_seq (d : TxDesc) (s : State) : (txWriteBack d s).seq = s.seq := by unfold txWriteBack; split <;> simp
@[simp] theorem txWriteBack_txq (d : TxDesc) (s : State) : (txWriteBack d s).txq = s.txq := by unfold txWriteBack; split <;> simp
@[simp] theorem txWriteBack_rxq (d : TxDesc) (s : State) : (txWriteBack d s).rxq = s.rxq := by unfold txWriteBack; split <;> simp
@[simp] theorem txWriteBack_cmdw (d : TxDesc) (s : State) : (txWriteBack d s).cmdw = s.cmdw := by unfold txWriteBack; split <;> simp
@[simp] theorem txWriteBack_arg0 (d : TxDesc) (s : State) : (txWriteBack d s).arg0 = s.arg0 := by unfold txWriteBack; split <;> simp
@[simp] theorem txWriteBack_pktIn (d : TxDesc) (s : State) : (txWriteBack d s).pktIn = s.pktIn := by unfold txWriteBack; split <;> simp
@[simp] theorem txWriteBack_resCode (d : TxDesc) (s : State) : (txWriteBack d s).resCode = s.resCode := by unfold txWriteBack; split <;> simp
@[simp] theorem txWriteBack_resVal (d : TxDesc) (s : State) : (txWriteBack d s).resVal = s.resVal := by unfold txWriteBack; split <;> simp
@[simp] theorem txWriteBack_pktOut (d : TxDesc) (s : State) : (txWriteBack d s).pktOut = s.pktOut := by unfold txWriteBack; split <;> simp
@[simp] theorem txWriteBack_log (d : TxDesc) (s : State) : (txWriteBack d s).log = s.log := by unfold txWriteBack; split <;> simp
@[simp] theorem txWriteBack_fault (d : TxDesc) (s : State) : (txWriteBack d s).fault = s.fault := by unfold txWriteBack; split <;> simp
@[simp] theorem txWriteBack_rxN (d : TxDesc) (s : State) : (txWriteBack d s).rxN = s.rxN := by unfold txWriteBack; split <;> simp
@[simp] theorem txWriteBack_sb (d : TxDesc) (s : State) : (txWriteBack d s).sb = s.sb := by unfold txWriteBack; split <;> simp
@[simp] theorem txWriteBack_pwq (d : TxDesc) (s : State) : (txWriteBack d s).pwq = s.pwq := by unfold txWriteBack; split <;> simp
@[simp] theorem txWriteBack_mac (d : TxDesc) (s : State) : (txWriteBack d s).mac = s.mac := by unfold txWriteBack; split <;> simp
@[simp] theorem txWriteBack_allocs (d : TxDesc) (s : State) : (txWriteBack d s).allocs = s.allocs := by unfold txWriteBack; split <;> simp
@[simp] theorem txWriteBack_answers (d : TxDesc) (s : State) : (txWriteBack d s).answers = s.answers := by unfold txWriteBack; split <;> simp
@[simp] theorem txWriteBack_held (d : TxDesc) (s : State) : (txWriteBack d s).held = s.held := by unfold txWriteBack; split <;> simp
@[simp] theorem txWriteBack_sched (d : TxDesc) (s : State) : (txWriteBack d s).sched = s.sched := by unfold txWriteBack; split <;> simp

end Sys2Proof.Machine
end

