-- ==== Sys2Proof/Laws/Ops.lean ====
section
/-! SUPPORT. What each shared operation can do, said once: if it answers `next t`, then one of these cases. The
proofs about instructions cite these and do not unfold the operations. -/

namespace Sys2Proof.Machine

theorem proceed_next {q : Seq} {s t : State} (h : proceed q s = .next t) : t = { s with seq := q } := by
  simpa [proceed] using h.symm

theorem ret_next {c : Code} {v : Word} {s t : State} (h : ret c v s = .next t) : t = s.finish c v := by
  simpa [ret] using h.symm

theorem raised_next {c : Code} {v : Word} {s t : State} (h : raised c v s = .next t) : t = s.raise c v := by
  simpa [raised] using h.symm

theorem gate_next {l : Life} {k : State → Result} {s t : State} (h : gate l k s = .next t) :
    (s.life = l ∧ k s = .next t) ∨ (s.life ≠ l ∧ t = s.raise .wrongState (lifeWord s.life)) := by
  unfold gate at h
  split at h
  · exact .inl ⟨‹_›, h⟩
  · exact .inr ⟨‹_›, raised_next h⟩

theorem ownGuard_next {q : RingId} {i : Nat} {k : State → Result} {s t : State} (h : ownGuard q i k s = .next t) :
    (s.tag q i = .sw ∧ k s = .next t) ∨ (s.tag q i ≠ .sw ∧ t = s.raise .ownershipViolation (ownInfo q i)) := by
  unfold ownGuard at h
  split at h
  · exact .inl ⟨‹_›, h⟩
  · exact .inr ⟨‹_›, raised_next h⟩

theorem sfence_next {k : State → Result} {s t : State} (h : sfence k s = .next t) :
    (s.sb = [] ∧ k s = .next t) ∨ (s.sb ≠ [] ∧ t = s) := by
  unfold sfence at h
  split at h
  · exact .inl ⟨‹_›, h⟩
  · exact .inr ⟨‹_›, by simpa using h.symm⟩

theorem memRead_next {pa : Addr} {n : Width} {k : Addr → State → Result} {s t : State}
    (h : memRead pa n k s = .next t) :
    pa.toNat % n.bytes = 0 ∧ s.live pa.toNat n.bytes = true ∧ k (s.load n pa.toNat) s = .next t := by
  unfold memRead at h
  split at h
  · simp at h
  · split at h
    · exact ⟨by omega, ‹_›, h⟩
    · simp at h

theorem memWrite_next {pa : Addr} {n : Width} {v : Addr} {k : State → Result} {s t : State}
    (h : memWrite pa n v k s = .next t) :
    pa.toNat % n.bytes = 0 ∧ s.live pa.toNat n.bytes = true ∧ k (s.store pa n v) = .next t := by
  unfold memWrite at h
  split at h
  · simp at h
  · split at h
    · exact ⟨by omega, ‹_›, h⟩
    · simp at h

theorem regRead_next {off : Word} {k : Word → State → Result} {s t : State} (h : regRead off k s = .next t) :
    (regInRange s.cfg off = false ∧ t = s.raise .regIndexOutOfRange off) ∨
    (regInRange s.cfg off = true ∧ s.pwq ≠ [] ∧ t = s) ∨
    (regInRange s.cfg off = true ∧ s.pwq = [] ∧
      ∃ r, regAt s.cfg off = some r ∧ k (macRead r s).1 (macRead r s).2 = .next t) := by
  unfold regRead at h
  split at h
  · split at h
    · split at h
      · simp at h
      · exact .inr (.inr ⟨‹_›, ‹_›, _, ‹_›, h⟩)
    · exact .inr (.inl ⟨‹_›, ‹_›, by simpa using h.symm⟩)
  · exact .inl ⟨by simpa using ‹¬regInRange s.cfg off = true›, raised_next h⟩

theorem regWrite_next {off v : Word} {k : State → Result} {s t : State} (h : regWrite off v k s = .next t) :
    (regInRange s.cfg off = false ∧ t = s.raise .regIndexOutOfRange off) ∨
    (regInRange s.cfg off = true ∧ k (s.post off v) = .next t) := by
  unfold regWrite at h
  split at h
  · exact .inr ⟨‹_›, h⟩
  · exact .inl ⟨by simpa using ‹¬regInRange s.cfg off = true›, raised_next h⟩

theorem writeFlush_next {k : State → Result} {s t : State} (h : writeFlush k s = .next t) :
    (regInRange s.cfg s.cfg.offStatus = false ∧ t = s.raise .regIndexOutOfRange s.cfg.offStatus) ∨
    (regInRange s.cfg s.cfg.offStatus = true ∧ s.pwq ≠ [] ∧ t = s) ∨
    (regInRange s.cfg s.cfg.offStatus = true ∧ s.pwq = [] ∧
      ∃ r, regAt s.cfg s.cfg.offStatus = some r ∧ k (macRead r s).2 = .next t) :=
  regRead_next h

theorem listWrite_next {w : Option (Word × Word)} {k : State → Result} {s t : State}
    (h : listWrite w k s = .next t) :
    (w = none ∧ k s = .next t) ∨
    (∃ off v, w = some (off, v) ∧ regInRange s.cfg off = false ∧ t = s.raise .regIndexOutOfRange off) ∨
    (∃ off v, w = some (off, v) ∧ regInRange s.cfg off = true ∧ k (s.post off v) = .next t) := by
  unfold listWrite at h
  split at h
  · exact .inl ⟨rfl, h⟩
  · rcases regWrite_next h with h | h
    · exact .inr (.inl ⟨_, _, rfl, h⟩)
    · exact .inr (.inr ⟨_, _, rfl, h⟩)

theorem indexFrom_next {x : Word} {k : Nat → State → Result} {s t : State} (h : indexFrom x k s = .next t) :
    (x.toNat < s.cfg.cap ∧ k x.toNat s = .next t) ∨
    (s.cfg.cap ≤ x.toNat ∧ t = s.raise .ringIndexOutOfRange x) := by
  unfold indexFrom at h
  split at h
  · exact .inl ⟨‹_›, h⟩
  · exact .inr ⟨by omega, raised_next h⟩

theorem bufByte_next {q : RingId} {i j : Nat} {k : Addr → State → Result} {s t : State}
    (h : bufByte q i j k s = .next t) :
    j < s.cfg.bufSize ∧ k (bufPa s q i + BitVec.ofNat 64 j) s = .next t := by
  unfold bufByte at h
  split at h
  · exact ⟨‹_›, h⟩
  · simp at h

theorem setField_next {q : RingId} {i f : Nat} {n : Width} {v : Addr} {k : State → Result} {s t : State}
    (h : setField q i f n v k s = .next t) :
    (s.tag q i = .sw ∧ (descPa s q i f).toNat % n.bytes = 0 ∧ s.live (descPa s q i f).toNat n.bytes = true ∧
      k (s.store (descPa s q i f) n v) = .next t) ∨
    (s.tag q i ≠ .sw ∧ t = s.raise .ownershipViolation (ownInfo q i)) := by
  rcases ownGuard_next h with ⟨hg, h⟩ | h
  · exact .inl ⟨hg, memWrite_next h⟩
  · exact .inr h

theorem getField_next {q : RingId} {i f : Nat} {n : Width} {k : Addr → State → Result} {s t : State}
    (h : getField q i f n k s = .next t) :
    (s.tag q i = .sw ∧ (descPa s q i f).toNat % n.bytes = 0 ∧ s.live (descPa s q i f).toNat n.bytes = true ∧
      k (s.load n (descPa s q i f).toNat) s = .next t) ∨
    (s.tag q i ≠ .sw ∧ t = s.raise .ownershipViolation (ownInfo q i)) := by
  rcases ownGuard_next h with ⟨hg, h⟩ | h
  · exact .inl ⟨hg, memRead_next h⟩
  · exact .inr h

theorem getStatus_next {q : RingId} {i : Nat} {k : Byte → State → Result} {s t : State}
    (h : getStatus q i k s = .next t) :
    s.live (descPa s q i fieldStatus).toNat 1 = true ∧
      k ((s.load .one (descPa s q i fieldStatus).toNat).setWidth 8) s = .next t :=
  ⟨(memRead_next h).2.1, (memRead_next h).2.2⟩

theorem setBufByte_next {q : RingId} {i j : Nat} {b : Byte} {k : State → Result} {s t : State}
    (h : setBufByte q i j b k s = .next t) :
    (s.tag q i = .sw ∧ j < s.cfg.bufSize ∧ s.live (bufPa s q i + BitVec.ofNat 64 j).toNat 1 = true ∧
      k (s.store (bufPa s q i + BitVec.ofNat 64 j) .one (b.setWidth 64)) = .next t) ∨
    (s.tag q i ≠ .sw ∧ t = s.raise .ownershipViolation (ownInfo q i)) := by
  rcases ownGuard_next h with ⟨hg, h⟩ | h
  · have h1 := bufByte_next h
    have h2 := memWrite_next h1.2
    exact .inl ⟨hg, h1.1, h2.2.1, h2.2.2⟩
  · exact .inr h

theorem getBufByte_next {q : RingId} {i j : Nat} {k : Byte → State → Result} {s t : State}
    (h : getBufByte q i j k s = .next t) :
    (s.tag q i = .sw ∧ j < s.cfg.bufSize ∧ s.live (bufPa s q i + BitVec.ofNat 64 j).toNat 1 = true ∧
      k ((s.load .one (bufPa s q i + BitVec.ofNat 64 j).toNat).setWidth 8) s = .next t) ∨
    (s.tag q i ≠ .sw ∧ t = s.raise .ownershipViolation (ownInfo q i)) := by
  rcases ownGuard_next h with ⟨hg, h⟩ | h
  · have h1 := bufByte_next h
    have h2 := memRead_next h1.2
    exact .inl ⟨hg, h1.1, h2.2.1, h2.2.2⟩
  · exact .inr h

theorem allocate_next {n pages : Nat} {k : Handle → State → Result} {s t : State}
    (h : allocate n pages k s = .next t) :
    (s.answers = [] ∧ t = s) ∨
    (∃ rest, s.answers = .fail :: rest ∧
      t = State.raise { s with answers := rest } .allocFailure (BitVec.ofNat 32 n)) ∨
    (∃ x rest, s.answers = .grant x :: rest ∧ contractOk s x pages = true ∧
      k x (State.grant { s with answers := rest } x pages) = .next t) := by
  unfold allocate at h
  split at h
  · exact .inl ⟨‹_›, by simpa using h.symm⟩
  · exact .inr (.inl ⟨_, ‹_›, raised_next h⟩)
  · split at h
    · exact .inr (.inr ⟨_, _, ‹_›, ‹_›, h⟩)
    · simp at h

theorem macTouch_next {a n : Nat} {k : State → Result} {s t : State} (h : macTouch a n k s = .next t) :
    a + n ≤ 2 ^ 64 ∧ s.live a n = true ∧ k s = .next t := by
  unfold macTouch at h
  split at h
  · simp at h
  · split at h
    · exact ⟨by omega, ‹_›, h⟩
    · simp at h

theorem drainPosted_next {s t : State} (h : drainPosted s = .next t) :
    (s.pwq = [] ∧ t = s) ∨
    (∃ p rest r, s.pwq = p :: rest ∧ regAt s.cfg p.off = some r ∧ t = macWrite r p.v { s with pwq := rest }) := by
  unfold drainPosted at h
  split at h
  · exact .inl ⟨‹_›, by simpa using h.symm⟩
  · split at h
    · simp at h
    · exact .inr ⟨_, _, _, ‹_›, ‹_›, by simpa using h.symm⟩

theorem drainStore_cases (j : Nat) (s : State) :
    drainStore j s = s ∨
    (∃ e, s.sb[j]? = some e ∧ (∀ f ∈ s.sb.take j, f.overlaps e = false) ∧
      drainStore j s = { s with sb := s.sb.eraseIdx j, mem := s.mem.writeBytes e.pa.toNat e.byteList }) := by
  unfold drainStore drainable
  cases hj : s.sb[j]? with
  | none => exact .inl rfl
  | some e =>
    simp only
    split
    · exact .inl rfl
    · rename_i heq
      split at heq
      · simp at heq
      · rename_i hn
        simp only [Option.some.injEq] at heq
        subst heq
        refine .inr ⟨e, rfl, ?_, rfl⟩
        simpa using hn

theorem skip_ite_some {α : Type} {p : Prop} [Decidable p] {a b : α} {x : Option α} (hab : a ≠ b)
    (h : (if p then some a else x) = some b) : x = some b := by
  split at h
  · exact absurd (Option.some.inj h) hab
  · exact h

/-- The register at an offset that `regAt` gives is the one whose offset it is. -/
theorem regAt_eq_tdt {c : Cfg} {o : Word} (h : regAt c o = some .tdt) : o = c.offTdt := by
  unfold regAt at h
  iterate 21 replace h := skip_ite_some (by decide) h
  by_contra hn
  rw [if_neg hn] at h
  iterate 2 replace h := skip_ite_some (by decide) h
  split at h <;> simp at h

theorem regAt_eq_rdt {c : Cfg} {o : Word} (h : regAt c o = some .rdt) : o = c.offRdt := by
  unfold regAt at h
  iterate 14 replace h := skip_ite_some (by decide) h
  by_contra hn
  rw [if_neg hn] at h
  iterate 9 replace h := skip_ite_some (by decide) h
  split at h <;> simp at h

theorem regAt_eq_ctl {c : Cfg} {o : Word} (h : regAt c o = some .ctl) : o = c.offCtl := by
  unfold regAt at h
  by_contra hn
  rw [if_neg hn] at h
  iterate 23 replace h := skip_ite_some (by decide) h
  split at h <;> simp at h

/-! ### What RINGCTL holds -/

theorem racing_iff {s : State} {a : Nat} : racing s a = true ↔ ∃ e ∈ s.held, e.lo ≤ a ∧ a < e.lo + e.len := by
  simp [racing, Extent.holds]

@[simp] theorem mem_heldWith {l es : List Extent} {e : Extent} : e ∈ heldWith l es ↔ e ∈ l ∨ e ∈ es := by
  by_cases h : e ∈ es <;> simp [heldWith, h]

@[simp] theorem mem_heldWithout {l es : List Extent} {e : Extent} : e ∈ heldWithout l es ↔ e ∈ l ∧ e ∉ es := by
  simp [heldWithout]

/-- The extents are read off the configuration and the handles. -/
theorem descExtent_congr {s t : State} (ht : t.txq = s.txq) (hr : t.rxq = s.rxq) (q : RingId) :
    descExtent t q = descExtent s q := by
  funext i
  cases q <;> simp [descExtent, descPa, State.ringOf, ht, hr]

theorem bufExtent_congr {s t : State} (hc : t.cfg = s.cfg) (ht : t.txq = s.txq) (hr : t.rxq = s.rxq) (q : RingId) :
    bufExtent t q = bufExtent s q := by
  funext i
  cases q <;> simp [bufExtent, bufPa, State.ringOf, hc, ht, hr]

theorem slotExtents_congr {s t : State} (hc : t.cfg = s.cfg) (ht : t.txq = s.txq) (hr : t.rxq = s.rxq) (q : RingId) :
    slotExtents t q = slotExtents s q := by
  funext i
  simp only [slotExtents, descExtent_congr ht hr, bufExtent_congr hc ht hr]

theorem allocExtents_congr {s t : State} (hc : t.cfg = s.cfg) (ht : t.txq = s.txq) (hr : t.rxq = s.rxq) (k : Nat) :
    allocExtents t k = allocExtents s k := by
  simp only [allocExtents, descExtent_congr ht hr, bufExtent_congr hc ht hr, hc]

/-- A block reset hands nothing over: what races before it races after it (R108(e), R340). -/
theorem racing_blockReset (s : State) (a : Nat) : racing (blockReset s) a = racing s a := rfl

/-- Nor does a fatal fault (R310). -/
theorem racing_raise (s : State) (c : Code) (v : Word) (a : Nat) : racing (s.raise c v) a = racing s a := by
  simp [racing]

/-! ### The MAC's memory accesses where nothing races -/

theorem macReadByte_of_not_racing {a : Nat} {s : State} (h : racing s a = false) :
    macReadByte a s = (s.mem.read a, s) := by
  simp [macReadByte, h]

theorem macReadBytes_of_not_racing {n a : Nat} {s : State} (h : ∀ j < n, racing s (a + j) = false) :
    macReadBytes n a s = ((List.range n).map (fun j => s.mem.read (a + j)), s) := by
  induction n generalizing a with
  | zero => rfl
  | succ n ih =>
    have h0 : racing s a = false := by simpa using h 0 (by omega)
    have hs : ∀ j < n, racing s (a + 1 + j) = false := fun j hj => by
      simpa [Nat.add_assoc, Nat.add_comm 1 j] using h (j + 1) (by omega)
    simp only [macReadBytes, macReadByte_of_not_racing h0, ih hs, List.range_succ_eq_map, List.map_cons,
      List.map_map, Nat.add_zero, Prod.mk.injEq, List.cons.injEq, true_and, and_true]
    apply List.map_congr_left
    intro j _
    simp [Function.comp, Nat.add_assoc, Nat.add_comm 1 j]

theorem macWriteByte_of_not_racing {a : Nat} {b : Byte} {s : State} (h : racing s a = false) :
    macWriteByte a b s = { s with mem := s.mem.write a b } := by
  simp [macWriteByte, h]

/-- A MAC write keeps the canonical form. -/
theorem macWriteByte_wf {a : Nat} {b : Byte} {s : State} (h : Memory.wf s.mem = true) :
    Memory.wf (macWriteByte a b s).mem = true := by
  unfold macWriteByte
  split <;> exact Memory.write_wf h _ _

theorem macWriteBytes_wf {a : Nat} {bs : List Byte} {s : State} (h : Memory.wf s.mem = true) :
    Memory.wf (macWriteBytes a bs s).mem = true := by
  induction bs generalizing a s with
  | nil => exact h
  | cons b rest ih => exact ih (macWriteByte_wf h)

theorem macWriteFields_wf {pa : Nat} {fs : List (Nat × List Byte)} {s : State} (h : Memory.wf s.mem = true) :
    Memory.wf (macWriteFields pa fs s).mem = true := by
  induction fs generalizing s with
  | nil => exact h
  | cons f rest ih => exact ih (macWriteBytes_wf h)

/-- Outside the bytes a MAC write covers, `Mem` is unchanged. -/
theorem macWriteByte_read_ne {a x : Nat} {b : Byte} {s : State} (h : x ≠ a) :
    (macWriteByte a b s).mem.read x = s.mem.read x := by
  unfold macWriteByte
  split <;> exact Memory.read_write_ne _ _ h

theorem macWriteBytes_read_outside {a x : Nat} {bs : List Byte} {s : State} (h : x < a ∨ a + bs.length ≤ x) :
    (macWriteBytes a bs s).mem.read x = s.mem.read x := by
  induction bs generalizing a s with
  | nil => rfl
  | cons b rest ih =>
    simp only [List.length_cons] at h
    simp only [macWriteBytes]
    rw [ih (by omega), macWriteByte_read_ne (by omega)]

/-- Draining keeps the canonical form. -/
theorem drainStore_wf {j : Nat} {s : State} (h : Memory.wf s.mem = true) :
    Memory.wf (drainStore j s).mem = true := by
  rcases drainStore_cases j s with h' | ⟨e, _, _, h'⟩
  · rw [h']; exact h
  · rw [h']; exact Memory.writeBytes_wf h _ _

/-- `allocate` keeps the canonical form. -/
theorem State.grant_wf {s : State} {x : Handle} {n : Nat} (h : Memory.wf s.mem = true) :
    Memory.wf (s.grant x n).mem = true := Memory.zeroRange_wf h _ _

/-! ### Indices -/

theorem nextIndex_lt {c : Cfg} {i : Nat} (h : i < c.cap) : nextIndex c i < c.cap := Nat.mod_lt _ (by omega)

end Sys2Proof.Machine
end

