-- ==== Sys2Proof/Laws/Forward.lean ====
section
/-! SUPPORT. When each shared operation goes on, said once: under hypotheses on the state alone it is its
continuation on a state written out. The counterpart of the inversion lemmas of Laws/Ops.lean. -/

namespace Sys2Proof.Machine

theorem regWrite_of_inRange {off v : Word} {k : State → Result} {s : State} (h : regInRange s.cfg off = true) :
    regWrite off v k s = k { s with pwq := s.pwq ++ [⟨off, v⟩] } := by
  simp [regWrite, h, State.post]

theorem regRead_of_arrived {off : Word} {r : Reg} {k : Word → State → Result} {s : State}
    (h : regInRange s.cfg off = true) (hp : s.pwq = []) (hr : regAt s.cfg off = some r) :
    regRead off k s = k (macRead r s).1 (macRead r s).2 := by
  simp [regRead, h, hp, hr]

theorem writeFlush_of_arrived {k : State → Result} {s : State} (hv : s.cfg.valid = true) (hp : s.pwq = []) :
    writeFlush k s = k { s with draws := s.draws + 1 } := by
  simp [writeFlush, regRead, regInRange_status hv, hp, regAt_status hv, macRead, State.spend]

theorem sfence_of_empty {k : State → Result} {s : State} (h : s.sb = []) : sfence k s = k s := by
  simp [sfence, h]

theorem gate_of_life {l : Life} {k : State → Result} {s : State} (h : s.life = l) : gate l k s = k s := by
  simp [gate, h]

/-- Part of a live stretch is live. -/
theorem State.live_part {s : State} {a n j m : Nat} (h : s.live a n = true) (hj : j + m ≤ n) :
    s.live (a + j) m = true := by
  simp only [State.live, List.all_eq_true, List.mem_range] at h ⊢
  intro x hx
  rw [Nat.add_assoc]
  exact h _ (by omega)

theorem memWrite_of_live {pa : Addr} {n : Width} {v : Addr} {k : State → Result} {s : State}
    (ha : pa.toNat % n.bytes = 0) (hl : s.live pa.toNat n.bytes = true) :
    memWrite pa n v k s = k { s with sb := s.sb ++ [⟨pa, n, n.truncate v⟩] } := by
  simp only [memWrite, ha, hl, ne_eq, not_true_eq_false, if_false, if_true, State.store]

theorem memRead_of_live {pa : Addr} {n : Width} {k : Addr → State → Result} {s : State}
    (ha : pa.toNat % n.bytes = 0) (hl : s.live pa.toNat n.bytes = true) :
    memRead pa n k s = k (s.load n pa.toNat) s := by
  simp only [memRead, ha, hl, ne_eq, not_true_eq_false, if_false, if_true]

theorem setField_of_owned {q : RingId} {i f : Nat} {n : Width} {v : Addr} {k : State → Result} {s : State}
    (ht : s.tag q i = .sw) (ha : (descPa s q i f).toNat % n.bytes = 0)
    (hl : s.live (descPa s q i f).toNat n.bytes = true) :
    setField q i f n v k s = k { s with sb := s.sb ++ [⟨descPa s q i f, n, n.truncate v⟩] } := by
  simp only [setField, ownGuard, ht, if_true, memWrite_of_live ha hl]

theorem getField_of_owned {q : RingId} {i f : Nat} {n : Width} {k : Addr → State → Result} {s : State}
    (ht : s.tag q i = .sw) (ha : (descPa s q i f).toNat % n.bytes = 0)
    (hl : s.live (descPa s q i f).toNat n.bytes = true) :
    getField q i f n k s = k (s.load n (descPa s q i f).toNat) s := by
  simp only [getField, ownGuard, ht, if_true, memRead_of_live ha hl]

/-- A byte is its own low 8 bits. -/
theorem Width.truncate_one (b : Byte) : Width.one.truncate (b.setWidth 64) = b.setWidth 64 := by
  apply BitVec.eq_of_toNat_eq
  have := b.isLt
  simp only [Width.truncate, BitVec.toNat_setWidth, BitVec.extractLsb'_toNat]
  omega

theorem setBufByte_of_owned {q : RingId} {i j : Nat} {b : Byte} {k : State → Result} {s : State}
    (ht : s.tag q i = .sw) (hj : j < s.cfg.bufSize) (hl : s.live (bufPa s q i + BitVec.ofNat 64 j).toNat 1 = true) :
    setBufByte q i j b k s =
      k { s with sb := s.sb ++ [⟨bufPa s q i + BitVec.ofNat 64 j, .one, b.setWidth 64⟩] } := by
  simp only [setBufByte, ownGuard, ht, if_true, bufByte, hj,
    memWrite_of_live (n := .one) (Nat.mod_one _) hl, Width.truncate_one]

/-- A one-byte load is the byte RINGCTL sees. -/
theorem State.load_one (s : State) (a : Nat) : (s.load .one a).setWidth 8 = s.seenByte a := by
  ext k hk
  simp [State.load, Width.bytes, ofBytes]

theorem getStatus_of_live {q : RingId} {i : Nat} {k : Byte → State → Result} {s : State}
    (hl : s.live (descPa s q i fieldStatus).toNat 1 = true) :
    getStatus q i k s = k (s.seenByte (descPa s q i fieldStatus).toNat) s := by
  simp only [getStatus, memRead_of_live (n := .one) (Nat.mod_one _) hl, State.load_one]

theorem getBufByte_of_owned {q : RingId} {i j : Nat} {k : Byte → State → Result} {s : State}
    (ht : s.tag q i = .sw) (hj : j < s.cfg.bufSize) (hl : s.live (bufPa s q i + BitVec.ofNat 64 j).toNat 1 = true) :
    getBufByte q i j k s = k (s.seenByte (bufPa s q i + BitVec.ofNat 64 j).toNat) s := by
  simp only [getBufByte, ownGuard, ht, if_true, bufByte, hj, memRead_of_live (n := .one) (Nat.mod_one _) hl,
    State.load_one]

/-- Field `f` of a descriptor lies `f` bytes into it. -/
theorem descPa_toNat {s : State} {q : RingId} {i f : Nat} (hf : f < 16)
    (h : ((s.ringOf q).ring.pa + BitVec.ofNat 64 (16 * i)).toNat + 16 ≤ 2 ^ 64) :
    (descPa s q i f).toNat = ((s.ringOf q).ring.pa + BitVec.ofNat 64 (16 * i)).toNat + f := by
  simp only [descPa, BitVec.toNat_add, BitVec.toNat_ofNat] at *
  omega

/-- A descriptor of an aligned ring is aligned. -/
theorem descriptor_aligned {r : Addr} (i : Nat) (h : r.toNat % 16 = 0) :
    (r + BitVec.ofNat 64 (16 * i)).toNat % 16 = 0 := by
  simp only [BitVec.toNat_add, BitVec.toNat_ofNat] at *
  omega

end Sys2Proof.Machine
end

