-- ==== Sys2Proof/Laws/PerInstr.lean ====
section
/-! SUPPORT. Statements for all instructions, one lemma per constructor. `FormatWidth`: an instruction's encoding
has the width its row of the opcode table gives it, and a command word has no bit above its opcode (R120, R129). -/

namespace Sys2Proof.Laws.FormatWidth

/-- The width of the instruction's opcode-table row. -/
def rowBits (i : Instr) : Nat :=
  match i with
  | .construct => 32
  | .transmit => 32
  | .receive => 32
  | .serviceIrq => 32
  | .irqEnable => 32
  | .irqDisable => 32
  | .teardown => 32
  | .txd _ => 128
  | .rxd _ => 128

/-- The encoding has the row's width; a command word's bits 31:8 are zero. -/
def Statement (i : Instr) : Prop :=
  (encode i).bits = rowBits i ∧ ∀ w, encode i = .cmdw w → w.extractLsb' 8 24 = 0

theorem construct : Statement .construct := ⟨rfl, by intro w h; cases h; decide⟩
theorem transmit : Statement .transmit := ⟨rfl, by intro w h; cases h; decide⟩
theorem receive : Statement .receive := ⟨rfl, by intro w h; cases h; decide⟩
theorem serviceIrq : Statement .serviceIrq := ⟨rfl, by intro w h; cases h; decide⟩
theorem irqEnable : Statement .irqEnable := ⟨rfl, by intro w h; cases h; decide⟩
theorem irqDisable : Statement .irqDisable := ⟨rfl, by intro w h; cases h; decide⟩
theorem teardown : Statement .teardown := ⟨rfl, by intro w h; cases h; decide⟩
theorem txd (d : TxDesc) : Statement (.txd d) := ⟨rfl, by intro w h; cases h⟩
theorem rxd (d : RxDesc) : Statement (.rxd d) := ⟨rfl, by intro w h; cases h⟩

end Sys2Proof.Laws.FormatWidth
end

