-- ==== Sys2Proof/Tests/Slice0.lean ====
section
/-! SUPPORT. The model's own tests: the WellFormed smoke test, words written out from the spec's encodings, one or
two single steps per instruction with the expected value from the spec's vectors or its rules, and for every
statement with hypotheses a witness that meets them. -/

namespace Sys2Proof.Tests

open Sys2Proof Sys2Proof.Machine

/-! ### WellFormed: each check refuses an ill-formed term -/

/-- `CMD_EOP` missing (R133). -/
theorem test_wf_refuses_no_eop : Instr.wf (.txd ⟨0x1000, 60, 0, 0x08, 0, 0, 0⟩) = false := by decide

/-- A command bit outside `CMD_RS | CMD_EOP` (R133). -/
theorem test_wf_refuses_extra_bit : Instr.wf (.txd ⟨0x1000, 60, 0, 0x19, 0, 0, 0⟩) = false := by decide

/-- Both forms of the row, with `CMD_RS` and without (R264). -/
theorem test_wf_accepts : Instr.wf (.txd ⟨0x1000, 60, 0, 0x09, 0, 0, 0⟩) = true ∧
    Instr.wf (.txd ⟨0x1000, 60, 0, 0x01, 0, 0, 0⟩) = true ∧ Instr.wf .construct = true ∧
    Instr.wf (.rxd ⟨0, 0, 0, 0xFF, 0, 0⟩) = true := by decide

/-- The default configuration meets the constraints of R7 to R12. -/
theorem test_default_valid : Cfg.default.valid = true := by decide

/-- R8, R12: selection 00 is 2048 bytes, so `BUF_SIZE = 64` does not agree with the default `RCTL_INIT`. -/
theorem test_valid_refuses_bufSize : Cfg.valid { Cfg.default with bufSize := 64 } = false ∧
    rxLimit Cfg.default Cfg.default.rctlInit = 2048 := by decide

/-! ### Decoding -/

/-- R130's opcode column, each row; the words of V51. -/
theorem test_decode_construct : decode (.cmdw 0x00000001) = .instr .construct := by decide
theorem test_decode_transmit : decode (.cmdw 0x00000002) = .instr .transmit := by decide
theorem test_decode_receive : decode (.cmdw 0x00000003) = .instr .receive := by decide
theorem test_decode_serviceIrq : decode (.cmdw 0x00000004) = .instr .serviceIrq := by decide
theorem test_decode_irqEnable : decode (.cmdw 0x00000005) = .instr .irqEnable := by decide
theorem test_decode_irqDisable : decode (.cmdw 0x00000006) = .instr .irqDisable := by decide
theorem test_decode_teardown : decode (.cmdw 0x00000007) = .instr .teardown := by decide
theorem test_decode_illegal : decode (.cmdw 0) = .rejected .opcode ∧ decode (.cmdw 8) = .rejected .opcode ∧
    decode (.cmdw 0xFF) = .rejected .opcode ∧ decode (.cmdw 0x00000101) = .rejected .reservedBits ∧
    decode (.cmdw 0x80000001) = .rejected .reservedBits := by decide

/-- V15: `EncodeTxd` with every field distinct is the bytes 01 to 10 (hex), written out here. -/
theorem test_decode_txd : decode (.txd (ofBytes 128
    [0x01, 0x02, 0x03, 0x04, 0x05, 0x06, 0x07, 0x08, 0x09, 0x0A, 0x0B, 0x0C, 0x0D, 0x0E, 0x0F, 0x10])) =
    .instr (.txd ⟨0x0807060504030201, 0x0A09, 0x0B, 0x0C, 0x0D, 0x0E, 0x100F⟩) := by decide

/-- V16: the same bytes as a receive descriptor. -/
theorem test_decode_rxd : decode (.rxd (ofBytes 128
    [0x01, 0x02, 0x03, 0x04, 0x05, 0x06, 0x07, 0x08, 0x09, 0x0A, 0x0B, 0x0C, 0x0D, 0x0E, 0x0F, 0x10])) =
    .instr (.rxd ⟨0x0807060504030201, 0x0A09, 0x0C0B, 0x0D, 0x0E, 0x100F⟩) := by decide

/-- A word of each row in the opcode table's numbering; the `TXD` row's match is `CMD_EOP`, bit 88. -/
theorem test_table_words : decodeTableWord 32 1 = some .construct ∧ decodeTableWord 32 7 = some .teardown ∧
    decodeTableWord 128 (2 ^ 88) = some (.txd ⟨0, 0, 0, 1, 0, 0, 0⟩) ∧
    decodeTableWord 128 0 = some (.rxd ⟨0, 0, 0, 0, 0, 0⟩) ∧ decodeTableWord 32 8 = none := by decide

/-! ### A small machine -/

/-- `CAP = 8`, `BUF_SIZE = 64`, on a MAC whose selection 0 is 64 bytes (R8). -/
def tiny : Cfg := { Cfg.default with cap := 8, bufSize := 64, rxBatchMax := 8, rctlSizes := [(0, 64)] }

/-- A ring of eight slots: the array at `pa`, buffer `i` at `pa + 0x10000 + 0x1000 * i`. -/
def ringAt (va : Nat) (pa : Addr) (tail : Nat) (t : OwnTag) : Ring where
  ring := ⟨va, pa⟩
  buf := (List.range 8).map (fun i => ⟨va + 1 + i, pa + BitVec.ofNat 64 (0x10000 + 0x1000 * i)⟩)
  tail := tail
  own := List.replicate 8 t

/-- The live allocations of such a ring, one page each. -/
def allocsOf (r : Ring) : List Alloc := ⟨r.ring, 1⟩ :: r.buf.map (fun h => ⟨h, 1⟩)

/-- The bytes of such a ring's slots: 16 of each descriptor, `BUF_SIZE` of each buffer. -/
def slotsOf (r : Ring) : List Extent :=
  (List.range 8).map (fun i => ⟨r.ring.pa.toNat + 16 * i, 16⟩) ++ r.buf.map (fun h => ⟨h.pa.toNat, 64⟩)

/-- `Ready`, the sequencer at `q`; every slot tagged `t`, and held if `SW`; TX descriptor 0 has `DD`; `TDT = 0`, `RDT = 7`. -/
def standing (t : OwnTag) (q : Seq) : State :=
  { State.init tiny with
    life := .ready
    seq := q
    txq := ringAt 100 0x100000 0 t
    rxq := ringAt 200 0x200000 7 t
    mem := [(0x10000C, 1)]
    mac := { Mac.blank with rdt := 7 }
    held :=
      match t with
      | .sw => slotsOf (ringAt 100 0x100000 0 t) ++ slotsOf (ringAt 200 0x200000 7 t)
      | .hw => []
    allocs := allocsOf (ringAt 100 0x100000 0 t) ++ allocsOf (ringAt 200 0x200000 7 t) }

/-- With every slot RINGCTL's. -/
abbrev at' (q : Seq) : State := standing .sw q

/-- The MAC enabled, both rings programmed and handed to it: TX slot 0 holds a two-byte packet, a three-byte frame
waits. -/
def macReady : State :=
  { standing .hw .idle with
    mem := [(0x100002, 0x11), (0x100008, 2), (0x10000B, 9), (0x110000, 0xAA), (0x110001, 0xBB), (0x200002, 0x21)]
    mac := { Mac.blank with
      tctl := 2, tdba := 0x100000, tdlen := 128, tdt := 1
      rctl := 2, rdba := 0x200000, rdlen := 128, rdt := 7, wireIn := [[1, 2, 3]] } }

/-- The descriptors at its two heads. -/
def txHead : TxDesc := ⟨0x110000, 2, 0, 0x09, 0, 0, 0⟩
def rxHead : RxDesc := ⟨0x210000, 0, 0, 0, 0, 0⟩

/-- The next state, if there is one. -/
def nextOf (r : Result) : Option State :=
  match r with
  | .next s => some s
  | .fault _ => none
  | .refused _ => none

theorem test_tiny_valid : tiny.valid = true := by decide

/-! ### One step of each instruction -/

/-- R200: from `Uninitialized` the first micro-operation goes on to the first allocation. -/
theorem test_construct_gate :
    (nextOf (exec .construct { State.init tiny with seq := .construct 0 .gate })).map State.seq =
      some (.construct 1 (.alloc 0)) := by decide

/-- V18: `CAP = 4` is 64 bytes, `ConfigError` with 0x40. -/
theorem test_construct_configError :
    (nextOf (exec .construct { State.init { tiny with cap := 4 } with seq := .construct 9 .validate })).map
      (fun s => (s.resCode, s.resVal, s.life, s.fault)) = some (0x02, 0x40, .failed, 0x02) := by decide

/-- V21: no `DD` at slot 4: `Busy` with the slot. -/
theorem test_transmit_busy :
    (nextOf (exec .transmit (at' (.transmit 4 (.busyTest 4 0x00))))).map (fun s => (s.resCode, s.resVal, s.seq)) =
      some (0x01, 4, .idle) := by decide

/-- V25 with `CAP = 8`: at slot 7 the tail write is 0. -/
theorem test_transmit_wraps :
    (nextOf (exec .transmit (at' (.transmit 9 (.handOff 7 60))))).map (fun s => (s.pwq, s.txq.tail, s.tag .tx 7)) =
      some ([⟨0x3818, 0⟩], 0, .hw) := by decide

/-- V35: address 0 gives code 4 with the slot, the event logged, the tag left `SW`. -/
theorem test_receive_invalid :
    (nextOf (exec .receive (at' (.receive 9 (.addrTest 1 0))))).map (fun s => (s.resCode, s.resVal, s.log, s.life)) =
      some (0x04, 1, [.rxInvalid 1], .ready) := by decide

/-- V36: the bound is tested before the status read. -/
theorem test_receive_bound :
    (nextOf (exec .receive { at' (.receive 9 (.batch 2)) with rxN := 8 })).map State.seq =
      some (.receive 10 .ret) := by decide

/-- V40: the read returns the causes and clears them. -/
theorem test_serviceIrq_reads :
    (nextOf (exec .serviceIrq { at' (.serviceIrq 1 .read) with mac := { Mac.blank with icause := 0x80 } })).map
      (fun s => (s.seq, s.mac.icause)) = some (.serviceIrq 2 (.writeBack 0x80), 0) := by decide

/-- V41: the operand goes to `IMS`. -/
theorem test_irqEnable_writes :
    (nextOf (exec .irqEnable { at' (.irqEnable 1 .write) with arg0 := 0x80 })).map State.pwq =
      some [⟨0x00D0, 0x80⟩] := by decide

/-- V42: all ones to `IMC`. -/
theorem test_irqDisable_writes :
    (nextOf (exec .irqDisable (at' (.irqDisable 1 .write)))).map State.pwq = some [⟨0x00D8, 0xFFFFFFFF⟩] := by decide

/-- R220: the first free releases the TX ring's allocation. -/
theorem test_teardown_frees :
    (nextOf (exec .teardown (at' (.teardown 1 (.free 0))))).map
      (fun s => (s.allocs.length, s.live 0x100000 1, s.live 0x200000 1)) = some (17, false, true) := by decide

/-- R264: the two bytes go out, `DD` is written, the head moves. -/
theorem test_txd_sends :
    (nextOf (exec (.txd txHead) macReady)).map (fun s => (s.mac.wireOut, s.mem.read 0x10000C, s.mac.tdh)) =
      some ([[0xAA, 0xBB]], 1, 1) := by decide

/-- R264: without `CMD_EOP` the form is refused. -/
theorem test_txd_refused : exec (.txd { txHead with command := 0x08 }) macReady = .refused .txCommandForm := by rfl

/-- R266: the frame leaves the wire, the head moves, `length` is written 3. -/
theorem test_rxd_fills :
    (nextOf (exec (.rxd rxHead) macReady)).map (fun s => (s.mac.rdh, s.mac.wireIn)) = some (1, []) ∧
      (rxFields 3 macReady).head? = some (8, [3, 0]) := by decide

/-- R271: with no frame waiting nothing happens. -/
theorem test_rxd_waits :
    (nextOf (exec (.rxd rxHead) { macReady with mac := { macReady.mac with wireIn := [] } })).map
      (fun s => (s.mac.rdh, s.mem.read 0x200008)) = some (0, 0) := by decide

/-- R108(e), R310, R340: in `Failed`, and after a block reset, the MAC races with what RINGCTL left in a slot it did not
hand over, the first byte and the last; a handed-over slot is none, nor is the byte past a buffer. -/
theorem test_races_outlive_resets : racing { standing .sw .idle with life := .failed } 0x100000 = true ∧
    racing { standing .hw .idle with life := .failed } 0x100000 = false ∧
    racing (blockReset (standing .sw .idle)) 0x21703F = true ∧
    racing (blockReset (standing .sw .idle)) 0x217040 = false ∧
    racing (blockReset (standing .hw .idle)) 0x21703F = false := by decide

/-- R108(e): a MAC read of a held byte marks the run and draws a value; of another it is `Mem`'s, unmarked. -/
theorem test_race_marks :
    (macReadByte 0x10000C (standing .sw .idle)).2.raced = true ∧
      (macReadByte 0x10000C (standing .sw .idle)).2.draws = 1 ∧
      (macReadByte 0x10000C (standing .hw .idle)).1 = 1 ∧
      (macReadByte 0x10000C (standing .hw .idle)).2.raced = false := by decide

/-- R190: at the tail write slot 0 is handed over, its descriptor and its buffer; slot 1 stays RINGCTL's; and at the
test of `DD` slot 0 is taken, neither byte of its neighbours. -/
theorem test_transmit_hands_over :
    (nextOf (exec .transmit (at' (.transmit 12 (.handOff 0 60))))).map
      (fun s => (racing s 0x10000F, racing s 0x11003F, racing s 0x100010)) = some (false, false, true) ∧
    (nextOf (exec .transmit (standing .hw (.transmit 4 (.busyTest 0 0x01))))).map
      (fun s => (racing s 0x10000F, racing s 0x11003F, racing s 0x100010)) = some (true, true, false) := by decide

/-- R275, R108(e): what RINGCTL held of an earlier allocation is gone from a region granted again; the bytes it uses
of the new one are held, not the rest of the page. -/
theorem test_grant_holds :
    (nextOf (exec .construct { State.init tiny with
      seq := .construct 1 (.alloc 0), answers := [.grant ⟨1, 0x1000⟩], held := [⟨0x1100, 64⟩, ⟨0x5000, 64⟩] })).map
      (fun s => (racing s 0x107F, racing s 0x1080, racing s 0x1100, racing s 0x5000)) =
        some (true, false, false, true) := by decide

/-- `withFetchWord` from reset: the next step issues the command word. -/
theorem test_fetch_command :
    (nextOf (step (State.reset.withFetchWord 32 2))).map (fun s => (s.seq, s.cmdw)) =
      some (.transmit 0 .gate, 2) := by decide

/-! ### Witnesses: the hypotheses of each statement, met together -/

/-- TRANSMIT at its tail write, one step before the hand-over. -/
def midway : State := { at' (.transmit 12 (.handOff 0 60)) with cmdw := 2 }

/-- TRANSMIT about to store `length`: a guarded access, a store already buffered. -/
def storing : State :=
  { at' (.transmit 9 (.setLength 0 60)) with cmdw := 2, sb := [⟨0x100000, .eight, 0x110000⟩] }

/-- Every slot of the small machine is RINGCTL's. -/
theorem wit_tables (t : OwnTag) (q : Seq) : TableInv (standing t q) := by
  simp [TableInv, standing, ringAt, State.init, tiny, Mac.blank]

theorem wit_StepKeepsLifecycle : LifeInv midway ∧ ∃ t, step midway = .next t :=
  ⟨by unfold LifeInv; decide, _, rfl⟩

theorem wit_StepKeepsCommandWord : PortInv midway ∧ ∃ t, step midway = .next t :=
  ⟨(by intro i h; cases h; decide), _, rfl⟩

theorem wit_StepKeepsTablesAndConfiguration : TableInv midway ∧ ∃ t, step midway = .next t :=
  ⟨wit_tables .sw (.transmit 12 (.handOff 0 60)), _, rfl⟩

theorem wit_StepKeepsMemoryAndStoresWellFormed : MemInv storing ∧ AlignInv storing ∧ ∃ t, step storing = .next t :=
  ⟨by unfold MemInv; decide, by unfold AlignInv; decide, _, rfl⟩

theorem wit_StepKeepsOwnership : OwnedInv storing ∧ ∃ t, step storing = .next t :=
  ⟨⟨wit_tables .sw (.transmit 9 (.setLength 0 60)), show storing.tag .tx 0 = .sw by decide⟩, _, rfl⟩

/-- The fault latch can hold the code (the statement's second half is not empty). -/
theorem wit_StepKeepsOwnership_latched :
    OwnedInv { at' .idle with fault := 0x09, life := .failed } ∧
      ∃ t, step { at' .idle with fault := 0x09, life := .failed } = .next t ∧ t.fault = 0x09 :=
  ⟨⟨wit_tables .sw .idle, trivial⟩, _, rfl, by decide⟩

theorem wit_StepKeepsAllocationsDisjoint : AllocInv midway ∧ ∃ t, step midway = .next t :=
  ⟨by unfold AllocInv; decide, _, rfl⟩

theorem wit_StepKeepsDescriptorBeforeTail :
    FenceInv midway ∧ storesDone midway.seq ∧ ∃ t, step midway = .next t :=
  ⟨fun _ => rfl, trivial, _, rfl⟩

theorem wit_StepKeepsFlushBeforeReturn :
    FlushInv (at' (.irqEnable 3 .ret)) ∧ afterFlush (at' (.irqEnable 3 .ret)).seq ∧
      ∃ t, step (at' (.irqEnable 3 .ret)) = .next t :=
  ⟨fun _ => rfl, trivial, _, rfl⟩

theorem wit_tailsPrivate : tailsPrivate tiny := by
  refine ⟨by decide, ?_⟩
  rintro o (rfl | h)
  · decide
  · simp only [tiny, Cfg.default, List.mem_cons, List.not_mem_nil, or_false] at h
    rcases h with rfl | rfl | rfl | rfl | rfl <;> decide

theorem wit_TailInv (q : Seq) (h : lifeAt q .ready = true) (hm : ∀ n k, q ≠ .construct n (.mta k)) :
    TailInv (at' q) :=
  ⟨h, fun n k e => absurd e (hm n k), fun _ => rfl, fun _ => rfl⟩

theorem wit_StepKeepsShadowTails :
    tailsPrivate midway.cfg ∧ nextMove midway ≠ .macReset ∧ TailInv midway ∧ ∃ t, step midway = .next t :=
  ⟨wit_tailsPrivate, by decide, ⟨rfl, (by intro n k h; cases h), fun _ => rfl, fun _ => rfl⟩, _, rfl⟩

theorem wit_StepKeepsShadowTails_ready :
    TailInv (at' .idle) ∧ (at' .idle).life = .ready ∧ (at' .idle).pwq = [] :=
  ⟨wit_TailInv _ rfl (by intro n k h; cases h), rfl, rfl⟩

theorem wit_FieldWriteChangesThatFieldOnly : Memory.wf [(0x100008, 60), (0x10000C, 1)] = true := by decide

/-- The last and the first slot; `CAP` a power of two. -/
theorem wit_NextIndexIsTheLowBitsOfTheSum :
    tiny.cap = 2 ^ 3 ∧ 7 < tiny.cap ∧ 0 < tiny.cap ∧ 0 ≠ tiny.cap - 1 := by decide

theorem wit_BlockResetLeaves : { midway with sched := [.blockReset] }.sched = .blockReset :: [] := rfl

theorem wit_StepRuns_sequencer :
    { midway with sched := [.sequencer] }.sched = .sequencer :: [] ∧ midway.seq.instr = some .transmit ∧
      midway.sched = [] ∧ midway.sb = [] ∧ midway.pwq = [] := by decide

theorem wit_StepRuns_issue :
    { at' .idle with sched := [.issue 3 0 []] }.sched = .issue 3 0 [] :: [] ∧ (at' .idle).seq = .idle ∧
      decode (.cmdw 3) = .instr .receive := by decide

theorem wit_StepRuns_macTx :
    { macReady with sched := [.macTx] }.sched = .macTx :: [] ∧ macTxEnabled macReady = true ∧
      (txHeadPa macReady.mac).toNat + 16 ≤ 2 ^ 64 ∧ macReady.live (txHeadPa macReady.mac).toNat 16 = true ∧
      Unraced macReady (txHeadPa macReady.mac).toNat 16 ∧
      decode (.txd (imageAt macReady.mem (txHeadPa macReady.mac).toNat)) = .instr (.txd txHead) := by
  unfold Unraced
  decide

theorem wit_StepRuns_macRx :
    { macReady with sched := [.macRx] }.sched = .macRx :: [] ∧ macRxEnabled macReady = true ∧
      (waitingFrame macReady).isSome = true ∧
      (rxHeadPa macReady.mac).toNat + 16 ≤ 2 ^ 64 ∧ macReady.live (rxHeadPa macReady.mac).toNat 16 = true ∧
      Unraced macReady (rxHeadPa macReady.mac).toNat 16 ∧
      decode (.rxd (imageAt macReady.mem (rxHeadPa macReady.mac).toNat)) = .instr (.rxd rxHead) := by
  unfold Unraced
  decide

/-- The lowest and the highest illegal opcode, and a reserved bit. -/
theorem wit_IllegalCommandRecordsTheWord :
    { at' .idle with sched := [.issue 8 0 []] }.sched = .issue 8 0 [] :: [] ∧ (at' .idle).seq = .idle ∧
      decode (.cmdw 8) = .rejected .opcode ∧ decode (.cmdw 0xFF) = .rejected .opcode ∧
      decode (.cmdw 0x107) = .rejected .reservedBits := by decide

theorem wit_IssueStartsTheCommand :
    (at' .idle).seq = .idle ∧ midway.seq ≠ .idle ∧ midway.seq.instr ≠ some .receive := by decide

/-- A frame of exactly `BUF_SIZE` bytes and one a byte longer. -/
theorem wit_HostAndAllocatorMoves :
    (List.replicate 64 (0 : Byte)).length ≤ tiny.bufSize ∧ tiny.bufSize < (List.replicate 65 (0 : Byte)).length ∧
      { midway with sched := [.issue 1 0 []] }.sched = .issue 1 0 [] :: [] ∧ midway.seq ≠ .idle ∧
      { midway with sched := [.takePacket] }.sched = .takePacket :: [] ∧
      { midway with sched := [.takeLog] }.sched = .takeLog :: [] ∧
      { midway with sched := [.dropFrame 0] }.sched = .dropFrame 0 :: [] ∧
      { midway with sched := [.answer .fail] }.sched = .answer .fail :: [] := by decide

theorem wit_WrongStateRecordsLife :
    (at' (.construct 0 .gate)).seq = .construct 0 .gate ∧ (at' (.construct 0 .gate)).life ≠ .uninitialized ∧
      { State.init tiny with seq := .transmit 0 .gate }.life ≠ .ready ∧
      { at' (.teardown 0 .gate) with life := .failed }.life ≠ .ready := by decide

theorem wit_FatalFaultLatches :
    codeFatal .allocFailure = true ∧ { at' .idle with life := .failed }.seq = .idle ∧
      { at' .idle with life := .failed }.life = .failed := by decide

theorem wit_FatalFaultLatches_reset :
    LifeInv { at' .idle with life := .failed, fault := 3, sched := [.blockReset] } ∧
      ∃ t, step { at' .idle with life := .failed, fault := 3, sched := [.blockReset] } = .next t ∧
        t.life ≠ .failed :=
  ⟨by unfold LifeInv; decide, _, rfl, by decide⟩

/-- A buffered store and a posted write of a named register, to be drained in `Failed`. -/
theorem wit_FatalFaultLatches_draining :
    { storing with life := .failed, sched := [.drainStore 0] }.sb = ⟨0x100000, .eight, 0x110000⟩ :: [] ∧
      { midway with life := .failed, pwq := [⟨0x3818, 1⟩], sched := [.drainPosted] }.pwq = ⟨0x3818, 1⟩ :: [] ∧
      regAt midway.cfg 0x3818 = some .tdt := by decide

/-- 64 bytes is no multiple of 128; 24 slots (384 bytes) is no power of two. -/
theorem wit_FatalFaults_config : 4 * 16 % 128 ≠ 0 ∧ 24 * 16 % 128 = 0 ∧ ∀ w, 24 ≠ 2 ^ w := by
  refine ⟨by decide, by decide, ?_⟩
  intro w h
  by_cases hw : w < 5
  · interval_cases w <;> simp at h
  · have := Nat.pow_le_pow_right (n := 2) (by decide) (Nat.le_of_not_lt hw)
    omega

/-- A misaligned offset; the first offset past the window (V12) and the last in it. -/
theorem wit_FatalFaults_register :
    (0x0002 : Word).toNat % 4 ≠ 0 ∧ tiny.regCount ≤ (0x00020000 : Word).toNat / 4 ∧
      regInRange tiny 0x0001FFFC = true := by decide

/-- The tail register at `CAP` itself; an answer that fails. -/
theorem wit_FatalFaults_index :
    tiny.cap ≤ (8 : Word).toNat ∧ (at' (.transmit 2 (.index 8))).seq = .transmit 2 (.index 8) ∧
      { at' (.construct 6 (.alloc 5)) with answers := [.fail] }.answers = .fail :: [] := by decide

theorem wit_GuardRaisesOwnershipViolation : (standing .hw .idle).tag .rx 7 = .hw ∧ (at' .idle).tag .tx 8 = .hw := by
  decide

theorem wit_StoresGoOnlyToOwnedSlots :
    ∃ t, exec .transmit storing = .next t ∧ t.sb = storing.sb ++ [⟨0x100008, .two, 60⟩] :=
  ⟨_, rfl, by decide⟩

theorem wit_DrainKeepsWhatRingctlSees :
    MemInv storing ∧ ∀ e ∈ storing.sb, ¬ (e.pa.toNat ≤ 0x100008 ∧ 0x100008 < e.pa.toNat + e.n.bytes) :=
  ⟨by unfold MemInv; decide, by decide⟩

theorem wit_StoreFenceHoldsUntilDrained : midway.sb = [] ∧ storing.sb = ⟨0x100000, .eight, 0x110000⟩ :: [] := by
  decide

/-- The first and the last offset of the window, a full and an empty queue. -/
theorem wit_RegisterReadsWaitForPostedWrites :
    regInRange tiny 0 = true ∧ regInRange tiny 0x0001FFFC = true ∧ { midway with pwq := [⟨0x2818, 3⟩] }.pwq ≠ [] ∧
      midway.pwq = [] ∧ regAt tiny 0x3818 = some .tdt ∧ tiny.valid = true := by decide

theorem wit_MacNeverSeesStoreBuffer : (∃ t, macTxStep macReady = .next t) ∧ ∃ t, macRxStep macReady = .next t :=
  ⟨⟨_, rfl⟩, _, rfl⟩

/-- The last byte of a descriptor RINGCTL holds, and the first past the ring, which it does not. -/
theorem wit_MacNeverSeesStoreBuffer_race :
    racing (at' .idle) 0x10007F = true ∧ racing (at' .idle) 0x100080 = false ∧
      { at' .idle with sched := [.blockReset] }.sched = .blockReset :: [] := by decide

theorem wit_InterruptRegistersBehave :
    tiny.valid = true ∧ { midway with pwq := [⟨tiny.offIcr, 0xFFFFFFFF⟩] }.pwq = ⟨tiny.offIcr, 0xFFFFFFFF⟩ :: [] ∧
      { midway with pwq := [⟨tiny.offIcs, 1⟩] }.pwq = ⟨tiny.offIcs, 1⟩ :: [] ∧
      { midway with pwq := [⟨tiny.offIms, 1⟩] }.pwq = ⟨tiny.offIms, 1⟩ :: [] ∧
      { midway with pwq := [⟨tiny.offImc, 1⟩] }.pwq = ⟨tiny.offImc, 1⟩ :: [] := by decide

/-- A `CTL` value with `RST`, and one with every other bit. -/
theorem wit_CtlWriteResetsTheDevice :
    tiny.valid = true ∧ { midway with pwq := [⟨tiny.offCtl, 0x04000000⟩] }.pwq = ⟨tiny.offCtl, 0x04000000⟩ :: [] ∧
      (0x04000000 : Word) &&& tiny.ctlRst ≠ 0 ∧ (0xFBFFFFFF : Word) &&& tiny.ctlRst = 0 := by decide

/-- The first and the last entry of the multicast table among them. -/
theorem wit_RingRegistersBehave :
    tiny.valid = true ∧ { midway with pwq := [⟨tiny.offTdt, 7⟩] }.pwq = ⟨tiny.offTdt, 7⟩ :: [] ∧ 127 < 128 ∧
      { midway with pwq := [⟨tiny.offTdbah, 7⟩] }.pwq = ⟨tiny.offTdbah, 7⟩ :: [] ∧
      { midway with pwq := [⟨tiny.offRdbal, 0xFFFFFFFF⟩] }.pwq = ⟨tiny.offRdbal, 0xFFFFFFFF⟩ :: [] ∧ midway.pwq = [] ∧
      { midway with pwq := [⟨tiny.offMta + BitVec.ofNat 32 (4 * 127), 0⟩] }.pwq =
        ⟨tiny.offMta + BitVec.ofNat 32 (4 * 127), 0⟩ :: [] ∧
      (tiny.offMta + BitVec.ofNat 32 (4 * 127) = 0x53FC) := by decide

/-- `Uninitialized` at the gate; the first, a TX buffer's, the RX ring's and the last allocation of `CAP = 8`. -/
theorem wit_ConstructAllocates :
    { State.init tiny with seq := .construct 0 .gate }.life = .uninitialized ∧
    { State.init tiny with answers := [.grant ⟨1, 0x1000⟩] }.answers = .grant ⟨1, 0x1000⟩ :: [] ∧
      contractOk (State.init tiny) ⟨1, 0x1000⟩ (allocPages tiny 0) = true ∧
      contractOk (State.init tiny) ⟨1, 0xFFFFFFFFFFFFF000⟩ (allocPages tiny 17) = true ∧
      0 < 8 ∧ 8 ≤ tiny.cap ∧ 9 = tiny.cap + 1 ∧ tiny.cap + 1 < 17 := by decide

/-- `CAP = 8` is 128 bytes and `2 ^ 3`. -/
theorem wit_ConstructResetsTheMac :
    tiny.valid = true ∧ (at' (.construct 20 .readCtl)).pwq = [] ∧ (at' (.construct 23 .resetFence)).sb = [] ∧
      tiny.cap * 16 % 128 = 0 ∧ tiny.cap = 2 ^ 3 := by decide

/-- The last slot: its descriptor is owned, aligned, live and ends below `2 ^ 64`; the sixth register. -/
theorem wit_ConstructProgramsTx :
    tiny.valid = true ∧ (at' .idle).tag .tx 7 = .sw ∧ (at' .idle).txq.ring.pa.toNat % 16 = 0 ∧
      (at' .idle).live ((at' .idle).txq.ring.pa + BitVec.ofNat 64 (16 * 7)).toNat 16 = true ∧
      ((at' .idle).txq.ring.pa + BitVec.ofNat 64 (16 * 7)).toNat + 16 ≤ 2 ^ 64 ∧
      (txRegWrites (at' .idle))[5]? = some (tiny.offTdh, 0) ∧ (at' .idle).sb = [] := by decide

theorem wit_ConstructProgramsRx :
    tiny.valid = true ∧ (at' .idle).tag .rx 7 = .sw ∧ (at' .idle).rxq.ring.pa.toNat % 16 = 0 ∧
      (at' .idle).live ((at' .idle).rxq.ring.pa + BitVec.ofNat 64 (16 * 7)).toNat 8 = true ∧
      (rxRegWrites (at' .idle))[4]? = some (tiny.offRdh, 0) ∧ (at' .idle).sb = [] := by decide

/-- The last multicast entry and the last timing register. -/
theorem wit_ConstructEndsReady :
    tiny.valid = true ∧ 127 < 128 ∧ tiny.irqTimingRegs[4]? = some 0x00C4 ∧ (at' .idle).pwq = [] := by decide

theorem wit_ConstructFrame : ∃ t, exec .construct (at' (.construct 30 (.txAddr 7))) = .next t ∧ t.seq ≠ .idle :=
  ⟨_, rfl, by decide⟩

/-- A granted allocation, and a byte next to it on either side. -/
theorem wit_ConstructFrame_grant :
    { State.init tiny with seq := .construct 1 (.alloc 0), answers := [.grant ⟨1, 0x1000⟩] }.seq =
        .construct 1 (.alloc 0) ∧
      0xFFF < (0x1000 : Addr).toNat ∧ (0x1000 : Addr).toNat + allocPages tiny 0 * tiny.pageSize ≤ 0x2000 ∧
      ∃ t, exec .construct
        { State.init tiny with seq := .construct 1 (.alloc 0), answers := [.grant ⟨1, 0x1000⟩] } = .next t :=
  ⟨rfl, by decide, by decide, _, rfl⟩

theorem wit_TeardownFreesAndReturns :
    (at' (.teardown 0 .gate)).life = .ready ∧ (at' (.teardown 19 .ret)).seq = .teardown 19 .ret ∧
      ∃ t, exec .teardown (at' (.teardown 18 (.free 17))) = .next t :=
  ⟨rfl, rfl, _, rfl⟩

/-- The last index below `CAP`; a status without and one with `DD`. -/
theorem wit_TransmitTakesTheSlotOrIsBusy :
    tiny.valid = true ∧ (at' .idle).life = .ready ∧ (at' .idle).pwq = [] ∧ (7 : Word).toNat < tiny.cap ∧
      (at' .idle).live ((at' .idle).txq.ring.pa + BitVec.ofNat 64 (16 * 7 + 12)).toNat 1 = true ∧
      (0xFE : Byte) &&& tiny.staDd = 0 ∧ (0x01 : Byte) &&& tiny.staDd ≠ 0 := by decide

/-- A packet of exactly `BUF_SIZE` bytes, one a byte longer, one shorter than `arg0`; the last buffer byte. -/
theorem wit_TransmitTruncatesAndCopies :
    (64 : Word).toNat ≤ (List.replicate 64 (0 : Byte)).length ∧ (64 : Word).toNat ≤ tiny.bufSize ∧
      (65 : Word).toNat ≤ (List.replicate 65 (0 : Byte)).length ∧ tiny.bufSize < (65 : Word).toNat ∧
      (List.replicate 64 (0 : Byte)).length < (65 : Word).toNat ∧
      (List.replicate 64 (5 : Byte))[63]? = some 5 ∧ (at' .idle).tag .tx 7 = .sw ∧ 63 < tiny.bufSize ∧
      (at' .idle).live (((at' .idle).txq.buf.getD 7 ⟨0, 0⟩).pa + BitVec.ofNat 64 63).toNat 1 = true := by decide

theorem wit_TransmitFillsAndHandsOff :
    tiny.valid = true ∧ (at' .idle).tag .tx 7 = .sw ∧ (at' .idle).txq.ring.pa.toNat % 16 = 0 ∧
      (at' .idle).live ((at' .idle).txq.ring.pa + BitVec.ofNat 64 (16 * 7)).toNat 16 = true ∧
      ((at' .idle).txq.ring.pa + BitVec.ofNat 64 (16 * 7)).toNat + 16 ≤ 2 ^ 64 ∧
      (at' .idle).sb = [] ∧ (at' .idle).pwq = [] := by decide

theorem wit_TransmitFrame : tiny.valid = true ∧ ∃ t, exec .transmit storing = .next t ∧ t.seq ≠ .idle :=
  ⟨by decide, _, rfl, by decide⟩

/-- The last index below `CAP`; a nonzero address. -/
theorem wit_ReceiveScansReadySlots :
    tiny.valid = true ∧ (at' .idle).life = .ready ∧ (at' .idle).pwq = [] ∧ (7 : Word).toNat < tiny.cap ∧
      (at' .idle).live ((at' .idle).rxq.ring.pa + BitVec.ofNat 64 (16 * 7 + 12)).toNat 1 = true ∧
      (at' .idle).tag .rx 7 = .sw ∧ (at' .idle).rxq.ring.pa.toNat % 16 = 0 ∧
      (at' .idle).live ((at' .idle).rxq.ring.pa + BitVec.ofNat 64 (16 * 7)).toNat 8 = true ∧
      (1 : Addr) ≠ 0 := by decide

/-- The last byte of the scrub and of the buffer. -/
theorem wit_ReceiveDeliversAndScrubs :
    (at' .idle).tag .rx 7 = .sw ∧ (at' .idle).rxq.ring.pa.toNat % 16 = 0 ∧
      (at' .idle).live ((at' .idle).rxq.ring.pa + BitVec.ofNat 64 (16 * 7)).toNat 16 = true ∧
      ((at' .idle).rxq.ring.pa + BitVec.ofNat 64 (16 * 7)).toNat + 16 ≤ 2 ^ 64 ∧
      (List.replicate 63 (0 : Byte)).length < tiny.bufSize ∧ 63 < tiny.bufSize ∧
      (at' .idle).live (((at' .idle).rxq.buf.getD 7 ⟨0, 0⟩).pa + BitVec.ofNat 64 63).toNat 1 = true := by decide

theorem wit_ReceiveRearmsAndReturns : tiny.valid = true ∧ (at' (.receive 90 (.fence 0))).sb = [] := by decide

theorem wit_ReceiveFrame :
    tiny.valid = true ∧ ∃ t, exec .receive (at' (.receive 9 (.scrub 0 63))) = .next t ∧ t.seq ≠ .idle :=
  ⟨by decide, _, rfl, by decide⟩

theorem wit_ServiceIrqReturnsTheCauses :
    tiny.valid = true ∧ (at' (.serviceIrq 0 .gate)).life = .ready ∧ (at' (.serviceIrq 1 .read)).pwq = [] := by decide

theorem wit_IrqMaskCommandsWriteAndFlush :
    tiny.valid = true ∧ (at' (.irqEnable 0 .gate)).life = .ready ∧ (at' (.irqDisable 2 .flush)).pwq = [] := by decide

theorem wit_InterruptCommandsLeaveTheRings :
    tailsPrivate tiny ∧ ∃ t, exec .irqDisable (at' (.irqDisable 1 .write)) = .next t ∧ t.pwq ≠ [] :=
  ⟨wit_tailsPrivate, _, rfl, by decide⟩

/-- With `RS` and without; a descriptor whose buffer is live. -/
theorem wit_TxDescriptorIsConsumed :
    macTxEnabled macReady = true ∧ txFormOk tiny txHead.command = true ∧
      txHead.bufferAddress.toNat + txHead.length.toNat ≤ 2 ^ 64 ∧
      macReady.live txHead.bufferAddress.toNat txHead.length.toNat = true ∧
      (txHeadPa macReady.mac).toNat + 16 ≤ 2 ^ 64 ∧ macReady.live (txHeadPa macReady.mac).toNat 16 = true ∧
      Unraced macReady txHead.bufferAddress.toNat txHead.length.toNat ∧
      Unraced macReady (txHeadPa macReady.mac).toNat 16 ∧ MemInv macReady ∧
      txHead.command &&& tiny.cmdRs ≠ 0 ∧ (0x01 : Byte) &&& tiny.cmdRs = 0 ∧ 16 ≤ macReady.mac.tdlen.toNat := by
  unfold Unraced MemInv
  decide

/-- The transmitter off; an empty ring; a bit outside the form; no `EOP`. -/
theorem wit_TxDescriptorRefusedOrIdle :
    { Mac.blank with tctl := 0 }.tctl &&& tiny.tctlEn = 0 ∧ macReady.mac.tctl &&& tiny.tctlEn ≠ 0 ∧
      macReady.mac.tdh ≠ macReady.mac.tdt ∧ (0x11 : Byte) &&& ~~~(tiny.cmdRs ||| tiny.cmdEop) ≠ 0 ∧
      (0x08 : Byte) &&& tiny.cmdEop = 0 := by decide

theorem wit_RxDescriptorIsFilled :
    macRxEnabled macReady = true ∧ macReady.mac.wireIn = [1, 2, 3] :: [] ∧ ([1, 2, 3] : List Byte).length ≤ rxLimit tiny macReady.mac.rctl ∧
      tiny.bufSize ≤ 65535 ∧ rxHead.bufferAddress.toNat + 3 ≤ 2 ^ 64 ∧
      macReady.live rxHead.bufferAddress.toNat 3 = true ∧
      (rxHeadPa macReady.mac).toNat + 16 ≤ 2 ^ 64 ∧ macReady.live (rxHeadPa macReady.mac).toNat 16 = true ∧
      Unraced macReady rxHead.bufferAddress.toNat 3 ∧ Unraced macReady (rxHeadPa macReady.mac).toNat 16 ∧
      MemInv macReady ∧ (rxHeadPa macReady.mac).toNat + 16 ≤ rxHead.bufferAddress.toNat ∧
      tiny.valid = true ∧ macReady.mac.rctl &&& tiny.rctlBsize = tiny.rctlInit &&& tiny.rctlBsize ∧
      16 ≤ macReady.mac.rdlen.toNat := by
  unfold Unraced MemInv
  decide

theorem wit_MacStepsFrame :
    (∃ t, exec (.txd txHead) macReady = .next t) ∧ (∃ t, exec (.rxd rxHead) macReady = .next t) ∧
      waitingFrame macReady = some ([1, 2, 3], []) :=
  ⟨⟨_, rfl⟩, ⟨_, rfl⟩, by decide⟩

theorem wit_CommandRuns :
    tiny.valid = true ∧ (at' .idle).life = .ready ∧ (at' .idle).seq = .idle ∧ (at' .idle).sb = [] ∧
      (at' .idle).pwq = [] ∧ { at' .idle with sched := [.issue 4 0 []] }.sched = [.issue 4 0 []] ∧
      tiny.irqOffReg = tiny.offImc ∧ tiny.irqOffVal = 0xFFFFFFFF := by decide

/-- `RDT = 7`, so the scan wraps to slot 0, which has no `DD`. -/
theorem wit_EmptyReceiveRuns :
    0 < tiny.rxBatchMax ∧ (at' .idle).mac.rdt.toNat < tiny.cap ∧ 0 = ((at' .idle).mac.rdt.toNat + 1) % tiny.cap ∧
      (at' .idle).live ((at' .idle).rxq.ring.pa + BitVec.ofNat 64 (16 * 0 + 12)).toNat 1 = true ∧
      (at' .idle).mem.read ((at' .idle).rxq.ring.pa + BitVec.ofNat 64 (16 * 0 + 12)).toNat &&& tiny.staDd = 0 := by
  decide

/-- A packet of `BUF_SIZE` bytes at slot 0, with the premises of `wit_CommandRuns`. -/
theorem wit_TransmitRuns :
    (List.replicate 64 (0 : Byte)).length = (64 : Word).toNat ∧ 0 = (at' .idle).mac.tdt.toNat ∧ 0 < tiny.cap ∧
      0 < (at' .idle).txq.own.length ∧ 64 = min (64 : Word).toNat tiny.bufSize ∧ MemInv (at' .idle) ∧
      (at' .idle).txq.ring.pa.toNat % 16 = 0 ∧ (at' .idle).txq.ring.pa.toNat + 16 * tiny.cap ≤ 2 ^ 64 ∧
      (at' .idle).live ((at' .idle).txq.ring.pa.toNat + 16 * 0) 16 = true ∧
      (bufPa (at' .idle) .tx 0).toNat + tiny.bufSize ≤ 2 ^ 64 ∧
      (at' .idle).live (bufPa (at' .idle) .tx 0).toNat tiny.bufSize = true ∧
      (at' .idle).txq.ring.pa.toNat + 16 * 0 + 16 ≤ (bufPa (at' .idle) .tx 0).toNat ∧
      (at' .idle).mem.read ((at' .idle).txq.ring.pa.toNat + 16 * 0 + 12) &&& tiny.staDd ≠ 0 := by
  unfold MemInv
  decide

end Sys2Proof.Tests
end

section
/-! ALLOCATION AND RELEASE (R202, R220, R275, R276): what each allocation of CONSTRUCT's order is, what CONSTRUCT does
with an answer of the allocator, and what each micro-operation of TEARDOWN answers. -/

namespace Sys2Proof.Machine

/-! ### The order of R202: sizes and handles -/

/-- The two rings take `RING_PAGES` (R9). -/
theorem allocPages_of_ring {c : Cfg} {k : Nat} (hk : k = 0 ∨ k = c.cap + 1) :
    allocPages c k = (c.cap * 16 + (c.pageSize - 1)) / c.pageSize := by
  simp only [allocPages, if_pos hk, ringPages]

/-- Every other allocation is a buffer and takes `BUF_PAGES` (R9). -/
theorem allocPages_of_buf {c : Cfg} {k : Nat} (h0 : k ≠ 0) (h1 : k ≠ c.cap + 1) :
    allocPages c k = (c.bufSize + (c.pageSize - 1)) / c.pageSize := by
  simp only [allocPages, h0, h1, or_self, if_false, bufPages]

theorem allocHandle_zero (s : State) : allocHandle s 0 = s.txq.ring := rfl

theorem allocHandle_txBuf {s : State} {k : Nat} (h0 : 0 < k) (h1 : k ≤ s.cfg.cap) :
    allocHandle s k = s.txq.buf.getD (k - 1) ⟨0, 0⟩ := by
  simp only [allocHandle, Nat.ne_of_gt h0, if_false, if_pos h1]

theorem allocHandle_rxRing {s : State} {k : Nat} (hk : k = s.cfg.cap + 1) : allocHandle s k = s.rxq.ring := by
  simp [allocHandle, hk]

theorem allocHandle_rxBuf {s : State} {k : Nat} (hk : s.cfg.cap + 1 < k) :
    allocHandle s k = s.rxq.buf.getD (k - s.cfg.cap - 2) ⟨0, 0⟩ := by
  rw [allocHandle, if_neg (by omega), if_neg (by omega), if_neg (by omega)]

theorem setAllocHandle_zero (s : State) (h : Handle) :
    setAllocHandle s 0 h = { s with txq := { s.txq with ring := h } } := rfl

theorem setAllocHandle_txBuf {s : State} {k : Nat} (h : Handle) (h0 : 0 < k) (h1 : k ≤ s.cfg.cap) :
    setAllocHandle s k h = { s with txq := { s.txq with buf := s.txq.buf.set (k - 1) h } } := by
  simp only [setAllocHandle, Nat.ne_of_gt h0, if_false, if_pos h1]

theorem setAllocHandle_rxRing {s : State} {k : Nat} (h : Handle) (hk : k = s.cfg.cap + 1) :
    setAllocHandle s k h = { s with rxq := { s.rxq with ring := h } } := by
  simp [setAllocHandle, hk]

theorem setAllocHandle_rxBuf {s : State} {k : Nat} (h : Handle) (hk : s.cfg.cap + 1 < k) :
    setAllocHandle s k h = { s with rxq := { s.rxq with buf := s.rxq.buf.set (k - s.cfg.cap - 2) h } } := by
  rw [setAllocHandle, if_neg (by omega), if_neg (by omega), if_neg (by omega)]

/-- Where the handle goes depends on nothing but the configuration and the rings. -/
theorem setAllocHandle_txq_congr {s t : State} (hc : t.cfg = s.cfg) (ht : t.txq = s.txq) (k : Nat) (h : Handle) :
    (setAllocHandle t k h).txq = (setAllocHandle s k h).txq := by
  simp only [setAllocHandle, hc, ht, apply_ite State.txq]

theorem setAllocHandle_rxq_congr {s t : State} (hc : t.cfg = s.cfg) (hr : t.rxq = s.rxq) (k : Nat) (h : Handle) :
    (setAllocHandle t k h).rxq = (setAllocHandle s k h).rxq := by
  simp only [setAllocHandle, hc, hr, apply_ite State.rxq]

/-! ### CONSTRUCT's allocation -/

theorem exec_construct_at {s : State} {n : Nat} {p : ConstructPos} (h : s.seq = .construct n p) :
    exec .construct s = constructAt n p s := by
  simp only [exec, execConstruct, h]

/-- An answer at hand that meets the contract is taken (R275). -/
theorem allocate_of_granted {n pages : Nat} {k : Handle → State → Result} {s : State} {h : Handle}
    {rest : List AllocAnswer} (ha : s.answers = .grant h :: rest) (hc : contractOk s h pages = true) :
    allocate n pages k s = k h (State.grant { s with answers := rest } h pages) := by
  simp only [allocate, ha, hc, if_true]

/-- The state allocation `k` leaves behind, having taken the answer `h` (R202, R275). -/
def allocated (s : State) (k : Nat) (h : Handle) (rest : List AllocAnswer) : State :=
  keepAlloc (State.grant { s with answers := rest } h (allocPages s.cfg k)) k h

@[simp] theorem allocated_txq (s : State) (k : Nat) (h : Handle) (rest : List AllocAnswer) :
    (allocated s k h rest).txq = (setAllocHandle s k h).txq := by
  rw [allocated, keepAlloc_txq]
  apply setAllocHandle_txq_congr <;> rfl

@[simp] theorem allocated_rxq (s : State) (k : Nat) (h : Handle) (rest : List AllocAnswer) :
    (allocated s k h rest).rxq = (setAllocHandle s k h).rxq := by
  rw [allocated, keepAlloc_rxq]
  apply setAllocHandle_rxq_congr <;> rfl

theorem exec_construct_alloc {s : State} {n k : Nat} {h : Handle} {rest : List AllocAnswer}
    (hs : s.seq = .construct n (.alloc k)) (ha : s.answers = .grant h :: rest)
    (hc : contractOk s h (allocPages s.cfg k) = true) :
    exec .construct s =
      .next { allocated s k h rest with seq := .construct (n + 1) (afterAlloc s.cfg k) } := by
  rw [exec_construct_at hs, constructAt, allocate_of_granted ha hc]
  rfl

/-- RINGCTL holds what it uses of the granted region, and of what it held before only what lies outside it (log
entry 6). -/
theorem mem_allocated_held {s : State} {k : Nat} {h : Handle} {rest : List AllocAnswer} {e : Extent} :
    e ∈ (allocated s k h rest).held ↔ e ∈ allocExtents (allocated s k h rest) k ∨
      (e ∈ s.held ∧ (e.lo + e.len ≤ h.pa.toNat ∨
        h.pa.toNat + allocPages s.cfg k * s.cfg.pageSize ≤ e.lo)) := by
  have hext : allocExtents (allocated s k h rest) k = allocExtents
      (setAllocHandle (State.grant { s with answers := rest } h (allocPages s.cfg k)) k h) k :=
    allocExtents_congr (by simp [allocated]) rfl rfl k
  rw [hext, allocated, keepAlloc_held, mem_heldWith, or_comm]
  simp [apart]

/-! ### TEARDOWN -/

theorem exec_teardown_at {s : State} {n : Nat} {p : TeardownPos} (h : s.seq = .teardown n p) :
    exec .teardown s = teardownAt n p s := by
  simp only [exec, execTeardown, h]

/-- Where exec of TEARDOWN answers a next state: the issue, a micro-operation of TEARDOWN, or nothing while another
command runs. -/
theorem exec_teardown_next {s t : State} (h : exec .teardown s = .next t) :
    (s.seq = .idle ∧ t = { s with seq := .teardown 0 .gate }) ∨
    (∃ n p, s.seq = .teardown n p ∧ teardownAt n p s = .next t) ∨ t = s := by
  simp only [exec, execTeardown] at h
  split at h
  · exact .inl ⟨‹_›, proceed_next h⟩
  · exact .inr (.inl ⟨_, _, ‹_›, h⟩)
  all_goals exact .inr (.inr (Host.Outcome.next.inj h).symm)

/-- The state TEARDOWN's return leaves behind (R220): the rings forgotten, `OK(0)` in `Uninitialized`. -/
def tornDown (s : State) : State := State.finish { s.forgetRings with life := .uninitialized } .ok 0

/-- What a micro-operation of TEARDOWN can answer (R220, R307). -/
theorem teardownAt_next {n : Nat} {p : TeardownPos} {s t : State} (h : teardownAt n p s = .next t) :
    (p = .gate ∧ s.life = .ready ∧ t = { s with seq := .teardown (n + 1) (.free 0) }) ∨
    (p = .gate ∧ s.life ≠ .ready ∧ t = s.raise .wrongState (lifeWord s.life)) ∨
    (∃ k, p = .free k ∧ t = { s.freeAlloc (allocHandle s k).va (allocPages s.cfg k) with
      seq := .teardown (n + 1) (afterFree s.cfg k) }) ∨
    (p = .ret ∧ t = tornDown s) := by
  cases p with
  | gate =>
    rcases gate_next h with ⟨hl, h⟩ | ⟨hl, h⟩
    · exact .inl ⟨rfl, hl, proceed_next h⟩
    · exact .inr (.inl ⟨rfl, hl, h⟩)
  | free k => exact .inr (.inr (.inl ⟨k, rfl, proceed_next h⟩))
  | ret => exact .inr (.inr (.inr ⟨rfl, ret_next h⟩))

/-- Settles O35: the gate and the page counts are the definitions' own; the state after allocation `k` is `allocated`,
read field by field, the handle's place by the four cases of R202's order. -/
theorem constructAllocates : Obligations.ConstructAllocates := by
  refine ⟨fun s n hs hl => ?_, fun c k => ⟨allocPages_of_ring, allocPages_of_buf⟩,
    fun s n k h rest hs ha hc => ?_⟩
  · rw [exec_construct_at hs, constructAt, gate_of_life hl]
    rfl
  · refine ⟨_, exec_construct_alloc hs ha hc, ?_⟩
    refine ⟨by simp [allocated], by simp [allocated], fun a h1 h2 => ?_, fun a h1 => ?_, ?_, ?_, ?_, ?_, rfl,
      by simp [allocated], by simp [allocated], by simp [allocated], by simp [allocated],
      fun e => mem_allocated_held⟩
    · simpa [allocated] using Memory.read_zeroRange_inside s.mem ⟨h1, h2⟩
    · simpa [allocated] using Memory.read_zeroRange_outside s.mem h1
    · rintro rfl
      simp [setAllocHandle_zero]
    · intro h0 h1
      simp [setAllocHandle_txBuf h h0 h1]
    · intro hk
      simp [setAllocHandle_rxRing h hk]
    · intro hk
      simp [setAllocHandle_rxBuf h hk]

/-- Settles O41: the handles and page counts follow R202's order; the three positions' meanings are read off
`teardownAt`, and the frame off the inversion of every next state. -/
theorem teardownFreesAndReturns : Obligations.TeardownFreesAndReturns := by
  refine ⟨fun s k => ⟨?_, allocHandle_txBuf, allocHandle_rxRing, allocHandle_rxBuf, allocPages_of_ring,
    allocPages_of_buf⟩, fun s n k => ⟨fun hs hl => ?_, fun hs => ?_, fun hs => ?_, fun t h => ?_⟩⟩
  · rintro rfl
    exact allocHandle_zero s
  · rw [exec_teardown_at hs, teardownAt, gate_of_life hl]
    rfl
  · rw [exec_teardown_at hs]
    rfl
  · exact ⟨tornDown s, exec_teardown_at hs, rfl, rfl, rfl, rfl⟩
  · rcases exec_teardown_next h with ⟨_, rfl⟩ | ⟨n, p, _, h⟩ | rfl
    · simp
    · rcases teardownAt_next h with ⟨_, _, rfl⟩ | ⟨_, _, rfl⟩ | ⟨k, _, rfl⟩ | ⟨_, rfl⟩
      · simp
      · simp [codeFatal]
      · simp
      · simp [tornDown]
    · simp

end Sys2Proof.Machine
end

section
/-! MAC.RX (R263, R266, R270): the MAC's writes where nothing races (R108(e)), what the fill of one slot leaves in
each byte of `Mem` and in the MAC's registers, and when the step is made. -/

namespace Sys2Proof.Machine

/-! ### The MAC's writes to bytes RINGCTL does not hold -/

/-- Whether an access races is read off what RINGCTL holds. -/
theorem unraced_congr {s t : State} {a n : Nat} (ht : t.held = s.held) (hu : Unraced s a n) : Unraced t a n := by
  simpa only [Unraced, racing, ht] using hu

/-- Part of an unraced stretch is unraced. -/
theorem unraced_part {s : State} {a n j m : Nat} (hu : Unraced s a n) (hj : j + m ≤ n) : Unraced s (a + j) m := by
  intro k hk
  rw [Nat.add_assoc]
  exact hu (j + k) (by omega)

theorem macWriteBytes_of_unraced {a : Nat} {bs : List Byte} {s : State} (hu : Unraced s a bs.length) :
    macWriteBytes a bs s = { s with mem := s.mem.writeBytes a bs } := by
  induction bs generalizing a s with
  | nil => rfl
  | cons b rest ih =>
    have hb : racing s a = false := hu 0 (by simp)
    have hrest : Unraced s (a + 1) rest.length := unraced_part hu (by simp [Nat.add_comm])
    rw [macWriteBytes, macWriteByte_of_not_racing hb, ih, Memory.writeBytes]
    exact unraced_congr (s := s) rfl hrest

theorem macWriteBytes_read_inside {a j : Nat} {bs : List Byte} {s : State} (hu : Unraced s a bs.length)
    (hm : Memory.wf s.mem = true) (hj : j < bs.length) : (macWriteBytes a bs s).mem.read (a + j) = bs[j] := by
  rw [macWriteBytes_of_unraced hu]
  exact Memory.read_writeBytes_inside hm a bs hj

theorem macWriteBytes_singleton_read {a : Nat} {b : Byte} {s : State} (hu : Unraced s a 1)
    (hm : Memory.wf s.mem = true) : (macWriteBytes a [b] s).mem.read a = b :=
  macWriteBytes_read_inside (bs := [b]) hu hm Nat.zero_lt_one

theorem macWriteBytes_raced {a : Nat} {bs : List Byte} {s : State} (hu : Unraced s a bs.length) :
    (macWriteBytes a bs s).raced = s.raced := by
  rw [macWriteBytes_of_unraced hu]

/-- Outside the bytes of the fields, `Mem` is unchanged. -/
theorem macWriteFields_read_outside {pa x : Nat} {fs : List (Nat × List Byte)} {s : State}
    (h : ∀ w ∈ fs, x < pa + w.1 ∨ pa + w.1 + w.2.length ≤ x) :
    (macWriteFields pa fs s).mem.read x = s.mem.read x := by
  induction fs generalizing s with
  | nil => rfl
  | cons w rest ih =>
    obtain ⟨hw, hrest⟩ := List.forall_mem_cons.1 h
    rw [macWriteFields, ih hrest, macWriteBytes_read_outside hw]

theorem macWriteFields_raced {pa : Nat} {fs : List (Nat × List Byte)} {s : State}
    (h : ∀ w ∈ fs, Unraced s (pa + w.1) w.2.length) : (macWriteFields pa fs s).raced = s.raced := by
  induction fs generalizing s with
  | nil => rfl
  | cons w rest ih =>
    obtain ⟨hw, hrest⟩ := List.forall_mem_cons.1 h
    rw [macWriteFields, ih fun v hv => unraced_congr (macWriteBytes_held _ _ _) (hrest v hv), macWriteBytes_raced hw]

/-! ### The fields of the write-back -/

theorem getElem_bytesOf {w : Nat} (n : Nat) (v : BitVec w) {j : Nat} (hj : j < (bytesOf n v).length) :
    (bytesOf n v)[j] = byteOf v j := by
  simp [bytesOf]

/-- A 16-bit value from its two bytes (R84). -/
theorem toNat_eq_bytes (v : Half) : (byteOf v 0).toNat + 256 * (byteOf v 1).toNat = v.toNat := by
  have := v.isLt
  simp only [byteOf, BitVec.extractLsb'_toNat, Nat.shiftRight_eq_div_pow]
  omega

/-- The fields beside `status` lie in the descriptor's upper 8 bytes. -/
theorem rxFields_within {n : Nat} {s : State} : ∀ w ∈ rxFields n s, 8 ≤ w.1 ∧ w.1 + w.2.length ≤ 16 := by
  simp [rxFields, bytesOf, fieldLength, fieldChecksum, fieldErrors, fieldSpecial]

/-- `DD` is set, whatever the other bits are. -/
theorem rxStatus_dd (s : State) : rxStatus s &&& s.cfg.staDd = s.cfg.staDd := by
  ext i
  simp +contextual [rxStatus]

/-- The head moves around a ring that has a descriptor (R264, R266). -/
theorem wrapHead_toNat {h len x : Word} (hl : 16 ≤ len.toNat) :
    (wrapHead h len x).toNat = (h.toNat + 1) % (len.toNat / 16) := by
  have hlen := len.isLt
  have hpos : 0 < len.toNat / 16 := by omega
  have hlt : (h.toNat + 1) % (len.toNat / 16) < len.toNat / 16 := Nat.mod_lt _ hpos
  rw [wrapHead, if_neg (by omega), BitVec.toNat_ofNat, Nat.mod_eq_of_lt (by omega)]

/-! ### What the fill of a slot leaves -/

/-- The frame has left the queue and the fill's free values are drawn; nothing is written yet. -/
def rxTaken (rest : List (List Byte)) (s : State) : State := { s.spend 4 with mac := { s.mac with wireIn := rest } }

@[simp] theorem rxTaken_cfg (rest : List (List Byte)) (s : State) : (rxTaken rest s).cfg = s.cfg := rfl
@[simp] theorem rxTaken_mem (rest : List (List Byte)) (s : State) : (rxTaken rest s).mem = s.mem := rfl
@[simp] theorem rxTaken_held (rest : List (List Byte)) (s : State) : (rxTaken rest s).held = s.held := rfl
@[simp] theorem rxTaken_raced (rest : List (List Byte)) (s : State) : (rxTaken rest s).raced = s.raced := rfl
@[simp] theorem rxTaken_mac (rest : List (List Byte)) (s : State) :
    (rxTaken rest s).mac = { s.mac with wireIn := rest } := rfl

/-- The order of the fill: the buffer, the fields, `status` last (R266). -/
theorem rxFill_eq (d : RxDesc) (f : List Byte) (rest : List (List Byte)) (s : State) :
    rxFill d f rest s = rxComplete (macWriteBytes ((rxHeadPa s.mac).toNat + 12) [rxStatus s]
      (macWriteFields (rxHeadPa s.mac).toNat (rxFields f.length s)
        (macWriteBytes d.bufferAddress.toNat f (rxTaken rest s)))) := rfl

theorem rxComplete_mac (s : State) : ∃ x y, (rxComplete s).mac = { s.mac with
    rdh := wrapHead s.mac.rdh s.mac.rdlen x
    icause := s.mac.icause ||| s.cfg.imsRx ||| (y &&& s.cfg.rxCauses) } := ⟨_, _, rfl⟩

theorem rxFill_mac (d : RxDesc) (f : List Byte) (rest : List (List Byte)) (s : State) :
    ∃ x y, (rxFill d f rest s).mac = { s.mac with
      wireIn := rest
      rdh := wrapHead s.mac.rdh s.mac.rdlen x
      icause := s.mac.icause ||| s.cfg.imsRx ||| (y &&& s.cfg.rxCauses) } := by
  rw [rxFill_eq]
  simpa using rxComplete_mac (macWriteBytes ((rxHeadPa s.mac).toNat + 12) [rxStatus s]
    (macWriteFields (rxHeadPa s.mac).toNat (rxFields f.length s)
      (macWriteBytes d.bufferAddress.toNat f (rxTaken rest s))))

/-- A byte outside the descriptor's upper half is left as the frame's bytes leave it. -/
theorem rxFill_read_outside_fields {d : RxDesc} {f : List Byte} {rest : List (List Byte)} {s : State} {x : Nat}
    (hx : x < (rxHeadPa s.mac).toNat + 8 ∨ (rxHeadPa s.mac).toNat + 16 ≤ x) :
    (rxFill d f rest s).mem.read x = (macWriteBytes d.bufferAddress.toNat f (rxTaken rest s)).mem.read x := by
  rw [rxFill_eq, rxComplete_mem, macWriteBytes_read_outside (by rw [List.length_singleton]; omega),
    macWriteFields_read_outside]
  intro w hw
  have := rxFields_within w hw
  omega

theorem rxFill_read_outside {d : RxDesc} {f : List Byte} {rest : List (List Byte)} {s : State} {x : Nat}
    (hb : x < d.bufferAddress.toNat ∨ d.bufferAddress.toNat + f.length ≤ x)
    (hd : x < (rxHeadPa s.mac).toNat + 8 ∨ (rxHeadPa s.mac).toNat + 16 ≤ x) :
    (rxFill d f rest s).mem.read x = s.mem.read x := by
  rw [rxFill_read_outside_fields hd, macWriteBytes_read_outside hb, rxTaken_mem]

section
variable {d : RxDesc} {f : List Byte} {rest : List (List Byte)} {s : State}
  (hub : Unraced s d.bufferAddress.toNat f.length) (hud : Unraced s (rxHeadPa s.mac).toNat 16)
  (hm : Memory.wf s.mem = true)

include hub hm in
/-- The frame fills the buffer: the descriptor's write-back does not reach it. -/
theorem rxFill_read_buffer
    (hdisj : d.bufferAddress.toNat + f.length ≤ (rxHeadPa s.mac).toNat ∨
      (rxHeadPa s.mac).toNat + 16 ≤ d.bufferAddress.toNat) {j : Nat} (hj : j < f.length) :
    (rxFill d f rest s).mem.read (d.bufferAddress.toNat + j) = f[j] := by
  rw [rxFill_read_outside_fields (by omega)]
  exact macWriteBytes_read_inside (unraced_congr (rxTaken_held rest s) hub) hm hj

include hud hm in
/-- The `length` field is the frame's length: no later write is to one of its two bytes. -/
theorem rxFill_read_length {j : Nat} (hj : j < 2) :
    (rxFill d f rest s).mem.read ((rxHeadPa s.mac).toNat + 8 + j) = byteOf (BitVec.ofNat 16 f.length) j := by
  rw [rxFill_eq, rxComplete_mem, macWriteBytes_read_outside (by omega), rxFields, macWriteFields,
    macWriteFields_read_outside, fieldLength, macWriteBytes_read_inside, getElem_bytesOf]
  · exact unraced_congr (by simp) (unraced_part hud (by simp [bytesOf]))
  · exact macWriteBytes_wf hm
  · simpa [bytesOf] using hj
  · simp [bytesOf, fieldChecksum, fieldErrors, fieldSpecial]
    omega

include hud hm in
/-- `status` is written last. -/
theorem rxFill_read_status : (rxFill d f rest s).mem.read ((rxHeadPa s.mac).toNat + 12) = rxStatus s := by
  rw [rxFill_eq, rxComplete_mem]
  exact macWriteBytes_singleton_read (unraced_congr (by simp) (unraced_part hud (by decide)))
    (macWriteFields_wf (macWriteBytes_wf hm))

include hub hud in
theorem rxFill_raced : (rxFill d f rest s).raced = s.raced := by
  rw [rxFill_eq, rxComplete_raced, macWriteBytes_raced, macWriteFields_raced, macWriteBytes_raced, rxTaken_raced]
  · exact unraced_congr (rxTaken_held rest s) hub
  · intro w hw
    exact unraced_congr (by simp) (unraced_part hud (rxFields_within w hw).2)
  · exact unraced_congr (by simp) (unraced_part hud (by simp))

end

/-! ### When the step is made -/

theorem macTouch_of_live {a n : Nat} {k : State → Result} {s : State} (ha : a + n ≤ 2 ^ 64)
    (hl : s.live a n = true) : macTouch a n k s = k s := by
  rw [macTouch, if_neg (by omega), if_pos hl]

theorem exec_rxd_of_waiting {s : State} {d : RxDesc} {f : List Byte} {rest : List (List Byte)}
    (he : macRxEnabled s = true) (hw : waitingFrame s = some (f, rest))
    (hb : d.bufferAddress.toNat + f.length ≤ 2 ^ 64) (hbl : s.live d.bufferAddress.toNat f.length = true)
    (hd : (rxHeadPa s.mac).toNat + 16 ≤ 2 ^ 64) (hdl : s.live (rxHeadPa s.mac).toNat 16 = true) :
    exec (.rxd d) s = .next (rxFill d f rest s) := by
  simp only [exec, execRxd, he, if_true, hw, macTouch_of_live hb hbl, macTouch_of_live hd hdl]

/-- Settles O55: the oldest frame, which fits, is the waiting one, so the step fills its slot; what the slot and the
registers then hold is `rxFill`'s. -/
theorem rxDescriptorIsFilled : Obligations.RxDescriptorIsFilled := by
  refine ⟨fun c v hc hv => rxLimit_of_selection hc hv,
    fun s d f rest he hw hfit hsize hb hbl hd hdl hub hud hm hdisj => ?_⟩
  have hwait : waitingFrame s = some (f, rest) := by
    rw [waitingFrame, hw]
    exact nextFrame_oldest hfit
  have hlen : f.length < 2 ^ 16 := by
    have : rxLimit s.cfg s.mac.rctl ≤ s.cfg.bufSize := Nat.min_le_left _ _
    omega
  obtain ⟨x, y, hmac⟩ := rxFill_mac d f rest s
  refine ⟨_, exec_rxd_of_waiting he hwait hb hbl hd hdl, fun j hj => rxFill_read_buffer hub hm hdisj hj, ?_, ?_,
    fun a h1 h2 => rxFill_read_outside (by omega) (by omega), ?_, fun hl => ?_, fun b h => ?_, fun b h => ?_,
    rxFill_raced hub hud⟩
  · rw [rxFill_read_length hud hm (j := 0) (by omega), rxFill_read_length hud hm (j := 1) (by omega), toNat_eq_bytes,
      BitVec.toNat_ofNat, Nat.mod_eq_of_lt hlen]
  · rw [rxFill_read_status hud hm, rxStatus_dd]
  · rw [hmac]
  · rw [hmac]
    exact wrapHead_toNat hl
  · rw [hmac]
    rcases h with h | h <;> simp [h]
  · rw [hmac] at h
    simp only [BitVec.getLsbD_or, BitVec.getLsbD_and, Bool.or_eq_true, Bool.and_eq_true] at h
    tauto

end Sys2Proof.Machine
end

section
/-! ONE MICRO-OPERATION (R32, R312): what the sequencer's step can answer, said once for each command with its
guards. It holds, ends with an outcome, returns, or goes on at another position of the same command. -/

namespace Sys2Proof.Machine

/-! ### Positions and guards -/

/-- Where the command `i` stands at its first micro-operation; a descriptor is no command. -/
def gateOf (i : Instr) (n : Nat) : Seq :=
  match i with
  | .construct => .construct n .gate
  | .transmit => .transmit n .gate
  | .receive => .receive n .gate
  | .serviceIrq => .serviceIrq n .gate
  | .irqEnable => .irqEnable n .gate
  | .irqDisable => .irqDisable n .gate
  | .teardown => .teardown n .gate
  | .txd _ => .idle
  | .rxd _ => .idle

/-- The access to field `f` of slot `i` passes its guard and touches aligned, live bytes (R87, R193). -/
def FieldReady (s : State) (q : RingId) (i f : Nat) (n : Width) : Prop :=
  s.tag q i = .sw ∧ (descPa s q i f).toNat % n.bytes = 0 ∧ s.live (descPa s q i f).toNat n.bytes = true

/-- The access to byte `j` of slot `i`'s buffer passes its guard and touches a live byte of it (R184, R193). -/
def ByteReady (s : State) (q : RingId) (i j : Nat) : Prop :=
  s.tag q i = .sw ∧ j < s.cfg.bufSize ∧ s.live (bufPa s q i + BitVec.ofNat 64 j).toNat 1 = true

/-- Register `off` answers a read as `r`, the posted writes having arrived (R105). -/
def RegReady (s : State) (off : Word) (r : Reg) : Prop := s.pwq = [] ∧ regAt s.cfg off = some r

/-- The write `w` of an init list is posted; a list position it does not have passes. -/
def State.postListed (s : State) (w : Option (Word × Word)) : State :=
  match w with
  | none => s
  | some (off, v) => s.post off v

/-! ### Where each command goes on -/

/-- CONSTRUCT's micro-operation at `p` goes on: it leaves `u` and stands next at `p'` (R200 to R214). -/
inductive ConstructGoes (s : State) : (p : ConstructPos) → (u : State) → (p' : ConstructPos) → Prop
  | gate : s.life = .uninitialized → ConstructGoes s .gate s (.alloc 0)
  | alloc {k : Nat} {h : Handle} {rest : List AllocAnswer} : s.answers = .grant h :: rest →
      contractOk s h (allocPages s.cfg k) = true →
      ConstructGoes s (.alloc k) (allocated s k h rest) (afterAlloc s.cfg k)
  | maskFirst : ConstructGoes s .maskFirst (s.post s.cfg.offIms 0) .readCtl
  | readCtl {r : Reg} : RegReady s s.cfg.offCtl r →
      ConstructGoes s .readCtl (macRead r s).2 (.assertReset (macRead r s).1)
  | assertReset {c : Word} :
      ConstructGoes s (.assertReset c) (s.post s.cfg.offCtl (c ||| s.cfg.ctlRst)) .maskAgain
  | maskAgain : ConstructGoes s .maskAgain (s.post s.cfg.offIms 0) .resetFence
  | resetFence : s.sb = [] → ConstructGoes s .resetFence { s with life := .reset } .validate
  | validate : ringSizeOk s.cfg = true → ConstructGoes s .validate s .initTags
  | initTags : ConstructGoes s .initTags ((s.setAllTags .tx .sw).setAllTags .rx .sw) (.txAddr 0)
  | txAddr {i : Nat} : FieldReady s .tx i fieldAddr .eight →
      ConstructGoes s (.txAddr i) (s.store (descPa s .tx i fieldAddr) .eight (bufPa s .tx i)) (.txStatus i)
  | txStatus {i : Nat} : FieldReady s .tx i fieldStatus .one →
      ConstructGoes s (.txStatus i) (s.store (descPa s .tx i fieldStatus) .one (s.cfg.staDd.setWidth 64))
        (afterTxDesc s.cfg i)
  | txReg {k : Nat} : ConstructGoes s (.txReg k) (s.postListed (txRegWrites s)[k]?) (afterTxReg k)
  | txFence : s.sb = [] → ConstructGoes s .txFence s .txTail
  | txTail : ConstructGoes s .txTail ((s.post s.cfg.offTdt 0).setTail .tx 0) (.rxAddr 0)
  | rxAddr {i : Nat} : FieldReady s .rx i fieldAddr .eight →
      ConstructGoes s (.rxAddr i) (s.store (descPa s .rx i fieldAddr) .eight (bufPa s .rx i)) (afterRxDesc s.cfg i)
  | rxReg {k : Nat} : ConstructGoes s (.rxReg k) (s.postListed (rxRegWrites s)[k]?) (afterRxReg k)
  | rxFence : s.sb = [] → ConstructGoes s .rxFence s .rxTail
  | rxTail : ConstructGoes s .rxTail
      { ((s.post s.cfg.offRdt (indexWord (s.cfg.cap - 1))).giveRing .rx).setTail .rx (s.cfg.cap - 1) with
        life := .ringsProgrammed } (.mta 0)
  | mta {k : Nat} : ConstructGoes s (.mta k) (s.post (mtaOff s.cfg k) 0) (afterMta s.cfg k)
  | timing {k : Nat} : ConstructGoes s (.timing k)
      (s.postListed (s.cfg.irqTimingRegs[k]?.map (fun off => (off, 0)))) (timingFrom s.cfg (k + 1))
  | unmask : ConstructGoes s .unmask { s.post s.cfg.offIms s.cfg.imsRx with life := .interruptsConfigured } .readCause
  | readCause {r : Reg} : RegReady s s.cfg.offIcr r →
      ConstructGoes s .readCause (macRead r s).2 (.clearCause (macRead r s).1)
  | clearCause {v : Word} : ConstructGoes s (.clearCause v) (s.post s.cfg.offIcr v) .flush
  | flush {r : Reg} : RegReady s s.cfg.offStatus r →
      ConstructGoes s .flush { (macRead r s).2 with life := .ready } .ret

/-- TRANSMIT's micro-operation at `p` goes on (R230 to R237). -/
inductive TransmitGoes (s : State) : (p : TransmitPos) → (u : State) → (p' : TransmitPos) → Prop
  | gate : s.life = .ready → TransmitGoes s .gate s .readTail
  | readTail {r : Reg} : RegReady s s.cfg.offTdt r →
      TransmitGoes s .readTail (macRead r s).2 (.index (macRead r s).1)
  | index {t : Word} : t.toNat < s.cfg.cap → TransmitGoes s (.index t) s (.readStatus t.toNat)
  | readStatus {i : Nat} : s.live (descPa s .tx i fieldStatus).toNat 1 = true →
      TransmitGoes s (.readStatus i) s
        (.busyTest i ((s.load .one (descPa s .tx i fieldStatus).toNat).setWidth 8))
  | busyTest {i : Nat} {st : Byte} : ddSet s.cfg st = true →
      TransmitGoes s (.busyTest i st) (s.takeSlot .tx i) (.truncate i)
  | truncate {i : Nat} : s.arg0.toNat ≤ s.pktIn.length → s.arg0.toNat ≤ s.cfg.bufSize →
      TransmitGoes s (.truncate i) s (copyFrom i (clip s.cfg s.arg0.toNat) 0)
  | truncateLogged {i : Nat} : s.arg0.toNat ≤ s.pktIn.length → s.cfg.bufSize < s.arg0.toNat →
      TransmitGoes s (.truncate i) (s.logEvent (.truncated s.arg0.toNat (clip s.cfg s.arg0.toNat)))
        (copyFrom i (clip s.cfg s.arg0.toNat) 0)
  | copy {i m k : Nat} {b : Byte} : s.pktIn[k]? = some b → ByteReady s .tx i k →
      TransmitGoes s (.copy i m k) (s.store (bufPa s .tx i + BitVec.ofNat 64 k) .one (b.setWidth 64))
        (copyFrom i m (k + 1))
  | setAddr {i m : Nat} : FieldReady s .tx i fieldAddr .eight →
      TransmitGoes s (.setAddr i m) (s.store (descPa s .tx i fieldAddr) .eight (bufPa s .tx i)) (.setLength i m)
  | setLength {i m : Nat} : FieldReady s .tx i fieldLength .two →
      TransmitGoes s (.setLength i m) (s.store (descPa s .tx i fieldLength) .two (BitVec.ofNat 64 m)) (.setStatus i m)
  | setStatus {i m : Nat} : FieldReady s .tx i fieldStatus .one →
      TransmitGoes s (.setStatus i m) (s.store (descPa s .tx i fieldStatus) .one 0) (.setCommand i m)
  | setCommand {i m : Nat} : FieldReady s .tx i fieldCommand .one →
      TransmitGoes s (.setCommand i m)
        (s.store (descPa s .tx i fieldCommand) .one ((txCommand s.cfg).setWidth 64)) (.fence i m)
  | fence {i m : Nat} : s.sb = [] → TransmitGoes s (.fence i m) s (.handOff i m)
  | handOff {i m : Nat} : TransmitGoes s (.handOff i m)
      (((s.post s.cfg.offTdt (indexWord (nextIndex s.cfg i))).giveSlot .tx i).setTail .tx (nextIndex s.cfg i))
      (.flush m)
  | flush {m : Nat} {r : Reg} : RegReady s s.cfg.offStatus r →
      TransmitGoes s (.flush m) (macRead r s).2 (.lastFence m)
  | lastFence {m : Nat} : s.sb = [] → TransmitGoes s (.lastFence m) s (.ret m)

/-- RECEIVE's micro-operation at `p` goes on (R240 to R249). -/
inductive ReceiveGoes (s : State) : (p : ReceivePos) → (u : State) → (p' : ReceivePos) → Prop
  | gate : s.life = .ready → ReceiveGoes s .gate s .readTail
  | readTail {r : Reg} : RegReady s s.cfg.offRdt r →
      ReceiveGoes s .readTail (macRead r s).2 (.index (macRead r s).1)
  | index {t : Word} : t.toNat < s.cfg.cap →
      ReceiveGoes s (.index t) { s with rxN := 0 } (.batch (nextIndex s.cfg t.toNat))
  | batchFull {i : Nat} : s.rxN = s.cfg.rxBatchMax → ReceiveGoes s (.batch i) s .ret
  | batch {i : Nat} : s.rxN ≠ s.cfg.rxBatchMax → ReceiveGoes s (.batch i) s (.readStatus i)
  | readStatus {i : Nat} : s.live (descPa s .rx i fieldStatus).toNat 1 = true →
      ReceiveGoes s (.readStatus i) s
        (.readyTest i ((s.load .one (descPa s .rx i fieldStatus).toNat).setWidth 8))
  | ready {i : Nat} {st : Byte} : ddSet s.cfg st = true → ReceiveGoes s (.readyTest i st) s (.readFence i)
  | notReady {i : Nat} {st : Byte} : ddSet s.cfg st = false → ReceiveGoes s (.readyTest i st) s .ret
  | readFence {i : Nat} : ReceiveGoes s (.readFence i) (s.takeSlot .rx i) (.readAddr i)
  | readAddr {i : Nat} : FieldReady s .rx i fieldAddr .eight →
      ReceiveGoes s (.readAddr i) s (.addrTest i (s.load .eight (descPa s .rx i fieldAddr).toNat))
  | addrTest {i : Nat} {a : Addr} : a ≠ 0 → ReceiveGoes s (.addrTest i a) s (.readLength i)
  | readLength {i : Nat} : FieldReady s .rx i fieldLength .two →
      ReceiveGoes s (.readLength i) s
        (copyOutFrom i (min (s.load .two (descPa s .rx i fieldLength).toNat).toNat s.cfg.bufSize) [])
  | copy {i m : Nat} {pkt : List Byte} : ByteReady s .rx i pkt.length →
      ReceiveGoes s (.copy i m pkt) s (copyOutFrom i m
        (pkt ++ [(s.load .one (bufPa s .rx i + BitVec.ofNat 64 pkt.length).toNat).setWidth 8]))
  | deliver {i : Nat} {pkt : List Byte} :
      ReceiveGoes s (.deliver i pkt) { s with pktOut := s.pktOut ++ [pkt] } (.scrub i 0)
  | scrub {i k : Nat} : ByteReady s .rx i k →
      ReceiveGoes s (.scrub i k)
        (s.store (bufPa s .rx i + BitVec.ofNat 64 k) .one ((0 : Byte).setWidth 64)) (afterScrub i k)
  | clearStatus {i : Nat} : FieldReady s .rx i fieldStatus .one →
      ReceiveGoes s (.clearStatus i) (s.store (descPa s .rx i fieldStatus) .one 0) (.fence i)
  | fence {i : Nat} : s.sb = [] → ReceiveGoes s (.fence i) s (.rearm i)
  | rearm {i : Nat} : ReceiveGoes s (.rearm i)
      (((s.post s.cfg.offRdt (indexWord i)).giveSlot .rx i).setTail .rx i) (.advance i)
  | advance {i : Nat} : ReceiveGoes s (.advance i) { s with rxN := s.rxN + 1 } (.batch (nextIndex s.cfg i))

/-- SERVICE_IRQ's micro-operation at `p` goes on (R250). -/
inductive CauseGoes (s : State) : (p : CausePos) → (u : State) → (p' : CausePos) → Prop
  | gate : s.life = .ready → CauseGoes s .gate s .read
  | read {r : Reg} : RegReady s s.cfg.offIcr r → CauseGoes s .read (macRead r s).2 (.writeBack (macRead r s).1)
  | writeBack {v : Word} : CauseGoes s (.writeBack v) (s.post s.cfg.offIcr v) (.ret v)

/-- IRQ_ENABLE's or IRQ_DISABLE's micro-operation at `p` goes on; the command writes `v` to `off` (R252, R253). -/
inductive MaskGoes (s : State) (off v : Word) : (p : MaskPos) → (u : State) → (p' : MaskPos) → Prop
  | gate : s.life = .ready → MaskGoes s off v .gate s .write
  | write : MaskGoes s off v .write (s.post off v) .flush
  | flush {r : Reg} : RegReady s s.cfg.offStatus r → MaskGoes s off v .flush (macRead r s).2 .ret

/-- TEARDOWN's micro-operation at `p` goes on (R220). -/
inductive TeardownGoes (s : State) : (p : TeardownPos) → (u : State) → (p' : TeardownPos) → Prop
  | gate : s.life = .ready → TeardownGoes s .gate s (.free 0)
  | free {k : Nat} :
      TeardownGoes s (.free k) (s.freeAlloc (allocHandle s k).va (allocPages s.cfg k)) (afterFree s.cfg k)

/-- The micro-operation at `q` goes on: it leaves `u`, the sequencer set aside, and stands next at `q'`. -/
inductive Goes (s : State) : (q : Seq) → (u : State) → (q' : Seq) → Prop
  | construct {n : Nat} {p p' : ConstructPos} {u : State} :
      ConstructGoes s p u p' → Goes s (.construct n p) u (.construct (n + 1) p')
  | transmit {n : Nat} {p p' : TransmitPos} {u : State} :
      TransmitGoes s p u p' → Goes s (.transmit n p) u (.transmit (n + 1) p')
  | receive {n : Nat} {p p' : ReceivePos} {u : State} :
      ReceiveGoes s p u p' → Goes s (.receive n p) u (.receive (n + 1) p')
  | serviceIrq {n : Nat} {p p' : CausePos} {u : State} :
      CauseGoes s p u p' → Goes s (.serviceIrq n p) u (.serviceIrq (n + 1) p')
  | irqEnable {n : Nat} {p p' : MaskPos} {u : State} :
      MaskGoes s s.cfg.offIms s.arg0 p u p' → Goes s (.irqEnable n p) u (.irqEnable (n + 1) p')
  | irqDisable {n : Nat} {p p' : MaskPos} {u : State} :
      MaskGoes s s.cfg.irqOffReg s.cfg.irqOffVal p u p' → Goes s (.irqDisable n p) u (.irqDisable (n + 1) p')
  | teardown {n : Nat} {p p' : TeardownPos} {u : State} :
      TeardownGoes s p u p' → Goes s (.teardown n p) u (.teardown (n + 1) p')

/-- The micro-operation at `q` returns `OK(v)` from `u`. -/
inductive Returns (s : State) : (q : Seq) → (u : State) → (v : Word) → Prop
  | construct {n : Nat} : Returns s (.construct n .ret) s 0
  | transmit {n m : Nat} : Returns s (.transmit n (.ret m)) s (BitVec.ofNat 32 m)
  | receive {n : Nat} : Returns s (.receive n .ret) s (BitVec.ofNat 32 s.rxN)
  | serviceIrq {n : Nat} {v : Word} : Returns s (.serviceIrq n (.ret v)) s v
  | irqEnable {n : Nat} : Returns s (.irqEnable n .ret) s 0
  | irqDisable {n : Nat} : Returns s (.irqDisable n .ret) s 0
  | teardown {n : Nat} : Returns s (.teardown n .ret) { s.forgetRings with life := .uninitialized } 0

/-- What the micro-operation at `q` can answer: it holds, latches a fatal fault, ends with one of the three outcomes
that latch nothing, goes on, or returns. -/
inductive MicroOp (s : State) : (q : Seq) → (t : State) → Prop
  | holds {q : Seq} : MicroOp s q s
  | fatal {q : Seq} {as : List AllocAnswer} {c : Code} {v : Word} : codeFatal c = true →
      MicroOp s q (State.raise { s with answers := as } c v)
  | wrongState {i : Instr} {n : Nat} : MicroOp s (gateOf i n) (s.raise .wrongState (lifeWord s.life))
  | busy {n i : Nat} {st : Byte} :
      MicroOp s (.transmit n (.busyTest i st)) (State.raise { s with pktIn := [] } .busy (indexWord i))
  | rxInvalid {n i : Nat} {a : Addr} :
      MicroOp s (.receive n (.addrTest i a)) ((s.logEvent (.rxInvalid i)).raise .rxInvalidDescriptor (indexWord i))
  | goes {q q' : Seq} {u : State} : Goes s q u q' → MicroOp s q { u with seq := q' }
  | returns {q : Seq} {u : State} {v : Word} : Returns s q u v → MicroOp s q (u.finish .ok v)

/-! ### The rule of each shared operation -/

namespace MicroOp

variable {s t u : State} {q : Seq}

theorem of_proceed {q' : Seq} (h : proceed q' u = .next t) (hg : Goes s q u q') : MicroOp s q t := by
  rw [proceed_next h]
  exact .goes hg

theorem of_ret {v : Word} (h : ret .ok v u = .next t) (hr : Returns s q u v) : MicroOp s q t := by
  rw [ret_next h]
  exact .returns hr

theorem of_fatal {c : Code} {v : Word} (hc : codeFatal c = true) (h : t = s.raise c v) : MicroOp s q t := by
  rw [h]
  exact .fatal (as := s.answers) hc

theorem of_gate (i : Instr) (n : Nat) {l : Life} {k : State → Result} (h : gate l k s = .next t)
    (hk : s.life = l → k s = .next t → MicroOp s (gateOf i n) t) : MicroOp s (gateOf i n) t := by
  rcases gate_next h with ⟨hl, h⟩ | ⟨_, rfl⟩
  · exact hk hl h
  · exact .wrongState

theorem of_sfence {k : State → Result} (h : sfence k s = .next t)
    (hk : s.sb = [] → k s = .next t → MicroOp s q t) : MicroOp s q t := by
  rcases sfence_next h with ⟨he, h⟩ | ⟨_, rfl⟩
  · exact hk he h
  · exact .holds

theorem of_regWrite {off v : Word} {k : State → Result} (h : regWrite off v k s = .next t)
    (hk : k (s.post off v) = .next t → MicroOp s q t) : MicroOp s q t := by
  rcases regWrite_next h with ⟨_, h⟩ | ⟨_, h⟩
  · exact of_fatal rfl h
  · exact hk h

theorem of_listWrite {w : Option (Word × Word)} {k : State → Result} (h : listWrite w k s = .next t)
    (hk : k (s.postListed w) = .next t → MicroOp s q t) : MicroOp s q t := by
  rcases listWrite_next h with ⟨rfl, h⟩ | ⟨_, _, rfl, _, h⟩ | ⟨_, _, rfl, _, h⟩
  · exact hk h
  · exact of_fatal rfl h
  · exact hk h

theorem of_regRead {off : Word} {k : Word → State → Result} (h : regRead off k s = .next t)
    (hk : ∀ r, RegReady s off r → k (macRead r s).1 (macRead r s).2 = .next t → MicroOp s q t) :
    MicroOp s q t := by
  rcases regRead_next h with ⟨_, h⟩ | ⟨_, _, rfl⟩ | ⟨_, hp, r, hr, h⟩
  · exact of_fatal rfl h
  · exact .holds
  · exact hk r ⟨hp, hr⟩ h

theorem of_writeFlush {k : State → Result} (h : writeFlush k s = .next t)
    (hk : ∀ r, RegReady s s.cfg.offStatus r → k (macRead r s).2 = .next t → MicroOp s q t) : MicroOp s q t :=
  of_regRead h hk

theorem of_indexFrom {x : Word} {k : Nat → State → Result} (h : indexFrom x k s = .next t)
    (hk : x.toNat < s.cfg.cap → k x.toNat s = .next t → MicroOp s q t) : MicroOp s q t := by
  rcases indexFrom_next h with ⟨hx, h⟩ | ⟨_, h⟩
  · exact hk hx h
  · exact of_fatal rfl h

theorem of_setField {r : RingId} {i f : Nat} {n : Width} {v : Addr} {k : State → Result}
    (h : setField r i f n v k s = .next t)
    (hk : FieldReady s r i f n → k (s.store (descPa s r i f) n v) = .next t → MicroOp s q t) : MicroOp s q t := by
  rcases setField_next h with ⟨ht, ha, hl, h⟩ | ⟨_, h⟩
  · exact hk ⟨ht, ha, hl⟩ h
  · exact of_fatal rfl h

theorem of_getField {r : RingId} {i f : Nat} {n : Width} {k : Addr → State → Result}
    (h : getField r i f n k s = .next t)
    (hk : FieldReady s r i f n → k (s.load n (descPa s r i f).toNat) s = .next t → MicroOp s q t) :
    MicroOp s q t := by
  rcases getField_next h with ⟨ht, ha, hl, h⟩ | ⟨_, h⟩
  · exact hk ⟨ht, ha, hl⟩ h
  · exact of_fatal rfl h

theorem of_setBufByte {r : RingId} {i j : Nat} {b : Byte} {k : State → Result}
    (h : setBufByte r i j b k s = .next t)
    (hk : ByteReady s r i j → k (s.store (bufPa s r i + BitVec.ofNat 64 j) .one (b.setWidth 64)) = .next t →
      MicroOp s q t) : MicroOp s q t := by
  rcases setBufByte_next h with ⟨ht, hj, hl, h⟩ | ⟨_, h⟩
  · exact hk ⟨ht, hj, hl⟩ h
  · exact of_fatal rfl h

theorem of_getBufByte {r : RingId} {i j : Nat} {k : Byte → State → Result} (h : getBufByte r i j k s = .next t)
    (hk : ByteReady s r i j →
      k ((s.load .one (bufPa s r i + BitVec.ofNat 64 j).toNat).setWidth 8) s = .next t → MicroOp s q t) :
    MicroOp s q t := by
  rcases getBufByte_next h with ⟨ht, hj, hl, h⟩ | ⟨_, h⟩
  · exact hk ⟨ht, hj, hl⟩ h
  · exact of_fatal rfl h

theorem of_allocate {n pages : Nat} {k : Handle → State → Result} (h : allocate n pages k s = .next t)
    (hk : ∀ x rest, s.answers = .grant x :: rest → contractOk s x pages = true →
      k x (State.grant { s with answers := rest } x pages) = .next t → MicroOp s q t) : MicroOp s q t := by
  rcases allocate_next h with ⟨_, rfl⟩ | ⟨_, _, rfl⟩ | ⟨x, rest, ha, hc, h⟩
  · exact .holds
  · exact .fatal rfl
  · exact hk x rest ha hc h

end MicroOp

/-! ### The commands -/

theorem constructAt_microOp {n : Nat} {p : ConstructPos} {s t : State} (h : constructAt n p s = .next t) :
    MicroOp s (.construct n p) t := by
  cases p with simp only [constructAt] at h
  | gate => exact .of_gate .construct n h fun hl h => .of_proceed h (.construct (.gate hl))
  | alloc k => exact .of_allocate h fun x rest ha hc h => .of_proceed h (.construct (.alloc ha hc))
  | maskFirst => exact .of_regWrite h fun h => .of_proceed h (.construct .maskFirst)
  | readCtl => exact .of_regRead h fun r hr h => .of_proceed h (.construct (.readCtl hr))
  | assertReset c => exact .of_regWrite h fun h => .of_proceed h (.construct .assertReset)
  | maskAgain => exact .of_regWrite h fun h => .of_proceed h (.construct .maskAgain)
  | resetFence => exact .of_sfence h fun he h => .of_proceed h (.construct (.resetFence he))
  | validate =>
    split at h
    · exact .of_proceed h (.construct (.validate ‹_›))
    · exact .of_fatal rfl (raised_next h)
  | initTags => exact .of_proceed h (.construct .initTags)
  | txAddr i => exact .of_setField h fun hf h => .of_proceed h (.construct (.txAddr hf))
  | txStatus i => exact .of_setField h fun hf h => .of_proceed h (.construct (.txStatus hf))
  | txReg k => exact .of_listWrite h fun h => .of_proceed h (.construct .txReg)
  | txFence => exact .of_sfence h fun he h => .of_proceed h (.construct (.txFence he))
  | txTail => exact .of_regWrite h fun h => .of_proceed h (.construct .txTail)
  | rxAddr i => exact .of_setField h fun hf h => .of_proceed h (.construct (.rxAddr hf))
  | rxReg k => exact .of_listWrite h fun h => .of_proceed h (.construct .rxReg)
  | rxFence => exact .of_sfence h fun he h => .of_proceed h (.construct (.rxFence he))
  | rxTail => exact .of_regWrite h fun h => .of_proceed h (.construct .rxTail)
  | mta k => exact .of_regWrite h fun h => .of_proceed h (.construct .mta)
  | timing k => exact .of_listWrite h fun h => .of_proceed h (.construct .timing)
  | unmask => exact .of_regWrite h fun h => .of_proceed h (.construct .unmask)
  | readCause => exact .of_regRead h fun r hr h => .of_proceed h (.construct (.readCause hr))
  | clearCause v => exact .of_regWrite h fun h => .of_proceed h (.construct .clearCause)
  | flush => exact .of_writeFlush h fun r hr h => .of_proceed h (.construct (.flush hr))
  | ret => exact .of_ret h .construct

theorem truncate_microOp {n i : Nat} {s t : State} (h : truncate n i s = .next t) :
    MicroOp s (.transmit n (.truncate i)) t := by
  simp only [truncate] at h
  split at h
  · cases h
  · split at h
    · exact .of_proceed h (.transmit (.truncateLogged (by omega) ‹_›))
    · exact .of_proceed h (.transmit (.truncate (by omega) (by omega)))

theorem copyIn_microOp {n i m k : Nat} {s t : State} (h : copyIn n i m k s = .next t) :
    MicroOp s (.transmit n (.copy i m k)) t := by
  simp only [copyIn] at h
  split at h
  · cases h
  · exact .of_setBufByte h fun hb h => .of_proceed h (.transmit (.copy ‹_› hb))

theorem transmitAt_microOp {n : Nat} {p : TransmitPos} {s t : State} (h : transmitAt n p s = .next t) :
    MicroOp s (.transmit n p) t := by
  cases p with simp only [transmitAt] at h
  | gate => exact .of_gate .transmit n h fun hl h => .of_proceed h (.transmit (.gate hl))
  | readTail => exact .of_regRead h fun r hr h => .of_proceed h (.transmit (.readTail hr))
  | index x => exact .of_indexFrom h fun hx h => .of_proceed h (.transmit (.index hx))
  | readStatus i =>
    obtain ⟨hl, h⟩ := getStatus_next h
    exact .of_proceed h (.transmit (.readStatus hl))
  | busyTest i st =>
    split at h
    · exact .of_proceed h (.transmit (.busyTest ‹_›))
    · rw [raised_next h]
      exact .busy
  | truncate i => exact truncate_microOp h
  | copy i m k => exact copyIn_microOp h
  | setAddr i m => exact .of_setField h fun hf h => .of_proceed h (.transmit (.setAddr hf))
  | setLength i m => exact .of_setField h fun hf h => .of_proceed h (.transmit (.setLength hf))
  | setStatus i m => exact .of_setField h fun hf h => .of_proceed h (.transmit (.setStatus hf))
  | setCommand i m => exact .of_setField h fun hf h => .of_proceed h (.transmit (.setCommand hf))
  | fence i m => exact .of_sfence h fun he h => .of_proceed h (.transmit (.fence he))
  | handOff i m => exact .of_regWrite h fun h => .of_proceed h (.transmit .handOff)
  | flush m => exact .of_writeFlush h fun r hr h => .of_proceed h (.transmit (.flush hr))
  | lastFence m => exact .of_sfence h fun he h => .of_proceed h (.transmit (.lastFence he))
  | ret m => exact .of_ret h .transmit

theorem addrTest_microOp {n i : Nat} {a : Addr} {s t : State} (h : addrTest n i a s = .next t) :
    MicroOp s (.receive n (.addrTest i a)) t := by
  simp only [addrTest] at h
  split at h
  · rw [raised_next h]
    exact .rxInvalid
  · exact .of_proceed h (.receive (.addrTest ‹_›))

theorem receiveAt_microOp {n : Nat} {p : ReceivePos} {s t : State} (h : receiveAt n p s = .next t) :
    MicroOp s (.receive n p) t := by
  cases p with simp only [receiveAt] at h
  | gate => exact .of_gate .receive n h fun hl h => .of_proceed h (.receive (.gate hl))
  | readTail => exact .of_regRead h fun r hr h => .of_proceed h (.receive (.readTail hr))
  | index x => exact .of_indexFrom h fun hx h => .of_proceed h (.receive (.index hx))
  | batch i =>
    split at h
    · exact .of_proceed h (.receive (.batchFull ‹_›))
    · exact .of_proceed h (.receive (.batch ‹_›))
  | readStatus i =>
    obtain ⟨hl, h⟩ := getStatus_next h
    exact .of_proceed h (.receive (.readStatus hl))
  | readyTest i st =>
    split at h
    · exact .of_proceed h (.receive (.ready ‹_›))
    · exact .of_proceed h (.receive (.notReady (Bool.eq_false_iff.2 ‹_›)))
  | readFence i => exact .of_proceed h (.receive .readFence)
  | readAddr i => exact .of_getField h fun hf h => .of_proceed h (.receive (.readAddr hf))
  | addrTest i a => exact addrTest_microOp h
  | readLength i => exact .of_getField h fun hf h => .of_proceed h (.receive (.readLength hf))
  | copy i m pkt => exact .of_getBufByte h fun hb h => .of_proceed h (.receive (.copy hb))
  | deliver i pkt => exact .of_proceed h (.receive .deliver)
  | scrub i k => exact .of_setBufByte h fun hb h => .of_proceed h (.receive (.scrub hb))
  | clearStatus i => exact .of_setField h fun hf h => .of_proceed h (.receive (.clearStatus hf))
  | fence i => exact .of_sfence h fun he h => .of_proceed h (.receive (.fence he))
  | rearm i => exact .of_regWrite h fun h => .of_proceed h (.receive .rearm)
  | advance i => exact .of_proceed h (.receive .advance)
  | ret => exact .of_ret h .receive

theorem serviceIrqAt_microOp {n : Nat} {p : CausePos} {s t : State} (h : serviceIrqAt n p s = .next t) :
    MicroOp s (.serviceIrq n p) t := by
  cases p with simp only [serviceIrqAt] at h
  | gate => exact .of_gate .serviceIrq n h fun hl h => .of_proceed h (.serviceIrq (.gate hl))
  | read => exact .of_regRead h fun r hr h => .of_proceed h (.serviceIrq (.read hr))
  | writeBack v => exact .of_regWrite h fun h => .of_proceed h (.serviceIrq .writeBack)
  | ret v => exact .of_ret h .serviceIrq

theorem irqEnableAt_microOp {n : Nat} {p : MaskPos} {s t : State} (h : irqEnableAt n p s = .next t) :
    MicroOp s (.irqEnable n p) t := by
  cases p with simp only [irqEnableAt] at h
  | gate => exact .of_gate .irqEnable n h fun hl h => .of_proceed h (.irqEnable (.gate hl))
  | write => exact .of_regWrite h fun h => .of_proceed h (.irqEnable .write)
  | flush => exact .of_writeFlush h fun r hr h => .of_proceed h (.irqEnable (.flush hr))
  | ret => exact .of_ret h .irqEnable

theorem irqDisableAt_microOp {n : Nat} {p : MaskPos} {s t : State} (h : irqDisableAt n p s = .next t) :
    MicroOp s (.irqDisable n p) t := by
  cases p with simp only [irqDisableAt] at h
  | gate => exact .of_gate .irqDisable n h fun hl h => .of_proceed h (.irqDisable (.gate hl))
  | write => exact .of_regWrite h fun h => .of_proceed h (.irqDisable .write)
  | flush => exact .of_writeFlush h fun r hr h => .of_proceed h (.irqDisable (.flush hr))
  | ret => exact .of_ret h .irqDisable

theorem teardownAt_microOp {n : Nat} {p : TeardownPos} {s t : State} (h : teardownAt n p s = .next t) :
    MicroOp s (.teardown n p) t := by
  rcases teardownAt_next h with ⟨rfl, hl, rfl⟩ | ⟨rfl, _, rfl⟩ | ⟨k, rfl, rfl⟩ | ⟨rfl, rfl⟩
  · exact .goes (.teardown (.gate hl))
  · exact .wrongState (i := .teardown)
  · exact .goes (.teardown .free)
  · exact .returns .teardown

/-- The sequencer performs the micro-operation it stands at; idle, it has none. -/
theorem sequencerStep_microOp {s t : State} (h : sequencerStep s = .next t) : MicroOp s s.seq t := by
  unfold sequencerStep at h
  cases hq : s.seq with simp only [hq, Seq.instr, exec] at h
  | idle =>
    cases h
    exact .holds
  | construct n p =>
    simp only [execConstruct, hq] at h
    exact constructAt_microOp h
  | transmit n p =>
    simp only [execTransmit, hq] at h
    exact transmitAt_microOp h
  | receive n p =>
    simp only [execReceive, hq] at h
    exact receiveAt_microOp h
  | serviceIrq n p =>
    simp only [execServiceIrq, hq] at h
    exact serviceIrqAt_microOp h
  | irqEnable n p =>
    simp only [execIrqEnable, hq] at h
    exact irqEnableAt_microOp h
  | irqDisable n p =>
    simp only [execIrqDisable, hq] at h
    exact irqDisableAt_microOp h
  | teardown n p =>
    simp only [execTeardown, hq] at h
    exact teardownAt_microOp h

end Sys2Proof.Machine
end

section
/-! ONE STEP (R30): what every move of the schedule can answer, said once. The memory system, the MAC, the allocator,
the host and the wire leave RINGCTL's registers as they are; what is left is RINGCTL's micro-operation, an issue, the
arrival of a posted write and the two resets. -/

namespace Sys2Proof.Machine

/-! ### Issuing a command (R281) -/

theorem gateOf_instr_of_decode {w : Word} {i : Instr} (n : Nat) (h : decode (.cmdw w) = .instr i) :
    (gateOf i n).instr = some i := by
  simp only [decode, decodeCommand, decodeOpcode] at h
  split_ifs at h <;> cases h <;> rfl

/-- While idle, `exec` of a command starts it and changes nothing else. -/
theorem exec_of_idle {i : Instr} {s : State} (hi : (gateOf i 0).instr = some i) (hs : s.seq = .idle) :
    exec i s = .next { s with seq := gateOf i 0 } := by
  cases i with simp only [exec, gateOf]
  | construct => simp only [execConstruct, hs, proceed]
  | transmit => simp only [execTransmit, hs, proceed]
  | receive => simp only [execReceive, hs, proceed]
  | serviceIrq => simp only [execServiceIrq, hs, proceed]
  | irqEnable => simp only [execIrqEnable, hs, proceed]
  | irqDisable => simp only [execIrqDisable, hs, proceed]
  | teardown => simp only [execTeardown, hs, proceed]
  | txd d => cases hi
  | rxd d => cases hi

/-- While a command runs, `exec` of another changes nothing. -/
theorem exec_of_other {i : Instr} {s : State} (hi : (gateOf i 0).instr = some i) (hs : s.seq ≠ .idle)
    (hne : s.seq.instr ≠ some i) : exec i s = .next s := by
  cases i with simp only [exec]
  | construct => unfold execConstruct; split <;> simp_all [Seq.instr]
  | transmit => unfold execTransmit; split <;> simp_all [Seq.instr]
  | receive => unfold execReceive; split <;> simp_all [Seq.instr]
  | serviceIrq => unfold execServiceIrq; split <;> simp_all [Seq.instr]
  | irqEnable => unfold execIrqEnable; split <;> simp_all [Seq.instr]
  | irqDisable => unfold execIrqDisable; split <;> simp_all [Seq.instr]
  | teardown => unfold execTeardown; split <;> simp_all [Seq.instr]
  | txd d => cases hi
  | rxd d => cases hi

/-! ### The MAC's fetch (R112, R132) -/

theorem runTxImage_eq (D : Image) (s : State) : runTxImage D s = exec (.txd (decodeTxd D)) s := rfl

theorem runRxImage_eq (D : Image) (s : State) : runRxImage D s = exec (.rxd (decodeRxd D)) s := rfl

/-! ### What an agent other than RINGCTL leaves -/

/-- The step from `s` to `t` leaves what RINGCTL holds, the posted writes and the MAC's tail registers and multicast
table as they are. -/
structure Bystander (s t : State) : Prop where
  cfg : t.cfg = s.cfg
  life : t.life = s.life
  seq : t.seq = s.seq
  txq : t.txq = s.txq
  rxq : t.rxq = s.rxq
  cmdw : t.cmdw = s.cmdw
  fault : t.fault = s.fault
  pwq : t.pwq = s.pwq
  tdt : t.mac.tdt = s.mac.tdt
  rdt : t.mac.rdt = s.mac.rdt
  mta : t.mac.mta = s.mac.mta

namespace Bystander

theorem refl (s : State) : Bystander s s := by constructor <;> rfl

theorem trans {s t u : State} (h : Bystander s t) (h' : Bystander t u) : Bystander s u where
  cfg := h'.cfg.trans h.cfg
  life := h'.life.trans h.life
  seq := h'.seq.trans h.seq
  txq := h'.txq.trans h.txq
  rxq := h'.rxq.trans h.rxq
  cmdw := h'.cmdw.trans h.cmdw
  fault := h'.fault.trans h.fault
  pwq := h'.pwq.trans h.pwq
  tdt := h'.tdt.trans h.tdt
  rdt := h'.rdt.trans h.rdt
  mta := h'.mta.trans h.mta

theorem drainStore (j : Nat) (s : State) : Bystander s (drainStore j s) := by constructor <;> simp

theorem macReadBytes (n a : Nat) (s : State) : Bystander s (macReadBytes n a s).2 := by constructor <;> simp

theorem txComplete (s : State) : Bystander s (txComplete s) := by constructor <;> rfl

theorem rxFill (d : RxDesc) (f : List Byte) (rest : List (List Byte)) (s : State) :
    Bystander s (rxFill d f rest s) := by
  obtain ⟨x, y, hmac⟩ := rxFill_mac d f rest s
  constructor
  case tdt | rdt | mta => rw [hmac]
  all_goals simp [rxFill_eq, rxTaken]

/-- The MAC's transmit step writes the frame, the descriptor's status and its own head and causes (R264). -/
theorem exec_txd {d : TxDesc} {s t : State} (h : exec (.txd d) s = .next t) : Bystander s t := by
  simp only [exec, execTxd] at h
  split at h
  · split at h
    · obtain ⟨_, _, h⟩ := macTouch_next h
      obtain ⟨_, _, h⟩ := macTouch_next h
      obtain rfl := Host.Outcome.next.inj h
      refine .trans ?_ (.txComplete _)
      constructor <;> simp
    · cases h
  · cases h
    exact .refl s

/-- The MAC's receive step writes the slot and its own head, causes and queue (R266). -/
theorem exec_rxd {d : RxDesc} {s t : State} (h : exec (.rxd d) s = .next t) : Bystander s t := by
  simp only [exec, execRxd] at h
  split at h
  · split at h
    · cases h
      exact .refl s
    · obtain ⟨_, _, h⟩ := macTouch_next h
      obtain ⟨_, _, h⟩ := macTouch_next h
      obtain rfl := Host.Outcome.next.inj h
      exact .rxFill d _ _ s
  · cases h
    exact .refl s

theorem macTxStep {s t : State} (h : macTxStep s = .next t) : Bystander s t := by
  simp only [Machine.macTxStep, runTxImage_eq] at h
  split at h
  · obtain ⟨_, _, h⟩ := macTouch_next h
    exact .trans (.macReadBytes _ _ s) (exec_txd h)
  · cases h
    exact .refl s

theorem macRxStep {s t : State} (h : macRxStep s = .next t) : Bystander s t := by
  simp only [Machine.macRxStep, runRxImage_eq] at h
  split at h
  · obtain ⟨_, _, h⟩ := macTouch_next h
    exact .trans (.macReadBytes _ _ s) (exec_rxd h)
  · cases h
    exact .refl s

end Bystander

/-! ### Every move -/

/-- What the move `mv` can answer. -/
inductive Performed (s : State) : (mv : Move) → (t : State) → Prop
  | microOp {t : State} : MicroOp s s.seq t → Performed s .sequencer t
  | issued {w a : Word} {p : List Byte} {i : Instr} : s.seq = .idle → decode (.cmdw w) = .instr i →
      Performed s (.issue w a p) { s.writePort w a p with seq := gateOf i 0 }
  | illegal {w a : Word} {p : List Byte} {e : DecodeError} : s.seq = .idle → decode (.cmdw w) = .rejected e →
      Performed s (.issue w a p) ((s.writePort w a p).raise .illegalCommand w)
  | bystander {mv : Move} {t : State} : Bystander s t → Performed s mv t
  | arrived {p : Posted} {rest : List Posted} {r : Reg} : s.pwq = p :: rest → regAt s.cfg p.off = some r →
      Performed s .drainPosted (macWrite r p.v { s with pwq := rest })
  | macReset : Performed s .macReset (deviceReset s)
  | blockReset : Performed s .blockReset (blockReset s)

theorem issue_performed {w a : Word} {p : List Byte} {s t : State} (h : issue w a p s = .next t) :
    Performed s (.issue w a p) t := by
  unfold issue at h
  split at h
  · rename_i hs
    split at h
    · rename_i i hi
      rw [exec_of_idle (s := s.writePort w a p) (gateOf_instr_of_decode 0 hi) hs] at h
      cases h
      exact .issued hs hi
    · rw [raised_next h]
      exact .illegal ‹_› ‹_›
  · cases h
    exact .bystander (.refl s)

theorem perform_performed {mv : Move} {s t : State} (h : perform mv s = .next t) : Performed s mv t := by
  cases mv with simp only [perform] at h
  | sequencer => exact .microOp (sequencerStep_microOp h)
  | drainStore k =>
    cases h
    exact .bystander (.drainStore k s)
  | drainPosted =>
    rcases drainPosted_next h with ⟨_, rfl⟩ | ⟨p, rest, r, hp, hr, rfl⟩
    · exact .bystander (.refl _)
    · exact .arrived hp hr
  | macTx => exact .bystander (.macTxStep h)
  | macRx => exact .bystander (.macRxStep h)
  | issue w a p => exact issue_performed h
  | offerFrame f =>
    unfold offerFrame at h
    split at h
    · cases h
      exact .bystander (by constructor <;> rfl)
    · cases h
  | macReset =>
    obtain rfl := Host.Outcome.next.inj h
    exact .macReset
  | blockReset =>
    obtain rfl := Host.Outcome.next.inj h
    exact .blockReset
  | answer a | takePacket | takeLog | dropFrame k =>
    cases h
    exact .bystander (by constructor <;> rfl)

/-- A step is the move made next, taken from the schedule. -/
theorem step_performed {s t : State} (h : step s = .next t) : Performed s.popSched (nextMove s) t :=
  perform_performed h

end Sys2Proof.Machine
end

section
/-! THE LIFECYCLE AND THE COMMAND WORD (R31, R32, R203, R310, R323): every step of every agent keeps both invariants. -/

namespace Sys2Proof.Machine

/-! ### What the updates of a micro-operation leave unchanged -/

@[simp] theorem allocated_cfg (s : State) (k : Nat) (h : Handle) (rest : List AllocAnswer) :
    (allocated s k h rest).cfg = s.cfg := by simp [allocated]
@[simp] theorem allocated_life (s : State) (k : Nat) (h : Handle) (rest : List AllocAnswer) :
    (allocated s k h rest).life = s.life := by simp [allocated]
@[simp] theorem allocated_cmdw (s : State) (k : Nat) (h : Handle) (rest : List AllocAnswer) :
    (allocated s k h rest).cmdw = s.cmdw := by simp [allocated]
@[simp] theorem allocated_fault (s : State) (k : Nat) (h : Handle) (rest : List AllocAnswer) :
    (allocated s k h rest).fault = s.fault := by simp [allocated]
@[simp] theorem allocated_pwq (s : State) (k : Nat) (h : Handle) (rest : List AllocAnswer) :
    (allocated s k h rest).pwq = s.pwq := by simp [allocated]
@[simp] theorem allocated_mac (s : State) (k : Nat) (h : Handle) (rest : List AllocAnswer) :
    (allocated s k h rest).mac = s.mac := by simp [allocated]

@[simp] theorem State.postListed_cfg (s : State) (w : Option (Word × Word)) : (s.postListed w).cfg = s.cfg := by
  cases w <;> rfl
@[simp] theorem State.postListed_life (s : State) (w : Option (Word × Word)) : (s.postListed w).life = s.life := by
  cases w <;> rfl
@[simp] theorem State.postListed_txq (s : State) (w : Option (Word × Word)) : (s.postListed w).txq = s.txq := by
  cases w <;> rfl
@[simp] theorem State.postListed_rxq (s : State) (w : Option (Word × Word)) : (s.postListed w).rxq = s.rxq := by
  cases w <;> rfl
@[simp] theorem State.postListed_cmdw (s : State) (w : Option (Word × Word)) : (s.postListed w).cmdw = s.cmdw := by
  cases w <;> rfl
@[simp] theorem State.postListed_fault (s : State) (w : Option (Word × Word)) : (s.postListed w).fault = s.fault := by
  cases w <;> rfl
@[simp] theorem State.postListed_mac (s : State) (w : Option (Word × Word)) : (s.postListed w).mac = s.mac := by
  cases w <;> rfl

@[simp] theorem blockReset_life (s : State) : (blockReset s).life = .uninitialized := rfl

/-- A micro-operation that goes on changes neither the configuration nor the command port nor the latch. -/
theorem Goes.frame {s u : State} {q q' : Seq} (h : Goes s q u q') :
    u.cfg = s.cfg ∧ u.cmdw = s.cmdw ∧ u.fault = s.fault := by
  cases h with
  | construct h => cases h <;> simp
  | transmit h => cases h <;> simp
  | receive h => cases h <;> simp
  | serviceIrq h => cases h <;> simp
  | irqEnable h => cases h <;> simp
  | irqDisable h => cases h <;> simp
  | teardown h => cases h <;> simp

/-- Nor does one that returns. -/
theorem Returns.frame {s u : State} {q : Seq} {v : Word} (h : Returns s q u v) :
    u.cfg = s.cfg ∧ u.cmdw = s.cmdw ∧ u.fault = s.fault := by
  cases h <;> simp

/-! ### The lifecycle -/

theorem lifeAt_gateOf (i : Instr) (n : Nat) (l : Life) : lifeAt (gateOf i n) l = settledLife l := by
  cases i <;> simp [gateOf, lifeAt, constructLife]

@[simp] theorem constructLife_afterAlloc (c : Cfg) (k : Nat) (l : Life) :
    constructLife (afterAlloc c k) l = (l == .uninitialized) := by
  unfold afterAlloc; split <;> rfl
@[simp] theorem constructLife_afterTxDesc (c : Cfg) (i : Nat) (l : Life) :
    constructLife (afterTxDesc c i) l = (l == .reset) := by
  unfold afterTxDesc; split <;> rfl
@[simp] theorem constructLife_afterTxReg (k : Nat) (l : Life) : constructLife (afterTxReg k) l = (l == .reset) := by
  unfold afterTxReg; split <;> rfl
@[simp] theorem constructLife_afterRxDesc (c : Cfg) (i : Nat) (l : Life) :
    constructLife (afterRxDesc c i) l = (l == .reset) := by
  unfold afterRxDesc; split <;> rfl
@[simp] theorem constructLife_afterRxReg (k : Nat) (l : Life) : constructLife (afterRxReg k) l = (l == .reset) := by
  unfold afterRxReg; split <;> rfl
@[simp] theorem constructLife_timingFrom (c : Cfg) (k : Nat) (l : Life) :
    constructLife (timingFrom c k) l = (l == .ringsProgrammed) := by
  unfold timingFrom; split <;> rfl
@[simp] theorem constructLife_afterMta (c : Cfg) (k : Nat) (l : Life) :
    constructLife (afterMta c k) l = (l == .ringsProgrammed) := by
  unfold afterMta; split
  · rfl
  · exact constructLife_timingFrom c 0 l

@[simp] theorem copyFrom_ne_gate (i m k : Nat) : copyFrom i m k ≠ .gate := by
  unfold copyFrom; split <;> simp
@[simp] theorem copyOutFrom_ne_gate (i m : Nat) (pkt : List Byte) : copyOutFrom i m pkt ≠ .gate := by
  unfold copyOutFrom; split <;> simp
@[simp] theorem afterScrub_ne_gate (i k : Nat) : afterScrub i k ≠ .gate := by
  unfold afterScrub; split <;> simp
@[simp] theorem afterFree_ne_gate (c : Cfg) (k : Nat) : afterFree c k ≠ .gate := by
  unfold afterFree; split <;> simp

/-- CONSTRUCT walks the lifecycle in order (R203) and never stands past its gate in `Failed`. -/
theorem ConstructGoes.life {s u : State} {p p' : ConstructPos} (h : ConstructGoes s p u p')
    (hl : constructLife p s.life = true) :
    constructLife p' u.life = true ∧ s.life ≠ .failed ∧ u.life ≠ .failed := by
  cases h
  case alloc | txStatus | txReg | rxAddr | rxReg | mta | timing =>
    replace hl := eq_of_beq (a := s.life) hl
    simp [hl]
  all_goals simp_all [constructLife]

/-- The other commands go on only in `Ready`, and stay in it until they return. -/
theorem TransmitGoes.life {s u : State} {p p' : TransmitPos} (h : TransmitGoes s p u p') :
    p' ≠ .gate ∧ u.life = s.life ∧ (p = .gate → s.life = .ready) := by
  cases h <;> simp_all
theorem ReceiveGoes.life {s u : State} {p p' : ReceivePos} (h : ReceiveGoes s p u p') :
    p' ≠ .gate ∧ u.life = s.life ∧ (p = .gate → s.life = .ready) := by
  cases h <;> simp_all
theorem CauseGoes.life {s u : State} {p p' : CausePos} (h : CauseGoes s p u p') :
    p' ≠ .gate ∧ u.life = s.life ∧ (p = .gate → s.life = .ready) := by
  cases h <;> simp_all
theorem MaskGoes.life {s u : State} {off v : Word} {p p' : MaskPos} (h : MaskGoes s off v p u p') :
    p' ≠ .gate ∧ u.life = s.life ∧ (p = .gate → s.life = .ready) := by
  cases h <;> simp_all
theorem TeardownGoes.life {s u : State} {p p' : TeardownPos} (h : TeardownGoes s p u p') :
    p' ≠ .gate ∧ u.life = s.life ∧ (p = .gate → s.life = .ready) := by
  cases h <;> simp_all

/-- Where a command other than CONSTRUCT goes on, the lifecycle state is `Ready` before and after. -/
theorem ready_of_goes {α : Type} [DecidableEq α] {p p' g : α} {l l' : Life}
    (h : p' ≠ g ∧ l' = l ∧ (p = g → l = .ready))
    (hl : (if p = g then settledLife l else l == .ready) = true) :
    (if p' = g then settledLife l' else l' == .ready) = true ∧ l ≠ .failed ∧ l' ≠ .failed := by
  obtain ⟨hp', rfl, hg⟩ := h
  have hr : l' = .ready := by
    split at hl
    · exact hg ‹_›
    · simpa using hl
  simp [hp', hr]

theorem Goes.life {s u : State} {q q' : Seq} (h : Goes s q u q') (hl : lifeAt q s.life = true) :
    lifeAt q' u.life = true ∧ s.life ≠ .failed ∧ u.life ≠ .failed := by
  cases h with
  | construct h => exact h.life hl
  | transmit h => exact ready_of_goes h.life hl
  | receive h => exact ready_of_goes h.life hl
  | serviceIrq h => exact ready_of_goes h.life hl
  | irqEnable h => exact ready_of_goes h.life hl
  | irqDisable h => exact ready_of_goes h.life hl
  | teardown h => exact ready_of_goes h.life hl

/-- A command returns from `Ready` and leaves `Ready`, or `Uninitialized` after TEARDOWN (R203, R220). -/
theorem Returns.life {s u : State} {q : Seq} {v : Word} (h : Returns s q u v) (hl : lifeAt q s.life = true) :
    settledLife u.life = true ∧ s.life ≠ .failed ∧ u.life ≠ .failed := by
  cases h <;> simp_all [lifeAt, constructLife, settledLife]

theorem lifeInv_congr {s t : State} (hl : t.life = s.life) (hq : t.seq = s.seq) (hf : t.fault = s.fault)
    (hi : LifeInv s) : LifeInv t := by
  simpa only [LifeInv, hl, hq, hf] using hi

/-- The invariant where the lifecycle state is not `Failed`. -/
theorem lifeInv_of_not_failed {s : State} (hl : lifeAt s.seq s.life = true) (hn : s.life ≠ .failed)
    (hf : s.fault = 0) : LifeInv s := ⟨hl, by simp [hn, hf]⟩

theorem codeByte_ne_zero {c : Code} (hc : codeFatal c = true) : codeByte c ≠ 0#8 := by
  cases c <;> simp_all [codeFatal, codeByte]

/-- A fatal fault latches a code that is not 0, in `Failed` (R310). -/
theorem lifeInv_raise_fatal {c : Code} (hc : codeFatal c = true) (s : State) (v : Word) : LifeInv (s.raise c v) := by
  refine ⟨by simp [hc, lifeAt, settledLife], ?_⟩
  by_cases hf : s.fault = 0#8 <;> simp [hc, hf, codeByte_ne_zero hc]

/-- An outcome that latches nothing ends a command in a lifecycle state a command can meet. -/
theorem lifeInv_raise_plain {c : Code} (hc : codeFatal c = false) {s : State} (v : Word)
    (hl : settledLife s.life = true) (hf : s.life = .failed ↔ s.fault ≠ 0) : LifeInv (s.raise c v) := by
  refine ⟨by simpa [hc, lifeAt] using hl, ?_⟩
  simpa [hc] using hf

theorem MicroOp.lifeInv {s t : State} {q : Seq} (h : MicroOp s q t) (hq : s.seq = q) (hi : LifeInv s) :
    LifeInv t := by
  obtain ⟨hl, hf⟩ := hi
  rw [hq] at hl
  cases h with
  | holds => exact ⟨hq ▸ hl, hf⟩
  | fatal hc => exact lifeInv_raise_fatal hc _ _
  | wrongState =>
    rw [lifeAt_gateOf] at hl
    exact lifeInv_raise_plain rfl _ hl hf
  | busy =>
    have hr : s.life = .ready := by simpa [lifeAt] using hl
    exact lifeInv_raise_plain rfl _ (by simp [hr, settledLife]) hf
  | rxInvalid =>
    have hr : s.life = .ready := by simpa [lifeAt] using hl
    exact lifeInv_raise_plain rfl _ (by simp [hr, settledLife]) hf
  | goes hg =>
    obtain ⟨hl', hs, hu⟩ := hg.life hl
    obtain ⟨_, _, hfault⟩ := hg.frame
    exact lifeInv_of_not_failed hl' hu (by simpa [hfault, hs] using hf)
  | returns hr =>
    obtain ⟨hl', hs, hu⟩ := hr.life hl
    obtain ⟨_, _, hfault⟩ := hr.frame
    exact lifeInv_of_not_failed hl' hu (by simpa [hfault, hs] using hf)

theorem Performed.lifeInv {s t : State} {mv : Move} (h : Performed s mv t) (hi : LifeInv s) : LifeInv t := by
  cases h with
  | microOp h => exact h.lifeInv rfl hi
  | issued hs =>
    obtain ⟨hl, hf⟩ := hi
    rw [hs] at hl
    exact ⟨(lifeAt_gateOf _ 0 _).trans hl, hf⟩
  | illegal hs =>
    obtain ⟨hl, hf⟩ := hi
    rw [hs] at hl
    exact lifeInv_raise_plain rfl _ hl hf
  | bystander h => exact lifeInv_congr h.life h.seq h.fault hi
  | arrived => exact lifeInv_congr (by simp) (by simp) (by simp) hi
  | macReset => exact lifeInv_congr rfl rfl rfl hi
  | blockReset => exact lifeInv_of_not_failed rfl (by simp) rfl

/-- Settles O9: each case of what a step can answer keeps the lifecycle state fitting the sequencer's place. -/
theorem stepKeepsLifecycle : Obligations.StepKeepsLifecycle := fun s _ hi h =>
  (step_performed h).lifeInv (lifeInv_congr (s := s) rfl rfl rfl hi)

/-! ### The command word -/

/-- A command goes on as the same command. -/
theorem Goes.instr {s u : State} {q q' : Seq} (h : Goes s q u q') : q'.instr = q.instr := by
  cases h <;> rfl

theorem portInv_congr {s t : State} (hq : t.seq.instr = s.seq.instr) (hw : t.cmdw = s.cmdw) (hi : PortInv s) :
    PortInv t := by
  simpa only [PortInv, hq, hw] using hi

/-- While idle there is no command in progress. -/
theorem portInv_of_idle {s : State} (h : s.seq = .idle) : PortInv s := by
  simp [PortInv, h, Seq.instr]

theorem MicroOp.portInv {s t : State} {q : Seq} (h : MicroOp s q t) (hq : s.seq = q) (hi : PortInv s) :
    PortInv t := by
  cases h with
  | holds => exact hi
  | fatal | wrongState | busy | rxInvalid => exact portInv_of_idle (State.raise_seq _ _ _)
  | goes hg => exact portInv_congr (hq ▸ hg.instr) hg.frame.2.1 hi
  | returns => exact portInv_of_idle rfl

theorem Performed.portInv {s t : State} {mv : Move} (h : Performed s mv t) (hi : PortInv s) : PortInv t := by
  cases h with
  | microOp h => exact h.portInv rfl hi
  | issued _ hd =>
    intro j hj
    rw [gateOf_instr_of_decode 0 hd, Option.some.injEq] at hj
    rw [← hj]
    exact hd
  | illegal => exact portInv_of_idle (State.raise_seq _ _ _)
  | bystander h => exact portInv_congr (by rw [h.seq]) h.cmdw hi
  | arrived => exact portInv_congr (by simp) (by simp) hi
  | macReset => exact portInv_congr rfl rfl hi
  | blockReset => exact portInv_of_idle rfl

/-- Settles O10: a command goes on as itself or ends, and only an issue, which starts the command its word decodes to,
writes the port. -/
theorem stepKeepsCommandWord : Obligations.StepKeepsCommandWord := fun s _ hi h =>
  (step_performed h).portInv (portInv_congr (s := s) rfl rfl hi)

end Sys2Proof.Machine
end

section
/-! SHADOW AND TAIL REGISTER (R36, R60, R65, R354): for each ring, the register once the posted writes have arrived is
the shadow index, from init's tail write on. -/

namespace Sys2Proof.Machine

/-! ### One ring's tail -/

/-- The offset of the tail register of ring `q` (R60, R65). -/
def tailOff (c : Cfg) (q : RingId) : Word :=
  match q with
  | .tx => c.offTdt
  | .rx => c.offRdt

/-- What the tail register of ring `q` holds. -/
def tailReg (m : Mac) (q : RingId) : Word :=
  match q with
  | .tx => m.tdt
  | .rx => m.rdt

/-- Init has written the tail register of ring `q`. -/
def tailKnown (s : State) (q : RingId) : Prop :=
  match q with
  | .tx => txTailKnown s
  | .rx => rxTailKnown s

/-- Ring `q`'s tail register, once the posted writes have arrived, holds the shadow index. -/
def tailAgrees (s : State) (q : RingId) : Prop :=
  regAfter s.cfg (tailOff s.cfg q) (tailReg s.mac q) s.pwq = indexWord (s.ringOf q).tail

theorem tailInv_iff {s : State} : TailInv s ↔
    lifeAt s.seq s.life = true ∧ (∀ n k, s.seq = .construct n (.mta k) → k < 128) ∧
      ∀ q, tailKnown s q → tailAgrees s q := by
  refine and_congr_right fun _ => and_congr_right fun _ => ⟨fun ⟨ht, hr⟩ q => ?_, fun h => ⟨h .tx, h .rx⟩⟩
  cases q
  · exact ht
  · exact hr

/-- The two states have the same tail registers, posted writes and shadow indices. -/
structure SameTails (s t : State) : Prop where
  cfg : t.cfg = s.cfg
  pwq : t.pwq = s.pwq
  tdt : t.mac.tdt = s.mac.tdt
  rdt : t.mac.rdt = s.mac.rdt
  txTail : t.txq.tail = s.txq.tail
  rxTail : t.rxq.tail = s.rxq.tail

theorem SameTails.agrees {s t : State} (h : SameTails s t) {q : RingId} (ha : tailAgrees s q) : tailAgrees t q := by
  cases q <;>
    simpa only [tailAgrees, tailOff, tailReg, State.ringOf, h.cfg, h.pwq, h.tdt, h.rdt, h.txTail, h.rxTail] using ha

theorem Bystander.sameTails {s t : State} (h : Bystander s t) : SameTails s t where
  cfg := h.cfg
  pwq := h.pwq
  tdt := h.tdt
  rdt := h.rdt
  txTail := by rw [h.txq]
  rxTail := by rw [h.rxq]

@[simp] theorem macRead_tdt (r : Reg) (s : State) : (macRead r s).2.mac.tdt = s.mac.tdt := by cases r <;> rfl
@[simp] theorem macRead_rdt (r : Reg) (s : State) : (macRead r s).2.mac.rdt = s.mac.rdt := by cases r <;> rfl

/-! ### Where init stands -/

/-- CONSTRUCT stands between the two tail writes of init. -/
def inRxInit (q : Seq) : Bool :=
  match q with
  | .construct _ (.rxAddr _) => true
  | .construct _ (.rxReg _) => true
  | .construct _ .rxFence => true
  | .construct _ .rxTail => true
  | _ => false

theorem txTailKnown_iff {s : State} : txTailKnown s ↔ inRxInit s.seq = true ∨ rxTailKnown s := by
  unfold txTailKnown inRxInit rxTailKnown
  split <;> simp [*]

theorem tailKnown_iff {s : State} {q : RingId} :
    tailKnown s q ↔ (q = .tx ∧ inRxInit s.seq = true) ∨ rxTailKnown s := by
  cases q
  · simpa [tailKnown] using txTailKnown_iff
  · simp [tailKnown]

@[simp] theorem inRxInit_gateOf (i : Instr) (n : Nat) : inRxInit (gateOf i n) = false := by cases i <;> rfl
@[simp] theorem inRxInit_afterAlloc (n k : Nat) (c : Cfg) : inRxInit (.construct n (afterAlloc c k)) = false := by
  unfold afterAlloc; split <;> rfl
@[simp] theorem inRxInit_afterTxDesc (n i : Nat) (c : Cfg) : inRxInit (.construct n (afterTxDesc c i)) = false := by
  unfold afterTxDesc; split <;> rfl
@[simp] theorem inRxInit_afterTxReg (n k : Nat) : inRxInit (.construct n (afterTxReg k)) = false := by
  unfold afterTxReg; split <;> rfl
@[simp] theorem inRxInit_timingFrom (n k : Nat) (c : Cfg) : inRxInit (.construct n (timingFrom c k)) = false := by
  unfold timingFrom; split <;> rfl
@[simp] theorem inRxInit_afterMta (n k : Nat) (c : Cfg) : inRxInit (.construct n (afterMta c k)) = false := by
  unfold afterMta; split
  · rfl
  · exact inRxInit_timingFrom n 0 c

/-- The multicast loop stays inside the table (R211). -/
theorem afterMta_lt {c : Cfg} {k j : Nat} (h : afterMta c k = .mta j) : j < 128 := by
  unfold afterMta mtaEntries timingFrom at h
  split at h
  · cases h
    assumption
  · split at h <;> cases h

theorem ConstructGoes.mta_lt {s u : State} {p p' : ConstructPos} (h : ConstructGoes s p u p') {j : Nat}
    (hj : p' = .mta j) : j < 128 := by
  cases h
  case alloc => unfold afterAlloc at hj; split at hj <;> cases hj
  case txStatus => unfold afterTxDesc at hj; split at hj <;> cases hj
  case txReg => unfold afterTxReg at hj; split at hj <;> cases hj
  case rxAddr => unfold afterRxDesc at hj; split at hj <;> cases hj
  case rxReg => unfold afterRxReg at hj; split at hj <;> cases hj
  case timing => unfold timingFrom at hj; split at hj <;> cases hj
  case mta => exact afterMta_lt hj
  case rxTail =>
    cases hj
    decide
  all_goals cases hj

theorem Goes.mta_lt {s u : State} {q q' : Seq} (h : Goes s q u q') {n j : Nat} (hj : q' = .construct n (.mta j)) :
    j < 128 := by
  cases h with
  | construct h => exact h.mta_lt (Seq.construct.inj hj).2
  | _ => cases hj

/-! ### Register writes that reach no tail -/

/-- A write to `o` reaches neither tail register. -/
def QuietOffset (c : Cfg) (o : Word) : Prop := o ≠ c.offTdt ∧ o ≠ c.offRdt ∧ o ≠ c.offCtl

theorem quietOffset_of_regAt {c : Cfg} (hv : c.valid = true) {o : Word} {r : Reg} (h : regAt c o = some r)
    (hr : r ≠ .tdt ∧ r ≠ .rdt ∧ r ≠ .ctl) : QuietOffset c o := by
  obtain ⟨htdt, hrdt, hctl⟩ := hr
  refine ⟨?_, ?_, ?_⟩ <;> rintro rfl
  · exact htdt (Option.some.inj (h.symm.trans (regAt_tdt hv)))
  · exact hrdt (Option.some.inj (h.symm.trans (regAt_rdt hv)))
  · exact hctl (Option.some.inj (h.symm.trans (regAt_ctl hv)))

theorem quietOffset_ims {c : Cfg} (hv : c.valid = true) : QuietOffset c c.offIms :=
  quietOffset_of_regAt hv (regAt_ims hv) (by decide)

theorem quietOffset_icr {c : Cfg} (hv : c.valid = true) : QuietOffset c c.offIcr :=
  quietOffset_of_regAt hv (regAt_icr hv) (by decide)

theorem quietOffset_mta {c : Cfg} (hv : c.valid = true) {k : Nat} (hk : k < 128) : QuietOffset c (mtaOff c k) :=
  quietOffset_of_regAt hv (regAt_mta hv hk) (by simp)

theorem quietOffset_txRegWrites {s : State} (hv : s.cfg.valid = true) {k : Nat} {o v : Word}
    (h : (txRegWrites s)[k]? = some (o, v)) : QuietOffset s.cfg o := by
  have hm := List.mem_of_getElem? h
  simp only [txRegWrites, List.mem_cons, Prod.mk.injEq, List.not_mem_nil, or_false] at hm
  rcases hm with ⟨rfl, _⟩ | ⟨rfl, _⟩ | ⟨rfl, _⟩ | ⟨rfl, _⟩ | ⟨rfl, _⟩ | ⟨rfl, _⟩
  · exact quietOffset_of_regAt hv (regAt_tctl hv) (by decide)
  · exact quietOffset_of_regAt hv (regAt_tipg hv) (by decide)
  · exact quietOffset_of_regAt hv (regAt_tdbal hv) (by decide)
  · exact quietOffset_of_regAt hv (regAt_tdbah hv) (by decide)
  · exact quietOffset_of_regAt hv (regAt_tdlen hv) (by decide)
  · exact quietOffset_of_regAt hv (regAt_tdh hv) (by decide)

theorem quietOffset_rxRegWrites {s : State} (hv : s.cfg.valid = true) {k : Nat} {o v : Word}
    (h : (rxRegWrites s)[k]? = some (o, v)) : QuietOffset s.cfg o := by
  have hm := List.mem_of_getElem? h
  simp only [rxRegWrites, List.mem_cons, Prod.mk.injEq, List.not_mem_nil, or_false] at hm
  rcases hm with ⟨rfl, _⟩ | ⟨rfl, _⟩ | ⟨rfl, _⟩ | ⟨rfl, _⟩ | ⟨rfl, _⟩
  · exact quietOffset_of_regAt hv (regAt_rctl hv) (by decide)
  · exact quietOffset_of_regAt hv (regAt_rdbal hv) (by decide)
  · exact quietOffset_of_regAt hv (regAt_rdbah hv) (by decide)
  · exact quietOffset_of_regAt hv (regAt_rdlen hv) (by decide)
  · exact quietOffset_of_regAt hv (regAt_rdh hv) (by decide)

/-! ### Posting, and writing a tail -/

theorem regAfter_append (c : Cfg) (off cur : Word) (l : List Posted) (p : Posted) :
    regAfter c off cur (l ++ [p]) =
      if p.off = off then p.v else if p.off = c.offCtl ∧ p.v &&& c.ctlRst ≠ 0 then 0 else regAfter c off cur l := by
  induction l generalizing cur with
  | nil => rfl
  | cons a rest ih => exact ih _

theorem tailOff_ne_ctl {c : Cfg} (hv : c.valid = true) (q : RingId) : tailOff c q ≠ c.offCtl := by
  intro h
  have hctl := regAt_ctl hv
  rw [← h] at hctl
  cases q
  · simp [tailOff, regAt_tdt hv] at hctl
  · simp [tailOff, regAt_rdt hv] at hctl

theorem tailOff_ne {c : Cfg} (hv : c.valid = true) {q r : RingId} (hqr : q ≠ r) : tailOff c q ≠ tailOff c r := by
  have h : c.offTdt ≠ c.offRdt := by
    intro h
    have htdt := regAt_tdt hv
    simp [h, regAt_rdt hv] at htdt
  cases q <;> cases r
  · exact absurd rfl hqr
  · exact h
  · exact h.symm
  · exact absurd rfl hqr

/-- Posting a write that reaches no tail leaves the agreement of either ring. -/
theorem tailAgrees_post {s : State} {q : RingId} {o v : Word} (ho : QuietOffset s.cfg o) (ha : tailAgrees s q) :
    tailAgrees (s.post o v) q := by
  obtain ⟨htdt, hrdt, hctl⟩ := ho
  have hoff : o ≠ tailOff s.cfg q := by cases q <;> assumption
  simpa [tailAgrees, State.ringOf, regAfter_append, hoff, hctl] using ha

/-- A tail write posted, the shadow index moved with it. -/
def State.moveTail (s : State) (q : RingId) (i : Nat) : State := (s.post (tailOff s.cfg q) (indexWord i)).setTail q i

theorem tailAgrees_moveTail (s : State) (q : RingId) (i : Nat) : tailAgrees (s.moveTail q i) q := by
  cases q <;> simp [tailAgrees, State.moveTail, State.ringOf, regAfter_append]

theorem tailAgrees_moveTail_other {s : State} (hv : s.cfg.valid = true) {q r : RingId} (hqr : q ≠ r) (i : Nat)
    (ha : tailAgrees s r) : tailAgrees (s.moveTail q i) r := by
  have hring : ((s.moveTail q i).ringOf r).tail = (s.ringOf r).tail := by
    cases q <;> cases r <;> simp_all [State.moveTail, State.ringOf]
  rw [tailAgrees, hring]
  simpa [tailAgrees, State.moveTail, regAfter_append, tailOff_ne hv hqr, tailOff_ne_ctl hv] using ha

/-! ### What a micro-operation does to the tails -/

/-- What a micro-operation other than the device reset's can do to the tail registers and the shadow indices. -/
inductive TailEffect (s u : State) : Prop
  | unchanged : SameTails s u → TailEffect s u
  | posted {o v : Word} : QuietOffset s.cfg o → SameTails (s.post o v) u → TailEffect s u
  | moved {q : RingId} {i : Nat} : SameTails (s.moveTail q i) u → TailEffect s u

theorem TailEffect.agrees {s u : State} (h : TailEffect s u) (hv : s.cfg.valid = true) {q : RingId}
    (ha : tailAgrees s q) : tailAgrees u q := by
  cases h with
  | unchanged h => exact h.agrees ha
  | posted ho h => exact h.agrees (tailAgrees_post ho ha)
  | @moved r i h =>
    by_cases hr : r = q
    · exact hr ▸ h.agrees (tailAgrees_moveTail s r i)
    · exact h.agrees (tailAgrees_moveTail_other hv hr i ha)

theorem tailEffect_postListed {s : State} {w : Option (Word × Word)}
    (h : ∀ o v, w = some (o, v) → QuietOffset s.cfg o) : TailEffect s (s.postListed w) := by
  cases w with
  | none => exact .unchanged (by constructor <;> rfl)
  | some x => exact .posted (h x.1 x.2 rfl) (by constructor <;> rfl)

@[simp] theorem setAllocHandle_txTail (s : State) (k : Nat) (h : Handle) :
    (setAllocHandle s k h).txq.tail = s.txq.tail := by unfold setAllocHandle; split_ifs <;> rfl
@[simp] theorem setAllocHandle_rxTail (s : State) (k : Nat) (h : Handle) :
    (setAllocHandle s k h).rxq.tail = s.rxq.tail := by unfold setAllocHandle; split_ifs <;> rfl

theorem ConstructGoes.tailEffect {s u : State} {p p' : ConstructPos} (h : ConstructGoes s p u p')
    (hc : tailsPrivate s.cfg) (hreset : ∀ c, p ≠ .assertReset c) (hmta : ∀ k, p = .mta k → k < 128) :
    TailEffect s u := by
  obtain ⟨hv, hpriv⟩ := hc
  cases h
  case assertReset => exact absurd rfl (hreset _)
  case maskFirst | maskAgain | unmask => exact .posted (quietOffset_ims hv) (by constructor <;> rfl)
  case clearCause => exact .posted (quietOffset_icr hv) (by constructor <;> rfl)
  case mta => exact .posted (quietOffset_mta hv (hmta _ rfl)) (by constructor <;> rfl)
  case txReg => exact tailEffect_postListed fun o v h => quietOffset_txRegWrites hv h
  case rxReg => exact tailEffect_postListed fun o v h => quietOffset_rxRegWrites hv h
  case timing =>
    refine tailEffect_postListed fun o v h => hpriv o (.inr ?_)
    obtain ⟨x, hx, hxo⟩ := Option.map_eq_some_iff.1 h
    cases hxo
    exact List.mem_of_getElem? hx
  case txTail => exact .moved (q := .tx) (i := 0) (by constructor <;> rfl)
  case rxTail => exact .moved (q := .rx) (by constructor <;> rfl)
  all_goals exact .unchanged (by constructor <;> simp)

theorem TransmitGoes.tailEffect {s u : State} {p p' : TransmitPos} (h : TransmitGoes s p u p') : TailEffect s u := by
  cases h
  case handOff => exact .moved (q := .tx) (by constructor <;> rfl)
  all_goals exact .unchanged (by constructor <;> simp)

theorem ReceiveGoes.tailEffect {s u : State} {p p' : ReceivePos} (h : ReceiveGoes s p u p') : TailEffect s u := by
  cases h
  case rearm => exact .moved (q := .rx) (by constructor <;> rfl)
  all_goals exact .unchanged (by constructor <;> simp)

theorem CauseGoes.tailEffect {s u : State} {p p' : CausePos} (h : CauseGoes s p u p') (hv : s.cfg.valid = true) :
    TailEffect s u := by
  cases h
  case writeBack => exact .posted (quietOffset_icr hv) (by constructor <;> rfl)
  all_goals exact .unchanged (by constructor <;> simp)

theorem MaskGoes.tailEffect {s u : State} {off v : Word} {p p' : MaskPos} (h : MaskGoes s off v p u p')
    (ho : QuietOffset s.cfg off) : TailEffect s u := by
  cases h
  case write => exact .posted ho (by constructor <;> rfl)
  all_goals exact .unchanged (by constructor <;> simp)

theorem TeardownGoes.tailEffect {s u : State} {p p' : TeardownPos} (h : TeardownGoes s p u p') : TailEffect s u := by
  cases h <;> exact .unchanged (by constructor <;> rfl)

theorem Goes.tailEffect {s u : State} {q q' : Seq} (h : Goes s q u q') (hc : tailsPrivate s.cfg)
    (hreset : ∀ n c, q ≠ .construct n (.assertReset c)) (hmta : ∀ n k, q = .construct n (.mta k) → k < 128) :
    TailEffect s u := by
  cases h with
  | construct h =>
    exact h.tailEffect hc (fun c hp => hreset _ c (by rw [hp])) (fun k hp => hmta _ k (by rw [hp]))
  | transmit h => exact h.tailEffect
  | receive h => exact h.tailEffect
  | serviceIrq h => exact h.tailEffect hc.1
  | irqEnable h => exact h.tailEffect (quietOffset_ims hc.1)
  | irqDisable h => exact h.tailEffect (hc.2 _ (.inl rfl))
  | teardown h => exact h.tailEffect

/-! ### Where the tails become known -/

/-- Ring `q`'s tail is written, whatever the index. -/
def TailMoves (s u : State) (q : RingId) : Prop := ∃ i, SameTails (s.moveTail q i) u

/-- Init reaches the RX half by the TX tail write. -/
theorem ConstructGoes.inRxInit {s u : State} {n m : Nat} {p p' : ConstructPos} (h : ConstructGoes s p u p')
    (hp : inRxInit (.construct m p') = true) : inRxInit (.construct n p) = true ∨ TailMoves s u .tx := by
  cases h
  case txTail => exact .inr ⟨0, by constructor <;> rfl⟩
  case rxAddr | rxReg | rxFence => exact .inl rfl
  case alloc | txStatus | txReg | mta | timing => simp at hp
  all_goals cases hp

/-- The lifecycle leaves `Reset` by the RX tail write. -/
theorem ConstructGoes.rxTailKnown {s u : State} {p p' : ConstructPos} (h : ConstructGoes s p u p')
    (hl : constructLife p s.life = true) (hk : rxTailKnown u) :
    rxTailKnown s ∨ (p = .rxTail ∧ TailMoves s u .rx) := by
  cases h
  case rxTail => exact .inr ⟨rfl, _, by constructor <;> rfl⟩
  all_goals simp_all [Sys2Proof.rxTailKnown, constructLife]

theorem ConstructGoes.tailKnown {s u : State} {n : Nat} {p p' : ConstructPos} (h : ConstructGoes s p u p')
    (hs : s.seq = .construct n p) (hl : constructLife p s.life = true) {q : RingId}
    (hk : tailKnown { u with seq := .construct (n + 1) p' } q) : tailKnown s q ∨ TailMoves s u q := by
  rw [tailKnown_iff] at hk
  rw [tailKnown_iff, hs]
  rcases hk with ⟨rfl, hin⟩ | hr
  · rcases h.inRxInit (n := n) hin with hin | hm
    · exact .inl (.inl ⟨rfl, hin⟩)
    · exact .inr hm
  · rcases h.rxTailKnown hl hr with hr | ⟨rfl, hm⟩
    · exact .inl (.inr hr)
    · cases q
      · exact .inl (.inl ⟨rfl, rfl⟩)
      · exact .inr hm

/-- The other commands keep the lifecycle state, and init is over or has not begun. -/
theorem tailKnown_of_life {s u : State} {q' : Seq} (hl : u.life = s.life) (hq' : inRxInit q' = false) {q : RingId}
    (hk : tailKnown { u with seq := q' } q) : tailKnown s q := by
  rw [tailKnown_iff] at hk ⊢
  rcases hk with ⟨_, hin⟩ | hr
  · exact absurd hin (by simp [hq'])
  · exact .inr (by simpa [rxTailKnown, hl] using hr)

theorem Goes.tailKnown {s u : State} {q q' : Seq} (h : Goes s q u q') (hs : s.seq = q)
    (hl : lifeAt q s.life = true) {r : RingId} (hk : tailKnown { u with seq := q' } r) :
    tailKnown s r ∨ TailMoves s u r := by
  cases h with
  | construct h => exact h.tailKnown hs hl hk
  | transmit h => exact .inl (tailKnown_of_life h.life.2.1 rfl hk)
  | receive h => exact .inl (tailKnown_of_life h.life.2.1 rfl hk)
  | serviceIrq h => exact .inl (tailKnown_of_life h.life.2.1 rfl hk)
  | irqEnable h => exact .inl (tailKnown_of_life h.life.2.1 rfl hk)
  | irqDisable h => exact .inl (tailKnown_of_life h.life.2.1 rfl hk)
  | teardown h => exact .inl (tailKnown_of_life h.life.2.1 rfl hk)

/-- Where init resets the device no tail is known yet. -/
theorem not_tailKnown_at_reset {s : State} {n : Nat} {c : Word} (hs : s.seq = .construct n (.assertReset c))
    (hl : lifeAt s.seq s.life = true) (q : RingId) : ¬ tailKnown s q := by
  rw [hs] at hl
  have hlife : s.life = .uninitialized := eq_of_beq (a := s.life) hl
  simp [tailKnown_iff, hs, inRxInit, rxTailKnown, hlife]

theorem Goes.tailAgrees {s u : State} {q q' : Seq} (h : Goes s q u q') (hs : s.seq = q) (hc : tailsPrivate s.cfg)
    (hi : TailInv s) {r : RingId} (hk : Machine.tailKnown { u with seq := q' } r) : Machine.tailAgrees u r := by
  obtain ⟨hl, hmta, hag⟩ := tailInv_iff.1 hi
  rcases h.tailKnown hs (hs ▸ hl) hk with hks | ⟨i, hm⟩
  · have hreset : ∀ n c, q ≠ .construct n (.assertReset c) := fun n c hq =>
      not_tailKnown_at_reset (hs.trans hq) hl r hks
    exact (h.tailEffect hc hreset (hs ▸ hmta)).agrees hc.1 (hag r hks)
  · exact hm.agrees (tailAgrees_moveTail s r i)

/-! ### The steps -/

theorem tailInv_of_sameTails {s t : State} (hq : t.seq = s.seq) (hl : t.life = s.life) (h : SameTails s t)
    (hi : TailInv s) : TailInv t := by
  obtain ⟨hlife, hmta, hag⟩ := tailInv_iff.1 hi
  refine tailInv_iff.2 ⟨by rwa [hq, hl], by rwa [hq], fun q hk => h.agrees (hag q ?_)⟩
  rw [tailKnown_iff] at hk ⊢
  simpa only [rxTailKnown, hq, hl] using hk

/-- Where no tail is known and CONSTRUCT is not in its multicast loop, the invariant says only where init stands. -/
theorem tailInv_of_idle {s : State} (hs : s.seq = .idle) (hl : settledLife s.life = true)
    (hag : ∀ q, rxTailKnown s → tailAgrees s q) : TailInv s := by
  refine tailInv_iff.2 ⟨by rwa [hs], by simp [hs], fun q hk => hag q ?_⟩
  simpa [tailKnown_iff, hs, inRxInit] using hk

theorem tailInv_raise_fatal {c : Code} (hc : codeFatal c = true) (s : State) (v : Word) : TailInv (s.raise c v) :=
  tailInv_of_idle (State.raise_seq _ _ _) (by simp [hc, settledLife]) (by simp [rxTailKnown, hc])

/-- A command that ends in a lifecycle state a command can meet leaves the tails as they were. -/
theorem tailInv_of_ended {s t : State} (hi : TailInv s) (h : SameTails s t) (hs : t.seq = .idle)
    (hlife : t.life = s.life) (hl : settledLife s.life = true) : TailInv t := by
  obtain ⟨_, _, hag⟩ := tailInv_iff.1 hi
  refine tailInv_of_idle hs (by rwa [hlife]) fun q hk => h.agrees (hag q (tailKnown_iff.2 (.inr ?_)))
  simpa only [rxTailKnown, hlife] using hk

theorem MicroOp.tailInv {s t : State} {q : Seq} (h : MicroOp s q t) (hq : s.seq = q) (hc : tailsPrivate s.cfg)
    (hi : TailInv s) : TailInv t := by
  have hl : lifeAt q s.life = true := hq ▸ hi.1
  cases h with
  | holds => exact hi
  | fatal hcode => exact tailInv_raise_fatal hcode _ _
  | wrongState =>
    rw [lifeAt_gateOf] at hl
    exact tailInv_of_ended hi (by constructor <;> simp) (State.raise_seq _ _ _) (by simp [codeFatal]) hl
  | busy | rxInvalid =>
    have hr : s.life = .ready := by simpa [lifeAt] using hl
    exact tailInv_of_ended hi (by constructor <;> simp) (State.raise_seq _ _ _) (by simp [codeFatal])
      (by simp [hr, settledLife])
  | goes hg =>
    exact tailInv_iff.2 ⟨(hg.life hl).1, fun n k hk => hg.mta_lt hk, fun r hk => hg.tailAgrees hq hc hi hk⟩
  | returns hr =>
    cases hr with
    | teardown => exact tailInv_of_idle rfl rfl (by simp [rxTailKnown])
    | _ =>
      exact tailInv_of_ended hi (by constructor <;> rfl) rfl rfl (by simp_all [lifeAt, constructLife, settledLife])

/-- A `CTL` write with `RST` set resets the device (R262). -/
theorem macWrite_ctl_reset {s : State} {v : Word} (h : v &&& s.cfg.ctlRst ≠ 0) :
    macWrite .ctl v s = deviceReset { s with mac := { s.mac with ctl := v &&& ~~~s.cfg.ctlRst } } :=
  if_pos h

/-- Without `RST` it only stores the value (R49). -/
theorem macWrite_ctl_store {s : State} {v : Word} (h : v &&& s.cfg.ctlRst = 0) :
    macWrite .ctl v s = { s with mac := { s.mac with ctl := v } } := by
  have hv : v &&& ~~~s.cfg.ctlRst = v := by
    ext i hi
    have hb := congrArg (·[i]) h
    simp only [BitVec.getElem_and, BitVec.getElem_not] at hb ⊢
    cases hx : v[i] <;> simp_all
  rw [macWrite, hv]
  exact if_neg (not_not.2 h)

/-- An arriving write does to the tail register what `regAfter` says of it (R104, R262). -/
theorem tailReg_macWrite {s : State} (hv : s.cfg.valid = true) {p : Posted} {r : Reg}
    (hr : regAt s.cfg p.off = some r) (q : RingId) :
    tailReg (macWrite r p.v s).mac q =
      if p.off = tailOff s.cfg q then p.v
      else if p.off = s.cfg.offCtl ∧ p.v &&& s.cfg.ctlRst ≠ 0 then 0 else tailReg s.mac q := by
  by_cases hctl : p.off = s.cfg.offCtl
  · obtain rfl : r = .ctl := by simpa [hctl, regAt_ctl hv] using hr.symm
    have hne : p.off ≠ tailOff s.cfg q := hctl ▸ (tailOff_ne_ctl hv q).symm
    rw [if_neg hne]
    by_cases hrst : p.v &&& s.cfg.ctlRst = 0
    · rw [macWrite_ctl_store hrst, if_neg fun h => h.2 hrst]
      cases q <;> rfl
    · rw [macWrite_ctl_reset hrst, if_pos ⟨hctl, hrst⟩]
      cases q <;> rfl
  · have hnc : r ≠ .ctl := fun h => hctl (regAt_eq_ctl (h ▸ hr))
    have htdt : r = .tdt ↔ p.off = s.cfg.offTdt :=
      ⟨fun h => regAt_eq_tdt (h ▸ hr), fun h => by simpa [h, regAt_tdt hv] using hr.symm⟩
    have hrdt : r = .rdt ↔ p.off = s.cfg.offRdt :=
      ⟨fun h => regAt_eq_rdt (h ▸ hr), fun h => by simpa [h, regAt_rdt hv] using hr.symm⟩
    cases q <;> cases r <;> simp_all [macWrite, tailReg, tailOff]

theorem tailAgrees_arrived {s : State} (hv : s.cfg.valid = true) {p : Posted} {rest : List Posted} {r : Reg}
    (hp : s.pwq = p :: rest) (hr : regAt s.cfg p.off = some r) {q : RingId} (ha : tailAgrees s q) :
    tailAgrees (macWrite r p.v { s with pwq := rest }) q := by
  have hreg := tailReg_macWrite (s := { s with pwq := rest }) hv hr q
  rw [tailAgrees, hp, regAfter] at ha
  rw [tailAgrees, hreg]
  cases q <;> simpa [State.ringOf] using ha

theorem Performed.tailInv {s t : State} {mv : Move} (h : Performed s mv t) (hmv : mv ≠ .macReset)
    (hc : tailsPrivate s.cfg) (hi : TailInv s) : TailInv t := by
  cases h with
  | microOp h => exact h.tailInv rfl hc hi
  | @issued w a p i hs =>
    obtain ⟨hl, _, hag⟩ := tailInv_iff.1 hi
    rw [hs] at hl
    refine tailInv_iff.2 ⟨(lifeAt_gateOf i 0 _).trans hl, ?_, fun q hk => ?_⟩
    · cases i <;> simp [gateOf]
    · have hk' : Machine.tailKnown s q := tailKnown_of_life (u := s.writePort w a p) rfl (inRxInit_gateOf i 0) hk
      exact SameTails.agrees (by constructor <;> rfl) (hag q hk')
  | illegal hs =>
    have hl := hi.1
    rw [hs] at hl
    exact tailInv_of_ended hi (by constructor <;> simp) (State.raise_seq _ _ _) (by simp [codeFatal]) hl
  | bystander h => exact tailInv_of_sameTails h.seq h.life h.sameTails hi
  | arrived hp hr =>
    obtain ⟨hl, hmta, hag⟩ := tailInv_iff.1 hi
    refine tailInv_iff.2 ⟨by simpa using hl, by simpa using hmta, fun q hk => ?_⟩
    refine tailAgrees_arrived hc.1 hp hr (hag q ?_)
    simpa [tailKnown_iff, rxTailKnown] using hk
  | macReset => exact absurd rfl hmv
  | blockReset => exact tailInv_of_idle rfl rfl (by simp [rxTailKnown])

/-- Settles O17: a micro-operation posts a tail write exactly where it moves the shadow index, no other posted write
reaches a tail, and an arriving write does what `regAfter` foresees; with nothing posted, `regAfter` is the register. -/
theorem stepKeepsShadowTails : Obligations.StepKeepsShadowTails := by
  refine ⟨fun s t hc hmv hi h => ?_, fun s hi hl hp => ?_⟩
  · have hpop : TailInv s.popSched := tailInv_of_sameTails rfl rfl (by constructor <;> rfl) hi
    exact (step_performed h).tailInv hmv hc hpop
  · obtain ⟨_, _, hag⟩ := tailInv_iff.1 hi
    have hk : ∀ q, tailKnown s q := fun q => tailKnown_iff.2 (.inr (.inr (.inr hl)))
    have ha : ∀ q, tailReg s.mac q = indexWord (s.ringOf q).tail := fun q => by
      simpa only [tailAgrees, hp, regAfter] using hag q (hk q)
    exact ⟨ha .tx, ha .rx⟩

end Sys2Proof.Machine
end

section
/-! TABLES AND CONFIGURATION (R35, R37, R66, R75): every step keeps one table entry per slot and the configuration. -/

namespace Sys2Proof.Machine

@[simp] theorem setAllocHandle_txBuf_length (s : State) (k : Nat) (h : Handle) :
    (setAllocHandle s k h).txq.buf.length = s.txq.buf.length := by unfold setAllocHandle; split_ifs <;> simp
@[simp] theorem setAllocHandle_rxBuf_length (s : State) (k : Nat) (h : Handle) :
    (setAllocHandle s k h).rxq.buf.length = s.rxq.buf.length := by unfold setAllocHandle; split_ifs <;> simp
@[simp] theorem setAllocHandle_txOwn (s : State) (k : Nat) (h : Handle) :
    (setAllocHandle s k h).txq.own = s.txq.own := by unfold setAllocHandle; split_ifs <;> rfl
@[simp] theorem setAllocHandle_rxOwn (s : State) (k : Nat) (h : Handle) :
    (setAllocHandle s k h).rxq.own = s.rxq.own := by unfold setAllocHandle; split_ifs <;> rfl
@[simp] theorem freeRing_buf_length (cap n : Nat) : (freeRing cap n).buf.length = cap := by simp [freeRing]
@[simp] theorem freeRing_own_length (cap n : Nat) : (freeRing cap n).own.length = cap := by simp [freeRing]
@[simp] theorem macRead_mta (r : Reg) (s : State) : (macRead r s).2.mac.mta = s.mac.mta := by cases r <;> rfl
@[simp] theorem deviceReset_mta_length (s : State) : (deviceReset s).mac.mta.length = 128 := by
  simp [deviceReset]

theorem macWrite_mta_length {r : Reg} {v : Word} {s : State} (h : s.mac.mta.length = 128) :
    (macWrite r v s).mac.mta.length = 128 := by
  cases r with
  | ctl =>
    by_cases hrst : v &&& s.cfg.ctlRst = 0
    · rw [macWrite_ctl_store hrst]
      exact h
    · rw [macWrite_ctl_reset hrst]
      exact deviceReset_mta_length _
  | mta k => simpa [macWrite] using h
  | _ => exact h

/-- The lengths of the five tables are read off the configuration, the two rings and the multicast table. -/
theorem tableInv_congr {s t : State} (hc : t.cfg = s.cfg) (ht : t.txq = s.txq) (hr : t.rxq = s.rxq)
    (hm : t.mac.mta.length = s.mac.mta.length) (hi : TableInv s) : TableInv t := by
  simpa only [TableInv, hc, ht, hr, hm] using hi

theorem tableInv_raise {s : State} (c : Code) (v : Word) (hi : TableInv s) : TableInv (s.raise c v) :=
  tableInv_congr (by simp) (by simp) (by simp) (by simp) hi

/-- Rings whose elements are unspecified again still have `CAP` slots (R192, R220, R340). -/
theorem tableInv_forgetRings {s : State} (hi : TableInv s) : TableInv s.forgetRings := by
  obtain ⟨_, _, _, _, hm⟩ := hi
  simpa [TableInv] using hm

/-- A micro-operation that goes on sets an entry, or all tags of a ring at once (R188, R189). -/
theorem Goes.tableInv {s u : State} {q q' : Seq} (h : Goes s q u q') (hi : TableInv s) : TableInv u := by
  cases h with
  | construct h => cases h <;> simp_all [TableInv]
  | transmit h => cases h <;> simp_all [TableInv]
  | receive h => cases h <;> simp_all [TableInv]
  | serviceIrq h => cases h <;> simp_all [TableInv]
  | irqEnable h => cases h <;> simp_all [TableInv]
  | irqDisable h => cases h <;> simp_all [TableInv]
  | teardown h => cases h <;> simp_all [TableInv]

theorem Returns.tableInv {s u : State} {q : Seq} {v : Word} (h : Returns s q u v) (hi : TableInv s) :
    TableInv u := by
  cases h with
  | teardown => exact tableInv_forgetRings hi
  | _ => exact hi

theorem MicroOp.tableInv {s t : State} {q : Seq} (h : MicroOp s q t) (hi : TableInv s) : TableInv t := by
  cases h with
  | holds => exact hi
  | fatal | wrongState | busy | rxInvalid => exact tableInv_raise _ _ hi
  | goes hg => exact hg.tableInv hi
  | returns hr => exact hr.tableInv hi

theorem MicroOp.cfg_eq {s t : State} {q : Seq} (h : MicroOp s q t) : t.cfg = s.cfg := by
  cases h with
  | holds => rfl
  | fatal | wrongState | busy | rxInvalid => simp
  | goes hg => exact hg.frame.1
  | returns hr => exact hr.frame.1

theorem Performed.tableInv {s t : State} {mv : Move} (h : Performed s mv t) (hi : TableInv s) : TableInv t := by
  cases h with
  | microOp h => exact h.tableInv hi
  | issued => exact hi
  | illegal => exact tableInv_raise _ _ hi
  | bystander h => exact tableInv_congr h.cfg h.txq h.rxq (by rw [h.mta]) hi
  | arrived =>
    obtain ⟨htb, hto, hrb, hro, hm⟩ := hi
    exact ⟨by simpa, by simpa, by simpa, by simpa, macWrite_mta_length hm⟩
  | macReset =>
    obtain ⟨htb, hto, hrb, hro, _⟩ := hi
    exact ⟨htb, hto, hrb, hro, deviceReset_mta_length s⟩
  | blockReset => exact tableInv_forgetRings hi

theorem Performed.cfg_eq {s t : State} {mv : Move} (h : Performed s mv t) : t.cfg = s.cfg := by
  cases h with
  | microOp h => exact h.cfg_eq
  | bystander h => exact h.cfg
  | illegal | arrived => simp
  | issued | macReset | blockReset => rfl

/-- Settles O11: no case of what a step can answer writes the configuration or resizes a table. -/
theorem stepKeepsTablesAndConfiguration : Obligations.StepKeepsTablesAndConfiguration := fun _ _ h =>
  ⟨fun hi => (step_performed h).tableInv hi, (step_performed h).cfg_eq⟩

end Sys2Proof.Machine
end

section
/-! RESET, ISSUE AND FETCH (R30, R32, R74, R112, R281): the invariants at reset, and which instruction a step runs. -/

namespace Sys2Proof.Machine

/-- Settles O8: at reset the sequencer is idle in `Uninitialized`, both buffers, `Mem` and the allocations are empty,
and every table has its size. -/
theorem invariantsHoldAtReset : Obligations.InvariantsHoldAtReset := by
  intro c
  have htable : TableInv (State.init c) := by simp [TableInv, State.init, Ring.blank, Mac.blank]
  refine ⟨?_, portInv_of_idle rfl, htable, rfl, ?_, ?_, fun _ => rfl, fun _ => rfl, ?_, ⟨htable, trivial⟩, rfl, rfl⟩
  · exact lifeInv_of_not_failed rfl (by simp [State.init]) rfl
  · simp [AlignInv, State.init]
  · simp [AllocInv, State.init]
  · exact tailInv_of_idle rfl rfl (by simp [rxTailKnown, State.init])

/-- Settles O20: of the nine instructions the seven commands start while idle, and change nothing while another runs. -/
theorem issueStartsTheCommand : Obligations.IssueStartsTheCommand := by
  refine fun s => ⟨fun hs => ?_, fun i htxd hrxd hs hne => exec_of_other ?_ hs hne⟩
  · exact ⟨exec_of_idle rfl hs, exec_of_idle rfl hs, exec_of_idle rfl hs, exec_of_idle rfl hs, exec_of_idle rfl hs,
      exec_of_idle rfl hs, exec_of_idle rfl hs⟩
  · cases i with
    | txd d => exact absurd rfl (htxd d)
    | rxd d => exact absurd rfl (hrxd d)
    | _ => rfl

theorem step_of_sched {s : State} {mv : Move} {rest : List Move} (h : s.sched = mv :: rest) :
    step s = perform mv { s with sched := rest } := by
  simp only [step, nextMove, State.popSched, h, List.tail_cons]

/-- An empty schedule with both buffers empty is the sequencer's turn (log entry 1). -/
theorem step_of_no_sched {s : State} (h : s.sched = []) (hsb : s.sb = []) (hp : s.pwq = []) :
    step s = sequencerStep s := by
  have hpop : s.popSched = s := by
    cases s
    cases h
    rfl
  simp only [step, nextMove, h, defaultMove, hsb, hp, hpop, perform]

theorem sequencerStep_of_instr {s : State} {i : Instr} (h : s.seq.instr = some i) : sequencerStep s = exec i s := by
  simp only [sequencerStep, h]

theorem macReadBytes_of_unraced {s : State} {n a : Nat} (h : Unraced s a n) :
    macReadBytes n a s = ((List.range n).map (fun j => s.mem.read (a + j)), s) :=
  macReadBytes_of_not_racing h

/-- `MAC.TX` runs the descriptor at the head, where nothing races. -/
theorem macTxStep_of_ready {s : State} {i : Instr} (he : macTxEnabled s = true)
    (hd : (txHeadPa s.mac).toNat + 16 ≤ 2 ^ 64) (hl : s.live (txHeadPa s.mac).toNat 16 = true)
    (hu : Unraced s (txHeadPa s.mac).toNat 16)
    (hi : decode (.txd (imageAt s.mem (txHeadPa s.mac).toNat)) = .instr i) : macTxStep s = exec i s := by
  simp only [imageAt] at hi
  simp only [macTxStep, he, if_true, macTouch_of_live hd hl, macReadBytes_of_unraced hu, runTxImage, hi]

/-- `MAC.RX` runs the descriptor at the head, where nothing races. -/
theorem macRxStep_of_ready {s : State} {i : Instr} (he : macRxEnabled s = true) (hw : (waitingFrame s).isSome = true)
    (hd : (rxHeadPa s.mac).toNat + 16 ≤ 2 ^ 64) (hl : s.live (rxHeadPa s.mac).toNat 16 = true)
    (hu : Unraced s (rxHeadPa s.mac).toNat 16)
    (hi : decode (.rxd (imageAt s.mem (rxHeadPa s.mac).toNat)) = .instr i) : macRxStep s = exec i s := by
  simp only [imageAt] at hi
  simp only [macRxStep, he, hw, Bool.and_self, if_true, macTouch_of_live hd hl, macReadBytes_of_unraced hu, runRxImage,
    hi]

/-- Settles O18: the schedule's move is performed on the state without it; each fetching move then decodes and runs. -/
theorem stepRunsTheDecodedInstruction : Obligations.StepRunsTheDecodedInstruction := by
  refine ⟨fun s rest i h hi => ?_, fun s i h hsb hp hi => ?_, fun s rest w a p i h hs hd => ?_,
    fun s rest i h he hd hl hu hi => ?_, fun s rest i h he hw hd hl hu hi => ?_⟩
  · rw [step_of_sched h]
    exact sequencerStep_of_instr hi
  · rw [step_of_no_sched h hsb hp, sequencerStep_of_instr hi]
  · rw [step_of_sched h]
    simp only [perform, issue, hs, if_true, hd, State.writePort]
  · rw [step_of_sched h]
    exact macTxStep_of_ready (s := { s with sched := rest }) he hd hl hu hi
  · rw [step_of_sched h]
    exact macRxStep_of_ready (s := { s with sched := rest }) he hw hd hl hu hi

end Sys2Proof.Machine
end

section
/-! THE MAC'S REGISTERS (R49 to R66, R261, R262): what an arriving write does and what a read answers. -/

namespace Sys2Proof.Machine

/-- The oldest posted write arrives at the register at its offset (R104). -/
theorem drainPosted_of_regAt {s : State} {off w : Word} {rest : List Posted} {r : Reg}
    (hp : s.pwq = ⟨off, w⟩ :: rest) (hr : regAt s.cfg off = some r) :
    drainPosted s = .next (macWrite r w { s with pwq := rest }) := by
  simp only [drainPosted, hp, hr]

/-- Settles O32: each interrupt register's write is an AND or an OR of the causes or the mask, read bit by bit. -/
theorem interruptRegistersBehave : Obligations.InterruptRegistersBehave := by
  intro s w rest hv
  refine ⟨⟨rfl, rfl⟩, fun hp => ⟨_, drainPosted_of_regAt hp (regAt_icr hv), fun i hi => ?_⟩,
    fun hp => ⟨_, drainPosted_of_regAt hp (regAt_ics hv), fun i _ => ?_⟩,
    fun hp => ⟨_, drainPosted_of_regAt hp (regAt_ims hv), fun i _ => ?_⟩,
    fun hp => ⟨_, drainPosted_of_regAt hp (regAt_imc hv), fun i hi => ?_⟩⟩
  · simp [hi]
  · simp
  · simp
  · simp [hi]

/-- Settles O33: with `RST` the arriving write is the device reset, without it a plain store. -/
theorem ctlWriteResetsTheDevice : Obligations.CtlWriteResetsTheDevice := by
  intro s w rest hv hp
  have harrive := drainPosted_of_regAt hp (regAt_ctl hv)
  refine ⟨fun hrst => ?_, fun hrst => ?_⟩
  · rw [macWrite_ctl_reset (s := { s with pwq := rest }) hrst] at harrive
    refine ⟨_, harrive, rfl, rfl, rfl, rfl, rfl, rfl, ?_, rfl, rfl, rfl⟩
    simp [deviceReset, BitVec.and_assoc]
  · rw [harrive, macWrite_ctl_store (s := { s with pwq := rest }) hrst]

/-- A register whose read changes nothing gives what `macRead` says of it, the posted writes having arrived (R105). -/
theorem regRead_of_plain {s : State} {off : Word} {r : Reg} (next : Word → State → Result)
    (hin : regInRange s.cfg off = true) (hp : s.pwq = []) (hr : regAt s.cfg off = some r)
    (hplain : (macRead r s).2 = s) : regRead off next s = next (macRead r s).1 s := by
  rw [regRead_of_arrived hin hp hr, hplain]

/-- Settles O34: each register stands at its own offset; a plain one is stored and read as it is, a base by halves, and
the low bits of a base and of a length are masked on the read. -/
theorem ringRegistersBehave : Obligations.RingRegistersBehave := by
  intro s w rest hv
  refine ⟨fun off m hm hp => ?_, fun hp => ⟨_, drainPosted_of_regAt hp (regAt_tdbal hv), toNat_setLo _ _⟩,
    fun hp => ⟨_, drainPosted_of_regAt hp (regAt_tdbah hv), toNat_setHi _ _⟩,
    fun hp => ⟨_, drainPosted_of_regAt hp (regAt_rdbal hv), toNat_setLo _ _⟩,
    fun hp => ⟨_, drainPosted_of_regAt hp (regAt_rdbah hv), toNat_setHi _ _⟩,
    fun k hk hp => drainPosted_of_regAt hp (regAt_mta hv hk), fun next off x hp hx => ?_,
    fun next k hk hp => regRead_of_plain next (regInRange_mta hv hk) hp (regAt_mta hv hk) rfl⟩
  · simp only [List.mem_cons, Prod.mk.injEq, List.not_mem_nil, or_false] at hm
    rcases hm with ⟨rfl, rfl⟩ | ⟨rfl, rfl⟩ | ⟨rfl, rfl⟩ | ⟨rfl, rfl⟩ | ⟨rfl, rfl⟩ | ⟨rfl, rfl⟩ | ⟨rfl, rfl⟩ |
      ⟨rfl, rfl⟩ | ⟨rfl, rfl⟩ | ⟨rfl, rfl⟩ | ⟨rfl, rfl⟩ | ⟨rfl, rfl⟩ | ⟨rfl, rfl⟩ | ⟨rfl, rfl⟩
    · exact drainPosted_of_regAt hp (regAt_rctl hv)
    · exact drainPosted_of_regAt hp (regAt_tctl hv)
    · exact drainPosted_of_regAt hp (regAt_tipg hv)
    · exact drainPosted_of_regAt hp (regAt_itr hv)
    · exact drainPosted_of_regAt hp (regAt_tdlen hv)
    · exact drainPosted_of_regAt hp (regAt_tdh hv)
    · exact drainPosted_of_regAt hp (regAt_tdt hv)
    · exact drainPosted_of_regAt hp (regAt_tidv hv)
    · exact drainPosted_of_regAt hp (regAt_tadv hv)
    · exact drainPosted_of_regAt hp (regAt_rdlen hv)
    · exact drainPosted_of_regAt hp (regAt_rdh hv)
    · exact drainPosted_of_regAt hp (regAt_rdt hv)
    · exact drainPosted_of_regAt hp (regAt_rdtr hv)
    · exact drainPosted_of_regAt hp (regAt_radv hv)
  · have hlow (a : Addr) : (lo32 a &&& 0xFFFFFFF0).toNat = a.toNat % 2 ^ 32 / 16 * 16 := by
      rw [toNat_low4, toNat_lo32]
    simp only [List.mem_cons, Prod.mk.injEq, List.not_mem_nil, or_false] at hx
    rcases hx with ⟨rfl, rfl⟩ | ⟨rfl, rfl⟩ | ⟨rfl, rfl⟩ | ⟨rfl, rfl⟩ | ⟨rfl, rfl⟩ | ⟨rfl, rfl⟩ | ⟨rfl, rfl⟩ |
      ⟨rfl, rfl⟩ | ⟨rfl, rfl⟩ | ⟨rfl, rfl⟩ | ⟨rfl, rfl⟩ | ⟨rfl, rfl⟩ | ⟨rfl, rfl⟩ | ⟨rfl, rfl⟩ | ⟨rfl, rfl⟩ |
      ⟨rfl, rfl⟩ | ⟨rfl, rfl⟩ | ⟨rfl, rfl⟩ | ⟨rfl, rfl⟩
    · exact ⟨_, rfl, regRead_of_plain next (regInRange_ctl hv) hp (regAt_ctl hv) rfl⟩
    · exact ⟨_, rfl, regRead_of_plain next (regInRange_rctl hv) hp (regAt_rctl hv) rfl⟩
    · exact ⟨_, rfl, regRead_of_plain next (regInRange_tctl hv) hp (regAt_tctl hv) rfl⟩
    · exact ⟨_, rfl, regRead_of_plain next (regInRange_tipg hv) hp (regAt_tipg hv) rfl⟩
    · exact ⟨_, rfl, regRead_of_plain next (regInRange_itr hv) hp (regAt_itr hv) rfl⟩
    · exact ⟨_, hlow _, regRead_of_plain next (regInRange_tdbal hv) hp (regAt_tdbal hv) rfl⟩
    · exact ⟨_, toNat_hi32 _, regRead_of_plain next (regInRange_tdbah hv) hp (regAt_tdbah hv) rfl⟩
    · exact ⟨_, toNat_low7 _, regRead_of_plain next (regInRange_tdlen hv) hp (regAt_tdlen hv) rfl⟩
    · exact ⟨_, rfl, regRead_of_plain next (regInRange_tdh hv) hp (regAt_tdh hv) rfl⟩
    · exact ⟨_, rfl, regRead_of_plain next (regInRange_tdt hv) hp (regAt_tdt hv) rfl⟩
    · exact ⟨_, rfl, regRead_of_plain next (regInRange_tidv hv) hp (regAt_tidv hv) rfl⟩
    · exact ⟨_, rfl, regRead_of_plain next (regInRange_tadv hv) hp (regAt_tadv hv) rfl⟩
    · exact ⟨_, hlow _, regRead_of_plain next (regInRange_rdbal hv) hp (regAt_rdbal hv) rfl⟩
    · exact ⟨_, toNat_hi32 _, regRead_of_plain next (regInRange_rdbah hv) hp (regAt_rdbah hv) rfl⟩
    · exact ⟨_, toNat_low7 _, regRead_of_plain next (regInRange_rdlen hv) hp (regAt_rdlen hv) rfl⟩
    · exact ⟨_, rfl, regRead_of_plain next (regInRange_rdh hv) hp (regAt_rdh hv) rfl⟩
    · exact ⟨_, rfl, regRead_of_plain next (regInRange_rdt hv) hp (regAt_rdt hv) rfl⟩
    · exact ⟨_, rfl, regRead_of_plain next (regInRange_rdtr hv) hp (regAt_rdtr hv) rfl⟩
    · exact ⟨_, rfl, regRead_of_plain next (regInRange_radv hv) hp (regAt_radv hv) rfl⟩

end Sys2Proof.Machine
end

section
/-! MEMORY IN A STEP (R80, R89, R100, R275, R276): what every step does to `Mem`, the store buffer and the live
allocations. RINGCTL's micro-operation stores to a slot it owns, takes or frees an allocation, or touches none of the
three; a step of any other agent issues no store. -/

namespace Sys2Proof.Machine

/-! ### The MAC's two instructions -/

/-- What `MAC.TX` leaves: nothing changed, or the frame sent and the descriptor written back (R264). -/
theorem exec_txd_next {d : TxDesc} {s t : State} (h : exec (.txd d) s = .next t) :
    t = s ∨ ∃ r, r = macReadBytes d.length.toNat d.bufferAddress.toNat s ∧
      t = txComplete (txWriteBack d (sendFrame r.1 r.2)) := by
  simp only [exec, execTxd] at h
  split at h
  · split at h
    · obtain ⟨_, _, h⟩ := macTouch_next h
      obtain ⟨_, _, h⟩ := macTouch_next h
      exact .inr ⟨_, rfl, (Host.Outcome.next.inj h).symm⟩
    · cases h
  · exact .inl (Host.Outcome.next.inj h).symm

/-- What `MAC.RX` leaves: nothing changed, or a slot filled (R266). -/
theorem exec_rxd_next {d : RxDesc} {s t : State} (h : exec (.rxd d) s = .next t) :
    t = s ∨ ∃ f rest, t = rxFill d f rest s := by
  simp only [exec, execRxd] at h
  split at h
  · split at h
    · exact .inl (Host.Outcome.next.inj h).symm
    · obtain ⟨_, _, h⟩ := macTouch_next h
      obtain ⟨_, _, h⟩ := macTouch_next h
      exact .inr ⟨_, _, (Host.Outcome.next.inj h).symm⟩
  · exact .inl (Host.Outcome.next.inj h).symm

theorem txWriteBack_wf {d : TxDesc} {s : State} (h : Memory.wf s.mem = true) :
    Memory.wf (txWriteBack d s).mem = true := by
  unfold txWriteBack
  split
  · exact macWriteByte_wf h
  · exact h

theorem rxFill_wf {d : RxDesc} {f : List Byte} {rest : List (List Byte)} {s : State}
    (h : Memory.wf s.mem = true) : Memory.wf (rxFill d f rest s).mem = true := by
  rw [rxFill_eq, rxComplete_mem]
  exact macWriteBytes_wf (macWriteFields_wf (macWriteBytes_wf h))

@[simp] theorem rxFill_sb (d : RxDesc) (f : List Byte) (rest : List (List Byte)) (s : State) :
    (rxFill d f rest s).sb = s.sb := by
  simp [rxFill_eq, rxTaken]

@[simp] theorem rxFill_allocs (d : RxDesc) (f : List Byte) (rest : List (List Byte)) (s : State) :
    (rxFill d f rest s).allocs = s.allocs := by
  simp [rxFill_eq, rxTaken]

/-! ### Steps that issue no store -/

/-- The step from `s` to `t` issues no store, takes and frees no allocation, and keeps `Mem`
canonical. -/
structure NoStore (s t : State) : Prop where
  cfg : t.cfg = s.cfg
  allocs : t.allocs = s.allocs
  sb : t.sb ⊆ s.sb
  wf : Memory.wf s.mem = true → Memory.wf t.mem = true

namespace NoStore

theorem refl (s : State) : NoStore s s := ⟨rfl, rfl, List.Subset.refl _, id⟩

theorem trans {s t u : State} (h : NoStore s t) (h' : NoStore t u) : NoStore s u where
  cfg := h'.cfg.trans h.cfg
  allocs := h'.allocs.trans h.allocs
  sb := List.Subset.trans h'.sb h.sb
  wf := fun hm => h'.wf (h.wf hm)

theorem of_eq {s t : State} (hc : t.cfg = s.cfg) (ha : t.allocs = s.allocs) (hb : t.sb = s.sb)
    (hm : t.mem = s.mem) : NoStore s t :=
  ⟨hc, ha, hb ▸ List.Subset.refl _, fun h => hm ▸ h⟩

theorem raise (s : State) (c : Code) (v : Word) : NoStore s (s.raise c v) :=
  of_eq (by simp) (by simp) (by simp) (by simp)

theorem drainStore (j : Nat) (s : State) : NoStore s (drainStore j s) := by
  refine ⟨drainStore_cfg j s, drainStore_allocs j s, ?_, drainStore_wf⟩
  rcases drainStore_cases j s with h | ⟨e, _, _, h⟩
  · rw [h]
    exact List.Subset.refl _
  · rw [h]
    exact List.eraseIdx_subset

theorem macReadBytes (n a : Nat) (s : State) : NoStore s (macReadBytes n a s).2 :=
  of_eq (by simp) (by simp) (by simp) (by simp)

theorem exec_txd {d : TxDesc} {s t : State} (h : exec (.txd d) s = .next t) : NoStore s t := by
  rcases exec_txd_next h with rfl | ⟨r, rfl, rfl⟩
  · exact .refl _
  · exact ⟨by simp, by simp, by simp, fun hm => by simpa using txWriteBack_wf (by simpa using hm)⟩

theorem exec_rxd {d : RxDesc} {s t : State} (h : exec (.rxd d) s = .next t) : NoStore s t := by
  have hcfg := (Bystander.exec_rxd h).cfg
  rcases exec_rxd_next h with rfl | ⟨f, rest, rfl⟩
  · exact .refl _
  · exact ⟨hcfg, by simp, by simp, rxFill_wf⟩

theorem macTxStep {s t : State} (h : macTxStep s = .next t) : NoStore s t := by
  simp only [Machine.macTxStep, runTxImage_eq] at h
  split at h
  · obtain ⟨_, _, h⟩ := macTouch_next h
    exact .trans (.macReadBytes _ _ s) (exec_txd h)
  · cases h
    exact .refl s

theorem macRxStep {s t : State} (h : macRxStep s = .next t) : NoStore s t := by
  simp only [Machine.macRxStep, runRxImage_eq] at h
  split at h
  · obtain ⟨_, _, h⟩ := macTouch_next h
    exact .trans (.macReadBytes _ _ s) (exec_rxd h)
  · cases h
    exact .refl s

theorem issue {w a : Word} {p : List Byte} {s t : State} (h : issue w a p s = .next t) : NoStore s t := by
  unfold Machine.issue at h
  split at h
  · rename_i hs
    split at h
    · rename_i i hi
      rw [exec_of_idle (s := s.writePort w a p) (gateOf_instr_of_decode 0 hi) hs] at h
      cases h
      exact .of_eq rfl rfl rfl rfl
    · rw [raised_next h]
      exact .trans (t := s.writePort w a p) (.of_eq rfl rfl rfl rfl) (.raise _ _ _)
  · cases h
    exact .refl s

/-- Only the sequencer stores, allocates and frees. -/
theorem perform {mv : Move} (hmv : mv ≠ .sequencer) {s t : State} (h : perform mv s = .next t) : NoStore s t := by
  cases mv with simp only [Machine.perform] at h
  | sequencer => exact absurd rfl hmv
  | drainStore k =>
    cases h
    exact .drainStore k s
  | drainPosted =>
    rcases drainPosted_next h with ⟨_, rfl⟩ | ⟨p, rest, r, _, _, rfl⟩
    · exact .refl _
    · exact .of_eq (by simp) (by simp) (by simp) (by simp)
  | macTx => exact .macTxStep h
  | macRx => exact .macRxStep h
  | issue w a p => exact .issue h
  | offerFrame f =>
    unfold offerFrame at h
    split at h
    · cases h
      exact .of_eq rfl rfl rfl rfl
    · cases h
  | blockReset =>
    cases h
    exact ⟨rfl, rfl, List.nil_subset _, id⟩
  | macReset | answer a | takePacket | takeLog | dropFrame k =>
    cases h
    exact .of_eq rfl rfl rfl rfl

end NoStore

/-- A step is a micro-operation of RINGCTL's or issues no store (R30). -/
theorem step_microOp_or_noStore {s t : State} (h : step s = .next t) :
    MicroOp s.popSched s.seq t ∨ NoStore s.popSched t := by
  by_cases hmv : nextMove s = .sequencer
  · rw [step, hmv] at h
    exact .inl (sequencerStep_microOp h)
  · exact .inr (.perform hmv h)

/-! ### What a micro-operation does to memory -/

@[simp] theorem allocated_sb (s : State) (k : Nat) (h : Handle) (rest : List AllocAnswer) :
    (allocated s k h rest).sb = s.sb := by simp [allocated]
@[simp] theorem allocated_allocs (s : State) (k : Nat) (h : Handle) (rest : List AllocAnswer) :
    (allocated s k h rest).allocs = s.allocs ++ [⟨h, allocPages s.cfg k⟩] := by simp [allocated]
@[simp] theorem allocated_mem (s : State) (k : Nat) (h : Handle) (rest : List AllocAnswer) :
    (allocated s k h rest).mem = s.mem.zeroRange h.pa.toNat (allocPages s.cfg k * s.cfg.pageSize) := by
  simp [allocated]

@[simp] theorem State.postListed_sb (s : State) (w : Option (Word × Word)) : (s.postListed w).sb = s.sb := by
  cases w <;> rfl
@[simp] theorem State.postListed_mem (s : State) (w : Option (Word × Word)) : (s.postListed w).mem = s.mem := by
  cases w <;> rfl
@[simp] theorem State.postListed_allocs (s : State) (w : Option (Word × Word)) :
    (s.postListed w).allocs = s.allocs := by
  cases w <;> rfl

/-- The entry is a store RINGCTL's guard lets through: aligned, to a field of a descriptor or a byte of a buffer whose
slot is tagged `SW` (R86, R193). -/
inductive OwnedStore (s : State) (e : StoreEntry) : Prop
  | field {q : RingId} {i f : Nat} : FieldReady s q i f e.n → f + e.n.bytes ≤ 16 → e.pa = descPa s q i f →
      OwnedStore s e
  | byte {q : RingId} {i j : Nat} : ByteReady s q i j → e.pa = bufPa s q i + BitVec.ofNat 64 j → e.n = .one →
      OwnedStore s e

/-- What a micro-operation can do to the store buffer, the live allocations and `Mem`: issue one store, take or free one
allocation, or nothing. -/
inductive MemoryEffect (s t : State) : Prop
  | none : t.sb = s.sb → t.mem = s.mem → t.allocs = s.allocs → MemoryEffect s t
  | store {e : StoreEntry} : OwnedStore s e → t.sb = s.sb ++ [e] → t.mem = s.mem → t.allocs = s.allocs →
      MemoryEffect s t
  | grant {h : Handle} {pages : Nat} : contractOk s h pages = true → t.allocs = s.allocs ++ [⟨h, pages⟩] →
      t.mem = s.mem.zeroRange h.pa.toNat (pages * s.cfg.pageSize) → t.sb = s.sb → MemoryEffect s t
  | free {p : Alloc → Bool} : t.allocs = s.allocs.eraseP p → t.mem = s.mem → t.sb = s.sb → MemoryEffect s t

namespace MemoryEffect

variable {s : State} {q : RingId} {i : Nat}

theorem of_field {f : Nat} {n : Width} (v : Addr) (h : FieldReady s q i f n) (hf : f + n.bytes ≤ 16) :
    MemoryEffect s (s.store (descPa s q i f) n v) :=
  .store (.field h hf rfl) rfl rfl rfl

theorem of_byte {j : Nat} (v : Addr) (h : ByteReady s q i j) :
    MemoryEffect s (s.store (bufPa s q i + BitVec.ofNat 64 j) .one v) :=
  .store (.byte h rfl rfl) rfl rfl rfl

end MemoryEffect

theorem ConstructGoes.memoryEffect {s u : State} {p p' : ConstructPos} (h : ConstructGoes s p u p') :
    MemoryEffect s u := by
  cases h
  case alloc _ hc => exact .grant hc (by simp) (by simp) (by simp)
  case txAddr hf => exact .of_field _ hf (by decide)
  case txStatus hf => exact .of_field _ hf (by decide)
  case rxAddr hf => exact .of_field _ hf (by decide)
  all_goals exact .none (by simp) (by simp) (by simp)

theorem TransmitGoes.memoryEffect {s u : State} {p p' : TransmitPos} (h : TransmitGoes s p u p') :
    MemoryEffect s u := by
  cases h
  case copy _ hb => exact .of_byte _ hb
  case setAddr hf => exact .of_field _ hf (by decide)
  case setLength hf => exact .of_field _ hf (by decide)
  case setStatus hf => exact .of_field _ hf (by decide)
  case setCommand hf => exact .of_field _ hf (by decide)
  all_goals exact .none (by simp) (by simp) (by simp)

theorem ReceiveGoes.memoryEffect {s u : State} {p p' : ReceivePos} (h : ReceiveGoes s p u p') :
    MemoryEffect s u := by
  cases h
  case scrub hb => exact .of_byte _ hb
  case clearStatus hf => exact .of_field _ hf (by decide)
  all_goals exact .none (by simp) (by simp) (by simp)

theorem Goes.memoryEffect {s u : State} {q q' : Seq} (h : Goes s q u q') : MemoryEffect s u := by
  cases h with
  | construct h => exact h.memoryEffect
  | transmit h => exact h.memoryEffect
  | receive h => exact h.memoryEffect
  | serviceIrq h => cases h <;> exact .none (by simp) (by simp) (by simp)
  | irqEnable h => cases h <;> exact .none (by simp) (by simp) (by simp)
  | irqDisable h => cases h <;> exact .none (by simp) (by simp) (by simp)
  | teardown h =>
    cases h with
    | gate => exact .none rfl rfl rfl
    | free => exact .free rfl rfl rfl

theorem MicroOp.memoryEffect {s t : State} {q : Seq} (h : MicroOp s q t) : MemoryEffect s t := by
  cases h with
  | holds => exact .none rfl rfl rfl
  | fatal | wrongState | busy | rxInvalid => exact .none (by simp) (by simp) (by simp)
  | goes hg =>
    cases hg.memoryEffect with
    | none hb hm ha => exact .none hb hm ha
    | store he hb hm ha => exact .store he hb hm ha
    | grant hc ha hm hb => exact .grant hc ha hm hb
    | free ha hm hb => exact .free ha hm hb
  | returns hr => cases hr <;> exact .none rfl rfl rfl

/-! ### Canonical memory and aligned stores -/

theorem OwnedStore.aligned {s : State} {e : StoreEntry} (h : OwnedStore s e) : e.pa.toNat % e.n.bytes = 0 := by
  cases h with
  | field hf _ hpa =>
    obtain ⟨_, ha, _⟩ := hf
    rwa [hpa]
  | byte _ _ hn =>
    rw [hn]
    exact Nat.mod_one _

theorem MemoryEffect.memInv {s t : State} (h : MemoryEffect s t) (hi : MemInv s) : MemInv t := by
  cases h with
  | none _ hm | store _ _ hm | free _ hm => rwa [MemInv, hm]
  | grant _ _ hm =>
    rw [MemInv, hm]
    exact Memory.zeroRange_wf hi _ _

theorem alignInv_of_subset {s t : State} (h : t.sb ⊆ s.sb) (hi : AlignInv s) : AlignInv t :=
  fun e he => hi e (h he)

theorem MemoryEffect.alignInv {s t : State} (h : MemoryEffect s t) (hi : AlignInv s) : AlignInv t := by
  cases h with
  | none hb | grant _ _ _ hb | free _ _ hb => exact alignInv_of_subset (hb ▸ List.Subset.refl _) hi
  | @store e he hb =>
    intro f hf
    rw [hb, List.mem_append, List.mem_singleton] at hf
    rcases hf with hf | rfl
    · exact hi f hf
    · exact he.aligned

/-- Settles O12: a micro-operation's store is aligned by its own guard and its grant zeroes a range; every other step
writes `Mem` byte by byte and issues no store. -/
theorem stepKeepsMemoryAndStoresWellFormed : Obligations.StepKeepsMemoryAndStoresWellFormed := by
  intro s t h
  rcases step_microOp_or_noStore h with h | h
  · exact ⟨h.memoryEffect.memInv, h.memoryEffect.alignInv⟩
  · exact ⟨h.wf, alignInv_of_subset h.sb⟩

/-! ### The live allocations -/

/-- The contract of R275 as `AllocInv` says it of one allocation and of two. -/
theorem contractOk_iff {s : State} {h : Handle} {pages : Nat} : contractOk s h pages = true ↔
    (h.pa ≠ 0 ∧ h.pa.toNat % s.cfg.pageSize = 0 ∧ h.pa.toNat + pages * s.cfg.pageSize ≤ 2 ^ 64) ∧
    ∀ x ∈ s.allocs, x.h.va ≠ h.va ∧ (x.h.pa.toNat + x.pages * s.cfg.pageSize ≤ h.pa.toNat ∨
      h.pa.toNat + pages * s.cfg.pageSize ≤ x.h.pa.toNat) := by
  simp only [contractOk, apart, Bool.and_eq_true, decide_eq_true_eq, List.all_eq_true, and_assoc]

/-- Releasing an allocation leaves the others as they were. -/
theorem allocInv_of_sublist {s t : State} (hc : t.cfg = s.cfg) (ha : t.allocs.Sublist s.allocs) (hi : AllocInv s) :
    AllocInv t := by
  obtain ⟨hall, hpair⟩ := hi
  rw [AllocInv, hc]
  exact ⟨fun x hx => hall x (ha.subset hx), hpair.sublist ha⟩

/-- An answer that meets the contract joins live allocations that meet it. -/
theorem allocInv_granted {s t : State} {h : Handle} {pages : Nat} (hc : t.cfg = s.cfg)
    (ha : t.allocs = s.allocs ++ [⟨h, pages⟩]) (hok : contractOk s h pages = true) (hi : AllocInv s) :
    AllocInv t := by
  obtain ⟨hall, hpair⟩ := hi
  obtain ⟨hnew, hold⟩ := contractOk_iff.1 hok
  rw [AllocInv, hc, ha]
  refine ⟨fun x hx => ?_, ?_⟩
  · rw [List.mem_append, List.mem_singleton] at hx
    rcases hx with hx | rfl
    · exact hall x hx
    · exact hnew
  · refine List.pairwise_append.2 ⟨hpair, List.pairwise_singleton _ _, fun x hx y hy => ?_⟩
    rw [List.mem_singleton] at hy
    rw [hy]
    exact hold x hx

theorem MemoryEffect.allocInv {s t : State} (h : MemoryEffect s t) (hc : t.cfg = s.cfg) (hi : AllocInv s) :
    AllocInv t := by
  cases h with
  | none _ _ ha | store _ _ _ ha => exact allocInv_of_sublist hc (ha ▸ List.Sublist.refl _) hi
  | grant hok ha => exact allocInv_granted hc ha hok hi
  | free ha => exact allocInv_of_sublist hc (ha ▸ List.eraseP_sublist) hi

/-- Settles O14: only a micro-operation takes an answer, which it has checked against the live allocations, or frees
one. -/
theorem stepKeepsAllocationsDisjoint : Obligations.StepKeepsAllocationsDisjoint := by
  intro s t hi h
  rcases step_microOp_or_noStore h with h | h
  · exact h.memoryEffect.allocInv h.cfg_eq hi
  · exact allocInv_of_sublist h.cfg (h.allocs ▸ List.Sublist.refl _) hi

end Sys2Proof.Machine
end

section
/-! BUFFERS AT THE HAND-OVER AND THE RETURN (R107(b), R107(e), R350, R360): the store buffer is empty wherever a tail
write is next, the posted-write queue wherever a command that ends with a flush has made it. -/

namespace Sys2Proof.Machine

/-! ### Positions of which neither invariant speaks -/

/-- At `q` neither the store buffer nor the posted-write queue need be empty. -/
def Unbound (q : Seq) : Prop := ¬ storesDone q ∧ ¬ afterFlush q

theorem unbound_gateOf (i : Instr) (n : Nat) : Unbound (gateOf i n) := by
  cases i <;> exact ⟨id, id⟩

theorem unbound_afterAlloc (n k : Nat) (c : Cfg) : Unbound (.construct n (afterAlloc c k)) := by
  unfold afterAlloc; split <;> exact ⟨id, id⟩

theorem unbound_afterTxDesc (n i : Nat) (c : Cfg) : Unbound (.construct n (afterTxDesc c i)) := by
  unfold afterTxDesc; split <;> exact ⟨id, id⟩

theorem unbound_afterTxReg (n k : Nat) : Unbound (.construct n (afterTxReg k)) := by
  unfold afterTxReg; split <;> exact ⟨id, id⟩

theorem unbound_afterRxDesc (n i : Nat) (c : Cfg) : Unbound (.construct n (afterRxDesc c i)) := by
  unfold afterRxDesc; split <;> exact ⟨id, id⟩

theorem unbound_afterRxReg (n k : Nat) : Unbound (.construct n (afterRxReg k)) := by
  unfold afterRxReg; split <;> exact ⟨id, id⟩

theorem unbound_timingFrom (n k : Nat) (c : Cfg) : Unbound (.construct n (timingFrom c k)) := by
  unfold timingFrom; split <;> exact ⟨id, id⟩

theorem unbound_afterMta (n k : Nat) (c : Cfg) : Unbound (.construct n (afterMta c k)) := by
  unfold afterMta; split
  · exact ⟨id, id⟩
  · exact unbound_timingFrom n 0 c

theorem unbound_copyFrom (n i m k : Nat) : Unbound (.transmit n (copyFrom i m k)) := by
  unfold copyFrom; split <;> exact ⟨id, id⟩

theorem unbound_copyOutFrom (n i m : Nat) (pkt : List Byte) : Unbound (.receive n (copyOutFrom i m pkt)) := by
  unfold copyOutFrom; split <;> exact ⟨id, id⟩

theorem unbound_afterScrub (n i k : Nat) : Unbound (.receive n (afterScrub i k)) := by
  unfold afterScrub; split <;> exact ⟨id, id⟩

/-! ### Where a micro-operation goes on -/

/-- Going on from `q` to `q'`, the micro-operation leaves in `u` the buffers it found, and where an invariant speaks of
`q'` it has found the buffer empty or stood where the invariant speaks too. -/
structure Waited (s : State) (q : Seq) (u : State) (q' : Seq) : Prop where
  stores : storesDone q' → u.sb = s.sb ∧ (s.sb = [] ∨ storesDone q)
  writes : afterFlush q' → u.pwq = s.pwq ∧ (s.pwq = [] ∨ afterFlush q)

theorem Waited.of_unbound {s u : State} {q q' : Seq} (h : Unbound q') : Waited s q u q' :=
  ⟨fun hd => absurd hd h.1, fun hf => absurd hf h.2⟩

theorem ConstructGoes.waited {s u : State} {n m : Nat} {p p' : ConstructPos} (h : ConstructGoes s p u p') :
    Waited s (.construct n p) u (.construct m p') := by
  cases h
  case txFence he | rxFence he => exact ⟨fun _ => ⟨rfl, .inl he⟩, False.elim⟩
  case flush hr => exact ⟨False.elim, fun _ => ⟨by simp, .inl hr.1⟩⟩
  case alloc => exact .of_unbound (unbound_afterAlloc _ _ _)
  case txStatus => exact .of_unbound (unbound_afterTxDesc _ _ _)
  case txReg => exact .of_unbound (unbound_afterTxReg _ _)
  case rxAddr => exact .of_unbound (unbound_afterRxDesc _ _ _)
  case rxReg => exact .of_unbound (unbound_afterRxReg _ _)
  case mta => exact .of_unbound (unbound_afterMta _ _ _)
  case timing => exact .of_unbound (unbound_timingFrom _ _ _)
  all_goals exact .of_unbound ⟨id, id⟩

theorem TransmitGoes.waited {s u : State} {n m : Nat} {p p' : TransmitPos} (h : TransmitGoes s p u p') :
    Waited s (.transmit n p) u (.transmit m p') := by
  cases h
  case fence he => exact ⟨fun _ => ⟨rfl, .inl he⟩, False.elim⟩
  case handOff => exact ⟨fun _ => ⟨by simp, .inr trivial⟩, False.elim⟩
  case flush hr => exact ⟨fun _ => ⟨by simp, .inr trivial⟩, fun _ => ⟨by simp, .inl hr.1⟩⟩
  case lastFence he => exact ⟨fun _ => ⟨rfl, .inl he⟩, fun _ => ⟨rfl, .inr trivial⟩⟩
  case truncate | truncateLogged | copy => exact .of_unbound (unbound_copyFrom _ _ _ _)
  all_goals exact .of_unbound ⟨id, id⟩

theorem ReceiveGoes.waited {s u : State} {n m : Nat} {p p' : ReceivePos} (h : ReceiveGoes s p u p') :
    Waited s (.receive n p) u (.receive m p') := by
  cases h
  case fence he => exact ⟨fun _ => ⟨rfl, .inl he⟩, False.elim⟩
  case readLength | copy => exact .of_unbound (unbound_copyOutFrom _ _ _ _)
  case scrub => exact .of_unbound (unbound_afterScrub _ _ _)
  all_goals exact .of_unbound ⟨id, id⟩

/-- A mask command returns after its flush has found the posted writes arrived (R252, R253). -/
theorem MaskGoes.arrived {s u : State} {off v : Word} {p : MaskPos} (h : MaskGoes s off v p u .ret) :
    u.pwq = s.pwq ∧ s.pwq = [] := by
  cases h with
  | flush hr => exact ⟨by simp, hr.1⟩

theorem Goes.waited {s u : State} {q q' : Seq} (h : Goes s q u q') : Waited s q u q' := by
  cases h with
  | construct h => exact h.waited
  | transmit h => exact h.waited
  | receive h => exact h.waited
  | serviceIrq | teardown => exact .of_unbound ⟨id, id⟩
  | @irqEnable _ _ p' _ h | @irqDisable _ _ p' _ h =>
    cases p' with
    | ret =>
      obtain ⟨hsame, hempty⟩ := h.arrived
      exact ⟨False.elim, fun _ => ⟨hsame, .inl hempty⟩⟩
    | _ => exact .of_unbound ⟨id, id⟩

theorem unbound_raise (s : State) (c : Code) (v : Word) : Unbound (s.raise c v).seq := by
  rw [State.raise_seq]
  exact ⟨id, id⟩

/-! ### The store buffer -/

theorem fenceInv_of_unbound {s : State} (h : Unbound s.seq) : FenceInv s := fun hd => absurd hd h.1

theorem fenceInv_of_subset {s t : State} (hq : t.seq = s.seq) (hb : t.sb ⊆ s.sb) (hi : FenceInv s) : FenceInv t :=
  fun hd => List.subset_nil.1 (hi (hq ▸ hd) ▸ hb)

theorem MicroOp.fenceInv {s t : State} (h : MicroOp s s.seq t) (hi : FenceInv s) : FenceInv t := by
  generalize hq : s.seq = q at h
  cases h with
  | holds => exact hi
  | fatal | wrongState | busy | rxInvalid => exact fenceInv_of_unbound (unbound_raise _ _ _)
  | goes hg =>
    intro hd
    obtain ⟨hb, hs⟩ := hg.waited.stores hd
    exact hb.trans (hs.elim id fun hd => hi (hq ▸ hd))
  | returns => exact fenceInv_of_unbound ⟨id, id⟩

/-- A step that issues no store. -/
theorem Performed.fenceInv {s t : State} {mv : Move} (h : Performed s mv t) (hb : t.sb ⊆ s.sb) (hi : FenceInv s) :
    FenceInv t := by
  cases h with
  | microOp h => exact h.fenceInv hi
  | issued => exact fenceInv_of_unbound (unbound_gateOf _ 0)
  | illegal => exact fenceInv_of_unbound (unbound_raise _ _ _)
  | bystander h => exact fenceInv_of_subset h.seq hb hi
  | arrived => exact fenceInv_of_subset (by simp) hb hi
  | macReset => exact fenceInv_of_subset rfl hb hi
  | blockReset => exact fenceInv_of_unbound ⟨id, id⟩

/-- Settles O15: a tail write is reached only through a fence that found the store buffer empty, and until it is made
no agent adds a store. -/
theorem stepKeepsDescriptorBeforeTail : Obligations.StepKeepsDescriptorBeforeTail := by
  intro s t hi h
  have hpop : FenceInv s.popSched := fenceInv_of_subset rfl (List.Subset.refl _) hi
  rcases step_microOp_or_noStore h with hm | hn
  · exact hm.fenceInv hpop
  · exact (step_performed h).fenceInv hn.sb hpop

/-! ### The posted-write queue -/

theorem flushInv_of_unbound {s : State} (h : Unbound s.seq) : FlushInv s := fun hf => absurd hf h.2

theorem flushInv_congr {s t : State} (hq : t.seq = s.seq) (hp : t.pwq = s.pwq) (hi : FlushInv s) : FlushInv t := by
  simpa only [FlushInv, hq, hp] using hi

theorem MicroOp.flushInv {s t : State} (h : MicroOp s s.seq t) (hi : FlushInv s) : FlushInv t := by
  generalize hq : s.seq = q at h
  cases h with
  | holds => exact hi
  | fatal | wrongState | busy | rxInvalid => exact flushInv_of_unbound (unbound_raise _ _ _)
  | goes hg =>
    intro hf
    obtain ⟨hp, hs⟩ := hg.waited.writes hf
    exact hp.trans (hs.elim id fun hf => hi (hq ▸ hf))
  | returns => exact flushInv_of_unbound ⟨id, id⟩

theorem Performed.flushInv {s t : State} {mv : Move} (h : Performed s mv t) (hi : FlushInv s) : FlushInv t := by
  cases h with
  | microOp h => exact h.flushInv hi
  | issued => exact flushInv_of_unbound (unbound_gateOf _ 0)
  | illegal => exact flushInv_of_unbound (unbound_raise _ _ _)
  | bystander h => exact flushInv_congr h.seq h.pwq hi
  | arrived hp =>
    intro hf
    rw [hi (by simpa using hf)] at hp
    cases hp
  | macReset => exact flushInv_congr rfl rfl hi
  | blockReset => exact flushInv_of_unbound ⟨id, id⟩

/-- Settles O16: only RINGCTL posts a write, and between the flush that found the queue empty and the return no
micro-operation posts one. -/
theorem stepKeepsFlushBeforeReturn : Obligations.StepKeepsFlushBeforeReturn := fun s _ hi h =>
  (step_performed h).flushInv (flushInv_congr (s := s) rfl rfl hi)

end Sys2Proof.Machine
end

section
/-! DESCRIPTOR LAYOUTS (R121, R122, R161, R165): a field of an image is the slice above the fields below it. -/

namespace Sys2Proof

/-- The lowest field of a concatenation. -/
theorem slice_lowest {v w : Nat} (hi : BitVec v) (lo : BitVec w) : (hi ++ lo).extractLsb' 0 w = lo := by
  rw [BitVec.extractLsb'_append_eq_of_add_le (by omega), BitVec.extractLsb'_eq_self]

/-- A slice above the lowest field is one of the fields above it. -/
theorem slice_above {v w start len : Nat} {hi : BitVec v} {lo : BitVec w} {x : BitVec len}
    (h : hi.extractLsb' start len = x) : (hi ++ lo).extractLsb' (start + w) len = x := by
  rw [BitVec.extractLsb'_append_eq_of_le (by omega), Nat.add_sub_cancel, h]

/-- Settles O4: each field is the lowest of what is left above the fields before it; the two printed images are
computed. -/
theorem descriptorFieldsLieWhereStated : Obligations.DescriptorFieldsLieWhereStated := by
  refine ⟨fun d => ?_, fun d => ?_, by decide, by decide⟩
  · refine ⟨slice_lowest _ _, slice_above (slice_lowest _ _), slice_above (slice_above (slice_lowest _ _)),
      slice_above (slice_above (slice_above (slice_lowest _ _))),
      slice_above (slice_above (slice_above (slice_above (slice_lowest _ _)))),
      slice_above (slice_above (slice_above (slice_above (slice_above (slice_lowest _ _))))),
      slice_above (slice_above (slice_above (slice_above (slice_above (slice_above ?_)))))⟩
    exact BitVec.extractLsb'_eq_self
  · refine ⟨slice_lowest _ _, slice_above (slice_lowest _ _), slice_above (slice_above (slice_lowest _ _)),
      slice_above (slice_above (slice_above (slice_lowest _ _))),
      slice_above (slice_above (slice_above (slice_above (slice_lowest _ _)))),
      slice_above (slice_above (slice_above (slice_above (slice_above ?_))))⟩
    exact BitVec.extractLsb'_eq_self

end Sys2Proof
end

section
/-! STORES AND FORWARDING (R84, R88, R89, R100 to R102, R193): where RINGCTL's stores go, what it sees of the buffered
ones, and what a drain leaves of what it sees. -/

namespace Sys2Proof.Machine

/-! ### Where stores go -/

/-- What `exec` of a command can answer: the command's start, nothing while another command runs, or the
micro-operation it stands at (R32, R281). -/
theorem exec_command_next {i : Instr} {s t : State} (hi : (gateOf i 0).instr = some i) (h : exec i s = .next t) :
    (s.seq = .idle ∧ t = { s with seq := gateOf i 0 }) ∨ t = s ∨ MicroOp s s.seq t := by
  by_cases hs : s.seq = .idle
  · rw [exec_of_idle hi hs] at h
    exact .inl ⟨hs, (Host.Outcome.next.inj h).symm⟩
  · by_cases hc : s.seq.instr = some i
    · rw [← sequencerStep_of_instr hc] at h
      exact .inr (.inr (sequencerStep_microOp h))
    · rw [exec_of_other hi hs hc] at h
      exact .inr (.inl (Host.Outcome.next.inj h).symm)

/-- The MAC's instructions leave the store buffer as it is (R108(a)). -/
theorem exec_txd_sb {d : TxDesc} {s t : State} (h : exec (.txd d) s = .next t) : t.sb = s.sb := by
  rcases exec_txd_next h with rfl | ⟨r, rfl, rfl⟩
  · rfl
  · simp

theorem exec_rxd_sb {d : RxDesc} {s t : State} (h : exec (.rxd d) s = .next t) : t.sb = s.sb := by
  rcases exec_rxd_next h with rfl | ⟨f, rest, rfl⟩
  · rfl
  · simp

/-- Of the nine instructions only a command's micro-operation stores. -/
theorem exec_stores {i : Instr} {s t : State} (h : exec i s = .next t) :
    t.sb = s.sb ∨ ∃ e, OwnedStore s e ∧ t.sb = s.sb ++ [e] := by
  by_cases hi : (gateOf i 0).instr = some i
  · rcases exec_command_next hi h with ⟨_, rfl⟩ | rfl | h
    · exact .inl rfl
    · exact .inl rfl
    · cases h.memoryEffect with
      | none hb | grant _ _ _ hb | free _ _ hb => exact .inl hb
      | store he hb => exact .inr ⟨_, he, hb⟩
  · cases i with
    | txd d => exact .inl (exec_txd_sb h)
    | rxd d => exact .inl (exec_rxd_sb h)
    | _ => exact absurd rfl hi

/-- Settles O26: the only stores are the guarded ones, to a field of an owned slot's descriptor or a byte of its
buffer. -/
theorem storesGoOnlyToOwnedSlots : Obligations.StoresGoOnlyToOwnedSlots := by
  intro s t i h
  rcases exec_stores h with hb | ⟨e, he, hb⟩
  · exact .inl hb
  · cases he with
    | @field q x f hf hfit hpa =>
      obtain ⟨htag, _, _⟩ := hf
      exact .inr ⟨q, x, e, hb, htag, .inl ⟨f, hfit, hpa⟩⟩
    | @byte q x j hr hpa hn =>
      obtain ⟨htag, hj, _⟩ := hr
      exact .inr ⟨q, x, e, hb, htag, .inr ⟨j, hj, hpa, hn⟩⟩

/-! ### Byte order -/

theorem getLsbD_byteOf {w : Nat} (v : BitVec w) (j i : Nat) :
    (byteOf v j).getLsbD i = (decide (i < 8) && v.getLsbD (8 * j + i)) := by
  rw [byteOf, BitVec.getLsbD_extractLsb']

/-- Bit `i` of a little-endian value is bit `i % 8` of its byte `i / 8` (R84). -/
theorem getLsbD_ofBytes (w : Nat) (bs : List Byte) (i : Nat) :
    (ofBytes w bs).getLsbD i = (decide (i < w) && (bs.getD (i / 8) 0).getLsbD (i % 8)) := by
  induction bs generalizing i with
  | nil => simp [ofBytes]
  | cons b rest ih =>
    simp only [ofBytes, BitVec.getLsbD_or, BitVec.getLsbD_setWidth, BitVec.getLsbD_shiftLeft, ih]
    by_cases hi : i < 8
    · have hdiv : i / 8 = 0 := by omega
      have hmod : i % 8 = i := by omega
      simp [hi, hdiv, hmod]
    · have hdiv : i / 8 = (i - 8) / 8 + 1 := by omega
      have hmod : i % 8 = (i - 8) % 8 := by omega
      have hb : b.getLsbD i = false := BitVec.getLsbD_of_ge _ _ (by omega)
      have hlt : i < w → i - 8 < w := by omega
      rw [hdiv, hmod, List.getD_cons_succ, hb]
      by_cases hw : i < w <;> simp [hi, hw, hlt]

/-- Truncation keeps the bits of the low `n` bytes (R89). -/
theorem getLsbD_truncate (n : Width) (v : Addr) (i : Nat) :
    (n.truncate v).getLsbD i = (decide (i < 8 * n.bytes) && v.getLsbD i) := by
  cases n with simp only [Width.truncate, Width.bytes, Nat.mul_one, Nat.reduceMul]
  | one | two =>
    rw [BitVec.getLsbD_setWidth, BitVec.getLsbD_extractLsb', Nat.zero_add, ← Bool.and_assoc, ← Bool.decide_and]
    congr 2
    simp only [eq_iff_iff]
    omega
  | eight =>
    by_cases hi : i < 64
    · simp [hi]
    · simp [BitVec.getLsbD_of_ge v i (by omega)]

/-- The bytes a store of `n` bytes writes are those of the value before truncation (R89). -/
theorem byteOf_truncate {n : Width} (v : Addr) {j : Nat} (hj : j < n.bytes) :
    byteOf (n.truncate v) j = byteOf v j := by
  apply BitVec.eq_of_getLsbD_eq
  intro i hi
  have hlow : 8 * j + i < 8 * n.bytes := by omega
  simp only [getLsbD_byteOf, getLsbD_truncate, hlow, decide_true, Bool.true_and]

/-- The value of the low `n` bytes is the truncated one (R88, R89). -/
theorem ofBytes_bytesOf (n : Width) (v : Addr) : ofBytes 64 (bytesOf n.bytes v) = n.truncate v := by
  apply BitVec.eq_of_getLsbD_eq
  intro i hi
  rw [getLsbD_ofBytes, getLsbD_truncate, bytesOf]
  by_cases hlow : i < 8 * n.bytes
  · have hdiv : i / 8 < n.bytes := by omega
    have hsplit : 8 * (i / 8) + i % 8 = i := Nat.div_add_mod i 8
    have hget : ((List.range n.bytes).map (byteOf v)).getD (i / 8) 0 = byteOf v (i / 8) := by simp [hdiv]
    have hmod : i % 8 < 8 := Nat.mod_lt _ (by decide)
    rw [hget, getLsbD_byteOf, hsplit]
    simp only [hi, hlow, hmod, decide_true, Bool.true_and]
  · have hdiv : ¬ i / 8 < n.bytes := by omega
    simp [hlow, hdiv]

/-! ### Forwarding -/

theorem forwardByte_append (l l' : List StoreEntry) (b : Byte) (a : Nat) :
    forwardByte (l ++ l') b a = forwardByte l' (forwardByte l b a) a := by
  induction l generalizing b with
  | nil => rfl
  | cons e rest ih => exact ih _

theorem forwardByte_of_not_covered {l : List StoreEntry} {b : Byte} {a : Nat} (h : ∀ e ∈ l, e.covers a = false) :
    forwardByte l b a = b := by
  induction l generalizing b with
  | nil => rfl
  | cons e rest ih =>
    obtain ⟨he, hrest⟩ := List.forall_mem_cons.1 h
    rw [forwardByte, he, if_neg Bool.false_ne_true, ih hrest]

/-- `covers` as `inBytes` says it. -/
theorem covers_iff {e : StoreEntry} {a : Nat} : e.covers a = true ↔ inBytes e.pa e.n.bytes a := decide_eq_true_iff

/-- What RINGCTL sees of a byte after a store: the stored byte where the store covers it, else what it saw before. -/
theorem State.store_seenByte (s : State) (pa : Addr) (n : Width) (v : Addr) (a : Nat) :
    (s.store pa n v).seenByte a =
      if StoreEntry.covers ⟨pa, n, n.truncate v⟩ a then byteOf (n.truncate v) (a - pa.toNat) else s.seenByte a := by
  rw [State.seenByte, State.store_sb, forwardByte_append]
  rfl

theorem State.store_seenByte_inside {s : State} {pa : Addr} {n : Width} (v : Addr) {j : Nat} (hj : j < n.bytes) :
    (s.store pa n v).seenByte (pa.toNat + j) = byteOf v j := by
  have hc : StoreEntry.covers ⟨pa, n, n.truncate v⟩ (pa.toNat + j) = true :=
    covers_iff.2 ⟨Nat.le_add_right _ _, Nat.add_lt_add_left hj _⟩
  rw [State.store_seenByte, if_pos hc, Nat.add_sub_cancel_left, byteOf_truncate v hj]

/-- Settles O27: the youngest entry covers the bytes stored and no other. -/
theorem loadSeesOwnStore : Obligations.LoadSeesOwnStore := by
  refine fun s pa n v => ⟨?_, rfl, fun a ha => ?_⟩
  · have hbytes : (List.range n.bytes).map (fun j => (s.store pa n v).seenByte (pa.toNat + j)) =
        bytesOf n.bytes v :=
      List.map_congr_left fun j hj => State.store_seenByte_inside v (List.mem_range.1 hj)
    rw [State.load, hbytes, ofBytes_bytesOf]
  · rw [State.store_seenByte, if_neg fun h => ha (covers_iff.1 h)]

/-! ### Drains -/

/-- Two entries that cover one byte overlap in it. -/
theorem overlaps_of_covers {e f : StoreEntry} {a : Nat} (he : e.covers a = true) (hf : f.covers a = true) :
    f.overlaps e = true := by
  obtain ⟨he1, he2⟩ := covers_iff.1 he
  obtain ⟨hf1, hf2⟩ := covers_iff.1 hf
  exact decide_eq_true ⟨by omega, by omega⟩

theorem StoreEntry.byteList_length (e : StoreEntry) : e.byteList.length = e.n.bytes := by
  simp [StoreEntry.byteList, bytesOf]

/-- The entry's bytes written to `Mem` are read there. -/
theorem Memory.read_writeEntry_covered {m : Memory} (hm : Memory.wf m = true) {e : StoreEntry} {a : Nat}
    (h : e.covers a = true) :
    Memory.read (m.writeBytes e.pa.toNat e.byteList) a = byteOf e.v (a - e.pa.toNat) := by
  obtain ⟨h1, h2⟩ := covers_iff.1 h
  obtain ⟨j, rfl⟩ := Nat.exists_eq_add_of_le h1
  have hj : j < e.byteList.length := by
    rw [e.byteList_length]
    omega
  rw [Memory.read_writeBytes_inside hm _ _ hj, Nat.add_sub_cancel_left]
  exact getElem_bytesOf _ _ hj

theorem Memory.read_writeEntry_not_covered (m : Memory) {e : StoreEntry} {a : Nat} (h : ¬ inBytes e.pa e.n.bytes a) :
    Memory.read (m.writeBytes e.pa.toNat e.byteList) a = Memory.read m a := by
  rw [inBytes] at h
  exact Memory.read_writeBytes_outside _ _ _ _ (by rw [e.byteList_length]; omega)

/-- An entry that no earlier one overlaps moves from the buffer to what lies below it without being seen to: a byte it
covers no earlier entry covers. -/
theorem forwardByte_drained {m : Memory} (hm : Memory.wf m = true) {l l' : List StoreEntry} {e : StoreEntry}
    (h : ∀ f ∈ l, f.overlaps e = false) (a : Nat) :
    forwardByte (l ++ l') (Memory.read (m.writeBytes e.pa.toNat e.byteList) a) a =
      forwardByte (l ++ e :: l') (m.read a) a := by
  rw [forwardByte_append, forwardByte_append, forwardByte]
  by_cases hc : e.covers a = true
  · have hl : ∀ f ∈ l, f.covers a = false := fun f hf =>
      Bool.eq_false_iff.2 fun hcf => Bool.eq_false_iff.1 (h f hf) (overlaps_of_covers hc hcf)
    rw [if_pos hc, Memory.read_writeEntry_covered hm hc, forwardByte_of_not_covered hl]
  · rw [if_neg hc, Memory.read_writeEntry_not_covered m fun hb => hc (covers_iff.2 hb)]

/-- Settles O28: the drained entry overlaps no earlier one (R101), so that where it covers a byte it is the first to. -/
theorem drainKeepsWhatRingctlSees : Obligations.DrainKeepsWhatRingctlSees := by
  intro s j a hm
  rcases drainStore_cases j s with h | ⟨e, hj, hno, h⟩ <;> rw [h]
  · exact ⟨rfl, fun _ => rfl⟩
  · obtain ⟨hlt, he⟩ := List.getElem?_eq_some_iff.1 hj
    have hsplit : s.sb.take j ++ e :: s.sb.drop (j + 1) = s.sb := by
      rw [← he, List.getElem_cons_drop, List.take_append_drop]
    refine ⟨?_, fun hout => Memory.read_writeEntry_not_covered s.mem (hout e (List.mem_of_getElem? hj))⟩
    simp only [State.seenByte, List.eraseIdx_eq_take_drop_succ]
    rw [forwardByte_drained hm hno, hsplit]

/-! ### The store fence -/

/-- Settles O29: the fence tests for the empty buffer; the oldest entry has no earlier one to wait for. -/
theorem storeFenceHoldsUntilDrained : Obligations.StoreFenceHoldsUntilDrained := by
  refine fun s k => ⟨sfence_of_empty, fun e rest hs => ⟨?_, ?_⟩⟩
  · rw [sfence, if_neg (by simp [hs])]
  · simp [drainStore, drainable, hs, StoreEntry.byteList]

end Sys2Proof.Machine
end

section
/-! THE MAC, THE STORE BUFFER AND THE POSTED WRITES (R100, R103, R105, R108): a MAC step with another store buffer is
the same step; what races; what a register access waits for. -/

namespace Sys2Proof.Machine

/-! ### The MAC's operations with another store buffer -/

/-- The state with the store buffer `b`. -/
def State.withSb (s : State) (b : List StoreEntry) : State := { s with sb := b }

section
variable (b : List StoreEntry) (s : State)

@[simp] theorem State.withSb_cfg : (s.withSb b).cfg = s.cfg := rfl
@[simp] theorem State.withSb_mac : (s.withSb b).mac = s.mac := rfl
@[simp] theorem State.withSb_live (a n : Nat) : (s.withSb b).live a n = s.live a n := rfl
@[simp] theorem racing_withSb (a : Nat) : racing (s.withSb b) a = racing s a := rfl
@[simp] theorem macTxEnabled_withSb : macTxEnabled (s.withSb b) = macTxEnabled s := rfl
@[simp] theorem macRxEnabled_withSb : macRxEnabled (s.withSb b) = macRxEnabled s := rfl
@[simp] theorem waitingFrame_withSb : waitingFrame (s.withSb b) = waitingFrame s := rfl
@[simp] theorem sendFrame_withSb (f : List Byte) : sendFrame f (s.withSb b) = (sendFrame f s).withSb b := rfl
@[simp] theorem txComplete_withSb : txComplete (s.withSb b) = (txComplete s).withSb b := rfl
@[simp] theorem rxTaken_withSb (rest : List (List Byte)) : rxTaken rest (s.withSb b) = (rxTaken rest s).withSb b := rfl
@[simp] theorem rxFields_withSb (n : Nat) : rxFields n (s.withSb b) = rxFields n s := rfl
@[simp] theorem rxStatus_withSb : rxStatus (s.withSb b) = rxStatus s := rfl
@[simp] theorem rxComplete_withSb : rxComplete (s.withSb b) = (rxComplete s).withSb b := rfl

theorem macReadByte_withSb (a : Nat) :
    macReadByte a (s.withSb b) = ((macReadByte a s).1, (macReadByte a s).2.withSb b) := by
  rw [macReadByte, macReadByte, racing_withSb]
  split <;> rfl

theorem macReadBytes_withSb (n a : Nat) :
    macReadBytes n a (s.withSb b) = ((macReadBytes n a s).1, (macReadBytes n a s).2.withSb b) := by
  induction n generalizing a s with
  | zero => rfl
  | succ n ih => simp only [macReadBytes, macReadByte_withSb, ih]

theorem macWriteByte_withSb (a : Nat) (v : Byte) :
    macWriteByte a v (s.withSb b) = (macWriteByte a v s).withSb b := by
  rw [macWriteByte, macWriteByte, racing_withSb]
  split <;> rfl

theorem macWriteBytes_withSb (a : Nat) (bs : List Byte) :
    macWriteBytes a bs (s.withSb b) = (macWriteBytes a bs s).withSb b := by
  induction bs generalizing a s with
  | nil => rfl
  | cons v rest ih => simp only [macWriteBytes, macWriteByte_withSb, ih]

theorem macWriteFields_withSb (pa : Nat) (fs : List (Nat × List Byte)) :
    macWriteFields pa fs (s.withSb b) = (macWriteFields pa fs s).withSb b := by
  induction fs generalizing s with
  | nil => rfl
  | cons f rest ih => simp only [macWriteFields, macWriteBytes_withSb, ih]

theorem txWriteBack_withSb (d : TxDesc) : txWriteBack d (s.withSb b) = (txWriteBack d s).withSb b := by
  simp only [txWriteBack, State.withSb_cfg, State.withSb_mac, macWriteByte_withSb]
  split <;> rfl

theorem rxFill_withSb (d : RxDesc) (f : List Byte) (rest : List (List Byte)) :
    rxFill d f rest (s.withSb b) = (rxFill d f rest s).withSb b := by
  simp only [rxFill_eq, State.withSb_mac, rxTaken_withSb, rxFields_withSb, rxStatus_withSb, macWriteBytes_withSb,
    macWriteFields_withSb, rxComplete_withSb]

end

/-! ### The MAC's steps -/

/-- The answer with the store buffer `b`. -/
def withSb (b : List StoreEntry) (r : Result) : Result :=
  match r with
  | .next t => .next (t.withSb b)
  | .fault f => .fault f
  | .refused f => .refused f

theorem macTouch_withSb {b : List StoreEntry} {a n : Nat} {k : State → Result} {s : State}
    (hk : k (s.withSb b) = withSb b (k s)) : macTouch a n k (s.withSb b) = withSb b (macTouch a n k s) := by
  simp only [macTouch, State.withSb_live, hk]
  split_ifs <;> rfl

theorem exec_txd_withSb (b : List StoreEntry) (d : TxDesc) (s : State) :
    exec (.txd d) (s.withSb b) = withSb b (exec (.txd d) s) := by
  rw [exec, exec, execTxd, execTxd, macTxEnabled_withSb, State.withSb_cfg]
  split_ifs
  · refine macTouch_withSb (macTouch_withSb ?_)
    simp only [macReadBytes_withSb, sendFrame_withSb, txWriteBack_withSb, txComplete_withSb, withSb]
  · rfl
  · rfl

theorem exec_rxd_withSb (b : List StoreEntry) (d : RxDesc) (s : State) :
    exec (.rxd d) (s.withSb b) = withSb b (exec (.rxd d) s) := by
  rw [exec, exec, execRxd, execRxd, macRxEnabled_withSb, waitingFrame_withSb]
  split_ifs
  · cases waitingFrame s with
    | none => rfl
    | some w =>
      refine macTouch_withSb (macTouch_withSb ?_)
      simp only [rxFill_withSb, withSb]
  · rfl

theorem macTxStep_withSb (b : List StoreEntry) (s : State) : macTxStep (s.withSb b) = withSb b (macTxStep s) := by
  rw [macTxStep, macTxStep, macTxEnabled_withSb]
  split_ifs
  · exact macTouch_withSb (by simp only [State.withSb_mac, macReadBytes_withSb, runTxImage_eq, exec_txd_withSb])
  · rfl

theorem macRxStep_withSb (b : List StoreEntry) (s : State) : macRxStep (s.withSb b) = withSb b (macRxStep s) := by
  rw [macRxStep, macRxStep, macRxEnabled_withSb, waitingFrame_withSb]
  split_ifs
  · exact macTouch_withSb (by simp only [State.withSb_mac, macReadBytes_withSb, runRxImage_eq, exec_rxd_withSb])
  · rfl

/-! ### Races -/

theorem macReadByte_of_racing {a : Nat} {s : State} (h : racing s a = true) :
    macReadByte a s = ((s.free 0).setWidth 8, { s.spend 1 with raced := true }) := by
  simp only [macReadByte, h, if_true]

theorem macWriteByte_of_racing {a : Nat} {v : Byte} {s : State} (h : racing s a = true) :
    macWriteByte a v s = { s.spend 1 with raced := true, mem := s.mem.write a ((s.free 0).setWidth 8) } := by
  simp only [macWriteByte, h, if_true]

/-- Settles O31: no operation of the MAC reads the store buffer, and whether an access races is read off `held` alone,
which neither a fault nor a block reset writes. -/
theorem macNeverSeesStoreBuffer : Obligations.MacNeverSeesStoreBuffer := by
  refine ⟨fun s t b => ⟨fun h => ?_, fun h => ?_⟩, fun s a v => ⟨racing_iff,
    fun h => ⟨macReadByte_of_racing h, macWriteByte_of_racing h⟩,
    fun h => ⟨macReadByte_of_not_racing h, macWriteByte_of_not_racing h⟩, fun c info => racing_raise s c info a,
    fun rest h => ⟨_, step_of_sched h, racing_blockReset _ a⟩⟩⟩
  · exact (macTxStep_withSb b s).trans (congrArg (withSb b) h)
  · exact (macRxStep_withSb b s).trans (congrArg (withSb b) h)

/-! ### Posted writes -/

/-- A register read holds while a posted write is on its way (R105). -/
theorem regRead_of_posted {off : Word} {k : Word → State → Result} {s : State} (h : regInRange s.cfg off = true)
    (hp : s.pwq ≠ []) : regRead off k s = .next s := by
  rw [regRead, if_pos h, if_neg hp]

/-- Settles O30: in range, a write is posted and a read tests for the empty queue; a flush is a read of `STATUS`. -/
theorem registerReadsWaitForPostedWrites : Obligations.RegisterReadsWaitForPostedWrites :=
  fun _ _ _ _ _ h => ⟨regWrite_of_inRange h, regRead_of_posted h, fun _ hp hr => regRead_of_arrived h hp hr,
    writeFlush_of_arrived⟩

end Sys2Proof.Machine
end

section
/-! THE CODEC AND THE OPCODE MAP (R129, R130, R132, R161 to R168): each layout's decoder and encoder are inverse, and a
command word is its reserved bits above its opcode. -/

namespace Sys2Proof

/-! ### The descriptor layouts -/

/-- R168: the slices of R121 are the fields. -/
@[simp] theorem decodeTxd_encodeTxd (d : TxDesc) : decodeTxd (encodeTxd d) = d := by
  obtain ⟨hAddr, hLen, hOff, hCmd, hSta, hStart, hSpec⟩ := descriptorFieldsLieWhereStated.1 d
  simp only [decodeTxd, hAddr, hLen, hOff, hCmd, hSta, hStart, hSpec]

/-- R168: the slices of R122 are the fields. -/
@[simp] theorem decodeRxd_encodeRxd (d : RxDesc) : decodeRxd (encodeRxd d) = d := by
  obtain ⟨hAddr, hLen, hSum, hSta, hErr, hSpec⟩ := descriptorFieldsLieWhereStated.2.1 d
  simp only [decodeRxd, hAddr, hLen, hSum, hSta, hErr, hSpec]

/-- The slices of R121 leave no bit of the image out: from the top, each joins the one below it. -/
@[simp] theorem encodeTxd_decodeTxd (D : Image) : encodeTxd (decodeTxd D) = D := by
  simp only [encodeTxd, decodeTxd, BitVec.extractLsb'_append_extractLsb'_eq_extractLsb',
    BitVec.extractLsb'_eq_self]

/-- The slices of R122 leave no bit of the image out. -/
@[simp] theorem encodeRxd_decodeRxd (D : Image) : encodeRxd (decodeRxd D) = D := by
  simp only [encodeRxd, decodeRxd, BitVec.extractLsb'_append_extractLsb'_eq_extractLsb',
    BitVec.extractLsb'_eq_self]

/-! ### The command word -/

theorem decodeCommand_of_reserved {w : Word} (h : w.extractLsb' 8 24 ≠ 0) :
    decodeCommand w = .rejected .reservedBits :=
  if_neg h

theorem decodeCommand_of_clear {w : Word} (h : w.extractLsb' 8 24 = 0) :
    decodeCommand w = decodeOpcode (w.extractLsb' 0 8) :=
  if_pos h

/-- A command word with its reserved bits clear is its opcode (R129). -/
theorem eq_setWidth_opcode {w : Word} (h : w.extractLsb' 8 24 = 0) : w = (w.extractLsb' 0 8).setWidth 32 := by
  calc w = w.extractLsb' 8 24 ++ w.extractLsb' 0 8 := by
        simp only [BitVec.extractLsb'_append_extractLsb'_eq_extractLsb', BitVec.extractLsb'_eq_self]
    _ = (0 : BitVec 24) ++ w.extractLsb' 0 8 := by rw [h]
    _ = (w.extractLsb' 0 8).setWidth 32 := (BitVec.setWidth_eq_append (by decide)).symm

/-- Each opcode of the map, widened to a command word, is the encoding of its command (R130). -/
theorem encode_of_decodeOpcode {op : Byte} {i : Instr} (h : decodeOpcode op = .instr i) :
    encode i = .cmdw (op.setWidth 32) := by
  unfold decodeOpcode at h
  split_ifs at h with h1 h2 h3 h4 h5 h6 h7 <;> cases h <;> subst op <;> rfl

/-- The opcodes outside the map are those that are 0 or at least 8, rejected as such (R132). -/
theorem decodeOpcode_rejected_iff {op : Byte} {e : DecodeError} :
    decodeOpcode op = .rejected e ↔ e = .opcode ∧ (op.toNat = 0 ∨ 8 ≤ op.toNat) := by
  unfold decodeOpcode
  split_ifs with h1 h2 h3 h4 h5 h6 h7
  case neg =>
    have hout : op.toNat = 0 ∨ 8 ≤ op.toNat := by bv_omega
    rw [and_iff_left hout, Decoded.rejected.injEq, eq_comm]
  all_goals subst op; simp

theorem encode_of_decodeCommand {w : Word} {i : Instr} (h : decodeCommand w = .instr i) : encode i = .cmdw w := by
  by_cases hr : w.extractLsb' 8 24 = 0
  · rw [decodeCommand_of_clear hr] at h
    rw [encode_of_decodeOpcode h, ← eq_setWidth_opcode hr]
  · rw [decodeCommand_of_reserved hr] at h
    cases h

/-! ### The decoder -/

theorem decode_encode (i : Instr) : decode (encode i) = .instr i := by
  cases i with
  | txd d => simp only [encode, decode, decodeTxd_encodeTxd]
  | rxd d => simp only [encode, decode, decodeRxd_encodeRxd]
  | construct | transmit | receive | serviceIrq | irqEnable | irqDisable | teardown => decide

theorem eq_encode_of_decode {e : Encoded} {i : Instr} (h : decode e = .instr i) : e = encode i := by
  cases e with
  | cmdw w => exact (encode_of_decodeCommand h).symm
  | txd D => cases h; simp only [encode, encodeTxd_decodeTxd]
  | rxd D => cases h; simp only [encode, encodeRxd_decodeRxd]

/-- Settles O2: each format's encoder inverts its decoder and the other way round. -/
theorem decodeInvertsEncode : Obligations.DecodeInvertsEncode := fun _ i =>
  ⟨eq_encode_of_decode, fun h => h ▸ decode_encode i⟩

/-- Settles O3: the reserved bits are tested first, and only then the opcode, which alone is rejected as one. -/
theorem illegalWordsAreRejectedByName : Obligations.IllegalWordsAreRejectedByName := by
  intro w
  have hop : (w.extractLsb' 0 8).toNat = w.toNat % 256 := BitVec.extractLsb'_toNat 0 8 w
  rw [decode]
  by_cases hr : w.extractLsb' 8 24 = 0
  · simp [decodeCommand_of_clear hr, decodeOpcode_rejected_iff, hop, hr]
  · rw [decodeCommand_of_reserved hr]
    exact ⟨iff_of_true rfl hr, iff_of_false (by decide) fun h => hr h.1⟩

/-- Settles O1: the words of the map are encodings, and the rest is computed. -/
theorem wordsDecodeAsTheMapSays : Obligations.WordsDecodeAsTheMapSays := by
  refine ⟨decode_encode .construct, decode_encode .transmit, decode_encode .receive, decode_encode .serviceIrq,
    decode_encode .irqEnable, decode_encode .irqDisable, decode_encode .teardown, ?_, ?_, ?_, ?_, ?_⟩ <;> decide

end Sys2Proof
end

section
/-! WHEN MAC.TX DOES NOT CONSUME (R133, R264): the step is not enabled, or the command is of no form it takes. -/

namespace Sys2Proof.Machine

theorem macTxEnabled_iff {s : State} :
    macTxEnabled s = true ↔ s.mac.tctl &&& s.cfg.tctlEn ≠ 0 ∧ s.mac.tdh ≠ s.mac.tdt := by
  simp [macTxEnabled]

theorem txFormOk_iff {c : Cfg} {command : Byte} :
    txFormOk c command = true ↔ command &&& ~~~(c.cmdRs ||| c.cmdEop) = 0 ∧ command &&& c.cmdEop ≠ 0 := by
  simp [txFormOk]

theorem exec_txd_of_not_enabled {d : TxDesc} {s : State} (h : ¬ macTxEnabled s = true) :
    exec (.txd d) s = .next s :=
  if_neg h

theorem exec_txd_of_form {d : TxDesc} {s : State} (he : macTxEnabled s = true)
    (hf : ¬ txFormOk s.cfg d.command = true) : exec (.txd d) s = .refused .txCommandForm := by
  rw [exec, execTxd, if_pos he, if_neg hf]

/-- Settles O54: enablement is tested first, then the form of the command. -/
theorem txDescriptorRefusedOrIdle : Obligations.TxDescriptorRefusedOrIdle := by
  refine fun s d => ⟨fun hidle => exec_txd_of_not_enabled ?_, fun hon hne hform =>
    exec_txd_of_form (macTxEnabled_iff.mpr ⟨hon, hne⟩) ?_⟩
  · rw [macTxEnabled_iff]
    tauto
  · rw [txFormOk_iff]
    tauto

end Sys2Proof.Machine
end

section
/-! FIELD WRITES IN MEMORY (R90, R163, R167, R168): the bytes of one field written into a descriptor's 16 replace that
field's slice of its image, and every slice apart from it is as before. -/

namespace Sys2Proof

open Machine

/-! ### The image and its bytes -/

/-- Bit `i` of the image is bit `i % 8` of byte `i / 8` (R84, R90). -/
theorem getLsbD_imageAt (m : Memory) (d i : Nat) :
    (imageAt m d).getLsbD i = (decide (i < 128) && (m.read (d + i / 8)).getLsbD (i % 8)) := by
  rw [imageAt, getLsbD_ofBytes]
  by_cases hi : i < 128
  · have hbyte : i / 8 < 16 := by omega
    simp [hbyte]
  · simp [hi]

theorem bytesOf_length {w : Nat} (n : Nat) (v : BitVec w) : (bytesOf n v).length = n := by simp [bytesOf]

/-- A byte is its own only byte. -/
theorem bytesOf_byte (v : Byte) : bytesOf 1 v = [v] := congrArg (fun b => [b]) BitVec.extractLsb'_eq_self

/-! ### A field written -/

/-- The image `D'` has `v` in the bits from `start` on, and every slice apart from them as `D` has it. -/
structure FieldWritten (D D' : Image) (start : Nat) {w : Nat} (v : BitVec w) : Prop where
  field : D'.extractLsb' start w = v
  apart : ∀ {p l : Nat}, p + l ≤ start ∨ start + w ≤ p → D'.extractLsb' p l = D.extractLsb' p l

/-- Writing the `n` bytes of `v` from byte `k` of a descriptor on writes the field `v` at bit `8 * k` of its image. -/
theorem fieldWritten_writeBytes {m : Memory} (hm : Memory.wf m = true) (d k n : Nat) {w : Nat} (v : BitVec w)
    (hw : w = 8 * n) (hk : k + n ≤ 16) :
    FieldWritten (imageAt m d) (imageAt (m.writeBytes (d + k) (bytesOf n v)) d) (8 * k) v where
  field := by
    apply BitVec.eq_of_getLsbD_eq
    intro i hi
    have hbyte : i / 8 < (bytesOf n v).length := by rw [bytesOf_length]; omega
    have hin : 8 * k + i < 128 := by omega
    have hmod : i % 8 < 8 := Nat.mod_lt _ (by decide)
    have hplace : d + (8 * k + i) / 8 = d + k + i / 8 := by omega
    rw [BitVec.getLsbD_extractLsb', getLsbD_imageAt, hplace, Memory.read_writeBytes_inside hm _ _ hbyte,
      getElem_bytesOf, getLsbD_byteOf, Nat.mul_add_mod, Nat.div_add_mod]
    simp only [hi, hin, hmod, decide_true, Bool.true_and]
  apart := by
    intro p l h
    apply BitVec.eq_of_getLsbD_eq
    intro i hi
    have hout : d + (p + i) / 8 < d + k ∨ d + k + (bytesOf n v).length ≤ d + (p + i) / 8 := by
      rw [bytesOf_length]
      omega
    rw [BitVec.getLsbD_extractLsb', BitVec.getLsbD_extractLsb', getLsbD_imageAt, getLsbD_imageAt,
      Memory.read_writeBytes_outside _ _ _ _ hout]

section
variable {D D' : Image}

theorem decodeTxd_of_address {v : Addr} (h : FieldWritten D D' 0 v) :
    decodeTxd D' = { decodeTxd D with bufferAddress := v } := by
  simp (disch := decide) only [decodeTxd, h.field, h.apart]

theorem decodeTxd_of_length {v : Half} (h : FieldWritten D D' 64 v) :
    decodeTxd D' = { decodeTxd D with length := v } := by
  simp (disch := decide) only [decodeTxd, h.field, h.apart]

theorem decodeTxd_of_command {v : Byte} (h : FieldWritten D D' 88 v) :
    decodeTxd D' = { decodeTxd D with command := v } := by
  simp (disch := decide) only [decodeTxd, h.field, h.apart]

theorem decodeTxd_of_status {v : Byte} (h : FieldWritten D D' 96 v) :
    decodeTxd D' = { decodeTxd D with status := v } := by
  simp (disch := decide) only [decodeTxd, h.field, h.apart]

theorem decodeRxd_of_address {v : Addr} (h : FieldWritten D D' 0 v) :
    decodeRxd D' = { decodeRxd D with bufferAddress := v } := by
  simp (disch := decide) only [decodeRxd, h.field, h.apart]

theorem decodeRxd_of_status {v : Byte} (h : FieldWritten D D' 96 v) :
    decodeRxd D' = { decodeRxd D with status := v } := by
  simp (disch := decide) only [decodeRxd, h.field, h.apart]

end

/-- Settles O5: each field's bytes are whole bytes of the image (R121, R122), so that writing them is writing its
slice. -/
theorem fieldWriteChangesThatFieldOnly : Obligations.FieldWriteChangesThatFieldOnly := by
  intro m d hm
  have address (v : Addr) := fieldWritten_writeBytes hm d 0 8 v rfl (by decide)
  have length (v : Half) := fieldWritten_writeBytes hm d 8 2 v rfl (by decide)
  have command (v : Byte) := bytesOf_byte v ▸ fieldWritten_writeBytes hm d 11 1 v rfl (by decide)
  have status (v : Byte) := bytesOf_byte v ▸ fieldWritten_writeBytes hm d 12 1 v rfl (by decide)
  exact ⟨fun v => decodeTxd_of_address (address v), fun v => decodeTxd_of_length (length v),
    fun v => decodeTxd_of_command (command v), fun v => decodeTxd_of_status (status v),
    fun v => decodeRxd_of_address (address v), fun v => decodeRxd_of_status (status v)⟩

end Sys2Proof
end

section
/-! TRANSMIT'S FIELDS AND HAND-OFF (R163, R235 to R237): a field write to an owned descriptor of a live, aligned ring
is one entry in the store buffer; the rest of the command waits for the two write buffers. -/

namespace Sys2Proof.Machine

theorem exec_transmit_at {s : State} {n : Nat} {p : TransmitPos} (h : s.seq = .transmit n p) :
    exec .transmit s = transmitAt n p s := by
  simp only [exec, execTransmit, h]

/-- A 2-byte store keeps the low 16 bits (R89). -/
theorem Width.truncate_two_ofNat (m : Nat) :
    Width.two.truncate (BitVec.ofNat 64 m) = (BitVec.ofNat 16 m).setWidth 64 := by
  rw [Width.truncate, ← BitVec.setWidth_eq_extractLsb' (by decide), BitVec.setWidth_ofNat_of_le (by decide)]

/-- A naturally aligned field of an owned slot's live descriptor is stored (R87, R163, R193). -/
theorem setField_of_descriptor {q : RingId} {i : Nat} {s : State} (ht : s.tag q i = .sw)
    (ha : (s.ringOf q).ring.pa.toNat % 16 = 0)
    (hl : s.live ((s.ringOf q).ring.pa + BitVec.ofNat 64 (16 * i)).toNat 16 = true)
    (hfit : ((s.ringOf q).ring.pa + BitVec.ofNat 64 (16 * i)).toNat + 16 ≤ 2 ^ 64)
    (f : Nat) (n : Width) (v : Addr) (k : State → Result) (hf : f + n.bytes ≤ 16) (hn : f % n.bytes = 0) :
    setField q i f n v k s = k { s with sb := s.sb ++ [⟨descPa s q i f, n, n.truncate v⟩] } := by
  have hpos : 0 < n.bytes := by cases n <;> decide
  have hdvd : n.bytes ∣ 16 := by cases n <;> decide
  have hpa := descPa_toNat (s := s) (q := q) (i := i) (f := f) (by omega) hfit
  have hdesc := hdvd.trans (Nat.dvd_of_mod_eq_zero (descriptor_aligned i ha))
  refine setField_of_owned ht ?_ ?_
  · rw [hpa]
    exact Nat.mod_eq_zero_of_dvd (hdesc.add (Nat.dvd_of_mod_eq_zero hn))
  · rw [hpa]
    exact State.live_part hl hf

/-- Settles O44: the four fields lie aligned in the descriptor, so that each store is made; each later micro-operation
is its shared operation going on. -/
theorem transmitFillsAndHandsOff : Obligations.TransmitFillsAndHandsOff := by
  intro s n i m hv
  refine ⟨fun ht ha hl hfit => ?_, fun hs hb => ?_, fun hs => ?_, fun hs hp => ?_, fun hs hb => ?_, fun hs => ?_⟩
  · have hfield := setField_of_descriptor (q := .tx) ht ha hl hfit
    refine ⟨fun hs => ?_, fun hs => ?_, fun hs => ?_, fun hs => ?_⟩
    · exact (exec_transmit_at hs).trans (hfield fieldAddr .eight _ _ (by decide) (by decide))
    · rw [← Width.truncate_two_ofNat]
      exact (exec_transmit_at hs).trans (hfield fieldLength .two _ _ (by decide) (by decide))
    · exact (exec_transmit_at hs).trans (hfield fieldStatus .one _ _ (by decide) (by decide))
    · rw [← Width.truncate_one]
      exact (exec_transmit_at hs).trans (hfield fieldCommand .one _ _ (by decide) (by decide))
  · exact (exec_transmit_at hs).trans (sfence_of_empty hb)
  · rw [exec_transmit_at hs, transmitAt, regWrite_of_inRange (regInRange_tdt hv)]
    rfl
  · exact (exec_transmit_at hs).trans (writeFlush_of_arrived hv hp)
  · exact (exec_transmit_at hs).trans (sfence_of_empty hb)
  · exact exec_transmit_at hs

end Sys2Proof.Machine
end

section
/-! RING INDICES AND THE GUARD (R181, R193, R300): the successor of a slot index, and what the guard answers on a slot
that is the MAC's. -/

namespace Sys2Proof.Machine

/-- Settles O6: both sums are taken modulo `CAP = 2^w`, and `i + 1` is at most `CAP`. -/
theorem nextIndexIsTheLowBitsOfTheSum : Obligations.NextIndexIsTheLowBitsOfTheSum := by
  intro c w i hcap hi
  have hwrap : i = c.cap - 1 → nextIndex c i = 0 := fun h => by
    rw [nextIndex, h, Nat.sub_add_cancel (by omega), Nat.mod_self]
  have hstep : i ≠ c.cap - 1 → nextIndex c i = i + 1 := fun h => Nat.mod_eq_of_lt (by omega)
  refine ⟨?_, nextIndex_lt hi, ⟨fun h0 => ?_, hwrap⟩, hstep⟩
  · simp [nextIndex, hcap]
  · by_contra hne
    rw [hstep hne] at h0
    exact Nat.succ_ne_zero i h0

theorem ownGuard_of_hw {q : RingId} {i : Nat} {k : State → Result} {s : State} (h : s.tag q i = .hw) :
    ownGuard q i k s = .next (s.raise .ownershipViolation (ownInfo q i)) := by
  simp [ownGuard, h, raised]

theorem ownInfo_tx (i : Nat) : (ownInfo .tx i).toNat = i % 65536 := by
  simp only [ownInfo, BitVec.toNat_setWidth, BitVec.toNat_ofNat]
  omega

/-- Bit 31 lies above the slot's 16 bits. -/
theorem ownInfo_rx (i : Nat) : (ownInfo .rx i).toNat = 2147483648 + i % 65536 := by
  have hslot : ((BitVec.ofNat 16 i).setWidth 32).toNat = i % 65536 := ownInfo_tx i
  have hlt : i % 65536 < 2 ^ 31 := by omega
  simp only [ownInfo, BitVec.toNat_or, hslot]
  exact (Nat.two_pow_add_eq_or_of_lt hlt 1).symm

/-- Settles O25: each of the four guarded accesses is the guard before it is anything else. -/
theorem guardRaisesOwnershipViolation : Obligations.GuardRaisesOwnershipViolation := fun _ _ i _ _ _ _ _ _ _ _ h =>
  ⟨ownGuard_of_hw h, ownGuard_of_hw h, ownGuard_of_hw h, ownGuard_of_hw h, ownInfo_tx i, ownInfo_rx i⟩

end Sys2Proof.Machine
end

section
/-! THE RINGS IN INIT (R188, R189, R207 to R210): the register lists of init steps 4 and 5 stay inside the window, and
the address of a descriptor of an aligned ring is stored or read. -/

namespace Sys2Proof.Machine

/-! ### The register lists -/

theorem listWrite_of_some {off v : Word} {w : Option (Word × Word)} {k : State → Result} {s : State}
    (hw : w = some (off, v)) (h : regInRange s.cfg off = true) :
    listWrite w k s = k { s with pwq := s.pwq ++ [⟨off, v⟩] } := by
  rw [hw, listWrite, regWrite_of_inRange h]

/-- An entry of a list of writes to named registers is in range (R155). -/
theorem regInRange_of_list {s : State} (hv : s.cfg.valid = true) {l : List (Word × Word)}
    (hl : l.map Prod.fst ⊆ s.cfg.offsets) {k : Nat} {off v : Word} (h : l[k]? = some (off, v)) :
    regInRange s.cfg off = true :=
  regInRange_of_mem hv (hl (List.mem_map_of_mem (List.mem_of_getElem? h)))

theorem txRegWrites_offsets (s : State) : (txRegWrites s).map Prod.fst ⊆ s.cfg.offsets := by
  simp [txRegWrites, Cfg.offsets]

theorem rxRegWrites_offsets (s : State) : (rxRegWrites s).map Prod.fst ⊆ s.cfg.offsets := by
  simp [rxRegWrites, Cfg.offsets]

theorem afterTxReg_eq (k : Nat) : afterTxReg k = if k < 5 then .txReg (k + 1) else .txFence :=
  if_congr (by omega) rfl rfl

theorem afterRxReg_eq (k : Nat) : afterRxReg k = if k < 4 then .rxReg (k + 1) else .rxFence :=
  if_congr (by omega) rfl rfl

/-! ### The address field -/

/-- The first field of a descriptor of an aligned ring is aligned (R87). -/
theorem fieldAddr_aligned {q : RingId} {s : State} (i : Nat) (h : (s.ringOf q).ring.pa.toNat % 16 = 0) :
    (descPa s q i fieldAddr).toNat % Width.eight.bytes = 0 :=
  Nat.mod_eq_zero_of_dvd (Dvd.dvd.trans (by decide) (Nat.dvd_of_mod_eq_zero (descriptor_aligned i h)))

/-! ### Init steps 4 and 5 -/

/-- Settles O37: both fields lie aligned in the descriptor and each listed register in the window, so that each access
is made. -/
theorem constructProgramsTx : Obligations.ConstructProgramsTx := by
  intro s n i hv
  refine ⟨fun hs => exec_construct_at hs, fun ht ha hl hfit => ?_, fun k off v hk hs => ?_, fun hs hb => ?_,
    fun hs => ?_⟩
  · have hfield := setField_of_descriptor (q := .tx) ht ha hl hfit
    refine ⟨fun hs => ?_, fun hs => ?_⟩
    · exact (exec_construct_at hs).trans (hfield fieldAddr .eight _ _ (by decide) (by decide))
    · rw [← Width.truncate_one]
      exact (exec_construct_at hs).trans (hfield fieldStatus .one _ _ (by decide) (by decide))
  · rw [← afterTxReg_eq]
    exact (exec_construct_at hs).trans (listWrite_of_some hk (regInRange_of_list hv (txRegWrites_offsets s) hk))
  · exact (exec_construct_at hs).trans (sfence_of_empty hb)
  · rw [exec_construct_at hs, constructAt, regWrite_of_inRange (regInRange_tdt hv)]
    rfl

/-- Settles O38: as for the TX ring; the hand-over of the ring goes with the write of `RDT`. -/
theorem constructProgramsRx : Obligations.ConstructProgramsRx := by
  intro s n i hv
  refine ⟨fun ht ha hl hs => ?_, fun k off v hk hs => ?_, fun hs hb => ?_, fun hs => ?_⟩
  · exact (exec_construct_at hs).trans (setField_of_owned (q := .rx) ht (fieldAddr_aligned i ha) hl)
  · rw [← afterRxReg_eq]
    exact (exec_construct_at hs).trans (listWrite_of_some hk (regInRange_of_list hv (rxRegWrites_offsets s) hk))
  · exact (exec_construct_at hs).trans (sfence_of_empty hb)
  · rw [exec_construct_at hs, constructAt, regWrite_of_inRange (regInRange_rdt hv)]
    rfl

end Sys2Proof.Machine
end

section
/-! RECEIVE'S SCAN AND HAND-BACK (R191, R240 to R242, R246 to R249): where each test of the scan goes on, and the
register accesses at its two ends. -/

namespace Sys2Proof.Machine

theorem exec_receive_at {s : State} {n : Nat} {p : ReceivePos} (h : s.seq = .receive n p) :
    exec .receive s = receiveAt n p s := by
  simp only [exec, execReceive, h]

theorem indexFrom_of_lt {x : Word} {k : Nat → State → Result} {s : State} (h : x.toNat < s.cfg.cap) :
    indexFrom x k s = k x.toNat s := by
  simp only [indexFrom, h, if_true]

/-- The batch bound is tested before the status is read (R248). -/
theorem receiveAt_batch (n i : Nat) (s : State) : receiveAt n (.batch i) s =
    .next { s with seq := .receive (n + 1) (if s.rxN = s.cfg.rxBatchMax then .ret else .readStatus i) } := by
  simp only [receiveAt]
  split <;> rfl

/-- Without `DD` the scan ends (R241). -/
theorem receiveAt_readyTest (n i : Nat) (st : Byte) (s : State) : receiveAt n (.readyTest i st) s =
    .next { s with seq := .receive (n + 1) (if st &&& s.cfg.staDd = 0 then .ret else .readFence i) } := by
  by_cases h : st &&& s.cfg.staDd = 0#8 <;> simp [receiveAt, ddSet, h, receiveTo, proceed]

theorem addrTest_of_ne {n i : Nat} {a : Addr} {s : State} (h : a ≠ 0) :
    addrTest n i a s = receiveTo n (.readLength i) s := by
  simp only [addrTest, h, if_false]

/-- Settles O46: each access is made under its premise, and each test goes on or ends as its value says. -/
theorem receiveScansReadySlots : Obligations.ReceiveScansReadySlots := by
  intro s n i x st a hv
  refine ⟨fun hs hl => ?_, fun hs hp => ?_, fun hs hx => ?_, fun hs => ?_, fun hs hl => ?_, fun hs => ?_,
    fun hs => ?_, fun hs ht ha hl => ?_, fun hs => ?_, fun hs hne => ?_⟩
  · exact (exec_receive_at hs).trans (gate_of_life hl)
  · rw [exec_receive_at hs, receiveAt, regRead_of_arrived (regInRange_rdt hv) hp (regAt_rdt hv)]
    rfl
  · rw [exec_receive_at hs, receiveAt, indexFrom_of_lt hx]
    rfl
  · exact (exec_receive_at hs).trans (receiveAt_batch n i s)
  · rw [exec_receive_at hs, receiveAt, getStatus_of_live (q := .rx) hl]
    rfl
  · exact (exec_receive_at hs).trans (receiveAt_readyTest n i st s)
  · exact exec_receive_at hs
  · exact (exec_receive_at hs).trans (getField_of_owned (q := .rx) ht (fieldAddr_aligned i ha) hl)
  · exact exec_receive_at hs
  · exact (exec_receive_at hs).trans (addrTest_of_ne hne)

/-- Settles O48: behind the fence nothing but the register's range is tested. -/
theorem receiveRearmsAndReturns : Obligations.ReceiveRearmsAndReturns := by
  intro s n i hv
  refine ⟨fun hs hb => ?_, fun hs => ?_, fun hs => ?_, fun hs => ?_⟩
  · exact (exec_receive_at hs).trans (sfence_of_empty hb)
  · rw [exec_receive_at hs, receiveAt, regWrite_of_inRange (regInRange_rdt hv)]
    rfl
  · exact exec_receive_at hs
  · exact exec_receive_at hs

end Sys2Proof.Machine
end

section
/-! EXCLUSIVITY ON RINGCTL'S SIDE (R188 to R194, R309): wherever a guarded access stands next its slot is tagged `SW`,
under every step of every agent, so that the guard never raises. -/

namespace Sys2Proof.Machine

/-! ### Tags after a hand-over -/

theorem takeSlot_tag {s : State} {q : RingId} {i : Nat} (h : i < (s.ringOf q).own.length) :
    (s.takeSlot q i).tag q i = .sw := by
  cases q <;> simp_all [State.tag, State.ringOf, List.getD_eq_getElem?_getD]

/-- Init step 4 makes every slot of both rings RINGCTL's (R188). -/
theorem allOwned_initTags (s : State) (q : RingId) : allOwned ((s.setAllTags .tx .sw).setAllTags .rx .sw) q := by
  intro j hj
  have hj : j < s.cfg.cap := by simpa using hj
  cases q <;> simp [State.tag, State.ringOf, List.getD_eq_getElem?_getD, hj]

theorem cap_pos_of_ringSizeOk {c : Cfg} (h : ringSizeOk c = true) : 0 < c.cap := by
  simp only [ringSizeOk, Bool.and_eq_true, decide_eq_true_eq] at h
  exact h.2 ▸ Nat.two_pow_pos _

/-! ### The slot a command stands at -/

theorem slotOwned_of_idle {s : State} (h : s.seq = .idle) : slotOwned s := by
  simp only [slotOwned, h]

theorem slotOwned_gateOf (s : State) (i : Instr) (n : Nat) : slotOwned { s with seq := gateOf i n } := by
  cases i <;> trivial

theorem slotOwned_congr {s t : State} (hc : t.cfg = s.cfg) (hq : t.seq = s.seq) (ht : t.txq = s.txq)
    (hr : t.rxq = s.rxq) (hi : slotOwned s) : slotOwned t := by
  simpa only [slotOwned, allOwned, State.tag, State.ringOf, hc, hq, ht, hr] using hi

/-- The sequencer's position written out. -/
theorem slotOwned_at {s : State} {q : Seq} (hq : s.seq = q) (hi : slotOwned s) : slotOwned { s with seq := q } :=
  slotOwned_congr (s := s) rfl hq.symm rfl rfl hi

/-! ### Where a micro-operation goes on -/

theorem ConstructGoes.slotOwned {s u : State} {n m : Nat} {p p' : ConstructPos} (h : ConstructGoes s p u p')
    (hi : slotOwned { s with seq := .construct n p }) : slotOwned { u with seq := .construct m p' } := by
  cases h
  case validate hok => exact cap_pos_of_ringSizeOk hok
  case initTags => exact ⟨hi, allOwned_initTags s .tx, allOwned_initTags s .rx⟩
  case txAddr | txFence | txTail => exact hi
  case txStatus =>
    obtain ⟨hlt, htx, hrx⟩ := hi
    unfold afterTxDesc
    split
    · exact ⟨‹_›, htx, hrx⟩
    · exact ⟨Nat.zero_lt_of_lt hlt, hrx⟩
  case txReg k =>
    obtain ⟨hpos, hrx⟩ := hi
    have hrx : allOwned (s.postListed (txRegWrites s)[k]?) .rx := by
      simpa [allOwned, State.tag, State.ringOf] using hrx
    unfold afterTxReg
    split <;> exact ⟨by simpa using hpos, hrx⟩
  case rxAddr =>
    obtain ⟨_, hrx⟩ := hi
    unfold afterRxDesc
    split
    · exact ⟨‹_›, hrx⟩
    · trivial
  case alloc => unfold afterAlloc; split <;> trivial
  case rxReg => unfold afterRxReg; split <;> trivial
  case timing => unfold timingFrom; split <;> trivial
  case mta => unfold afterMta timingFrom; split_ifs <;> trivial
  all_goals trivial

theorem TransmitGoes.slotOwned {s u : State} {n m : Nat} {p p' : TransmitPos} (h : TransmitGoes s p u p')
    (htab : s.txq.own.length = s.cfg.cap) (hi : slotOwned { s with seq := .transmit n p }) :
    slotOwned { u with seq := .transmit m p' } := by
  cases h
  case index hx => exact hx
  case busyTest i _ _ =>
    have hlt : i < s.cfg.cap := hi
    exact takeSlot_tag (q := .tx) (htab ▸ hlt)
  case truncate | truncateLogged | copy => unfold copyFrom; split <;> exact hi
  case readStatus | setAddr | setLength | setStatus => exact hi
  all_goals trivial

theorem ReceiveGoes.slotOwned {s u : State} {n m : Nat} {p p' : ReceivePos} (h : ReceiveGoes s p u p')
    (htab : s.rxq.own.length = s.cfg.cap) (hi : slotOwned { s with seq := .receive n p }) :
    slotOwned { u with seq := .receive m p' } := by
  cases h
  case index hx => exact nextIndex_lt hx
  case readFence i =>
    have hlt : i < s.cfg.cap := hi
    exact ⟨hlt, takeSlot_tag (q := .rx) (htab ▸ hlt)⟩
  case readLength | copy => unfold copyOutFrom; split <;> exact hi
  case scrub => unfold afterScrub; split <;> exact hi
  case clearStatus => exact hi.1
  case advance => exact nextIndex_lt hi
  case batch | readStatus | ready | readAddr | addrTest | deliver | fence | rearm => exact hi
  all_goals trivial

theorem Goes.slotOwned {s u : State} {q q' : Seq} (h : Goes s q u q') (htab : TableInv s)
    (hi : slotOwned { s with seq := q }) : slotOwned { u with seq := q' } := by
  obtain ⟨_, htx, _, hrx, _⟩ := htab
  cases h with
  | construct h => exact h.slotOwned hi
  | transmit h => exact h.slotOwned htx hi
  | receive h => exact h.slotOwned hrx hi
  | serviceIrq | irqEnable | irqDisable | teardown => trivial

theorem MicroOp.slotOwned {s t : State} {q : Seq} (h : MicroOp s q t) (hq : s.seq = q) (htab : TableInv s)
    (hi : slotOwned s) : slotOwned t := by
  cases h with
  | holds => exact hi
  | fatal | wrongState | busy | rxInvalid => exact slotOwned_of_idle (State.raise_seq _ _ _)
  | goes hg => exact hg.slotOwned htab (slotOwned_at hq hi)
  | returns => exact slotOwned_of_idle rfl

theorem Performed.ownedInv {s t : State} {mv : Move} (h : Performed s mv t) (hi : OwnedInv s) : OwnedInv t := by
  obtain ⟨htab, hi⟩ := hi
  refine ⟨h.tableInv htab, ?_⟩
  cases h with
  | microOp h => exact h.slotOwned rfl htab hi
  | issued => exact slotOwned_gateOf _ _ _
  | illegal => exact slotOwned_of_idle (State.raise_seq _ _ _)
  | bystander h => exact slotOwned_congr h.cfg h.seq h.txq h.rxq hi
  | arrived => exact slotOwned_congr (by simp) (by simp) (by simp) (by simp) hi
  | macReset => exact slotOwned_congr rfl rfl rfl rfl hi
  | blockReset => exact slotOwned_of_idle rfl

/-! ### What latches no violation -/

/-- Answering `r`, the machine in `s` latches no `OwnershipViolation`. -/
def NoViolation (s : State) (r : Result) : Prop := ∀ t, r = .next t → t.fault = 0x09 → s.fault = 0x09

/-- Wherever `k` goes on, it latches no `OwnershipViolation`. -/
def NeverViolates (k : State → Result) : Prop := ∀ s, NoViolation s (k s)

namespace NoViolation

variable {s u : State} {k : State → Result}

theorem next (h : u.fault = s.fault) : NoViolation s (.next u) := by
  intro t ht hf
  cases ht
  exact h ▸ hf

theorem refused (r : Refusal) : NoViolation s (.refused r) := fun _ h => nomatch h

/-- Nothing has been latched between `s` and `u`. -/
theorem of_fault {r : Result} (h : u.fault = s.fault) (hr : NoViolation u r) : NoViolation s r :=
  fun t ht hf => h ▸ hr t ht hf

/-- Another outcome may latch, but not this code (R300). -/
theorem raised {c : Code} {v : Word} (hc : codeByte c ≠ 0x09) (h : u.fault = s.fault) :
    NoViolation s (raised c v u) := by
  intro t ht hf
  rw [raised_next ht, State.raise_fault, h] at hf
  split at hf
  · exact absurd hf hc
  · exact hf

theorem gate {l : Life} (hk : NeverViolates k) : NoViolation s (gate l k s) := by
  unfold Machine.gate
  split
  · exact hk s
  · exact .raised (by decide) rfl

theorem sfence (hk : NeverViolates k) : NoViolation s (sfence k s) := by
  unfold Machine.sfence
  split
  · exact hk s
  · exact .next rfl

theorem regWrite {off v : Word} (hk : NeverViolates k) : NoViolation s (regWrite off v k s) := by
  unfold Machine.regWrite
  split
  · exact hk (s.post off v)
  · exact .raised (by decide) rfl

theorem listWrite {w : Option (Word × Word)} (hk : NeverViolates k) : NoViolation s (listWrite w k s) := by
  cases w with
  | none => exact hk s
  | some x => exact .regWrite hk

theorem regRead {off : Word} {k : Word → State → Result} (hk : ∀ v, NeverViolates (k v)) :
    NoViolation s (regRead off k s) := by
  unfold Machine.regRead
  split
  · split
    · split
      · exact .refused _
      · exact .of_fault (by simp) (hk _ _)
    · exact .next rfl
  · exact .raised (by decide) rfl

theorem writeFlush (hk : NeverViolates k) : NoViolation s (writeFlush k s) := .regRead fun _ => hk

theorem indexFrom {x : Word} {k : Nat → State → Result} (hk : ∀ i, NeverViolates (k i)) :
    NoViolation s (indexFrom x k s) := by
  unfold Machine.indexFrom
  split
  · exact hk _ s
  · exact .raised (by decide) rfl

theorem allocate {n pages : Nat} {k : Handle → State → Result} (hk : ∀ h, NeverViolates (k h)) :
    NoViolation s (allocate n pages k s) := by
  unfold Machine.allocate
  split
  · exact .next rfl
  · exact .raised (by decide) rfl
  · split
    · exact .of_fault (by simp) (hk _ _)
    · exact .refused _

/-- A status is read under any tag (R164, R167). -/
theorem getStatus {q : RingId} {i : Nat} {k : Byte → State → Result} (hk : ∀ v, NeverViolates (k v)) :
    NoViolation s (getStatus q i k s) := fun t h => hk _ s t (getStatus_next h).2

/-! On a slot of RINGCTL's the guard of an access is met (R193). -/

variable {q : RingId} {i : Nat} (ht : s.tag q i = .sw)
include ht

theorem setField {f : Nat} {n : Width} {v : Addr} (hk : NeverViolates k) :
    NoViolation s (setField q i f n v k s) := by
  intro t h
  rcases setField_next h with ⟨_, _, _, h⟩ | ⟨hn, _⟩
  · exact hk (s.store _ n v) t h
  · exact absurd ht hn

theorem getField {f : Nat} {n : Width} {k : Addr → State → Result} (hk : ∀ v, NeverViolates (k v)) :
    NoViolation s (getField q i f n k s) := by
  intro t h
  rcases getField_next h with ⟨_, _, _, h⟩ | ⟨hn, _⟩
  · exact hk _ s t h
  · exact absurd ht hn

theorem setBufByte {j : Nat} {b : Byte} (hk : NeverViolates k) : NoViolation s (setBufByte q i j b k s) := by
  intro t h
  rcases setBufByte_next h with ⟨_, _, _, h⟩ | ⟨hn, _⟩
  · exact hk (s.store _ .one _) t h
  · exact absurd ht hn

theorem getBufByte {j : Nat} {k : Byte → State → Result} (hk : ∀ v, NeverViolates (k v)) :
    NoViolation s (getBufByte q i j k s) := by
  intro t h
  rcases getBufByte_next h with ⟨_, _, _, h⟩ | ⟨hn, _⟩
  · exact hk _ s t h
  · exact absurd ht hn

end NoViolation

/-! ### The commands raise none -/

theorem constructAt_noViolation {n : Nat} {p : ConstructPos} {s : State}
    (hi : slotOwned { s with seq := .construct n p }) : NoViolation s (constructAt n p s) := by
  cases p with simp only [constructAt]
  | txAddr i | txStatus i =>
    obtain ⟨hlt, htx, _⟩ := hi
    have ht : s.tag .tx i = .sw := htx i hlt
    exact .setField ht fun _ => .next rfl
  | rxAddr i =>
    obtain ⟨hlt, hrx⟩ := hi
    have ht : s.tag .rx i = .sw := hrx i hlt
    exact .setField ht fun _ => .next rfl
  | validate =>
    split
    · exact .next rfl
    · exact .raised (by decide) rfl
  | gate => exact .gate fun _ => .next rfl
  | alloc k => exact .allocate fun _ s => .next (by simp)
  | readCtl | readCause => exact .regRead fun _ _ => .next rfl
  | maskFirst | assertReset | maskAgain | txTail | rxTail | mta | unmask | clearCause =>
    exact .regWrite fun _ => .next rfl
  | txReg | rxReg | timing => exact .listWrite fun _ => .next rfl
  | resetFence | txFence | rxFence => exact .sfence fun _ => .next rfl
  | flush => exact .writeFlush fun _ => .next rfl
  | initTags | ret => exact .next rfl

theorem truncate_noViolation (n i : Nat) (s : State) : NoViolation s (truncate n i s) := by
  simp only [truncate]
  split_ifs
  · exact .refused _
  · exact .next rfl
  · exact .next rfl

theorem copyIn_noViolation {n i m k : Nat} {s : State} (ht : s.tag .tx i = .sw) : NoViolation s (copyIn n i m k s) := by
  unfold copyIn
  split
  · exact .refused _
  · exact .setBufByte ht fun _ => .next rfl

theorem transmitAt_noViolation {n : Nat} {p : TransmitPos} {s : State}
    (hi : slotOwned { s with seq := .transmit n p }) : NoViolation s (transmitAt n p s) := by
  cases p with simp only [transmitAt]
  | copy => exact copyIn_noViolation hi
  | setAddr i | setLength i | setStatus i | setCommand i =>
    have ht : s.tag .tx i = .sw := hi
    exact .setField ht fun _ => .next rfl
  | busyTest =>
    split
    · exact .next rfl
    · exact .raised (by decide) rfl
  | truncate i => exact truncate_noViolation n i s
  | gate => exact .gate fun _ => .next rfl
  | readTail => exact .regRead fun _ _ => .next rfl
  | index => exact .indexFrom fun _ _ => .next rfl
  | readStatus => exact .getStatus fun _ _ => .next rfl
  | fence | lastFence => exact .sfence fun _ => .next rfl
  | handOff => exact .regWrite fun _ => .next rfl
  | flush => exact .writeFlush fun _ => .next rfl
  | ret => exact .next rfl

theorem receiveAt_noViolation {n : Nat} {p : ReceivePos} {s : State}
    (hi : slotOwned { s with seq := .receive n p }) : NoViolation s (receiveAt n p s) := by
  cases p with simp only [receiveAt]
  | readAddr i | readLength i =>
    have ht : s.tag .rx i = .sw := hi.2
    exact .getField ht fun _ _ => .next rfl
  | copy i =>
    have ht : s.tag .rx i = .sw := hi.2
    exact .getBufByte ht fun _ _ => .next rfl
  | scrub i =>
    have ht : s.tag .rx i = .sw := hi.2
    exact .setBufByte ht fun _ => .next rfl
  | clearStatus i =>
    have ht : s.tag .rx i = .sw := hi.2
    exact .setField ht fun _ => .next rfl
  | addrTest =>
    unfold addrTest
    split
    · exact .raised (by decide) rfl
    · exact .next rfl
  | batch | readyTest =>
    split <;> exact .next rfl
  | gate => exact .gate fun _ => .next rfl
  | readTail => exact .regRead fun _ _ => .next rfl
  | index => exact .indexFrom fun _ _ => .next rfl
  | readStatus => exact .getStatus fun _ _ => .next rfl
  | fence => exact .sfence fun _ => .next rfl
  | rearm => exact .regWrite fun _ => .next rfl
  | readFence | deliver | advance | ret => exact .next rfl

/-! The other commands make no guarded access. -/

theorem serviceIrqAt_noViolation (n : Nat) (p : CausePos) (s : State) : NoViolation s (serviceIrqAt n p s) := by
  cases p with simp only [serviceIrqAt]
  | gate => exact .gate fun _ => .next rfl
  | read => exact .regRead fun _ _ => .next rfl
  | writeBack => exact .regWrite fun _ => .next rfl
  | ret => exact .next rfl

theorem irqEnableAt_noViolation (n : Nat) (p : MaskPos) (s : State) : NoViolation s (irqEnableAt n p s) := by
  cases p with simp only [irqEnableAt]
  | gate => exact .gate fun _ => .next rfl
  | write => exact .regWrite fun _ => .next rfl
  | flush => exact .writeFlush fun _ => .next rfl
  | ret => exact .next rfl

theorem irqDisableAt_noViolation (n : Nat) (p : MaskPos) (s : State) : NoViolation s (irqDisableAt n p s) := by
  cases p with simp only [irqDisableAt]
  | gate => exact .gate fun _ => .next rfl
  | write => exact .regWrite fun _ => .next rfl
  | flush => exact .writeFlush fun _ => .next rfl
  | ret => exact .next rfl

theorem teardownAt_noViolation (n : Nat) (p : TeardownPos) (s : State) : NoViolation s (teardownAt n p s) := by
  cases p with simp only [teardownAt]
  | gate => exact .gate fun _ => .next rfl
  | free | ret => exact .next rfl

theorem sequencerStep_noViolation {s : State} (hi : slotOwned s) : NoViolation s (sequencerStep s) := by
  unfold sequencerStep
  cases hq : s.seq with simp only [Seq.instr, exec]
  | idle => exact .next rfl
  | construct n p =>
    simp only [execConstruct, hq]
    exact constructAt_noViolation (slotOwned_at hq hi)
  | transmit n p =>
    simp only [execTransmit, hq]
    exact transmitAt_noViolation (slotOwned_at hq hi)
  | receive n p =>
    simp only [execReceive, hq]
    exact receiveAt_noViolation (slotOwned_at hq hi)
  | serviceIrq n p =>
    simp only [execServiceIrq, hq]
    exact serviceIrqAt_noViolation n p s
  | irqEnable n p =>
    simp only [execIrqEnable, hq]
    exact irqEnableAt_noViolation n p s
  | irqDisable n p =>
    simp only [execIrqDisable, hq]
    exact irqDisableAt_noViolation n p s
  | teardown n p =>
    simp only [execTeardown, hq]
    exact teardownAt_noViolation n p s

/-! ### The steps -/

/-- No other agent's move latches a fault (R310). -/
theorem Performed.fault_of_other {s t : State} {mv : Move} (h : Performed s mv t) (hmv : mv ≠ .sequencer) :
    t.fault = s.fault ∨ t.fault = 0 := by
  cases h with
  | microOp => exact absurd rfl hmv
  | issued | macReset => exact .inl rfl
  | illegal => exact .inl (by simp [codeFatal])
  | bystander h => exact .inl h.fault
  | arrived => exact .inl (by simp)
  | blockReset => exact .inr rfl

theorem perform_noViolation {s : State} (mv : Move) (hi : slotOwned s) : NoViolation s (perform mv s) := by
  by_cases hmv : mv = .sequencer
  · rw [hmv]
    exact sequencerStep_noViolation hi
  · intro t h hf
    rcases (perform_performed h).fault_of_other hmv with hs | h0
    · exact hs ▸ hf
    · exact absurd (h0.symm.trans hf) (by decide)

/-- Settles O13: a command comes to a guarded access only behind the micro-operation that tags the slot `SW` and gives
no tag up before its last one, so that the invariant stays; on a slot so tagged the guard raises nothing, and no other
operation raises its code. -/
theorem stepKeepsOwnership : Obligations.StepKeepsOwnership := by
  intro s t hi h
  have hpop : OwnedInv s.popSched := hi
  exact ⟨(step_performed h).ownedInv hpop, perform_noViolation (nextMove s) hpop.2 t h⟩

end Sys2Proof.Machine
end

section
/-! CONSTRUCT'S RESET OF THE MAC AND ITS LAST STEPS (R204 to R206, R211 to R214): the registers of init steps 1 to 3 and
6 to 8 stand in the window, and a ring of a power of two in size passes the checks. -/

namespace Sys2Proof.Machine

/-! ### Init steps 1 to 3 -/

/-- R206's two checks, the power of two given by its exponent. -/
theorem ringSizeOk_of_two_pow {c : Cfg} {w : Nat} (hmul : c.cap * 16 % 128 = 0) (hpow : c.cap = 2 ^ w) :
    ringSizeOk c = true := by
  have hlog : c.cap = 2 ^ c.cap.log2 := by rw [hpow, Nat.log2_two_pow]
  rw [ringSizeOk, decide_eq_true hmul, decide_eq_true hlog, Bool.and_self]

/-- Settles O36: both registers are in range and `CTL` is the one read, so that each access is made; the fence
passes and so do the checks. -/
theorem constructResetsTheMac : Obligations.ConstructResetsTheMac := by
  intro s n c hv
  have hims := regInRange_ims hv
  refine ⟨fun hs => ?_, fun hs hp => ?_, fun hs => ?_, fun hs => ?_, fun hs hb => ?_, fun w hs hmul hpow => ?_⟩
  · exact (exec_construct_at hs).trans (regWrite_of_inRange hims)
  · rw [exec_construct_at hs, constructAt, regRead_of_arrived (regInRange_ctl hv) hp (regAt_ctl hv)]
    rfl
  · exact (exec_construct_at hs).trans (regWrite_of_inRange (regInRange_ctl hv))
  · exact (exec_construct_at hs).trans (regWrite_of_inRange hims)
  · rw [exec_construct_at hs, constructAt, sfence_of_empty hb]
    rfl
  · exact (exec_construct_at hs).trans (if_pos (ringSizeOk_of_two_pow hmul hpow))

/-! ### Init steps 6 to 8 -/

/-- Behind the last multicast entry stands the first timing register, or the unmasking where there is none. -/
theorem afterMta_eq (c : Cfg) (k : Nat) : afterMta c k =
    if k + 1 < 128 then .mta (k + 1) else if c.irqTimingRegs = [] then .unmask else .timing 0 := by
  have hfirst : timingFrom c 0 = if c.irqTimingRegs = [] then .unmask else .timing 0 := by
    cases h : c.irqTimingRegs <;> simp [timingFrom, h]
  rw [← hfirst]
  rfl

/-- Settles O39: every register written or read is in range and named; the return is the definition's own. -/
theorem constructEndsReady : Obligations.ConstructEndsReady := by
  intro s n k off v hv
  refine ⟨fun hk hs => ?_, fun hoff hs => ?_, fun hs => ?_, fun hs hp => ?_, fun hs => ?_, fun hs hp => ?_,
    fun hs => ?_⟩
  · rw [← afterMta_eq]
    exact (exec_construct_at hs).trans (regWrite_of_inRange (regInRange_mta hv hk))
  · have hin := regInRange_of_mem hv (Cfg.valid_timing hv (List.mem_of_getElem? hoff))
    exact (exec_construct_at hs).trans (listWrite_of_some (by rw [hoff]; rfl) hin)
  · rw [exec_construct_at hs, constructAt, regWrite_of_inRange (regInRange_ims hv)]
    rfl
  · rw [exec_construct_at hs, constructAt, regRead_of_arrived (regInRange_icr hv) hp (regAt_icr hv)]
    rfl
  · exact (exec_construct_at hs).trans (regWrite_of_inRange (regInRange_icr hv))
  · exact (exec_construct_at hs).trans (writeFlush_of_arrived hv hp)
  · exact exec_construct_at hs

end Sys2Proof.Machine
end

section
/-! THE FRAME OF CONSTRUCT (R200 to R214): what a micro-operation leaves unchanged, whether it goes on, holds or
ends. -/

namespace Sys2Proof.Machine

/-! ### What is unchanged -/

/-- What no micro-operation of CONSTRUCT touches: the command port, the delivery queue, RECEIVE's counter, the schedule
and every MAC variable but the causes, which a read of them clears. -/
structure ConstructKeeps (s t : State) : Prop where
  cfg : t.cfg = s.cfg
  cmdw : t.cmdw = s.cmdw
  arg0 : t.arg0 = s.arg0
  pktIn : t.pktIn = s.pktIn
  pktOut : t.pktOut = s.pktOut
  rxN : t.rxN = s.rxN
  raced : t.raced = s.raced
  sched : t.sched = s.sched
  mac : t.mac = { s.mac with icause := t.mac.icause }

/-- The result port, the fault latch and the log are as before. -/
structure SameOutcome (s t : State) : Prop where
  resCode : t.resCode = s.resCode
  resVal : t.resVal = s.resVal
  fault : t.fault = s.fault
  log : t.log = s.log

/-- Nothing is done to the rings, to memory or to the allocations. -/
structure SameRegions (s t : State) : Prop where
  txq : t.txq = s.txq
  rxq : t.rxq = s.rxq
  held : t.held = s.held
  mem : t.mem = s.mem
  sb : t.sb = s.sb
  allocs : t.allocs = s.allocs

/-- Nothing is granted: `Mem`, the live allocations, the handles and the answers waiting are as before. -/
structure Ungranted (s t : State) : Prop where
  mem : t.mem = s.mem
  allocs : t.allocs = s.allocs
  txRing : t.txq.ring = s.txq.ring
  txBuf : t.txq.buf = s.txq.buf
  rxRing : t.rxq.ring = s.rxq.ring
  rxBuf : t.rxq.buf = s.rxq.buf
  answers : t.answers = s.answers

/-- A register read changes nothing but the causes and the counter of free values (R50, R53). -/
theorem macRead_state (r : Reg) (s : State) :
    ∃ x d, (macRead r s).2 = { s with mac := { s.mac with icause := x }, draws := d } := by
  cases r <;> exact ⟨_, _, rfl⟩

/-- A list write is posted or passes. -/
theorem State.postListed_state (s : State) (w : Option (Word × Word)) :
    ∃ l, s.postListed w = { s with pwq := l } := by
  cases w <;> exact ⟨_, rfl⟩

@[simp] theorem State.postListed_answers (s : State) (w : Option (Word × Word)) :
    (s.postListed w).answers = s.answers := by
  cases w <;> rfl
@[simp] theorem State.postListed_held (s : State) (w : Option (Word × Word)) : (s.postListed w).held = s.held := by
  cases w <;> rfl

/-- RINGCTL sees a byte by the store buffer and `Mem` alone (R88). -/
theorem State.seenByte_congr {s t : State} (hb : t.sb = s.sb) (hm : t.mem = s.mem) (a : Nat) :
    t.seenByte a = s.seenByte a := by
  simp only [State.seenByte, hb, hm]

/-- What RINGCTL sees of a byte a store does not cover is as before (R89). -/
theorem State.store_seenByte_outside {s : State} {pa : Addr} {n : Width} (v : Addr) {a : Nat}
    (h : ¬ inBytes pa n.bytes a) : (s.store pa n v).seenByte a = s.seenByte a := by
  rw [State.store_seenByte, if_neg fun hc => h (covers_iff.1 hc)]

/-- A grant changes what RINGCTL sees only of the granted region (R275). -/
theorem allocated_seenByte_outside {s : State} {k : Nat} {h : Handle} {rest : List AllocAnswer} {a : Nat}
    (ha : a < h.pa.toNat ∨ h.pa.toNat + allocPages s.cfg k * s.cfg.pageSize ≤ a) :
    (allocated s k h rest).seenByte a = s.seenByte a := by
  simp only [State.seenByte, allocated_sb, allocated_mem, Memory.read_zeroRange_outside s.mem ha]

/-- Keeping a handle sets no tag and moves no shadow index (R202). -/
@[simp] theorem setAllocHandle_txq_own (s : State) (k : Nat) (h : Handle) :
    (setAllocHandle s k h).txq.own = s.txq.own := by
  unfold setAllocHandle; split_ifs <;> rfl
@[simp] theorem setAllocHandle_txq_tail (s : State) (k : Nat) (h : Handle) :
    (setAllocHandle s k h).txq.tail = s.txq.tail := by
  unfold setAllocHandle; split_ifs <;> rfl
@[simp] theorem setAllocHandle_rxq_own (s : State) (k : Nat) (h : Handle) :
    (setAllocHandle s k h).rxq.own = s.rxq.own := by
  unfold setAllocHandle; split_ifs <;> rfl
@[simp] theorem setAllocHandle_rxq_tail (s : State) (k : Nat) (h : Handle) :
    (setAllocHandle s k h).rxq.tail = s.rxq.tail := by
  unfold setAllocHandle; split_ifs <;> rfl

/-! ### A micro-operation that goes on -/

namespace ConstructGoes

variable {s u : State} {p p' : ConstructPos}

theorem keeps (h : ConstructGoes s p u p') : ConstructKeeps s u ∧ SameOutcome s u := by
  cases h
  case alloc => constructor <;> constructor <;> simp [allocated]
  case readCtl r _ | readCause r _ | flush r _ =>
    obtain ⟨x, d, hr⟩ := macRead_state r s
    rw [hr]
    constructor <;> constructor <;> rfl
  case txReg | rxReg | timing =>
    obtain ⟨l, hl⟩ := State.postListed_state s _
    rw [hl]
    constructor <;> constructor <;> rfl
  all_goals constructor <;> constructor <;> rfl

/-- The tags are set before init step 4 and, on the RX side, again when the ring is handed over; the shadow indices are
set with the tails (R188, R189, R208, R210). -/
theorem rings (h : ConstructGoes s p u p') :
    (p ≠ .initTags → u.txq.own = s.txq.own) ∧ (p ≠ .txTail → u.txq.tail = s.txq.tail) ∧
    (p ≠ .initTags → p ≠ .rxTail → u.rxq.own = s.rxq.own) ∧ (p ≠ .rxTail → u.rxq.tail = s.rxq.tail) := by
  cases h <;> simp

/-- An allocation goes on only by a grant (R201, R275). -/
theorem ne_alloc (h : ConstructGoes s p u p') (hn : ∀ k x rest, p = .alloc k → s.answers ≠ .grant x :: rest)
    (k : Nat) : p ≠ .alloc k := by
  rintro rfl
  cases h with | alloc ha _ => exact hn _ _ _ rfl ha

theorem ungranted (h : ConstructGoes s p u p') (hp : ∀ k, p ≠ .alloc k) : Ungranted s u := by
  cases h
  case alloc k _ _ _ _ => exact absurd rfl (hp k)
  all_goals constructor <;> simp

/-- What RINGCTL holds changes with a grant and with the hand-over of the RX ring (log entry 6). -/
theorem held (h : ConstructGoes s p u p') (hp : ∀ k, p ≠ .alloc k) (hr : p ≠ .rxTail) : u.held = s.held := by
  cases h
  case alloc k _ _ _ _ => exact absurd rfl (hp k)
  case rxTail => exact absurd rfl hr
  all_goals simp

/-- Without a grant RINGCTL sees a change only in the bytes the micro-operation stores to (R207, R209). -/
theorem seenByte {n a : Nat} (h : ConstructGoes s p u p') (hs : s.seq = .construct n p) (hp : ∀ k, p ≠ .alloc k)
    (ha : ∀ q i pa w, constructTarget s = some (q, i, pa, w) → ¬ inBytes pa w a) :
    u.seenByte a = s.seenByte a := by
  cases h
  case alloc k _ _ _ _ => exact absurd rfl (hp k)
  case txAddr | txStatus | rxAddr =>
    exact State.store_seenByte_outside _ (ha _ _ _ _ (by rw [constructTarget, hs]; rfl))
  all_goals exact State.seenByte_congr (by simp) (by simp) a

/-- With a grant, only in the granted region (R275). -/
theorem seenByte_outside_grant {k a : Nat} {x : Handle} {rest : List AllocAnswer}
    (h : ConstructGoes s (.alloc k) u p') (ha : s.answers = .grant x :: rest)
    (hout : a < x.pa.toNat ∨ x.pa.toNat + allocPages s.cfg k * s.cfg.pageSize ≤ a) :
    u.seenByte a = s.seenByte a := by
  cases h with
  | alloc ha' _ =>
    obtain ⟨hx, -⟩ := List.cons.inj (ha'.symm.trans ha)
    cases hx
    exact allocated_seenByte_outside hout

end ConstructGoes

/-! ### Every path -/

/-- Only an allocation takes an answer of the allocator, whatever the micro-operation's outcome (R275). -/
theorem constructAt_answers {n : Nat} {p : ConstructPos} {s t : State} (h : constructAt n p s = .next t)
    (hp : ∀ k, p ≠ .alloc k) : t.answers = s.answers := by
  have hgo {u : State} {p' : ConstructPos} (h : constructTo n p' u = .next t) (hu : u.answers = s.answers) :
      t.answers = s.answers := by
    rw [proceed_next h, ← hu]
  cases p with simp only [constructAt] at h
  | alloc k => exact absurd rfl (hp k)
  | gate =>
    rcases gate_next h with ⟨_, h⟩ | ⟨_, rfl⟩
    · exact hgo h rfl
    · simp
  | maskFirst | assertReset | maskAgain | txTail | rxTail | mta | unmask | clearCause =>
    rcases regWrite_next h with ⟨_, rfl⟩ | ⟨_, h⟩
    · simp
    · exact hgo h rfl
  | txReg | rxReg | timing =>
    rcases listWrite_next h with ⟨_, h⟩ | ⟨_, _, _, _, rfl⟩ | ⟨_, _, _, _, h⟩
    · exact hgo h rfl
    · simp
    · exact hgo h rfl
  | readCtl | readCause | flush =>
    rcases regRead_next h with ⟨_, rfl⟩ | ⟨_, _, rfl⟩ | ⟨_, _, r, _, h⟩
    · simp
    · rfl
    · exact hgo h (macRead_answers r s)
  | resetFence | txFence | rxFence =>
    rcases sfence_next h with ⟨_, h⟩ | ⟨_, rfl⟩
    · exact hgo h rfl
    · rfl
  | txAddr | txStatus | rxAddr =>
    rcases setField_next h with ⟨_, _, _, h⟩ | ⟨_, rfl⟩
    · exact hgo h rfl
    · simp
  | validate =>
    split at h
    · exact hgo h rfl
    · simp [raised_next h]
  | initTags => exact hgo h rfl
  | ret => simp [ret_next h]

/-- What `exec` of CONSTRUCT can answer, for its frame: it goes on, or it starts, holds, ends or gives way to another
command, and then nothing but the port's outcome, the lifecycle and a refused allocation's answer changes. -/
inductive ConstructOutcome (s t : State) : Prop
  | goes {n : Nat} {p p' : ConstructPos} {u : State} : s.seq = .construct n p → ConstructGoes s p u p' →
      t = { u with seq := .construct (n + 1) p' } → ConstructOutcome s t
  | stays : ConstructKeeps s t → SameRegions s t → (t.seq ≠ .idle → SameOutcome s t) →
      ((∀ n k, s.seq ≠ .construct n (.alloc k)) → t.answers = s.answers) → ConstructOutcome s t

namespace ConstructOutcome

variable {s t : State}

/-- RINGCTL holds, or another command runs. -/
theorem refl (s : State) : ConstructOutcome s s :=
  .stays (by constructor <;> rfl) (by constructor <;> rfl) (fun _ => by constructor <;> rfl) fun _ => rfl

/-- A micro-operation that ends with an outcome leaves everything else; only an allocation has taken an answer. -/
theorem of_raise {as : List AllocAnswer} {c : Code} {v : Word}
    (ha : (∀ n k, s.seq ≠ .construct n (.alloc k)) → as = s.answers) :
    ConstructOutcome s (State.raise { s with answers := as } c v) :=
  .stays (by constructor <;> simp) (by constructor <;> simp) (fun hne => absurd (State.raise_seq _ _ _) hne)
    fun hp => (State.raise_answers _ _ _).trans (ha hp)

theorem of_constructAt {n : Nat} {p : ConstructPos} (hs : s.seq = .construct n p) (h : constructAt n p s = .next t) :
    ConstructOutcome s t := by
  have hans (hp : ∀ n k, s.seq ≠ .construct n (.alloc k)) : t.answers = s.answers :=
    constructAt_answers h fun k hk => hp n k (hk ▸ hs)
  have hop := constructAt_microOp h
  generalize hq : Seq.construct n p = q at hop
  cases hop with
  | holds => exact .refl s
  | fatal => exact .of_raise fun hp => (State.raise_answers _ _ _).symm.trans (hans hp)
  | wrongState => exact .of_raise (as := s.answers) fun _ => rfl
  | busy | rxInvalid => cases hq
  | goes hg =>
    subst hq
    cases hg with | construct hg => exact .goes hs hg rfl
  | returns hr =>
    subst hq
    cases hr with
    | construct =>
      exact .stays (by constructor <;> rfl) (by constructor <;> rfl) (fun hne => absurd rfl hne) fun _ => rfl

end ConstructOutcome

theorem exec_construct_outcome {s t : State} (h : exec .construct s = .next t) : ConstructOutcome s t := by
  simp only [exec, execConstruct] at h
  split at h
  · rw [proceed_next h]
    exact .stays (by constructor <;> rfl) (by constructor <;> rfl) (fun _ => by constructor <;> rfl) fun _ => rfl
  · exact .of_constructAt ‹_› h
  all_goals
    cases h
    exact .refl _

/-- Settles O40: where CONSTRUCT does not go on, the rings and memory are as before; where it does, each clause is read
off the positions it can go on from, and the granted region off the allocation's own state. -/
theorem constructFrame : Obligations.ConstructFrame := by
  intro s t h
  cases exec_construct_outcome h with
  | stays hk hr ho ha =>
    have hseen := State.seenByte_congr hr.sb hr.mem
    exact ⟨hk.cfg, hk.cmdw, hk.arg0, hk.pktIn, hk.pktOut, hk.rxN, hk.raced, hk.sched, ⟨_, hk.mac⟩,
      fun hne => ⟨(ho hne).resCode, (ho hne).resVal, (ho hne).fault, (ho hne).log⟩,
      fun _ => by rw [hr.txq], fun _ => by rw [hr.txq], fun _ => by rw [hr.rxq], fun _ => by rw [hr.rxq],
      fun _ _ => hr.held, ha, fun _ => ⟨hr.mem, hr.allocs, by rw [hr.txq], by rw [hr.txq], by rw [hr.rxq],
        by rw [hr.rxq], fun a _ => hseen a⟩, fun _ _ a _ _ _ _ _ => hseen a⟩
  | @goes n p p' u hs hg ht =>
    subst ht
    obtain ⟨hk, ho⟩ := hg.keeps
    obtain ⟨hto, htt, hro, hrt⟩ := hg.rings
    have hpos {x : ConstructPos} (hx : ∀ m, s.seq ≠ .construct m x) : p ≠ x := fun hp => hx n (hp ▸ hs)
    have hoff (hn : ∀ n k h rest, ¬ (s.seq = .construct n (.alloc k) ∧ s.answers = .grant h :: rest)) :=
      hg.ne_alloc fun k x rest hp ha => hn n k x rest ⟨hp ▸ hs, ha⟩
    refine ⟨hk.cfg, hk.cmdw, hk.arg0, hk.pktIn, hk.pktOut, hk.rxN, hk.raced, hk.sched, ⟨_, hk.mac⟩,
      fun _ => ⟨ho.resCode, ho.resVal, ho.fault, ho.log⟩, fun hx => hto (hpos hx), fun hx => htt (hpos hx),
      fun hx => hro (hpos fun m => (hx m).1) (hpos fun m => (hx m).2), fun hx => hrt (hpos hx),
      fun hx hn => hg.held (hoff hn) (hpos hx), fun hx => (hg.ungranted fun k => hpos fun m => hx m k).answers,
      fun hn => ?_, fun m k a x rest hs' ha hout => ?_⟩
    · have hf := hg.ungranted (hoff hn)
      exact ⟨hf.mem, hf.allocs, hf.txRing, hf.txBuf, hf.rxRing, hf.rxBuf, fun a ha => hg.seenByte hs (hoff hn) ha⟩
    · obtain ⟨-, rfl⟩ := Seq.construct.inj (hs.symm.trans hs')
      exact hg.seenByte_outside_grant ha hout

end Sys2Proof.Machine
end

section
/-! TRANSMIT'S SLOT AND PACKET (R190, R231 to R234, R282, R301): where each test of the command goes on or ends, and
what is kept of the packet. -/

namespace Sys2Proof.Machine

theorem ddSet_iff {c : Cfg} {st : Byte} : ddSet c st = true ↔ st &&& c.staDd ≠ 0 := bne_iff_ne

/-! ### The slot -/

theorem transmitAt_gate_of_ready {n : Nat} {s : State} (h : s.life = .ready) :
    transmitAt n .gate s = transmitTo n .readTail s := gate_of_life h

theorem transmitAt_readTail_of_arrived {n : Nat} {s : State} (hv : s.cfg.valid = true) (hp : s.pwq = []) :
    transmitAt n .readTail s = transmitTo n (.index s.mac.tdt) s := by
  rw [transmitAt, regRead_of_arrived (regInRange_tdt hv) hp (regAt_tdt hv)]
  rfl

theorem transmitAt_index_of_lt {n : Nat} {x : Word} {s : State} (h : x.toNat < s.cfg.cap) :
    transmitAt n (.index x) s = transmitTo n (.readStatus x.toNat) s := by
  rw [transmitAt, indexFrom_of_lt h]

theorem transmitAt_readStatus_of_live {n i : Nat} {s : State}
    (h : s.live (descPa s .tx i fieldStatus).toNat 1 = true) :
    transmitAt n (.readStatus i) s =
      transmitTo n (.busyTest i (s.seenByte (descPa s .tx i fieldStatus).toNat)) s := by
  rw [transmitAt, getStatus_of_live h]

/-- Without `DD` the command is over and the packet dropped (R232, log entry 26). -/
theorem transmitAt_busyTest_of_clear {n i : Nat} {st : Byte} {s : State} (h : st &&& s.cfg.staDd = 0) :
    transmitAt n (.busyTest i st) s = raised .busy (indexWord i) { s with pktIn := [] } := by
  rw [transmitAt, if_neg fun hd => ddSet_iff.1 hd h]

/-- With `DD` the slot becomes RINGCTL's (R190). -/
theorem transmitAt_busyTest_of_set {n i : Nat} {st : Byte} {s : State} (h : st &&& s.cfg.staDd ≠ 0) :
    transmitAt n (.busyTest i st) s = transmitTo n (.truncate i) (s.takeSlot .tx i) := by
  rw [transmitAt, if_pos (ddSet_iff.2 h)]

/-- Settles O42: the register, the index and the status byte are read under their premises; `DD` decides between the
`Busy` outcome and the take-over of the slot. -/
theorem transmitTakesTheSlotOrIsBusy : Obligations.TransmitTakesTheSlotOrIsBusy := by
  intro s n i x st hv
  refine ⟨fun hs hl => ?_, fun hs hp => ?_, fun hs hx => ?_, fun hs hl => ?_, fun hs hd => ?_, fun hs hd => ?_⟩
  · exact (exec_transmit_at hs).trans (transmitAt_gate_of_ready hl)
  · exact (exec_transmit_at hs).trans (transmitAt_readTail_of_arrived hv hp)
  · exact (exec_transmit_at hs).trans (transmitAt_index_of_lt hx)
  · exact (exec_transmit_at hs).trans (transmitAt_readStatus_of_live hl)
  · exact (exec_transmit_at hs).trans (transmitAt_busyTest_of_clear hd)
  · exact (exec_transmit_at hs).trans (transmitAt_busyTest_of_set hd)

/-! ### The packet -/

theorem truncate_of_fits {n i : Nat} {s : State} (hl : s.arg0.toNat ≤ s.pktIn.length)
    (hb : s.arg0.toNat ≤ s.cfg.bufSize) :
    truncate n i s = transmitTo n (copyFrom i s.arg0.toNat 0) s := by
  simp only [truncate, clip, if_neg (Nat.not_lt.2 hl), if_neg (Nat.not_lt.2 hb), Nat.min_eq_left hb]

theorem truncate_of_oversize {n i : Nat} {s : State} (hl : s.arg0.toNat ≤ s.pktIn.length)
    (hb : s.cfg.bufSize < s.arg0.toNat) :
    truncate n i s =
      transmitTo n (copyFrom i s.cfg.bufSize 0) (s.logEvent (.truncated s.arg0.toNat s.cfg.bufSize)) := by
  simp only [truncate, clip, if_neg (Nat.not_lt.2 hl), if_pos hb, Nat.min_eq_right hb.le]

theorem truncate_of_short {n i : Nat} {s : State} (h : s.pktIn.length < s.arg0.toNat) :
    truncate n i s = .refused .shortPacket := if_pos h

theorem copyIn_of_owned {n i m k : Nat} {b : Byte} {s : State} (hb : s.pktIn[k]? = some b) (ht : s.tag .tx i = .sw)
    (hk : k < s.cfg.bufSize) (hl : s.live (bufPa s .tx i + BitVec.ofNat 64 k).toNat 1 = true) :
    copyIn n i m k s = transmitTo n (copyFrom i m (k + 1))
      { s with sb := s.sb ++ [⟨bufPa s .tx i + BitVec.ofNat 64 k, .one, b.setWidth 64⟩] } := by
  simp only [copyIn, hb, setBufByte_of_owned (q := .tx) ht hk hl]

/-- Settles O43: the packet is short, fits or is cut to the buffer (R233, R282); each kept byte is one store into the
owned slot's buffer. -/
theorem transmitTruncatesAndCopies : Obligations.TransmitTruncatesAndCopies := by
  intro s n i m k b
  refine ⟨fun hs hl hb => ?_, fun hs hl hb => ?_, fun hs hl => ?_, fun hs hb ht hk hl => ?_⟩
  · exact (exec_transmit_at hs).trans (truncate_of_fits hl hb)
  · exact (exec_transmit_at hs).trans (truncate_of_oversize hl hb)
  · exact (exec_transmit_at hs).trans (truncate_of_short hl)
  · exact (exec_transmit_at hs).trans (copyIn_of_owned hb ht hk hl)

end Sys2Proof.Machine
end

section
/-! THE FRAME OF TRANSMIT (R230 to R238): what a micro-operation leaves unchanged, whether it goes on, holds or ends. -/

namespace Sys2Proof.Machine

/-! ### What is unchanged -/

/-- All that TRANSMIT can touch: the sequencer, the TX tags and shadow index, the packet, the outcome, the two write
buffers, what RINGCTL holds and the counter of free values. -/
def TransmitKeeps (s t : State) : Prop :=
  t = { s with
    seq := t.seq, txq := { s.txq with own := t.txq.own, tail := t.txq.tail }, pktIn := t.pktIn
    resCode := t.resCode, resVal := t.resVal, fault := t.fault, log := t.log, life := t.life
    sb := t.sb, pwq := t.pwq, held := t.held, draws := t.draws }

theorem TransmitKeeps.setSeq {s u : State} (h : TransmitKeeps s u) (q : Seq) : TransmitKeeps s { u with seq := q } := by
  have hq := congrArg (fun v : State => { v with seq := q }) h
  exact hq

/-- No outcome has been written, and the packet is still there. -/
structure Unended (s t : State) : Prop where
  resCode : t.resCode = s.resCode
  resVal : t.resVal = s.resVal
  fault : t.fault = s.fault
  life : t.life = s.life
  pktIn : t.pktIn = s.pktIn

/-- Nothing is stored or posted, and the TX ring and what RINGCTL holds are as before. -/
structure TransmitStays (s t : State) : Prop where
  txq : t.txq = s.txq
  held : t.held = s.held
  mem : t.mem = s.mem
  sb : t.sb = s.sb
  pwq : t.pwq = s.pwq

/-! ### A micro-operation that goes on -/

/-- An offset names one register. -/
theorem RegReady.eq {s : State} {off : Word} {r r' : Reg} (h : RegReady s off r) (hr : regAt s.cfg off = some r') :
    r = r' := Option.some.inj (h.2.symm.trans hr)

theorem tag_setTag_of_ne {s : State} {q : RingId} {i j : Nat} (t : OwnTag) (h : i ≠ j) :
    (s.setTag q i t).tag q j = s.tag q j := by
  cases q <;> simp [State.tag, State.setTag, State.setRing, State.ringOf, List.getElem?_set_ne h]

namespace TransmitGoes

variable {s u : State} {p p' : TransmitPos}

theorem keeps (h : TransmitGoes s p u p') (hv : s.cfg.valid = true) : TransmitKeeps s u ∧ Unended s u := by
  cases h
  case readTail hr =>
    cases hr.eq (regAt_tdt hv)
    constructor <;> constructor <;> rfl
  case flush hr =>
    cases hr.eq (regAt_status hv)
    constructor <;> constructor <;> rfl
  all_goals constructor <;> constructor <;> rfl

/-- The shadow index and the posted writes move only at the hand-off (R236). -/
theorem tail (h : TransmitGoes s p u p') (hp : ∀ i m, p ≠ .handOff i m) :
    u.txq.tail = s.txq.tail ∧ u.pwq = s.pwq := by
  cases h
  case handOff i m => exact absurd rfl (hp i m)
  all_goals simp

/-- Of the tags only slot `i`'s changes, where it is taken and where it is handed off (R190). -/
theorem tag {j : Nat} (h : TransmitGoes s p u p') (hb : ∀ i st, p = .busyTest i st → i ≠ j)
    (ho : ∀ i m, p = .handOff i m → i ≠ j) : u.tag .tx j = s.tag .tx j := by
  cases h
  case busyTest i st _ => exact tag_setTag_of_ne (s := s) (q := .tx) .sw (hb i st rfl)
  case handOff i m => exact tag_setTag_of_ne (s := s) (q := .tx) .hw (ho i m rfl)
  all_goals simp [State.tag, State.ringOf]

/-- Nor is anything else taken up or given away than the bytes of that slot (log entry 6). -/
theorem held {e : Extent} (h : TransmitGoes s p u p') (hb : ∀ i st, p = .busyTest i st → e ∉ slotExtents s .tx i)
    (ho : ∀ i m, p = .handOff i m → e ∉ slotExtents s .tx i) : e ∈ u.held ↔ e ∈ s.held := by
  cases h
  case busyTest i st _ => simp [hb i st rfl]
  case handOff i m =>
    have hout : e ∉ slotExtents (s.post s.cfg.offTdt (indexWord (nextIndex s.cfg i))) .tx i := ho i m rfl
    simp [hout]
  all_goals simp

/-- RINGCTL sees a change only in the bytes the micro-operation stores to (R234, R235). -/
theorem seenByte {n a : Nat} (h : TransmitGoes s p u p') (hs : s.seq = .transmit n p)
    (ha : ∀ i pa w, transmitTarget s = some (i, pa, w) → ¬ inBytes pa w a) : u.seenByte a = s.seenByte a := by
  cases h
  case copy | setAddr | setLength | setStatus | setCommand =>
    exact State.store_seenByte_outside _ (ha _ _ _ (by rw [transmitTarget, hs]; rfl))
  all_goals exact State.seenByte_congr (by simp) (by simp) a

end TransmitGoes

/-! ### Every path -/

/-- TRANSMIT takes no answer of the allocator, whatever the micro-operation's outcome. -/
theorem transmitAt_answers {n : Nat} {p : TransmitPos} {s t : State} (h : transmitAt n p s = .next t) :
    t.answers = s.answers := by
  have hgo {u : State} {p' : TransmitPos} (h : transmitTo n p' u = .next t) (hu : u.answers = s.answers) :
      t.answers = s.answers := by
    rw [proceed_next h, ← hu]
  cases p with simp only [transmitAt] at h
  | gate =>
    rcases gate_next h with ⟨_, h⟩ | ⟨_, rfl⟩
    · exact hgo h rfl
    · simp
  | readTail | flush =>
    rcases regRead_next h with ⟨_, rfl⟩ | ⟨_, _, rfl⟩ | ⟨_, _, r, _, h⟩
    · simp
    · rfl
    · exact hgo h (macRead_answers r s)
  | index =>
    rcases indexFrom_next h with ⟨_, h⟩ | ⟨_, rfl⟩
    · exact hgo h rfl
    · simp
  | readStatus =>
    obtain ⟨_, h⟩ := getStatus_next h
    exact hgo h rfl
  | busyTest =>
    split at h
    · exact hgo h rfl
    · simp [raised_next h]
  | truncate =>
    simp only [truncate] at h
    split at h
    · cases h
    · split at h <;> exact hgo h rfl
  | copy =>
    simp only [copyIn] at h
    split at h
    · cases h
    · rcases setBufByte_next h with ⟨_, _, _, h⟩ | ⟨_, rfl⟩
      · exact hgo h rfl
      · simp
  | setAddr | setLength | setStatus | setCommand =>
    rcases setField_next h with ⟨_, _, _, h⟩ | ⟨_, rfl⟩
    · exact hgo h rfl
    · simp
  | fence | lastFence =>
    rcases sfence_next h with ⟨_, h⟩ | ⟨_, rfl⟩
    · exact hgo h rfl
    · rfl
  | handOff =>
    rcases regWrite_next h with ⟨_, rfl⟩ | ⟨_, h⟩
    · simp
    · exact hgo h rfl
  | ret => simp [ret_next h]

/-- What `exec` of TRANSMIT can answer, for its frame: it goes on, or it starts, holds, ends or gives way to another
command, and then nothing but the port's outcome, the lifecycle and the packet changes. -/
inductive TransmitOutcome (s t : State) : Prop
  | goes {n : Nat} {p p' : TransmitPos} {u : State} : s.seq = .transmit n p → TransmitGoes s p u p' →
      t = { u with seq := .transmit (n + 1) p' } → TransmitOutcome s t
  | stays : TransmitKeeps s t → TransmitStays s t → (t.seq ≠ .idle → Unended s t) → TransmitOutcome s t

namespace TransmitOutcome

variable {s t : State}

theorem of_seq (q : Seq) : TransmitOutcome s { s with seq := q } :=
  .stays rfl (by constructor <;> rfl) fun _ => by constructor <;> rfl

/-- A micro-operation that ends with an outcome leaves everything but the packet. -/
theorem of_raise (p : List Byte) (c : Code) (v : Word) : TransmitOutcome s (State.raise { s with pktIn := p } c v) :=
  .stays (by cases c <;> rfl) (by constructor <;> simp) fun hne => absurd (State.raise_seq _ _ _) hne

theorem of_transmitAt {n : Nat} {p : TransmitPos} (hs : s.seq = .transmit n p) (h : transmitAt n p s = .next t) :
    TransmitOutcome s t := by
  have hans := transmitAt_answers h
  have hop := transmitAt_microOp h
  generalize hq : Seq.transmit n p = q at hop
  cases hop with
  | holds => exact .of_seq s.seq
  | @fatal _ as c v =>
    obtain rfl : as = s.answers := (State.raise_answers _ _ _).symm.trans hans
    exact .of_raise s.pktIn c v
  | wrongState => exact .of_raise s.pktIn _ _
  | busy => exact .of_raise [] _ _
  | rxInvalid => cases hq
  | goes hg =>
    subst hq
    cases hg with | transmit hg => exact .goes hs hg rfl
  | returns hr =>
    subst hq
    cases hr with
    | transmit => exact .stays rfl (by constructor <;> rfl) fun hne => absurd rfl hne

end TransmitOutcome

theorem exec_transmit_outcome {s t : State} (h : exec .transmit s = .next t) : TransmitOutcome s t := by
  simp only [exec, execTransmit] at h
  split at h
  · rw [proceed_next h]
    exact .of_seq _
  · exact .of_transmitAt ‹_› h
  all_goals
    cases h
    exact .of_seq s.seq

/-- Where the TX ring is untouched, so is each tag. -/
theorem TransmitStays.tag {s t : State} (h : TransmitStays s t) (j : Nat) : t.tag .tx j = s.tag .tx j := by
  simp only [State.tag, State.ringOf, h.txq]

theorem TransmitOutcome.keeps {s t : State} (h : TransmitOutcome s t) (hv : s.cfg.valid = true) :
    TransmitKeeps s t ∧ (t.seq ≠ .idle → Unended s t) := by
  cases h with
  | stays hk _ he => exact ⟨hk, he⟩
  | goes _ hg ht =>
    subst ht
    obtain ⟨hk, he⟩ := hg.keeps hv
    exact ⟨hk.setSeq _, fun _ => ⟨he.resCode, he.resVal, he.fault, he.life, he.pktIn⟩⟩

/-- Settles O45: one equation says what every path keeps; the other clauses are read off the position TRANSMIT goes on
from, or hold because it does not go on. -/
theorem transmitFrame : Obligations.TransmitFrame := by
  intro s t hv h
  have ho := exec_transmit_outcome h
  obtain ⟨hk, he⟩ := ho.keeps hv
  have hkept {α : Type} (f : State → α) := congrArg f hk
  refine ⟨hkept State.cfg, hkept State.cmdw, hkept State.arg0, hkept State.pktOut, hkept State.rxN, hkept State.rxq,
    hkept (·.txq.ring), hkept (·.txq.buf), hkept State.mac, hkept State.mem, hkept State.allocs, hkept State.answers,
    hkept State.raced, hkept State.sched,
    fun hne => ⟨(he hne).resCode, (he hne).resVal, (he hne).fault, (he hne).life, (he hne).pktIn⟩, ?_⟩
  cases ho with
  | stays _ hs _ =>
    exact ⟨fun _ => ⟨congrArg Ring.tail hs.txq, hs.pwq⟩, fun j _ _ => hs.tag j, fun e _ _ => by rw [hs.held],
      fun a _ => State.seenByte_congr hs.sb hs.mem a⟩
  | @goes n p p' u hs hg ht =>
    subst ht
    exact ⟨fun hx => hg.tail fun i m hp => hx n i m (hp ▸ hs),
      fun j hb hx => hg.tag (fun i st hp => hb n i st (hp ▸ hs)) fun i m hp => hx n i m (hp ▸ hs),
      fun e hb hx => hg.held (fun i st hp => hb n i st (hp ▸ hs)) fun i m hp => hx n i m (hp ▸ hs),
      fun a ha => hg.seenByte hs ha⟩

end Sys2Proof.Machine
end

section
/-! RUNS UNDER THE DEFAULT SCHEDULE (R30, R101, R104, R113, log entry 1): where the schedule names no move, each store
and each register write of the sequencer has drained before its next micro-operation. -/

namespace Sys2Proof.Machine

/-- Finitely many steps lead from one state to the other. -/
def Reaches : State → State → Prop := Relation.ReflTransGen fun s t => step s = .next t

/-- The schedule names no move and both write buffers are empty: the sequencer steps next. -/
def Quiet (s : State) : Prop := s.sched = [] ∧ s.sb = [] ∧ s.pwq = []

theorem Quiet.sched {s : State} (h : Quiet s) : s.sched = [] := h.1
theorem Quiet.sb {s : State} (h : Quiet s) : s.sb = [] := h.2.1
theorem Quiet.pwq {s : State} (h : Quiet s) : s.pwq = [] := h.2.2

theorem popSched_of_no_sched {s : State} (h : s.sched = []) : s.popSched = s := by
  cases s
  cases h
  rfl

/-- The oldest store drains first. -/
theorem step_of_buffered {s : State} {e : StoreEntry} {rest : List StoreEntry} (h : s.sched = [])
    (hb : s.sb = e :: rest) :
    step s = .next { s with sb := rest, mem := s.mem.writeBytes e.pa.toNat (bytesOf e.n.bytes e.v) } := by
  obtain ⟨-, hdrain⟩ := (storeFenceHoldsUntilDrained s .next).2 e rest hb
  simp only [step, nextMove, h, defaultMove, hb, popSched_of_no_sched h, perform, hdrain]

/-- With no store buffered the oldest posted write arrives. -/
theorem step_of_posted {s : State} {p : Posted} {rest : List Posted} {r : Reg} (h : s.sched = []) (hb : s.sb = [])
    (hp : s.pwq = p :: rest) (hr : regAt s.cfg p.off = some r) :
    step s = .next (macWrite r p.v { s with pwq := rest }) := by
  simp only [step, nextMove, h, defaultMove, hb, hp, popSched_of_no_sched h, perform, drainPosted, hr]

/-- A run of `Host.Core` begins with a step. -/
theorem run_succ_of_step {M : Host.Core} {s u : M.State} (h : M.step s = .next u) (k : Nat) :
    M.run (k + 1) s = M.run k u := by
  rw [Host.Core.run, h]

namespace Reaches

variable {s u t : State}

theorem refl (s : State) : Reaches s s := Relation.ReflTransGen.refl

theorem of_step (h : step s = .next t) : Reaches s t := Relation.ReflTransGen.single h

theorem trans (h : Reaches s u) (h' : Reaches u t) : Reaches s t := Relation.ReflTransGen.trans h h'

theorem run (h : Reaches s t) : ∃ k, Host.Core.run Sys2Proof.core k s = .next t := by
  induction h using Relation.ReflTransGen.head_induction_on with
  | refl => exact ⟨0, rfl⟩
  | head hstep _ ih =>
    obtain ⟨k, hk⟩ := ih
    exact ⟨k + 1, (run_succ_of_step (M := Sys2Proof.core) hstep k).trans hk⟩

section
variable {i : Instr} (hq : Quiet s) (hi : s.seq.instr = some i)
include hq hi

/-- One micro-operation of the command in progress. -/
theorem of_exec (h : exec i s = .next t) : Reaches s t := by
  apply of_step
  rw [step_of_no_sched hq.sched hq.sb hq.pwq, sequencerStep_of_instr hi, h]

/-- A micro-operation that stores one entry, and the entry's drain. -/
theorem of_store {e : StoreEntry} {q : Seq} (h : exec i s = .next { s with sb := s.sb ++ [e], seq := q }) :
    Reaches s { s with mem := s.mem.writeBytes e.pa.toNat (bytesOf e.n.bytes e.v), seq := q } := by
  have hstored := of_exec hq hi h
  rw [hq.sb] at hstored
  have hdrained := hstored.trans (of_step (step_of_buffered hq.sched rfl))
  rwa [← hq.sb] at hdrained

/-- A micro-operation that posts one register write, and the write's arrival. -/
theorem of_post {p : Posted} {r : Reg} (h : exec i s = .next u) (hs : u.sched = []) (hb : u.sb = [])
    (hp : u.pwq = [p]) (hr : regAt u.cfg p.off = some r) : Reaches s (macWrite r p.v { u with pwq := [] }) :=
  (of_exec hq hi h).trans (of_step (step_of_posted hs hb hp hr))

end

end Reaches

end Sys2Proof.Machine
end

section
/-! TRANSMIT'S DESCRIPTOR IN MEMORY (R84, R89, R163, R235): the four fields written in the order of their stores. -/

namespace Sys2Proof

open Machine

/-- The low bytes of a value are those of the value at any width that holds them. -/
theorem bytesOf_setWidth {w : Nat} (n w' : Nat) (v : BitVec w) (hn : 8 * n ≤ w') :
    bytesOf n (v.setWidth w') = bytesOf n v := by
  refine List.map_congr_left fun j hj => BitVec.eq_of_getLsbD_eq fun i hi => ?_
  have hbit : 8 * j + i < w' := by
    have := List.mem_range.1 hj
    omega
  simp only [getLsbD_byteOf, BitVec.getLsbD_setWidth, hbit, decide_true, Bool.true_and]

/-- What the store of a value leaves in memory does not depend on its truncation (R89). -/
theorem bytesOf_truncate (n : Width) (v : Addr) : bytesOf n.bytes (n.truncate v) = bytesOf n.bytes v :=
  List.map_congr_left fun _ hj => byteOf_truncate v (List.mem_range.1 hj)

namespace Machine

/-- `buffer_address`, `length`, `status` 0 and `command` written into the descriptor at `d` (R235). -/
def Memory.fillTx (m : Memory) (d : Nat) (a : Addr) (len : Half) (cmd : Byte) : Memory :=
  (((m.writeBytes d (bytesOf 8 a)).writeBytes (d + 8) (bytesOf 2 len)).writeBytes (d + 12) [0]).writeBytes
    (d + 11) [cmd]

variable (m : Memory) (d : Nat) (a : Addr) (len : Half) (cmd : Byte)

theorem Memory.read_fillTx_outside {x : Nat} (hx : x < d ∨ d + 16 ≤ x) :
    (m.fillTx d a len cmd).read x = m.read x := by
  rw [Memory.fillTx, Memory.read_writeBytes_outside, Memory.read_writeBytes_outside, Memory.read_writeBytes_outside,
    Memory.read_writeBytes_outside]
  all_goals simp only [bytesOf_length, List.length_singleton]; omega

theorem decodeTxd_fillTx (hm : Memory.wf m = true) :
    decodeTxd (imageAt (m.fillTx d a len cmd) d) =
      { decodeTxd (imageAt m d) with bufferAddress := a, length := len, command := cmd, status := 0 } := by
  have haddress := Memory.writeBytes_wf hm d (bytesOf 8 a)
  have hlength := Memory.writeBytes_wf haddress (d + 8) (bytesOf 2 len)
  have hstatus := Memory.writeBytes_wf hlength (d + 12) [0]
  obtain ⟨address, -⟩ := fieldWriteChangesThatFieldOnly _ d hm
  obtain ⟨-, length, -⟩ := fieldWriteChangesThatFieldOnly _ d haddress
  obtain ⟨-, -, -, status, -⟩ := fieldWriteChangesThatFieldOnly _ d hlength
  obtain ⟨-, -, command, -⟩ := fieldWriteChangesThatFieldOnly _ d hstatus
  rw [Memory.fillTx, command, status, length, address]

end Machine

end Sys2Proof
end

section
/-! A WHOLE TRANSMIT (R113, R230 to R237): the command's stages under the default schedule, from the issue to
`OK(m)`. -/

namespace Sys2Proof.Machine

/-- The address of slot `i`'s TX descriptor (R183). -/
def txDesc (s : State) (i : Nat) : Nat := (s.txq.ring.pa + BitVec.ofNat 64 (16 * i)).toNat

/-- Slot `i`'s descriptor, of an aligned ring, and its buffer are live bytes of the address space (R80, R82, R87). -/
def TxSlotLive (s : State) (i : Nat) : Prop :=
  s.txq.ring.pa.toNat % 16 = 0 ∧ s.live (txDesc s i) 16 = true ∧ txDesc s i + 16 ≤ 2 ^ 64 ∧
  s.live (bufPa s .tx i).toNat s.cfg.bufSize = true ∧ (bufPa s .tx i).toNat + s.cfg.bufSize ≤ 2 ^ 64

/-- On a ring inside the address space descriptor `i` lies `16 * i` bytes into it. -/
theorem txDesc_of_fits {s : State} {i : Nat} (hi : i < s.cfg.cap)
    (h : s.txq.ring.pa.toNat + 16 * s.cfg.cap ≤ 2 ^ 64) : txDesc s i = s.txq.ring.pa.toNat + 16 * i := by
  simp only [txDesc, BitVec.toNat_add, BitVec.toNat_ofNat]
  omega

theorem bufByte_toNat {s : State} {q : RingId} {i k : Nat} (hk : k < s.cfg.bufSize)
    (h : (bufPa s q i).toNat + s.cfg.bufSize ≤ 2 ^ 64) :
    (bufPa s q i + BitVec.ofNat 64 k).toNat = (bufPa s q i).toNat + k := by
  simp only [BitVec.toNat_add, BitVec.toNat_ofNat]
  omega

/-- With the store buffer empty RINGCTL sees `Mem` (R88). -/
theorem State.seenByte_of_drained {s : State} (h : s.sb = []) (a : Nat) : s.seenByte a = s.mem.read a := by
  rw [State.seenByte, h, forwardByte]

/-- Slot `i` is RINGCTL's, and the log is `l` (R190, R233). -/
def State.taken (s : State) (i : Nat) (l : List Event) : State :=
  { s with
    txq := { s.txq with own := s.txq.own.set i .sw }
    held := heldWith s.held (slotExtents s .tx i)
    log := l }

/-- Slot `i` is the MAC's, and the tail behind it has arrived (R190, R236). -/
def State.handedOff (s : State) (i : Nat) : State :=
  { s with
    txq := { s.txq with own := s.txq.own.set i .hw, tail := (i + 1) % s.cfg.cap }
    mac := { s.mac with tdt := BitVec.ofNat 32 ((i + 1) % s.cfg.cap) }
    held := heldWithout s.held (slotExtents s .tx i)
    pwq := [] }

/-- TRANSMIT has returned `OK(m)` with `Mem` at `M`; its flush has drawn a value (R237). -/
def State.returned (s : State) (m : Nat) (M : Memory) : State :=
  { s with
    seq := .idle, mem := M, resCode := 0x00, resVal := BitVec.ofNat 32 m, draws := s.draws + 1 }

@[simp] theorem State.returned_mem (s : State) (m : Nat) (M : Memory) : (s.returned m M).mem = M := rfl

/-! ### One micro-operation -/

/-- The machine where TRANSMIT stands at `p` with `n` micro-operations performed and `Mem` at `M`. -/
def State.sending (s : State) (n : Nat) (p : TransmitPos) (M : Memory) : State :=
  { s with seq := .transmit n p, mem := M }

section
variable {s : State} {n i m : Nat} {p p' : TransmitPos} {M : Memory} (hq : Quiet s)
include hq

theorem sending_goes {u : State} (h : transmitAt n p (s.sending n p M) = transmitTo n p' u) :
    Reaches (s.sending n p M) { u with seq := .transmit (n + 1) p' } :=
  .of_exec (s := s.sending n p M) (i := .transmit) hq rfl h

theorem sending_stores {e : StoreEntry} (h : transmitAt n p (s.sending n p M) =
      transmitTo n p' { s.sending n p M with sb := s.sb ++ [e] }) :
    Reaches (s.sending n p M) (s.sending (n + 1) p' (M.writeBytes e.pa.toNat (bytesOf e.n.bytes e.v))) :=
  .of_store (s := s.sending n p M) (i := .transmit) hq rfl h

/-- A field of the slot's descriptor reaches `Mem` (R163). -/
theorem sending_field {f : Nat} {w : Width} {v : Addr} (ht : s.tag .tx i = .sw) (hslot : TxSlotLive s i)
    (hf : f + w.bytes ≤ 16) (hw : f % w.bytes = 0)
    (h : transmitAt n p (s.sending n p M) = setField .tx i f w v (transmitTo n p') (s.sending n p M)) :
    Reaches (s.sending n p M) (s.sending (n + 1) p' (M.writeBytes (txDesc s i + f) (bytesOf w.bytes v))) := by
  obtain ⟨ha, hlive, hfit, -⟩ := hslot
  have hpos : 0 < w.bytes := by cases w <;> decide
  have hpa : (descPa s .tx i f).toNat = txDesc s i + f := descPa_toNat (q := .tx) (by omega) hfit
  have hstored := setField_of_descriptor (q := .tx) (s := s.sending n p M) ht ha hlive hfit f w v (transmitTo n p')
    hf hw
  rw [← hpa, ← bytesOf_truncate]
  exact sending_stores hq (h.trans hstored)

/-- A byte of the packet reaches the slot's buffer (R234). -/
theorem sending_byte {k : Nat} {b : Byte} (ht : s.tag .tx i = .sw) (hslot : TxSlotLive s i)
    (hb : s.pktIn[k]? = some b) (hk : k < s.cfg.bufSize) :
    Reaches (s.sending n (.copy i m k) M)
      (s.sending (n + 1) (copyFrom i m (k + 1)) (M.write ((bufPa s .tx i).toNat + k) b)) := by
  obtain ⟨-, -, -, hlive, hfit⟩ := hslot
  have hpa := bufByte_toNat (q := .tx) hk hfit
  have hbyte : s.live (bufPa s .tx i + BitVec.ofNat 64 k).toNat 1 = true := by
    rw [hpa]
    exact State.live_part hlive hk
  have hstep := sending_stores (p := .copy i m k) hq
    (copyIn_of_owned (s := s.sending n (.copy i m k) M) hb ht hk hbyte)
  rw [Width.bytes, bytesOf_setWidth 1 64 _ (by decide), bytesOf_byte] at hstep
  rw [← hpa]
  exact hstep

end

/-! ### The stages -/

section
variable {s : State} {n i m : Nat} {M : Memory} (hq : Quiet s)
include hq

/-- From the gate to the slot, which has `DD` and becomes RINGCTL's (R231, R232). -/
theorem sending_taken (hv : s.cfg.valid = true) (hl : s.life = .ready) (hi : s.mac.tdt.toNat = i)
    (hcap : i < s.cfg.cap) (hslot : TxSlotLive s i) (hdd : M.read (txDesc s i + 12) &&& s.cfg.staDd ≠ 0) :
    Reaches (s.sending n .gate M) ((s.taken i s.log).sending (n + 5) (.truncate i) M) := by
  obtain ⟨-, hlive, hfit, -⟩ := hslot
  have hstatus : (descPa s .tx i fieldStatus).toNat = txDesc s i + 12 := descPa_toNat (q := .tx) (by decide) hfit
  have hread : s.live (descPa s .tx i fieldStatus).toNat 1 = true := by
    rw [hstatus]
    exact State.live_part hlive (by decide)
  have hseen : (s.sending (n + 3) (.readStatus i) M).seenByte (descPa s .tx i fieldStatus).toNat &&&
      s.cfg.staDd ≠ 0 := by
    rwa [hstatus, State.seenByte_of_drained (s := s.sending _ _ M) hq.sb]
  subst hi
  exact (sending_goes hq (transmitAt_gate_of_ready hl)).trans <|
    (sending_goes hq (transmitAt_readTail_of_arrived hv hq.pwq)).trans <|
    (sending_goes hq (transmitAt_index_of_lt hcap)).trans <|
    (sending_goes hq (transmitAt_readStatus_of_live hread)).trans <|
    sending_goes hq (transmitAt_busyTest_of_set hseen)

/-- The packet is clipped to the buffer, and logged where it is cut (R233). -/
theorem sending_truncated (hl : s.arg0.toNat ≤ s.pktIn.length) :
    ∃ l, Reaches ((s.taken i s.log).sending n (.truncate i) M)
      ((s.taken i l).sending (n + 1) (copyFrom i (min s.arg0.toNat s.cfg.bufSize) 0) M) := by
  rcases Nat.lt_or_ge s.cfg.bufSize s.arg0.toNat with hb | hb
  · have hcut := truncate_of_oversize (n := n) (i := i) (s := (s.taken i s.log).sending n (.truncate i) M) hl hb
    rw [Nat.min_eq_right hb.le]
    exact ⟨_, sending_goes (s := s.taken i s.log) (p := .truncate i) hq hcut⟩
  · have hfits := truncate_of_fits (n := n) (i := i) (s := (s.taken i s.log).sending n (.truncate i) M) hl hb
    rw [Nat.min_eq_left hb]
    exact ⟨s.log, sending_goes (s := s.taken i s.log) (p := .truncate i) hq hfits⟩

/-- The copy from byte `k` on: the rest of the clipped packet reaches the buffer (R234). -/
theorem sending_copied {k d : Nat} (ht : s.tag .tx i = .sw) (hslot : TxSlotLive s i) (hd : k + d = m)
    (hm : m ≤ s.cfg.bufSize) (hp : m ≤ s.pktIn.length) :
    ∃ n', Reaches (s.sending n (copyFrom i m k) M) (s.sending n' (.setAddr i m)
      (M.writeBytes ((bufPa s .tx i).toNat + k) ((s.pktIn.take m).drop k))) := by
  induction d generalizing n k M with
  | zero =>
    have hnil : (s.pktIn.take m).drop k = [] := List.drop_eq_nil_of_le (by rw [List.length_take]; omega)
    refine ⟨n, ?_⟩
    rw [hnil, copyFrom, if_neg (by omega)]
    exact .refl _
  | succ d ih =>
    have hk : k < (s.pktIn.take m).length := by rw [List.length_take]; omega
    have hb : s.pktIn[k]? = some (s.pktIn.take m)[k] := by simp
    obtain ⟨n', hrest⟩ := ih (n := n + 1) (k := k + 1) (M := M.write _ _) (by omega)
    rw [copyFrom, if_pos (by omega), List.drop_eq_getElem_cons hk]
    exact ⟨n', (sending_byte hq ht hslot hb (by omega)).trans hrest⟩

/-- The four fields reach the descriptor (R235). -/
theorem sending_filled (ht : s.tag .tx i = .sw) (hslot : TxSlotLive s i) :
    Reaches (s.sending n (.setAddr i m) M) (s.sending (n + 4) (.fence i m)
      (M.fillTx (txDesc s i) (bufPa s .tx i) (BitVec.ofNat 16 m) (txCommand s.cfg))) := by
  have hlength : bytesOf 2 (BitVec.ofNat 64 m) = bytesOf 2 (BitVec.ofNat 16 m) := by
    rw [← BitVec.setWidth_ofNat_of_le (by decide : 16 ≤ 64), bytesOf_setWidth 2 16 _ (by decide)]
  have hcommand : bytesOf 1 ((txCommand s.cfg).setWidth 64) = [txCommand s.cfg] := by
    rw [bytesOf_setWidth 1 64 _ (by decide), bytesOf_byte]
  rw [Memory.fillTx, ← hlength, ← hcommand]
  exact (sending_field (p := .setAddr i m) (p' := .setLength i m) (f := fieldAddr) (w := .eight) hq ht hslot
      (by decide) (by decide) rfl).trans <|
    (sending_field (p := .setLength i m) (p' := .setStatus i m) (f := fieldLength) (w := .two) hq ht hslot
      (by decide) (by decide) rfl).trans <|
    (sending_field (p := .setStatus i m) (p' := .setCommand i m) (f := fieldStatus) (w := .one) hq ht hslot
      (by decide) (by decide) rfl).trans <|
    sending_field (p := .setCommand i m) (p' := .fence i m) (f := fieldCommand) (w := .one) hq ht hslot
      (by decide) (by decide) rfl

/-- Behind the fence the slot is handed off (R236). -/
theorem sending_handedOff (hv : s.cfg.valid = true) :
    Reaches (s.sending n (.fence i m) M) ((s.handedOff i).sending (n + 2) (.flush m) M) := by
  have hfence := sending_goes (p := .fence i m) (p' := .handOff i m) hq
    (sfence_of_empty (s := s.sending n (.fence i m) M) hq.sb)
  obtain ⟨-, -, hhand, -⟩ := transmitFillsAndHandsOff (s.sending (n + 1) (.handOff i m) M) (n + 1) i m hv
  have hposted := hhand rfl
  have hempty : (s.sending (n + 1) (.handOff i m) M).pwq = [] := hq.pwq
  rw [hempty] at hposted
  have harrived := Reaches.of_post (s := s.sending (n + 1) (.handOff i m) M) hq rfl hposted hq.sched
    hq.sb rfl (regAt_tdt hv)
  exact hfence.trans harrived

/-- Flush, fence, `OK(m)` (R237). -/
theorem sending_returned (hv : s.cfg.valid = true) : Reaches (s.sending n (.flush m) M) (s.returned m M) :=
  have hquiet : Quiet { s with draws := s.draws + 1 } := hq
  (sending_goes (p := .flush m) (p' := .lastFence m) hq
    (writeFlush_of_arrived (s := s.sending n (.flush m) M) hv hq.pwq)).trans <|
  (sending_goes (n := n + 1) (p := .lastFence m) (p' := .ret m) hquiet
    (sfence_of_empty (s := State.sending { s with draws := s.draws + 1 } (n + 1) (.lastFence m) M) hq.sb)).trans <|
  .of_exec (s := State.sending { s with draws := s.draws + 1 } (n + 2) (.ret m) M) (i := .transmit) hquiet rfl rfl

end

/-! ### The command -/

/-- What TRANSMIT leaves in `Mem` (R234, R235). -/
def sentMem (s : State) (i m : Nat) : Memory :=
  (s.mem.writeBytes (bufPa s .tx i).toNat (s.pktIn.take m)).fillTx (txDesc s i) (bufPa s .tx i) (BitVec.ofNat 16 m)
    (txCommand s.cfg)

/-- From the gate to `OK(min(L, BUF_SIZE))`, stage after stage. -/
theorem sending_runs {s : State} {i m : Nat} (hq : Quiet s) (hv : s.cfg.valid = true) (hl : s.life = .ready)
    (hi : s.mac.tdt.toNat = i) (hcap : i < s.cfg.cap) (hown : i < s.txq.own.length) (hslot : TxSlotLive s i)
    (hdd : s.mem.read (txDesc s i + 12) &&& s.cfg.staDd ≠ 0) (hp : s.arg0.toNat ≤ s.pktIn.length)
    (hm : min s.arg0.toNat s.cfg.bufSize = m) :
    ∃ l, Reaches (s.sending 0 .gate s.mem) (((s.taken i l).handedOff i).returned m (sentMem s i m)) := by
  obtain ⟨l, hcut⟩ := sending_truncated (n := 5) (i := i) (M := s.mem) hq hp
  have ht : (s.taken i l).tag .tx i = .sw := takeSlot_tag (q := .tx) hown
  have hfit : m ≤ s.cfg.bufSize := hm ▸ Nat.min_le_right _ _
  have hlen : m ≤ s.pktIn.length := hm ▸ (Nat.min_le_left _ _).trans hp
  obtain ⟨n, hcopied⟩ :=
    sending_copied (s := s.taken i l) (n := 6) (k := 0) (M := s.mem) hq ht hslot (Nat.zero_add m) hfit hlen
  rw [hm] at hcut
  exact ⟨l, (sending_taken hq hv hl hi hcap hslot hdd).trans <| hcut.trans <| hcopied.trans <|
    (sending_filled (s := s.taken i l) hq ht hslot).trans <| (sending_handedOff (s := s.taken i l) hq hv).trans <|
    sending_returned (s := (s.taken i l).handedOff i) ⟨hq.sched, hq.sb, rfl⟩ hv⟩

section
variable {s : State} {i m x : Nat}

/-- Every byte outside the packet's and the descriptor's is as before. -/
theorem read_sentMem_outside (hm : m ≤ s.pktIn.length)
    (hb : x < (bufPa s .tx i).toNat ∨ (bufPa s .tx i).toNat + m ≤ x) (hd : x < txDesc s i ∨ txDesc s i + 16 ≤ x) :
    (sentMem s i m).read x = s.mem.read x := by
  rw [sentMem, Memory.read_fillTx_outside _ _ _ _ _ hd, Memory.read_writeBytes_outside]
  rwa [List.length_take, Nat.min_eq_left hm]

/-- The packet is in the buffer: the fields do not reach it. -/
theorem read_sentMem_packet {j : Nat} (hwf : MemInv s) (hj : j < s.pktIn.length) (hm : j < m)
    (hd : (bufPa s .tx i).toNat + j < txDesc s i ∨ txDesc s i + 16 ≤ (bufPa s .tx i).toNat + j) :
    (sentMem s i m).read ((bufPa s .tx i).toNat + j) = s.pktIn[j] := by
  have hlt : j < (s.pktIn.take m).length := by
    rw [List.length_take]
    omega
  rw [sentMem, Memory.read_fillTx_outside _ _ _ _ _ hd, Memory.read_writeBytes_inside hwf _ _ hlt, List.getElem_take]

/-- The descriptor holds the four fields and is otherwise as before: the packet does not reach it. -/
theorem decodeTxd_sentMem (hwf : MemInv s)
    (hd : (bufPa s .tx i).toNat + m ≤ txDesc s i ∨ txDesc s i + 16 ≤ (bufPa s .tx i).toNat) :
    decodeTxd (imageAt (sentMem s i m) (txDesc s i)) =
      { decodeTxd (imageAt s.mem (txDesc s i)) with
        bufferAddress := bufPa s .tx i, length := BitVec.ofNat 16 m, command := txCommand s.cfg, status := 0 } := by
  have himage : imageAt (s.mem.writeBytes (bufPa s .tx i).toNat (s.pktIn.take m)) (txDesc s i) =
      imageAt s.mem (txDesc s i) := by
    refine congrArg (ofBytes 128) (List.map_congr_left fun k hk => Memory.read_writeBytes_outside _ _ _ _ ?_)
    rw [List.mem_range] at hk
    rw [List.length_take]
    omega
  rw [sentMem, decodeTxd_fillTx _ _ _ _ _ (Memory.writeBytes_wf hwf _ _), himage]

end

/-- The host has written the port and the schedule is used up (R281). -/
def State.issued (s : State) (len : Word) (p : List Byte) : State :=
  { s with sched := [], cmdw := 0x00000002, arg0 := len, pktIn := p }

theorem step_issue_transmit {s : State} {len : Word} {p : List Byte} (hs : s.seq = .idle)
    (h : s.sched = [.issue 0x00000002 len p]) : step s = .next ((s.issued len p).sending 0 .gate s.mem) := by
  obtain ⟨-, -, hfetch, -⟩ := stepRunsTheDecodedInstruction
  obtain ⟨-, hstart, -⟩ := (issueStartsTheCommand (s.issued len p)).1 hs
  exact (hfetch s [] _ len p .transmit h hs rfl).trans hstart

/-- Settles O60: the issue starts the command, which runs through its stages; what they leave in `Mem` is read off the
buffer and the descriptor, which are apart. -/
theorem transmitRuns : Obligations.TransmitRuns := by
  intro s len p i m hv hl hs hsb hpwq hsched hlen hi hcap hown hm hwf ha hring hdesc hbuf hbufLive hapart hdd
  have haddr : s.txq.ring.pa.toNat + 16 * i = txDesc (s.issued len p) i := (txDesc_of_fits (s := s) hcap hring).symm
  have hmb : m ≤ s.cfg.bufSize := hm ▸ Nat.min_le_right _ _
  have hmp : m ≤ p.length := hlen ▸ hm ▸ Nat.min_le_left _ _
  have hend : s.txq.ring.pa.toNat + 16 * i + 16 ≤ 2 ^ 64 := by omega
  rw [haddr] at hdesc hapart hdd hend ⊢
  obtain ⟨l, hruns⟩ := sending_runs (s := s.issued len p) ⟨rfl, hsb, hpwq⟩ hv hl hi.symm hcap hown
    ⟨ha, hdesc, hend, hbufLive, hbuf⟩ hdd hlen.ge hm.symm
  obtain ⟨k, hk⟩ := ((Reaches.of_step (step_issue_transmit hs hsched)).trans hruns).run
  refine ⟨k, _, hk, rfl, rfl, rfl, hl, hsb, rfl, rfl, ?_, fun j hj hjm => ?_, ?_, fun x hxb hxd => ?_⟩
  · simp [State.returned, State.handedOff, State.taken, State.issued]
  · rw [State.returned_mem]
    refine read_sentMem_packet (s := s.issued len p) hwf hj hjm (hapart.imp (fun h => ?_) fun h => ?_)
    · exact (Nat.add_lt_add_left (hjm.trans_le hmb) _).trans_le h
    · exact h.trans (Nat.le_add_right _ _)
  · rw [State.returned_mem]
    exact decodeTxd_sentMem (s := s.issued len p) hwf (hapart.imp_left (Nat.add_le_add_left hmb _).trans)
  · rw [State.returned_mem]
    refine read_sentMem_outside (s := s.issued len p) hmp ?_ (by omega)
    rwa [not_and_or, Nat.not_le, Nat.not_lt] at hxb

end Sys2Proof.Machine
end

section
/-! RECEIVE'S PACKET (R87, R99, R243 to R245): the length and the packet's bytes as RINGCTL sees them, and the stores
that clear the slot. -/

namespace Sys2Proof.Machine

/-- A naturally aligned field of an owned slot's live descriptor can be accessed (R87, R193). -/
theorem fieldReady_of_descriptor {s : State} {q : RingId} {i : Nat} (ht : s.tag q i = .sw)
    (ha : (s.ringOf q).ring.pa.toNat % 16 = 0)
    (hl : s.live ((s.ringOf q).ring.pa + BitVec.ofNat 64 (16 * i)).toNat 16 = true)
    (hfit : ((s.ringOf q).ring.pa + BitVec.ofNat 64 (16 * i)).toNat + 16 ≤ 2 ^ 64)
    (f : Nat) (n : Width) (hf : f + n.bytes ≤ 16) (hn : f % n.bytes = 0) : FieldReady s q i f n := by
  rcases setField_next (setField_of_descriptor ht ha hl hfit f n 0 .next hf hn) with ⟨-, halign, hlive, -⟩ | ⟨hne, -⟩
  · exact ⟨ht, halign, hlive⟩
  · exact absurd ht hne

/-- The low byte of a little-endian value that leaves room above it (R84). -/
theorem toNat_ofBytes_cons (b : Byte) (bs : List Byte) (h : (ofBytes 64 bs).toNat < 2 ^ 56) :
    (ofBytes 64 (b :: bs)).toNat = b.toNat + 256 * (ofBytes 64 bs).toNat := by
  have hb : b.toNat < 2 ^ 8 := b.isLt
  have hlow : (b.setWidth 64).toNat = b.toNat := by
    rw [BitVec.toNat_setWidth]
    omega
  have hhigh : (ofBytes 64 bs <<< 8).toNat = 2 ^ 8 * (ofBytes 64 bs).toNat := by
    rw [BitVec.toNat_shiftLeft, Nat.shiftLeft_eq]
    omega
  rw [ofBytes, BitVec.toNat_or, hlow, hhigh, Nat.or_comm, ← Nat.two_pow_add_eq_or_of_lt hb, Nat.add_comm]

/-- A two-byte load is the two bytes RINGCTL sees, the first the low one (R84, R88). -/
theorem State.load_two_toNat (s : State) (a : Nat) :
    (s.load .two a).toNat = (s.seenByte a).toNat + 256 * (s.seenByte (a + 1)).toNat := by
  have hbytes : s.load .two a = ofBytes 64 [s.seenByte a, s.seenByte (a + 1)] := rfl
  have hhigh : (ofBytes 64 [s.seenByte (a + 1)]).toNat = (s.seenByte (a + 1)).toNat :=
    toNat_ofBytes_cons _ [] (by decide)
  have hlt := (s.seenByte (a + 1)).isLt
  rw [hbytes, toNat_ofBytes_cons _ _ (by omega), hhigh]

/-- Settles O47: the length field, each byte of the packet and the two kinds of store pass the guard of the slot, which
is RINGCTL's. -/
theorem receiveDeliversAndScrubs : Obligations.ReceiveDeliversAndScrubs := by
  intro s n i m k pkt
  refine ⟨fun ht ha hl hfit => ⟨fun hs => ?_, fun hs => ?_⟩, fun hs ht hk hl => ?_, fun hs => ?_, fun hs ht hk hl => ?_⟩
  · obtain ⟨-, halign, hlive⟩ :=
      fieldReady_of_descriptor (q := .rx) ht ha hl hfit fieldLength .two (by decide) (by decide)
    refine ⟨_, State.load_two_toNat s _, (exec_receive_at hs).trans ?_⟩
    exact getField_of_owned (q := .rx) ht halign hlive
  · exact (exec_receive_at hs).trans
      (setField_of_descriptor (q := .rx) ht ha hl hfit fieldStatus .one _ _ (by decide) (by decide))
  · refine ⟨_, rfl, ?_⟩
    rw [exec_receive_at hs, receiveAt, getBufByte_of_owned (q := .rx) ht hk hl, copyOutFrom, List.length_append]
    rfl
  · exact exec_receive_at hs
  · exact (exec_receive_at hs).trans (setBufByte_of_owned (q := .rx) ht hk hl)

end Sys2Proof.Machine
end

section
/-! THE FRAME OF RECEIVE (R240 to R249): what a micro-operation leaves unchanged, whether it goes on, holds or ends. -/

namespace Sys2Proof.Machine

/-! ### What is unchanged -/

/-- All that RECEIVE can touch: the sequencer, the RX tags and shadow index, the delivery queue and the counter, the
outcome, the two write buffers and what RINGCTL holds. -/
def ReceiveKeeps (s t : State) : Prop :=
  t = { s with
    seq := t.seq, rxq := { s.rxq with own := t.rxq.own, tail := t.rxq.tail }, pktOut := t.pktOut, rxN := t.rxN
    resCode := t.resCode, resVal := t.resVal, fault := t.fault, log := t.log, life := t.life
    sb := t.sb, pwq := t.pwq, held := t.held }

theorem ReceiveKeeps.setSeq {s u : State} (h : ReceiveKeeps s u) (q : Seq) : ReceiveKeeps s { u with seq := q } := by
  have hq := congrArg (fun v : State => { v with seq := q }) h
  exact hq

/-- Nothing has changed but the sequencer and the outcome a command ends with. -/
def OutcomeOnly (s t : State) : Prop :=
  t = { s with
    seq := t.seq, resCode := t.resCode, resVal := t.resVal, fault := t.fault, log := t.log, life := t.life }

theorem OutcomeOnly.keeps {s t : State} (h : OutcomeOnly s t) : ReceiveKeeps s t := by
  have hsame {α : Type} (f : State → α) := congrArg f h
  rw [ReceiveKeeps, hsame State.rxq, hsame State.pktOut, hsame State.rxN, hsame State.sb, hsame State.pwq,
    hsame State.held]
  exact h

/-! ### A micro-operation that goes on -/

namespace ReceiveGoes

variable {s u : State} {p p' : ReceivePos}

theorem keeps (h : ReceiveGoes s p u p') (hv : s.cfg.valid = true) :
    ReceiveKeeps s u ∧ SameOutcome s u ∧ u.life = s.life := by
  cases h
  case readTail hr =>
    cases hr.eq (regAt_rdt hv)
    exact ⟨rfl, by constructor <;> rfl, rfl⟩
  all_goals exact ⟨rfl, by constructor <;> rfl, rfl⟩

/-- A packet joins the delivery queue only at the delivery (R243). -/
theorem pktOut (h : ReceiveGoes s p u p') (hp : ∀ i pkt, p ≠ .deliver i pkt) : u.pktOut = s.pktOut := by
  cases h
  case deliver i pkt => exact absurd rfl (hp i pkt)
  all_goals simp

/-- The counter is set at the start of the scan and raised behind each slot (R240, R247). -/
theorem rxN (h : ReceiveGoes s p u p') (hp : ∀ i x, p ≠ .advance i ∧ p ≠ .index x) : u.rxN = s.rxN := by
  cases h
  case index x _ => exact absurd rfl (hp 0 x).2
  case advance i => exact absurd rfl (hp i 0).1
  all_goals simp

/-- The shadow index and the posted writes move only at the re-arm (R246, R247). -/
theorem tail (h : ReceiveGoes s p u p') (hp : ∀ i, p ≠ .rearm i) : u.rxq.tail = s.rxq.tail ∧ u.pwq = s.pwq := by
  cases h
  case rearm i => exact absurd rfl (hp i)
  all_goals simp

/-- Of the tags only slot `i`'s changes, where it is taken and where it is re-armed (R191). -/
theorem tag {j : Nat} (h : ReceiveGoes s p u p') (hf : ∀ i, p = .readFence i → i ≠ j)
    (hr : ∀ i, p = .rearm i → i ≠ j) : u.tag .rx j = s.tag .rx j := by
  cases h
  case readFence i => exact tag_setTag_of_ne (s := s) (q := .rx) .sw (hf i rfl)
  case rearm i => exact tag_setTag_of_ne (s := s) (q := .rx) .hw (hr i rfl)
  all_goals simp [State.tag, State.ringOf]

/-- Nor is anything else taken up or given away than the bytes of that slot (log entry 6). -/
theorem held {e : Extent} (h : ReceiveGoes s p u p') (hf : ∀ i, p = .readFence i → e ∉ slotExtents s .rx i)
    (hr : ∀ i, p = .rearm i → e ∉ slotExtents s .rx i) : e ∈ u.held ↔ e ∈ s.held := by
  cases h
  case readFence i => simp [hf i rfl]
  case rearm i =>
    have hout : e ∉ slotExtents (s.post s.cfg.offRdt (indexWord i)) .rx i := hr i rfl
    simp [hout]
  all_goals simp

/-- RINGCTL sees a change only in the bytes the micro-operation stores to (R244, R245). -/
theorem seenByte {n a : Nat} (h : ReceiveGoes s p u p') (hs : s.seq = .receive n p)
    (ha : ∀ i pa w, receiveTarget s = some (i, pa, w) → ¬ inBytes pa w a) : u.seenByte a = s.seenByte a := by
  cases h
  case scrub | clearStatus =>
    exact State.store_seenByte_outside _ (ha _ _ _ (by rw [receiveTarget, hs]; rfl))
  all_goals exact State.seenByte_congr (by simp) (by simp) a

end ReceiveGoes

/-! ### Every path -/

/-- RECEIVE takes no answer of the allocator, whatever the micro-operation's outcome. -/
theorem receiveAt_answers {n : Nat} {p : ReceivePos} {s t : State} (h : receiveAt n p s = .next t) :
    t.answers = s.answers := by
  have hgo {u : State} {p' : ReceivePos} (h : receiveTo n p' u = .next t) (hu : u.answers = s.answers) :
      t.answers = s.answers := by
    rw [proceed_next h, ← hu]
  cases p with simp only [receiveAt] at h
  | gate =>
    rcases gate_next h with ⟨_, h⟩ | ⟨_, rfl⟩
    · exact hgo h rfl
    · simp
  | readTail =>
    rcases regRead_next h with ⟨_, rfl⟩ | ⟨_, _, rfl⟩ | ⟨_, _, r, _, h⟩
    · simp
    · rfl
    · exact hgo h (macRead_answers r s)
  | index =>
    rcases indexFrom_next h with ⟨_, h⟩ | ⟨_, rfl⟩
    · exact hgo h rfl
    · simp
  | batch | readyTest => split at h <;> exact hgo h rfl
  | readStatus =>
    obtain ⟨_, h⟩ := getStatus_next h
    exact hgo h rfl
  | readAddr | readLength =>
    rcases getField_next h with ⟨_, _, _, h⟩ | ⟨_, rfl⟩
    · exact hgo h rfl
    · simp
  | addrTest =>
    simp only [addrTest] at h
    split at h
    · simp [raised_next h]
    · exact hgo h rfl
  | copy =>
    rcases getBufByte_next h with ⟨_, _, _, h⟩ | ⟨_, rfl⟩
    · exact hgo h rfl
    · simp
  | scrub =>
    rcases setBufByte_next h with ⟨_, _, _, h⟩ | ⟨_, rfl⟩
    · exact hgo h rfl
    · simp
  | clearStatus =>
    rcases setField_next h with ⟨_, _, _, h⟩ | ⟨_, rfl⟩
    · exact hgo h rfl
    · simp
  | fence =>
    rcases sfence_next h with ⟨_, h⟩ | ⟨_, rfl⟩
    · exact hgo h rfl
    · rfl
  | rearm =>
    rcases regWrite_next h with ⟨_, rfl⟩ | ⟨_, h⟩
    · simp
    · exact hgo h rfl
  | readFence | deliver | advance => exact hgo h rfl
  | ret => simp [ret_next h]

/-- What `exec` of RECEIVE can answer, for its frame: it goes on, or it starts, holds, ends or gives way to another
command, and then writes at most an outcome. -/
inductive ReceiveOutcome (s t : State) : Prop
  | goes {n : Nat} {p p' : ReceivePos} {u : State} : s.seq = .receive n p → ReceiveGoes s p u p' →
      t = { u with seq := .receive (n + 1) p' } → ReceiveOutcome s t
  | stays : OutcomeOnly s t → (t.seq ≠ .idle → SameOutcome s t ∧ t.life = s.life) → ReceiveOutcome s t

namespace ReceiveOutcome

variable {s t : State}

theorem of_seq (q : Seq) : ReceiveOutcome s { s with seq := q } :=
  .stays rfl fun _ => ⟨by constructor <;> rfl, rfl⟩

/-- A micro-operation that ends with an outcome leaves everything but what it logs. -/
theorem of_raise (l : List Event) (c : Code) (v : Word) : ReceiveOutcome s (State.raise { s with log := l } c v) :=
  .stays (by cases c <;> rfl) fun hne => absurd (State.raise_seq _ _ _) hne

theorem of_receiveAt {n : Nat} {p : ReceivePos} (hs : s.seq = .receive n p) (h : receiveAt n p s = .next t) :
    ReceiveOutcome s t := by
  have hans := receiveAt_answers h
  have hop := receiveAt_microOp h
  generalize hq : Seq.receive n p = q at hop
  cases hop with
  | holds => exact .of_seq s.seq
  | @fatal _ as c v =>
    obtain rfl : as = s.answers := (State.raise_answers _ _ _).symm.trans hans
    exact .of_raise s.log c v
  | wrongState => exact .of_raise s.log _ _
  | busy => cases hq
  | rxInvalid => exact .of_raise _ _ _
  | goes hg =>
    subst hq
    cases hg with | receive hg => exact .goes hs hg rfl
  | returns hr =>
    subst hq
    cases hr with
    | receive => exact .stays rfl fun hne => absurd rfl hne

theorem keeps (h : ReceiveOutcome s t) (hv : s.cfg.valid = true) :
    ReceiveKeeps s t ∧ (t.seq ≠ .idle → SameOutcome s t ∧ t.life = s.life) := by
  cases h with
  | stays ho he => exact ⟨ho.keeps, he⟩
  | goes _ hg ht =>
    subst ht
    obtain ⟨hk, ⟨hcode, hval, hfault, hlog⟩, hlife⟩ := hg.keeps hv
    exact ⟨hk.setSeq _, fun _ => ⟨⟨hcode, hval, hfault, hlog⟩, hlife⟩⟩

end ReceiveOutcome

theorem exec_receive_outcome {s t : State} (h : exec .receive s = .next t) : ReceiveOutcome s t := by
  simp only [exec, execReceive] at h
  split at h
  · rw [proceed_next h]
    exact .of_seq _
  · exact .of_receiveAt ‹_› h
  all_goals
    cases h
    exact .of_seq s.seq

/-- Settles O49: one equation says what every path keeps; the other clauses are read off the position RECEIVE goes on
from, or hold because it does not go on. -/
theorem receiveFrame : Obligations.ReceiveFrame := by
  intro s t hv h
  have ho := exec_receive_outcome h
  obtain ⟨hk, he⟩ := ho.keeps hv
  have hkept {α : Type} (f : State → α) := congrArg f hk
  refine ⟨hkept State.cfg, hkept State.cmdw, hkept State.arg0, hkept State.pktIn, hkept State.txq, hkept (·.rxq.ring),
    hkept (·.rxq.buf), hkept State.mac, hkept State.mem, hkept State.allocs, hkept State.answers, hkept State.raced,
    hkept State.sched, fun hne => ?_, ?_⟩
  · obtain ⟨⟨hcode, hval, hfault, hlog⟩, hlife⟩ := he hne
    exact ⟨hcode, hval, hfault, hlife, hlog⟩
  cases ho with
  | stays hs _ =>
    have hsame {α : Type} (f : State → α) := congrArg f hs
    exact ⟨fun _ => hsame State.pktOut, fun _ => hsame State.rxN, fun _ => ⟨hsame (·.rxq.tail), hsame State.pwq⟩,
      fun j _ _ => hsame (·.tag .rx j), fun e _ _ => Iff.of_eq (hsame (e ∈ ·.held)), fun a _ => hsame (·.seenByte a)⟩
  | @goes n p p' u hs hg ht =>
    subst ht
    exact ⟨fun hx => hg.pktOut fun i pkt hp => hx n i pkt (hp ▸ hs),
      fun hx => hg.rxN fun i x => ⟨fun hp => (hx n i x).1 (hp ▸ hs), fun hp => (hx n i x).2 (hp ▸ hs)⟩,
      fun hx => hg.tail fun i hp => hx n i (hp ▸ hs),
      fun j hf hr => hg.tag (fun i hp => hf n i (hp ▸ hs)) fun i hp => hr n i (hp ▸ hs),
      fun e hf hr => hg.held (fun i hp => hf n i (hp ▸ hs)) fun i hp => hr n i (hp ▸ hs),
      fun a ha => hg.seenByte hs ha⟩

end Sys2Proof.Machine
end

section
/-! AN EMPTY RECEIVE (R113, R240, R241, R248, R249): under the default schedule the scan ends at the slot behind `RDT`
when that has no `DD`. -/

namespace Sys2Proof.Machine

/-- The machine where RECEIVE stands at `p` with `n` micro-operations performed. -/
def State.scanning (s : State) (n : Nat) (p : ReceivePos) : State := { s with seq := .receive n p }

/-- The empty schedule's step is the micro-operation RECEIVE stands at. -/
theorem run_scanning {s t : State} {n : Nat} {p : ReceivePos} (hq : Quiet s)
    (h : exec .receive (s.scanning n p) = .next t) (k : Nat) :
    Host.Core.run Sys2Proof.core (k + 1) (s.scanning n p) = Host.Core.run Sys2Proof.core k t :=
  run_succ_of_step (M := Sys2Proof.core)
    ((step_of_no_sched (s := s.scanning n p) hq.sched hq.sb hq.pwq).trans ((sequencerStep_of_instr rfl).trans h)) k

section
variable {s : State} {n i : Nat} (hq : Quiet s) (hv : s.cfg.valid = true)
include hq hv

/-- In `Ready` the scan starts at the slot behind `RDT`, its counter 0 (R240). -/
theorem run_scan_start (hl : s.life = .ready) (hcap : s.mac.rdt.toNat < s.cfg.cap) (k : Nat) :
    Host.Core.run Sys2Proof.core (k + 3) (s.scanning n .gate) =
      Host.Core.run Sys2Proof.core k
        (State.scanning { s with rxN := 0 } (n + 3) (.batch ((s.mac.rdt.toNat + 1) % s.cfg.cap))) := by
  obtain ⟨hgate, -⟩ := receiveScansReadySlots (s.scanning n .gate) n 0 0 0 0 hv
  obtain ⟨-, hread, -⟩ := receiveScansReadySlots (s.scanning (n + 1) .readTail) (n + 1) 0 0 0 0 hv
  obtain ⟨-, -, hindex, -⟩ :=
    receiveScansReadySlots (s.scanning (n + 2) (.index s.mac.rdt)) (n + 2) 0 s.mac.rdt 0 0 hv
  exact (run_scanning hq (hgate rfl hl) _).trans <|
    (run_scanning hq (hread rfl hq.pwq) _).trans <| run_scanning hq (hindex rfl hcap) _

/-- A slot seen without `DD` ends the command with the count reached (R241, R249). -/
theorem run_scan_end {st : Byte} (hmax : s.rxN ≠ s.cfg.rxBatchMax)
    (hlive : s.live (s.rxq.ring.pa + BitVec.ofNat 64 (16 * i + 12)).toNat 1 = true)
    (hst : s.seenByte (s.rxq.ring.pa + BitVec.ofNat 64 (16 * i + 12)).toNat = st) (hdd : st &&& s.cfg.staDd = 0)
    (k : Nat) :
    Host.Core.run Sys2Proof.core (k + 4) (s.scanning n (.batch i)) =
      Host.Core.run Sys2Proof.core k { s with seq := .idle, resCode := 0x00, resVal := BitVec.ofNat 32 s.rxN } := by
  obtain ⟨-, -, -, hbatch, -⟩ := receiveScansReadySlots (s.scanning n (.batch i)) n i 0 0 0 hv
  obtain ⟨-, -, -, -, hread, -⟩ := receiveScansReadySlots (s.scanning (n + 1) (.readStatus i)) (n + 1) i 0 0 0 hv
  obtain ⟨-, -, -, -, -, htest, -⟩ :=
    receiveScansReadySlots (s.scanning (n + 2) (.readyTest i st)) (n + 2) i 0 st 0 hv
  obtain ⟨-, -, -, hret⟩ := receiveRearmsAndReturns (s.scanning (n + 3) .ret) (n + 3) i hv
  have hgoes := hbatch rfl
  have hends := htest rfl
  rw [if_neg (c := (s.scanning n (.batch i)).rxN = (s.scanning n (.batch i)).cfg.rxBatchMax) hmax] at hgoes
  rw [if_pos (c := st &&& (s.scanning (n + 2) (.readyTest i st)).cfg.staDd = 0) hdd] at hends
  subst hst
  exact (run_scanning hq hgoes _).trans <| (run_scanning hq (hread rfl hlive) _).trans <|
    (run_scanning hq hends _).trans <| run_scanning hq (hret rfl) _

end

theorem step_issue_receive {s : State} {a : Word} {p : List Byte} (hs : s.seq = .idle)
    (h : s.sched = [.issue 0x00000003 a p]) :
    step s = .next (State.scanning { s with sched := [], cmdw := 0x00000003, arg0 := a, pktIn := p } 0 .gate) := by
  obtain ⟨-, -, hfetch, -⟩ := stepRunsTheDecodedInstruction
  obtain ⟨-, -, hstart, -⟩ :=
    (issueStartsTheCommand { s with sched := [], cmdw := 0x00000003, arg0 := a, pktIn := p }).1 hs
  exact (hfetch s [] _ a p .receive h hs rfl).trans hstart

/-- Settles O59: the issue, three steps to the slot behind `RDT` and four to the result. -/
theorem emptyReceiveRuns : Obligations.EmptyReceiveRuns := by
  intro s a p i hv hl hs hsb hpwq hsched hmax hcap hi hlive hdd
  have hstart := run_succ_of_step (M := Sys2Proof.core) (step_issue_receive hs hsched) 7
  have hscan := run_scan_start (s := { s with sched := [], cmdw := 0x00000003, arg0 := a, pktIn := p }) (n := 0)
    ⟨rfl, hsb, hpwq⟩ hv hl hcap 4
  have hdone := run_scan_end (s := { s with sched := [], cmdw := 0x00000003, arg0 := a, pktIn := p, rxN := 0 }) (n := 3)
    (i := i) ⟨rfl, hsb, hpwq⟩ hv hmax.ne hlive (State.seenByte_of_drained hsb _) hdd 0
  subst hi
  rw [hstart, hscan, hdone, hs]
  rfl

end Sys2Proof.Machine
end

section
/-! THE INTERRUPT COMMANDS (R250, R252, R253): the two that write the mask are one command but for the register and the
value, and each micro-operation of the three is its shared operation going on. -/

namespace Sys2Proof.Machine

theorem exec_serviceIrq_at {s : State} {n : Nat} {p : CausePos} (h : s.seq = .serviceIrq n p) :
    exec .serviceIrq s = serviceIrqAt n p s := by
  simp only [exec, execServiceIrq, h]

/-- The micro-operation at `p` of a command that writes a value to a register of the mask; the value may depend on
the operand. -/
def maskAt (pos : Nat → MaskPos → Seq) (off : Cfg → Word) (val : Cfg → Word → Word) (n : Nat) (p : MaskPos)
    (s : State) : Result :=
  match p with
  | .gate => gate .ready (proceed (pos (n + 1) .write)) s
  | .write => regWrite (off s.cfg) (val s.cfg s.arg0) (proceed (pos (n + 1) .flush)) s
  | .flush => writeFlush (proceed (pos (n + 1) .ret)) s
  | .ret => ret .ok 0 s

/-- Instruction `i` is that command. -/
structure MaskCommand (i : Instr) (pos : Nat → MaskPos → Seq) (off : Cfg → Word) (val : Cfg → Word → Word) : Prop where
  instr : ∀ n p, (pos n p).instr = some i
  exec_at : ∀ {n : Nat} {p : MaskPos} {s : State}, s.seq = pos n p → exec i s = maskAt pos off val n p s

/-- IRQ_ENABLE writes its operand to `IMS` (R252). -/
theorem maskCommand_irqEnable : MaskCommand .irqEnable .irqEnable Cfg.offIms fun _ a => a where
  instr _ _ := rfl
  exec_at {n p s} h := by cases p <;> simp only [exec, execIrqEnable, h, irqEnableAt, maskAt]

/-- IRQ_DISABLE writes its two parameters (R253). -/
theorem maskCommand_irqDisable : MaskCommand .irqDisable .irqDisable Cfg.irqOffReg fun c _ => c.irqOffVal where
  instr _ _ := rfl
  exec_at {n p s} h := by cases p <;> simp only [exec, execIrqDisable, h, irqDisableAt, maskAt]

theorem regInRange_irqOff {c : Cfg} (hv : c.valid = true) : regInRange c c.irqOffReg = true :=
  regInRange_of_mem hv (Cfg.valid_irqOff hv)

/-- Settles O50: `ICR` is in range and is the register read, so that each access is made. -/
theorem serviceIrqReturnsTheCauses : Obligations.ServiceIrqReturnsTheCauses := by
  intro s n v hv
  refine ⟨fun hs hl => ?_, fun hs hp => ?_, fun hs => ?_, fun hs => ?_⟩
  · exact (exec_serviceIrq_at hs).trans (gate_of_life hl)
  · rw [exec_serviceIrq_at hs, serviceIrqAt, regRead_of_arrived (regInRange_icr hv) hp (regAt_icr hv)]
    rfl
  · exact (exec_serviceIrq_at hs).trans (regWrite_of_inRange (regInRange_icr hv))
  · exact exec_serviceIrq_at hs

section
variable {i : Instr} {pos : Nat → MaskPos → Seq} {off : Cfg → Word} {val : Cfg → Word → Word} {s : State} {n : Nat}
  (hc : MaskCommand i pos off val)
include hc

theorem MaskCommand.exec_gate (hs : s.seq = pos n .gate) (hl : s.life = .ready) :
    exec i s = .next { s with seq := pos (n + 1) .write } := (hc.exec_at hs).trans (gate_of_life hl)

theorem MaskCommand.exec_write (hs : s.seq = pos n .write) (hin : regInRange s.cfg (off s.cfg) = true) :
    exec i s = .next { s with
      pwq := s.pwq ++ [⟨off s.cfg, val s.cfg s.arg0⟩], seq := pos (n + 1) .flush } :=
  (hc.exec_at hs).trans (regWrite_of_inRange hin)

theorem MaskCommand.exec_flush (hs : s.seq = pos n .flush) (hv : s.cfg.valid = true) (hp : s.pwq = []) :
    exec i s = .next { s with draws := s.draws + 1, seq := pos (n + 1) .ret } :=
  (hc.exec_at hs).trans (writeFlush_of_arrived hv hp)

theorem MaskCommand.exec_ret (hs : s.seq = pos n .ret) :
    exec i s = .next { s with resCode := 0x00, resVal := 0, seq := .idle } := hc.exec_at hs

end

/-- Settles O51: both are the one mask command, each with its register in range. -/
theorem irqMaskCommandsWriteAndFlush : Obligations.IrqMaskCommandsWriteAndFlush := by
  intro s n hv
  have he := maskCommand_irqEnable
  have hd := maskCommand_irqDisable
  exact ⟨he.exec_gate, fun hs => he.exec_write hs (regInRange_ims hv), fun hs => he.exec_flush hs hv, he.exec_ret,
    hd.exec_gate, fun hs => hd.exec_write hs (regInRange_irqOff hv), fun hs => hd.exec_flush hs hv, hd.exec_ret⟩

end Sys2Proof.Machine
end

section
/-! THE INTERRUPT COMMANDS AND THE RINGS (R254): whatever the micro-operation and its outcome, nothing of the rings is
written, and with another ring side it does the same beside it. -/

namespace Sys2Proof.Machine

/-! ### The micro-operations -/

/-- With the parameters off the tails, the register at `off` stands in the window and is no tail's. -/
def ReachesNoTail (off : Cfg → Word) : Prop :=
  ∀ c, tailsPrivate c → QuietOffset c (off c) ∧ regInRange c (off c) = true

/-- What `exec` of an interrupt command performs: it starts or gives way to another command, or it is one of the
micro-operations of R250, R252 and R253. A write's register and value depend on the configuration and the operand
alone. -/
inductive InterruptOp : (State → Result) → Prop
  | moves (q : Seq) : InterruptOp (proceed q)
  | gate (q : Seq) : InterruptOp (gate .ready (proceed q))
  | readCauses (q : Word → Seq) : InterruptOp fun s => regRead s.cfg.offIcr (fun v => proceed (q v)) s
  | write {off : Cfg → Word} {val : Cfg → Word → Word} (q : Seq) : ReachesNoTail off →
      InterruptOp fun s => regWrite (off s.cfg) (val s.cfg s.arg0) (proceed q) s
  | flush (q : Seq) : InterruptOp (writeFlush (proceed q))
  | returns (v : Word) : InterruptOp (ret .ok v)

theorem reachesNoTail_icr : ReachesNoTail Cfg.offIcr := fun _ hc => ⟨quietOffset_icr hc.1, regInRange_icr hc.1⟩

theorem reachesNoTail_ims : ReachesNoTail Cfg.offIms := fun _ hc => ⟨quietOffset_ims hc.1, regInRange_ims hc.1⟩

theorem reachesNoTail_irqOff : ReachesNoTail Cfg.irqOffReg :=
  fun _ hc => ⟨hc.2 _ (.inl rfl), regInRange_irqOff hc.1⟩

theorem interruptOp_serviceIrqAt (n : Nat) (p : CausePos) : InterruptOp (serviceIrqAt n p) := by
  cases p with
  | gate => exact .gate _
  | read => exact .readCauses fun v => .serviceIrq (n + 1) (.writeBack v)
  | writeBack v => exact .write (val := fun _ _ => v) _ reachesNoTail_icr
  | ret v => exact .returns v

theorem interruptOp_maskAt {pos : Nat → MaskPos → Seq} {off : Cfg → Word} {val : Cfg → Word → Word}
    (quiet : ReachesNoTail off) (n : Nat) (p : MaskPos) :
    InterruptOp (maskAt pos off val n p) := by
  cases p with
  | gate => exact .gate _
  | write => exact .write _ quiet
  | flush => exact .flush _
  | ret => exact .returns 0

/-- Unless a command is the one in progress, its `exec` only places the sequencer: at its gate while idle, and
where it is while another runs. -/
theorem exec_running_or_moves {i : Instr} (hi : (gateOf i 0).instr = some i) (q : Seq) :
    q.instr = some i ∨ ∃ q', ∀ u : State, u.seq = q → exec i u = proceed q' u := by
  by_cases hidle : q = .idle
  · exact .inr ⟨gateOf i 0, fun u hu => exec_of_idle hi (hu.trans hidle)⟩
  · by_cases hrun : q.instr = some i
    · exact .inl hrun
    · refine .inr ⟨q, fun u hu => ?_⟩
      subst hu
      exact exec_of_other hi hidle hrun

/-- Which micro-operation `exec` of an interrupt command performs is read off the sequencer's place alone. -/
theorem exec_interruptOp {i : Instr} (hi : i = .serviceIrq ∨ i = .irqEnable ∨ i = .irqDisable) (q : Seq) :
    ∃ op, InterruptOp op ∧ ∀ u : State, u.seq = q → exec i u = op u := by
  have hgate : (gateOf i 0).instr = some i := by rcases hi with rfl | rfl | rfl <;> rfl
  rcases exec_running_or_moves hgate q with hrun | ⟨q', hmoves⟩
  · cases q with cases hrun
    | serviceIrq n p => exact ⟨_, interruptOp_serviceIrqAt n p, fun u => exec_serviceIrq_at⟩
    | irqEnable n p => exact ⟨_, interruptOp_maskAt reachesNoTail_ims n p, fun u => maskCommand_irqEnable.exec_at⟩
    | irqDisable n p => exact ⟨_, interruptOp_maskAt reachesNoTail_irqOff n p, fun u => maskCommand_irqDisable.exec_at⟩
    | construct | transmit | receive | teardown => simp at hi
  · exact ⟨_, .moves q', hmoves⟩

/-! ### The frame -/

/-- All that an interrupt command can touch: the sequencer, the outcome, the causes, the counter of free values, and at
most one register write that is no tail's is posted. -/
structure InterruptKeeps (s t : State) : Prop where
  kept : t = { s with
    seq := t.seq, resCode := t.resCode, resVal := t.resVal, fault := t.fault, log := t.log, life := t.life
    mac := { s.mac with icause := t.mac.icause }, draws := t.draws, pwq := t.pwq }
  posted : t.pwq = s.pwq ∨ ∃ p, t.pwq = s.pwq ++ [p] ∧ p.off ≠ s.cfg.offTdt ∧ p.off ≠ s.cfg.offRdt

theorem InterruptKeeps.of_proceed {q : Seq} {s t : State} (h : proceed q s = .next t) : InterruptKeeps s t := by
  rw [proceed_next h]
  exact ⟨rfl, .inl rfl⟩

theorem InterruptKeeps.of_raise {s : State} (c : Code) (v : Word) : InterruptKeeps s (s.raise c v) :=
  ⟨by cases c <;> rfl, .inl (State.raise_pwq _ _ _)⟩

theorem InterruptKeeps.of_regRead {off : Word} {q : Word → Seq} {s t : State}
    (h : regRead off (fun v => proceed (q v)) s = .next t) : InterruptKeeps s t := by
  rcases regRead_next h with ⟨_, rfl⟩ | ⟨_, _, rfl⟩ | ⟨_, _, r, _, h⟩
  · exact .of_raise _ _
  · exact ⟨rfl, .inl rfl⟩
  · obtain ⟨x, d, hread⟩ := macRead_state r s
    rw [hread] at h
    rw [proceed_next h]
    exact ⟨rfl, .inl rfl⟩

theorem InterruptKeeps.of_regWrite {off v : Word} {q : Seq} {s t : State} (hoff : QuietOffset s.cfg off)
    (h : regWrite off v (proceed q) s = .next t) : InterruptKeeps s t := by
  rcases regWrite_next h with ⟨_, rfl⟩ | ⟨_, h⟩
  · exact .of_raise _ _
  · obtain ⟨htdt, hrdt, -⟩ := hoff
    rw [proceed_next h]
    exact ⟨rfl, .inr ⟨_, rfl, htdt, hrdt⟩⟩

theorem InterruptOp.keeps {op : State → Result} {s t : State} (hop : InterruptOp op) (hc : tailsPrivate s.cfg)
    (h : op s = .next t) : InterruptKeeps s t := by
  cases hop with
  | moves q => exact .of_proceed h
  | gate q =>
    rcases gate_next h with ⟨_, h⟩ | ⟨_, rfl⟩
    · exact .of_proceed h
    · exact .of_raise _ _
  | readCauses q => exact .of_regRead h
  | write q quiet => exact .of_regWrite (quiet _ hc).1 h
  | flush q => exact .of_regRead h
  | returns v =>
    rw [ret_next h]
    exact .of_raise .ok v

/-! ### Another ring side -/

/-- The rings, `Mem`, the store buffer and the two tail registers. -/
structure RingSide where
  txq : Ring
  rxq : Ring
  mem : Memory
  sb  : List StoreEntry
  tdt : Word
  rdt : Word

/-- The machine with another ring side. -/
def State.beside (s : State) (r : RingSide) : State :=
  { s with txq := r.txq, rxq := r.rxq, mem := r.mem, sb := r.sb, mac := { s.mac with tdt := r.tdt, rdt := r.rdt } }

variable {s t : State} {r : RingSide}

theorem proceed_beside {q : Seq} (h : proceed q s = .next t) : proceed q (s.beside r) = .next (t.beside r) := by
  rw [proceed_next h]
  rfl

theorem regRead_beside {off : Word} {reg : Reg} {q : Word → Seq} (hin : regInRange s.cfg off = true)
    (hreg : regAt s.cfg off = some reg)
    (hread : macRead reg (s.beside r) = ((macRead reg s).1, (macRead reg s).2.beside r))
    (h : regRead off (fun v => proceed (q v)) s = .next t) :
    regRead off (fun v => proceed (q v)) (s.beside r) = .next (t.beside r) := by
  by_cases hp : s.pwq = []
  · rw [regRead_of_arrived hin hp hreg] at h
    rw [regRead_of_arrived (s := s.beside r) hin hp hreg, hread]
    exact proceed_beside h
  · rw [regRead_of_posted hin hp] at h
    cases h
    exact regRead_of_posted (s := s.beside r) hin hp

/-- No interrupt command reads the ring side: not its gate, which tests the lifecycle state, nor a register access,
which tests the posted writes and reads the causes or `STATUS`. -/
theorem InterruptOp.beside {op : State → Result} (hop : InterruptOp op) (hc : tailsPrivate s.cfg)
    (h : op s = .next t) (r : RingSide) : op (s.beside r) = .next (t.beside r) := by
  have hv := hc.1
  cases hop with
  | moves q => exact proceed_beside h
  | gate q =>
    rcases gate_next h with ⟨hl, h⟩ | ⟨hl, rfl⟩
    · exact (gate_of_life (s := s.beside r) hl).trans (proceed_beside h)
    · exact if_neg hl
  | readCauses q => exact regRead_beside (regInRange_icr hv) (regAt_icr hv) rfl h
  | write q quiet =>
    obtain ⟨-, hin⟩ := quiet s.cfg hc
    replace h := (regWrite_of_inRange hin).symm.trans h
    exact (regWrite_of_inRange (s := s.beside r) hin).trans (proceed_beside h)
  | flush q => exact regRead_beside (regInRange_status hv) (regAt_status hv) rfl h
  | returns v =>
    rw [ret_next h]
    rfl

/-- Settles O52: `exec` performs one of the micro-operations, whichever the ring side; what it keeps is one equation. -/
theorem interruptCommandsLeaveTheRings : Obligations.InterruptCommandsLeaveTheRings := by
  intro s t i hc hi h
  obtain ⟨op, hop, hexec⟩ := exec_interruptOp hi s.seq
  rw [hexec s rfl] at h
  obtain ⟨hkept, hposted⟩ := hop.keeps hc h
  have kept {α : Type} (f : State → α) := congrArg f hkept
  refine ⟨⟨kept State.txq, kept State.rxq, kept State.mem, kept State.sb, kept State.pktOut, kept State.rxN,
    kept State.cmdw, kept State.arg0, kept State.pktIn, kept State.allocs, kept State.answers, kept State.cfg,
    kept State.raced, kept State.held, kept State.sched, _, kept State.mac⟩, hposted, fun txq rxq mem sb x y => ?_⟩
  exact (hexec (s.beside ⟨txq, rxq, mem, sb, x, y⟩) rfl).trans (hop.beside hc h _)

end Sys2Proof.Machine
end

section
/-! WHOLE INTERRUPT COMMANDS (R113, R250, R252, R253): under the default schedule each register write arrives before the
next micro-operation, and the command returns after its fourth. -/

namespace Sys2Proof.Machine

/-! ### Steps of a run -/

/-- The step that issues a command, the last the schedule names, leaves it at its gate. -/
theorem step_issue_command {s : State} {w a : Word} {p : List Byte} {i : Instr} (hs : s.seq = .idle)
    (h : s.sched = [.issue w a p]) (hw : decode (.cmdw w) = .instr i) :
    step s = .next { s with sched := [], cmdw := w, arg0 := a, pktIn := p, seq := gateOf i 0 } := by
  obtain ⟨-, -, hfetch, -⟩ := stepRunsTheDecodedInstruction
  exact (hfetch s [] w a p i h hs hw).trans (exec_of_idle (gateOf_instr_of_decode 0 hw) hs)

/-- The machine where the sequencer stands at `q`. -/
def State.standing (s : State) (q : Seq) : State := { s with seq := q }

section
variable {s t : State} {q q' : Seq} {i : Instr} (hq : Quiet s) (hi : q.instr = some i)
include hq hi

/-- The empty schedule's step is the micro-operation the command stands at. -/
theorem run_exec (h : exec i (s.standing q) = .next t) (k : Nat) :
    Host.Core.run Sys2Proof.core (k + 1) (s.standing q) = Host.Core.run Sys2Proof.core k t :=
  run_succ_of_step (M := Sys2Proof.core)
    ((step_of_no_sched (s := s.standing q) hq.sched hq.sb hq.pwq).trans ((sequencerStep_of_instr hi).trans h)) k

/-- A micro-operation that posts one register write, and the write's arrival. -/
theorem run_post {off v : Word} {reg : Reg}
    (h : exec i (s.standing q) = .next { s with pwq := s.pwq ++ [⟨off, v⟩], seq := q' })
    (hreg : regAt s.cfg off = some reg) (k : Nat) :
    Host.Core.run Sys2Proof.core (k + 2) (s.standing q) =
      Host.Core.run Sys2Proof.core k (macWrite reg v (s.standing q')) := by
  have hp : s.pwq ++ [⟨off, v⟩] = ⟨off, v⟩ :: s.pwq := by
    rw [hq.pwq]
    rfl
  have harrived := step_of_posted (s := { s with pwq := s.pwq ++ [⟨off, v⟩], seq := q' }) hq.sched hq.sb hp hreg
  exact (run_exec hq hi h (k + 1)).trans (run_succ_of_step (M := Sys2Proof.core) harrived k)

end

/-! ### SERVICE_IRQ -/

/-- Clearing causes where none is pending changes nothing (R51). -/
theorem macWrite_icr_of_clear {s : State} {v : Word} (h : s.mac.icause = 0) : macWrite .icr v s = s := by
  have hclear : s.mac.icause &&& ~~~v = s.mac.icause := by simp [h]
  rw [macWrite, hclear]

/-- In `Ready` SERVICE_IRQ reads the causes, which clears them, and goes on to write them back. -/
theorem run_readCauses {s : State} {n : Nat} (hq : Quiet s) (hv : s.cfg.valid = true) (hl : s.life = .ready) (k : Nat) :
    Host.Core.run Sys2Proof.core (k + 2) (s.standing (.serviceIrq n .gate)) =
      Host.Core.run Sys2Proof.core k
        (State.standing { s with mac := { s.mac with icause := 0 } }
          (.serviceIrq (n + 2) (.writeBack s.mac.icause))) := by
  obtain ⟨hgate, -⟩ := serviceIrqReturnsTheCauses (s.standing (.serviceIrq n .gate)) n 0 hv
  obtain ⟨-, hread, -⟩ := serviceIrqReturnsTheCauses (s.standing (.serviceIrq (n + 1) .read)) (n + 1) 0 hv
  exact (run_exec hq rfl (hgate rfl hl) _).trans (run_exec hq rfl (hread rfl hq.pwq) k)

/-- From the write-back on, no cause pending, SERVICE_IRQ returns the causes it has read. -/
theorem run_writeBack {s : State} {n : Nat} {v : Word} (hq : Quiet s) (hv : s.cfg.valid = true) (hc : s.mac.icause = 0)
    (k : Nat) :
    Host.Core.run Sys2Proof.core (k + 3) (s.standing (.serviceIrq n (.writeBack v))) =
      Host.Core.run Sys2Proof.core k { s with resCode := 0x00, resVal := v, seq := .idle } := by
  obtain ⟨-, -, hback, -⟩ := serviceIrqReturnsTheCauses (s.standing (.serviceIrq n (.writeBack v))) n v hv
  obtain ⟨-, -, -, hret⟩ := serviceIrqReturnsTheCauses (s.standing (.serviceIrq (n + 1) (.ret v))) (n + 1) v hv
  have hpost := run_post hq rfl (hback rfl) (regAt_icr hv) (k + 1)
  rw [macWrite_icr_of_clear (s := s.standing (.serviceIrq (n + 1) (.ret v))) hc] at hpost
  exact hpost.trans (run_exec hq rfl (hret rfl) k)

/-- Settles O57: the issue, then the command's four micro-operations and the arrival of the write-back, which finds no
cause left to clear. -/
theorem serviceIrqRuns : Obligations.ServiceIrqRuns := by
  intro s a p hv hl hs hsb hpwq hsched
  have hissue := run_succ_of_step (M := Sys2Proof.core) (step_issue_command hs hsched (i := .serviceIrq) rfl) 5
  have hread := run_readCauses (s := { s with sched := [], cmdw := 0x00000004, arg0 := a, pktIn := p }) (n := 0)
    ⟨rfl, hsb, hpwq⟩ hv hl 3
  have hback := run_writeBack (n := 2) (v := s.mac.icause)
    (s := { s with sched := [], cmdw := 0x00000004, arg0 := a, pktIn := p, mac := { s.mac with icause := 0 } })
    ⟨rfl, hsb, hpwq⟩ hv rfl 0
  rw [hs]
  exact hissue.trans (hread.trans hback)

/-! ### The mask commands -/

/-- The machine with the interrupt mask `x`. -/
def State.setMask (s : State) (x : Word) : State := { s with mac := { s.mac with imask := x } }

/-- A mask command writes its register, whose arriving write makes the mask `m` of what it was, and returns `OK(0)`. -/
theorem MaskCommand.run {i : Instr} {pos : Nat → MaskPos → Seq} {off : Cfg → Word} {val : Cfg → Word → Word} {s : State}
    {n : Nat} {reg : Reg} {m : Word → Word} (hc : MaskCommand i pos off val) (hq : Quiet s) (hv : s.cfg.valid = true)
    (hl : s.life = .ready) (hin : regInRange s.cfg (off s.cfg) = true) (hreg : regAt s.cfg (off s.cfg) = some reg)
    (hwrite : ∀ u : State, macWrite reg (val s.cfg s.arg0) u = u.setMask (m u.mac.imask))
    (k : Nat) :
    Host.Core.run Sys2Proof.core (k + 5) (s.standing (pos n .gate)) =
      Host.Core.run Sys2Proof.core k
        { s.setMask (m s.mac.imask) with draws := s.draws + 1, resCode := 0x00, resVal := 0, seq := .idle } := by
  have hgate := run_exec hq (hc.instr n .gate) (hc.exec_gate rfl hl) (k + 4)
  have hpost := run_post (v := val s.cfg s.arg0) hq (hc.instr (n + 1) .write) (hc.exec_write rfl hin) hreg (k + 2)
  rw [hwrite] at hpost
  have hflush := run_exec (s := s.setMask (m s.mac.imask)) hq (hc.instr (n + 2) .flush)
    (hc.exec_flush rfl hv hq.pwq) (k + 1)
  have hret := run_exec (s := { s.setMask (m s.mac.imask) with draws := s.draws + 1 }) hq (hc.instr (n + 3) .ret)
    (hc.exec_ret rfl) k
  exact hgate.trans (hpost.trans (hflush.trans hret))

/-- Settles O58: for both commands the issue, the four micro-operations and the arrival of the write, which for
IRQ_DISABLE is all ones to `IMC`. -/
theorem irqMaskCommandsRun : Obligations.IrqMaskCommandsRun := by
  intro s a p hv hl hs hsb hpwq
  refine ⟨fun hsched => ?_, fun hsched hoff hval => ?_⟩
  · have hissue := run_succ_of_step (M := Sys2Proof.core) (step_issue_command hs hsched (i := .irqEnable) rfl) 5
    have hrun := maskCommand_irqEnable.run (n := 0) (m := (· ||| a))
      (s := { s with sched := [], cmdw := 0x00000005, arg0 := a, pktIn := p }) ⟨rfl, hsb, hpwq⟩ hv hl
      (regInRange_ims hv) (regAt_ims hv) (fun _ => rfl) 0
    rw [hs]
    exact hissue.trans hrun
  · have hissue := run_succ_of_step (M := Sys2Proof.core) (step_issue_command hs hsched (i := .irqDisable) rfl) 5
    have hrun := maskCommand_irqDisable.run (n := 0) (m := fun _ => 0)
      (s := { s with sched := [], cmdw := 0x00000006, arg0 := a, pktIn := p }) ⟨rfl, hsb, hpwq⟩ hv hl
      (regInRange_irqOff hv) (hoff ▸ regAt_imc hv) (fun u => by simp [macWrite, State.setMask, hval]) 0
    rw [hs]
    exact hissue.trans hrun

end Sys2Proof.Machine
end

section
/-! MAC.TX (R263 to R265): the descriptor at the head is consumed: the frame goes out, `status` is written back if `RS`
was asked, the head moves and TX causes are raised; and where nothing races the frame is what `Mem` holds. -/

namespace Sys2Proof.Machine

/-- The end of `MAC.TX` once the frame `f` has been read: sent, written back, completed (R264). -/
def txConsumed (d : TxDesc) (f : List Byte) (s : State) : State := txComplete (txWriteBack d (sendFrame f s))

/-! ### The write-back -/

theorem txWriteBack_read_ne {d : TxDesc} {s : State} {a : Nat} (h : a ≠ (txHeadPa s.mac).toNat + 12) :
    (txWriteBack d s).mem.read a = s.mem.read a := by
  unfold txWriteBack
  split
  · exact macWriteByte_read_ne h
  · rfl

theorem txWriteBack_of_unasked {d : TxDesc} {s : State} (h : d.command &&& s.cfg.cmdRs = 0) : txWriteBack d s = s := by
  rw [txWriteBack, if_neg (not_not_intro h)]

theorem txWriteBack_of_asked {d : TxDesc} {s : State} (h : d.command &&& s.cfg.cmdRs ≠ 0)
    (hu : Unraced s (txHeadPa s.mac).toNat 16) :
    txWriteBack d s =
      { s with mem := s.mem.write ((txHeadPa s.mac).toNat + 12) (d.status ||| s.cfg.staDd) } := by
  have hstatus : racing s ((txHeadPa s.mac).toNat + 12) = false := hu 12 (by decide)
  rw [txWriteBack, if_pos h]
  exact macWriteByte_of_not_racing hstatus

theorem txWriteBack_raced {d : TxDesc} {s : State} (hu : Unraced s (txHeadPa s.mac).toNat 16) :
    (txWriteBack d s).raced = s.raced := by
  by_cases h : d.command &&& s.cfg.cmdRs = 0
  · rw [txWriteBack_of_unasked h]
  · rw [txWriteBack_of_asked h hu]

/-! ### What the consumption of a descriptor leaves -/

theorem txComplete_mac (s : State) : ∃ x y, (txComplete s).mac = { s.mac with
    tdh := wrapHead s.mac.tdh s.mac.tdlen x
    icause := s.mac.icause ||| (y &&& s.cfg.txCauses) } := ⟨_, _, rfl⟩

theorem txConsumed_mac (d : TxDesc) (f : List Byte) (s : State) :
    ∃ x y, (txConsumed d f s).mac = { s.mac with
      wireOut := s.mac.wireOut ++ [f]
      tdh := wrapHead s.mac.tdh s.mac.tdlen x
      icause := s.mac.icause ||| (y &&& s.cfg.txCauses) } := by
  simpa [txConsumed] using txComplete_mac (txWriteBack d (sendFrame f s))

theorem txConsumed_mem (d : TxDesc) (f : List Byte) (s : State) :
    (txConsumed d f s).mem = (txWriteBack d (sendFrame f s)).mem := rfl

theorem txConsumed_read_ne {d : TxDesc} {f : List Byte} {s : State} {a : Nat}
    (h : a ≠ (txHeadPa s.mac).toNat + 12) : (txConsumed d f s).mem.read a = s.mem.read a :=
  txWriteBack_read_ne (s := sendFrame f s) h

theorem txConsumed_mem_of_unasked {d : TxDesc} {f : List Byte} {s : State} (h : d.command &&& s.cfg.cmdRs = 0) :
    (txConsumed d f s).mem = s.mem := by
  rw [txConsumed_mem, txWriteBack_of_unasked (s := sendFrame f s) h, sendFrame_mem]

section
variable {d : TxDesc} {f : List Byte} {s : State} (hu : Unraced s (txHeadPa s.mac).toNat 16)
include hu

theorem txConsumed_read_status (h : d.command &&& s.cfg.cmdRs ≠ 0) (hm : Memory.wf s.mem = true) :
    (txConsumed d f s).mem.read ((txHeadPa s.mac).toNat + 12) = d.status ||| s.cfg.staDd := by
  rw [txConsumed_mem, txWriteBack_of_asked (s := sendFrame f s) h hu]
  exact Memory.read_write_same hm _ _

theorem txConsumed_raced : (txConsumed d f s).raced = s.raced :=
  txWriteBack_raced (s := sendFrame f s) hu

end

/-! ### When the step is made -/

theorem exec_txd_of_ready {s : State} {d : TxDesc} (he : macTxEnabled s = true)
    (hf : txFormOk s.cfg d.command = true) (hb : d.bufferAddress.toNat + d.length.toNat ≤ 2 ^ 64)
    (hbl : s.live d.bufferAddress.toNat d.length.toNat = true) (hd : (txHeadPa s.mac).toNat + 16 ≤ 2 ^ 64)
    (hdl : s.live (txHeadPa s.mac).toNat 16 = true) (hu : Unraced s d.bufferAddress.toNat d.length.toNat) :
    exec (.txd d) s =
      .next (txConsumed d ((List.range d.length.toNat).map fun j => s.mem.read (d.bufferAddress.toNat + j)) s) := by
  simp only [exec, execTxd, he, hf, if_true, macTouch_of_live hb hbl, macTouch_of_live hd hdl,
    macReadBytes_of_unraced hu, txConsumed]

/-- Settles O53: the step consumes the descriptor; what `Mem` and the registers then hold is `txConsumed`'s. -/
theorem txDescriptorIsConsumed : Obligations.TxDescriptorIsConsumed := by
  intro s d he hf hb hbl hd hdl hub hud hm
  obtain ⟨x, y, hmac⟩ :=
    txConsumed_mac d ((List.range d.length.toNat).map fun j => s.mem.read (d.bufferAddress.toNat + j)) s
  refine ⟨_, exec_txd_of_ready he hf hb hbl hd hdl hub, ?_, fun hrs => txConsumed_read_status hud hrs hm,
    fun hrs => txConsumed_mem_of_unasked hrs, fun a ha => txConsumed_read_ne ha, fun hl => ?_, fun b h => ?_,
    fun b h => ?_, txConsumed_raced hud⟩
  · rw [hmac]
  · rw [hmac]
    exact wrapHead_toNat hl
  · rw [hmac] at h
    simp only [BitVec.getLsbD_or, BitVec.getLsbD_and, Bool.or_eq_true, Bool.and_eq_true] at h
    tauto
  · rw [hmac]
    simp [h]

end Sys2Proof.Machine
end

section
/-! THE FRAME OF THE MAC'S STEPS (R265, R268, R269): what `MAC.TX` and `MAC.RX` leave unchanged, raced or not. -/

namespace Sys2Proof.Machine

/-! ### What is unchanged -/

/-- All that a step of the MAC can touch: its own variables, `Mem`, the counter of free values and the race mark. -/
def MacKeeps (s t : State) : Prop :=
  t = { s with mac := t.mac, mem := t.mem, draws := t.draws, raced := t.raced }

namespace MacKeeps

theorem refl (s : State) : MacKeeps s s := rfl

theorem trans {s t u : State} (h : MacKeeps s t) (h' : MacKeeps t u) : MacKeeps s u :=
  Eq.trans h' (congrArg
    (fun v : State => { v with mac := u.mac, mem := u.mem, draws := u.draws, raced := u.raced }) h)

theorem macReadByte (a : Nat) (s : State) : MacKeeps s (macReadByte a s).2 := by
  unfold Machine.macReadByte
  split <;> rfl

theorem macReadBytes (n a : Nat) (s : State) : MacKeeps s (macReadBytes n a s).2 := by
  induction n generalizing a s with
  | zero => exact .refl s
  | succ n ih => exact .trans (.macReadByte a s) (ih _ _)

theorem macWriteByte (a : Nat) (b : Byte) (s : State) : MacKeeps s (macWriteByte a b s) := by
  unfold Machine.macWriteByte
  split <;> rfl

theorem macWriteBytes (a : Nat) (bs : List Byte) (s : State) : MacKeeps s (macWriteBytes a bs s) := by
  induction bs generalizing a s with
  | nil => exact .refl s
  | cons b rest ih => exact .trans (.macWriteByte a b s) (ih _ _)

theorem macWriteFields (pa : Nat) (fs : List (Nat × List Byte)) (s : State) :
    MacKeeps s (macWriteFields pa fs s) := by
  induction fs generalizing s with
  | nil => exact .refl s
  | cons w rest ih => exact .trans (.macWriteBytes _ _ s) (ih _)

theorem txWriteBack (d : TxDesc) (s : State) : MacKeeps s (txWriteBack d s) := by
  unfold Machine.txWriteBack
  split
  · exact .macWriteByte _ _ s
  · exact .refl s

theorem txConsumed (d : TxDesc) (f : List Byte) (s : State) : MacKeeps s (txConsumed d f s) :=
  have hsent : MacKeeps s (sendFrame f s) := rfl
  have hcompleted : MacKeeps (Machine.txWriteBack d (sendFrame f s)) (Machine.txConsumed d f s) := rfl
  hsent.trans (.trans (.txWriteBack d _) hcompleted)

theorem rxComplete (s : State) : MacKeeps s (rxComplete s) := rfl

theorem rxFill (d : RxDesc) (f : List Byte) (rest : List (List Byte)) (s : State) :
    MacKeeps s (rxFill d f rest s) := by
  have htaken : MacKeeps s (rxTaken rest s) := rfl
  rw [rxFill_eq]
  exact htaken.trans (.trans (.macWriteBytes _ _ _) (.trans (.macWriteFields _ _ _)
    (.trans (.macWriteBytes _ _ _) (.rxComplete _))))

end MacKeeps

/-! ### The steps -/

/-- `MAC.TX` reads the frame, then consumes the descriptor (R264). -/
theorem exec_txd_next_consumed {d : TxDesc} {s t : State} (h : exec (.txd d) s = .next t) :
    t = s ∨ ∃ f u, (f, u) = macReadBytes d.length.toNat d.bufferAddress.toNat s ∧ t = txConsumed d f u :=
  (exec_txd_next h).imp_right fun ⟨r, hr, ht⟩ => ⟨r.1, r.2, hr, ht⟩

/-- The slot `MAC.RX` fills takes the waiting frame (R266). -/
theorem exec_rxd_next_waiting {d : RxDesc} {s t : State} (h : exec (.rxd d) s = .next t) :
    t = s ∨ ∃ f rest, waitingFrame s = some (f, rest) ∧ t = rxFill d f rest s := by
  simp only [exec, execRxd] at h
  split at h
  · split at h
    · exact .inl (Host.Outcome.next.inj h).symm
    · rename_i hw
      obtain ⟨_, _, h⟩ := macTouch_next h
      obtain ⟨_, _, h⟩ := macTouch_next h
      exact .inr ⟨_, _, hw, (Host.Outcome.next.inj h).symm⟩
  · exact .inl (Host.Outcome.next.inj h).symm

/-- Settles O56: a step not enabled changes nothing; `MAC.TX` reads the frame, which touches no byte, and consumes the
descriptor; `MAC.RX` fills the slot with the waiting frame. -/
theorem macStepsFrame : Obligations.MacStepsFrame := by
  refine fun s t d e => ⟨fun h => ?_, fun h => ?_⟩
  · obtain rfl | ⟨f, u, hread, rfl⟩ := exec_txd_next_consumed h
    · exact ⟨rfl, rfl, fun _ _ => rfl⟩
    · obtain ⟨-, rfl⟩ := Prod.mk.inj hread
      obtain ⟨x, y, hmac⟩ := txConsumed_mac d f (macReadBytes d.length.toNat d.bufferAddress.toNat s).2
      refine ⟨(MacKeeps.macReadBytes _ _ s).trans (.txConsumed d f _), ?_, fun a ha => ?_⟩
      · rw [hmac, macReadBytes_mac]
      · rw [txConsumed_read_ne (by rwa [macReadBytes_mac]), macReadBytes_mem]
  · obtain rfl | ⟨f, rest, hw, rfl⟩ := exec_rxd_next_waiting h
    · exact ⟨rfl, rfl, fun _ _ _ => rfl⟩
    · obtain ⟨x, y, hmac⟩ := rxFill_mac e f rest s
      refine ⟨MacKeeps.rxFill e f rest s, ?_, fun a hbuf hdesc => rxFill_read_outside ?_ (by omega)⟩
      · rw [hmac]
      · have := hbuf f rest hw
        omega

end Sys2Proof.Machine
end

section
/-! THE HOST, THE WIRE AND THE ALLOCATOR (R271, R275, R277, R280, R281, R283): what each does at RINGCTL's ports. -/

namespace Sys2Proof.Machine

theorem offerFrame_of_fits {f : List Byte} {s : State} (h : f.length ≤ s.cfg.bufSize) :
    offerFrame f s = .next { s with mac := { s.mac with wireIn := s.mac.wireIn ++ [f] } } := if_pos h

theorem offerFrame_of_oversize {f : List Byte} {s : State} (h : s.cfg.bufSize < f.length) :
    offerFrame f s = .refused .oversizeFrame := if_neg (Nat.not_le_of_lt h)

theorem issue_of_running {w a : Word} {p : List Byte} {s : State} (h : s.seq ≠ .idle) : issue w a p s = .next s :=
  if_neg h

/-- Settles O21: the schedule's move is performed on the state without it; a frame is tested for its length and the
command port for a command in progress. -/
theorem hostAndAllocatorMoves : Obligations.HostAndAllocatorMoves := by
  refine fun s rest => ⟨fun h => ?packet, fun h => ?log, fun f h => ⟨fun hfit => ?offer, fun hbig => ?oversize⟩,
    fun k h => ?drop, fun w a p h hs => ?issue, fun x h => ?answer⟩ <;> rw [step_of_sched h]
  case packet | log | drop | answer => rfl
  case offer => exact offerFrame_of_fits (s := { s with sched := rest }) hfit
  case oversize => exact offerFrame_of_oversize (s := { s with sched := rest }) hbig
  case issue => exact issue_of_running (s := { s with sched := rest }) hs

end Sys2Proof.Machine
end

section
/-! OUTCOMES (R300 to R310): when the decoder, the gate of a command and each check of a shared operation raise, and
what the state then is; that nothing but block reset leaves `Failed`. -/

namespace Sys2Proof.Machine

/-! ### An outcome of an idle machine, and an illegal word -/

/-- While idle an outcome changes the result registers alone. -/
theorem State.finish_of_idle {s : State} (hs : s.seq = .idle) (c : Code) (v : Word) :
    s.finish c v = { s with resCode := codeByte c, resVal := v } := by
  rw [State.finish, ← hs]

/-- An illegal word ends at once, the port written (R132). -/
theorem issue_of_illegal {w a : Word} {p : List Byte} {e : DecodeError} {s : State} (hs : s.seq = .idle)
    (hd : decode (.cmdw w) = .rejected e) :
    issue w a p s = .next ((s.writePort w a p).finish .illegalCommand w) := by
  simp only [issue, if_pos hs, hd]
  rfl

/-- Settles O19: the issue writes the port, and the outcome of an idle machine changes the result registers alone. -/
theorem illegalCommandRecordsTheWord : Obligations.IllegalCommandRecordsTheWord := by
  intro s rest w a p e h hs hd
  rw [step_of_sched h]
  refine (issue_of_illegal (s := { s with sched := rest }) hs hd).trans (congrArg _ ?_)
  exact State.finish_of_idle (s := State.writePort { s with sched := rest } w a p) hs .illegalCommand w

/-! ### The gate (R307) -/

/-- The lifecycle state a command runs in (R323). -/
def gateLife (i : Instr) : Life := if i = .construct then .uninitialized else .ready

theorem gate_of_other_life {l : Life} {k : State → Result} {s : State} (h : s.life ≠ l) :
    gate l k s = .next (s.finish .wrongState (lifeWord s.life)) := if_neg h

/-- Outside the lifecycle state it runs in, a command ends at its first micro-operation. -/
theorem exec_gate_of_other_life {i : Instr} {n : Nat} {s : State} (hi : (gateOf i n).instr = some i)
    (hs : s.seq = gateOf i n) (hl : s.life ≠ gateLife i) :
    exec i s = .next (s.finish .wrongState (lifeWord s.life)) := by
  cases i with
  | construct => exact (exec_construct_at hs).trans (gate_of_other_life hl)
  | transmit => exact (exec_transmit_at hs).trans (gate_of_other_life hl)
  | receive => exact (exec_receive_at hs).trans (gate_of_other_life hl)
  | serviceIrq => exact (exec_serviceIrq_at hs).trans (gate_of_other_life hl)
  | irqEnable => exact (maskCommand_irqEnable.exec_at hs).trans (gate_of_other_life hl)
  | irqDisable => exact (maskCommand_irqDisable.exec_at hs).trans (gate_of_other_life hl)
  | teardown => exact (exec_teardown_at hs).trans (gate_of_other_life hl)
  | txd d => cases hi
  | rxd d => cases hi

/-- Settles O22: each of the seven commands is at its gate, in a lifecycle state other than the gate's. -/
theorem wrongStateRecordsLife : Obligations.WrongStateRecordsLife :=
  ⟨⟨rfl, rfl, rfl, rfl, rfl, rfl⟩, fun _ _ =>
    ⟨fun hs hl => exec_gate_of_other_life rfl hs hl, fun hl =>
      ⟨fun hs => exec_gate_of_other_life rfl hs hl, fun hs => exec_gate_of_other_life rfl hs hl,
        fun hs => exec_gate_of_other_life rfl hs hl, fun hs => exec_gate_of_other_life rfl hs hl,
        fun hs => exec_gate_of_other_life rfl hs hl, fun hs => exec_gate_of_other_life rfl hs hl⟩⟩⟩

/-! ### The checks that raise a fatal fault (R302, R303, R305, R308) -/

/-- A ring size that breaks either of R206's two checks is refused. -/
theorem ringSizeOk_eq_false {c : Cfg} (h : c.cap * 16 % 128 ≠ 0 ∨ ∀ w, c.cap ≠ 2 ^ w) : ringSizeOk c = false := by
  rw [ringSizeOk, Bool.and_eq_false_iff, decide_eq_false_iff_not, decide_eq_false_iff_not]
  exact h.imp_right fun hpow => hpow _

theorem allocate_of_failed {n pages : Nat} {k : Handle → State → Result} {s : State} {rest : List AllocAnswer}
    (h : s.answers = .fail :: rest) : allocate n pages k s =
      .next (State.raise { s with answers := rest } .allocFailure (BitVec.ofNat 32 n)) := by
  simp only [allocate, h, raised]

theorem regInRange_eq_false {c : Cfg} {off : Word} (h : off.toNat % 4 ≠ 0 ∨ c.regCount ≤ off.toNat / 4) :
    regInRange c off = false :=
  decide_eq_false (by omega)

theorem regRead_of_outOfRange {off : Word} {k : Word → State → Result} {s : State}
    (h : regInRange s.cfg off = false) : regRead off k s = .next (s.raise .regIndexOutOfRange off) :=
  if_neg (Bool.eq_false_iff.1 h)

theorem regWrite_of_outOfRange {off v : Word} {k : State → Result} {s : State}
    (h : regInRange s.cfg off = false) : regWrite off v k s = .next (s.raise .regIndexOutOfRange off) :=
  if_neg (Bool.eq_false_iff.1 h)

theorem indexFrom_of_ge {x : Word} {k : Nat → State → Result} {s : State} (h : s.cfg.cap ≤ x.toNat) :
    indexFrom x k s = .next (s.raise .ringIndexOutOfRange x) :=
  if_neg (Nat.not_lt.2 h)

/-- Settles O24: the micro-operation is read off its position, and each check fails under its premise. -/
theorem fatalFaultsAreRaisedWhere : Obligations.FatalFaultsAreRaisedWhere := by
  refine ⟨⟨rfl, rfl, rfl, rfl, rfl, rfl, rfl, rfl, rfl, rfl⟩, fun s n hs hsize => ?config,
    fun s n k rest hs ha => ?alloc, fun s off v kr kw hoff => ?reg, fun s n x hx => ⟨fun hs => ?tx, fun hs => ?rx⟩⟩
  case config => exact (exec_construct_at hs).trans (if_neg (Bool.eq_false_iff.1 (ringSizeOk_eq_false hsize)))
  case alloc => rw [exec_construct_at hs, constructAt, allocate_of_failed ha]
  case reg =>
    have hout : regInRange s.cfg off = false := regInRange_eq_false hoff
    exact ⟨regRead_of_outOfRange hout, regWrite_of_outOfRange hout⟩
  case tx => rw [exec_transmit_at hs, transmitAt, indexFrom_of_ge hx]
  case rx => rw [exec_receive_at hs, receiveAt, indexFrom_of_ge hx]

/-! ### The fatal latch (R310) -/

theorem codeFatal_iff {c : Code} : codeFatal c = true ↔
    (c = .configError ∨ c = .allocFailure ∨ c = .regIndexOutOfRange ∨ c = .ringIndexOutOfRange ∨
      c = .ownershipViolation) := by
  cases c <;> decide

theorem State.raise_of_fatal {c : Code} (hc : codeFatal c = true) (s : State) (v : Word) :
    s.raise c v = (s.latch c v).finish c v := if_pos hc

/-- An instruction that is no descriptor is a command. -/
theorem gateOf_instr_of_not_descriptor {i : Instr} (htxd : ∀ d, i ≠ .txd d) (hrxd : ∀ d, i ≠ .rxd d) (n : Nat) :
    (gateOf i n).instr = some i := by
  cases i with
  | txd d => exact absurd rfl (htxd d)
  | rxd d => exact absurd rfl (hrxd d)
  | _ => rfl

/-- No command runs in `Failed`. -/
theorem gateLife_ne_failed (i : Instr) : Life.failed ≠ gateLife i := by
  unfold gateLife
  split <;> decide

/-- In `Failed` the command in progress, which stands at its gate, neither goes on nor returns: it ends there. -/
theorem MicroOp.stays_failed {s t : State} {q : Seq} (h : MicroOp s q t) (hl : lifeAt q s.life = true)
    (hs : s.life = .failed) : t.life = .failed := by
  cases h with
  | holds => exact hs
  | fatal hc => simp [hc]
  | wrongState | busy | rxInvalid => simpa [codeFatal] using hs
  | goes hg =>
    obtain ⟨_, hne, _⟩ := hg.life hl
    exact absurd hs hne
  | returns hr =>
    obtain ⟨_, hne, _⟩ := hr.life hl
    exact absurd hs hne

/-- Of all the moves only block reset leaves `Failed`. -/
theorem Performed.blockReset_of_leaves_failed {s t : State} {mv : Move} (h : Performed s mv t)
    (hl : lifeAt s.seq s.life = true) (hs : s.life = .failed) (ht : t.life ≠ .failed) : mv = .blockReset := by
  cases h with
  | microOp h => exact absurd (h.stays_failed hl hs) ht
  | issued | macReset => exact absurd hs ht
  | illegal => exact absurd (by simpa [codeFatal] using hs) ht
  | bystander h => exact absurd (h.life.trans hs) ht
  | arrived => exact absurd (by simpa using hs) ht
  | blockReset => rfl

/-- Settles O23: the latch and the result are the definition's own; a command issued in `Failed` ends at its gate; the
drains do not ask for the lifecycle state. -/
theorem fatalFaultLatches : Obligations.FatalFaultLatches := by
  refine ⟨fun s c info => ⟨codeFatal_iff, fun hc => State.raise_of_fatal hc s info⟩,
    fun s i htxd hrxd hs hl => ⟨_, exec_of_idle (gateOf_instr_of_not_descriptor htxd hrxd 0) hs, ?gate⟩,
    fun s t hi hs h ht => (step_performed h).blockReset_of_leaves_failed hi.1 hs ht,
    fun s rest _ => ⟨fun e es h hsb => ?store, fun p ps r h hp hr => ?posted⟩⟩
  case gate =>
    have hne : s.life ≠ gateLife i := hl ▸ gateLife_ne_failed i
    have hcode : lifeWord s.life = 5 := congrArg lifeWord hl
    refine (exec_gate_of_other_life (s := { s with seq := gateOf i 0 })
      (gateOf_instr_of_not_descriptor htxd hrxd 0) rfl hne).trans (congrArg _ ?_)
    rw [← hcode]
    exact State.finish_of_idle hs .wrongState (lifeWord s.life)
  case store =>
    rw [step_of_sched h]
    obtain ⟨_, hdrain⟩ := (storeFenceHoldsUntilDrained { s with sched := rest } .next).2 e es hsb
    exact congrArg _ hdrain
  case posted =>
    rw [step_of_sched h]
    exact drainPosted_of_regAt (s := { s with sched := rest }) hp hr

/-! ### Block reset (R340, R342) -/

/-- Settles O7: the move is block reset, which writes the stated values and does not touch the rest. -/
theorem blockResetLeaves : Obligations.BlockResetLeaves := fun _ _ h =>
  ⟨_, step_of_sched h, rfl, rfl, rfl, rfl, rfl, rfl, rfl, rfl, rfl, rfl, rfl, rfl, rfl⟩

end Sys2Proof.Machine
end
